-- ==== Sys2Proof/Word.lean ====
section
/-! DEFINITION. The words of the VK-480: bytes of the line, values of the millisecond timebase, the two ports, the six raw input levels,
the strap levels and the events at a port. -/

namespace Sys2Proof

/-- One byte as it travels on a line (R160) or stands in the Table Store (R179). -/
abbrev Byte := BitVec 8

/-- A value of the millisecond timebase: 32 bits, wrapping (R112). -/
abbrev Time := BitVec 32

/-- The two line ports: A faces the console, B faces the drive and the field units (chapter 8). -/
inductive PortId where
  | a
  | b
  deriving DecidableEq, Repr

/-- The levels of the six discrete safety inputs at one sample (R131, R132). For ESTOP_N, OT_TOP, OT_BOTTOM and
SLIP `true` is active; for BRK_S_OPEN and BRK_E_OPEN `true` is open. -/
structure RawInputs where
  estop : Bool
  otTop : Bool
  otBottom : Bool
  slip : Bool
  brkS : Bool
  brkE : Bool
  deriving DecidableEq, Repr

/-- The levels at the six address and the two rate strap pins (R148, R149). -/
structure StrapLevels where
  addr : BitVec 6
  rate : BitVec 2
  deriving DecidableEq, Repr

/-- An event at a port that can bring the end of the RESTART reply, or its drop (R177). `straps` is what the strap pins then read: new
levels, or `none` where they stand as at the last reset (log 25). -/
structure PortEvent where
  port : PortId
  straps : Option StrapLevels
  deriving DecidableEq, Repr

end Sys2Proof
end

