-- ==== Sys2Proof/Config.lean ====
section
/-! DEFINITION. What the implementation fixes: the depths of queues and logs and the nominal times of the store. No value of this part
is left free by the manual, so no constant here is opaque. -/

namespace Sys2Proof.Config

/-- Frames a transmit queue holds (R155, R156). -/
def queueDepth : Nat := 8

/-- Stop Records the Stop Log holds (R110). -/
def stopLogDepth : Nat := 16

/-- Raw samples an input's history keeps (R132). -/
def historyDepth : Nat := 6

/-- Fault records a short FAULTS READ returns at most (R171). -/
def shortFaults : Nat := 8

/-- Ceiling of a speed or a setpoint, mm/s (R50, R136). -/
def speedCeiling : Nat := 20000

/-- The largest payload of a frame, bytes (R160). -/
def maxPayload : Nat := 32

/-- The broadcast address (R149). -/
def broadcast : Byte := 63

/-- The byte an erased store block reads as. PRESUMED (log 7): the manual says that a store never written reads as erased and
that its header fails its own check, not what the bytes are. -/
def erasedByte : Byte := 255

/-- Nominal time of the start-up load, ms (R180). The end of the load is a command; the time is not counted (log 23). -/
def nominalLoad : Nat := 10

/-- Nominal time of one block's erase-and-write, ms (R182). Not counted (log 23). -/
def nominalWrite : Nat := 6

/-- Nominal time of one block read, ms (R185). Not counted (log 23). -/
def nominalRead : Nat := 1

end Sys2Proof.Config
end

