-- ==== Sys2Proof/Machine/Types.lean ====
section
/-! DEFINITION. The named sets and records the manual gives: states, roles, fault kinds, table entries, frames and notices, and the
numbers under which members of lists travel (R160). -/

namespace Sys2Proof.Machine

/-! ## Named sets -/

/-- Run states of the Leg Controller (R83). -/
inductive RunState where
  | safe | ready | armed | depart | run | approach | creep | halted | serviceStop | emergencyStop | maintenance
  deriving DecidableEq, Repr

/-- Sync states of a Source Record (R25). -/
inductive SyncState where
  | hunt | sync | coast | lost
  deriving DecidableEq, Repr

/-- Direction of a leg or of travel (00_scope, Cars and direction). -/
inductive Dir where
  | down | up
  deriving DecidableEq, Repr

/-- The three stop places (R14). -/
inductive Place where
  | bottom | loop | top
  deriving DecidableEq, Repr

/-- The two cars; each names its own loop track (R22). -/
inductive Car where
  | a | b
  deriving DecidableEq, Repr

/-- Roles of sources (R21). -/
inductive Role where
  | encoder | carAPosition | carBPosition | carADoors | carBDoors | tension | loopDetector | drive | console
  deriving DecidableEq, Repr

/-- Segment kinds (R11). -/
inductive SegKind where
  | plain | platform | terminal
  deriving DecidableEq, Repr

/-- Actions of the Response Table, in order of severity (R114, R116). -/
inductive Action where
  | notice | service | emergency
  deriving DecidableEq, Repr

/-- The maintenance sequence state (R164). -/
inductive MaintSeq where
  | idle | pending | frozen
  deriving DecidableEq, Repr

/-- Outcomes of a Stop Record (R109). -/
inductive StopOutcome where
  | completed | trippedService | trippedEmergency
  deriving DecidableEq, Repr

/-- Causes of a STATE_CHANGED notice (R84). -/
inductive StateCause where
  | makeReady | armLeg | disarm | enableDemand | brakesOpen | approachDistance | creepDistance | stationary | fault
  | maintenanceEntry | leaveMaintenance
  deriving DecidableEq, Repr

/-- Causes of a SOURCE_STATE notice (R43). -/
inductive SourceCause where
  | inOrder | jump | expiry | arrival | activation
  deriving DecidableEq, Repr

/-- The 31 fault kinds (R114). -/
inductive FaultKind where
  | overspeedWarning | overspeedService | overspeedEmergency | absoluteOverspeed | wrongWay | uncommandedMotion | overrun
  | encoderLost | carAPositionLost | carBPositionLost | positionDisagree | stretchLimit | consoleLost | driveLost | driveNotReady
  | doorOpenInMotion | doorSourceLost | tensionLost | slackRope | ropeOverload | estop | overtravel | ropeSlip
  | brakeReleaseTimeout | brakeFeedbackLost | directionConflict | loopDetectorMismatch | loopDetectorLost | splitStop
  | stopOutsideWindow | storeMismatch
  deriving DecidableEq, Repr

/-- Reply codes (R162). -/
inductive ReplyCode where
  | done | doneClamped | refusedState | busy | refusedSource | badIndex | badLeg | doorsOpen | notReady | frozen | checkFailed
  | storeWorn | storeFault | unknownCommand
  deriving DecidableEq, Repr

/-- The six discrete safety inputs (R131). -/
inductive InputId where
  | estop | otTop | otBottom | slip | brkS | brkE
  deriving DecidableEq, Repr

/-- The nine port counters (R152). -/
inductive PortCounter where
  | good | transmitted | framing | aborted | length | check | misaddressed | foreignDemand | queueDrop
  deriving DecidableEq, Repr

/-- The four line rates (R148). -/
inductive LineRate where
  | r115200 | r230400 | r460800 | r921600
  deriving DecidableEq, Repr

/-- The part as a whole: running, running with the start-up load in progress (R180), or held in a reset until the block under way is
finished (R178). -/
inductive Phase where
  | running | loading | finishing
  deriving DecidableEq, Repr

/-- The three kinds of reset (00_scope, Resets). -/
inductive ResetKind where
  | por | rst | restart
  deriving DecidableEq, Repr

/-- Updates the Position Estimator hands on (R61), by what the blocks that take them distinguish. `carReport` is a report that corrects an
offset (R56, R58), which re-latches in APPROACH (R97); `carSet` is one that establishes the rope or sets Off_B (R55, R57). -/
inductive Update where
  | speed | carReport | carSet | degradedChange | activation
  deriving DecidableEq, Repr

/-- The outcome of the loop condition for one track (R103). -/
inductive LoopVerdict where
  /-- satisfied with no test -/
  | free
  /-- the detector is in SYNC and reports presence -/
  | present
  /-- the detector is in SYNC and reports absence, the car inside its window -/
  | absentInside
  /-- not satisfied, and the mismatch flag is left as it is -/
  | unmet
  deriving DecidableEq, Repr

/-! ## Table entries (chapters 1, 2 and 6) -/

/-- The Line Constants record, its 28 fields in the order of R8. -/
structure LineConstants where
  lineLength : Nat
  ropeSum : Nat
  encoderScale : Nat
  vMax : Nat
  vTrip : Nat
  vDegraded : Nat
  brakingMargin : Nat
  aStop : Nat
  serviceDecel : Nat
  warnMargin : Nat
  serviceMargin : Nat
  emergencyMargin : Nat
  approachDistance : Nat
  creepDistance : Nat
  creepSpeed : Nat
  overrunTolerance : Nat
  stationaryThreshold : Nat
  stationaryTime : Nat
  brakeReleaseTimeout : Nat
  offsetSlew : Nat
  disagreementLimit : Nat
  stretchLimit : Nat
  tensionMin : Nat
  tensionMax : Nat
  qualWindow : Nat
  qualPeriod : Nat
  slipStep : Nat
  slipTime : Nat
  deriving DecidableEq, Repr

/-- One entry of the Source Table (R21). -/
structure SourceEntry where
  address : Nat
  role : Role
  lateTimeout : Nat
  maxSubs : Nat
  deriving DecidableEq, Repr

/-- The Source Table: 16 entries and the entry count (R21). -/
structure SourceTable where
  entries : Vector SourceEntry 16
  count : Nat
  deriving DecidableEq, Repr

/-- One segment of the Profile Table (R11). -/
structure Segment where
  start : Nat
  limit : Nat
  decel : Nat
  kind : SegKind
  deriving DecidableEq, Repr

/-- The Profile Table: 64 segments and the segment count (R11). -/
structure Profile where
  segs : Vector Segment 64
  count : Nat
  deriving DecidableEq, Repr

/-- A car's window at a place: low, nominal, high (R14). -/
structure Window where
  lo : Nat
  nom : Nat
  hi : Nat
  deriving DecidableEq, Repr

/-- One entry of the Stop Place Table (R14). -/
structure PlaceEntry where
  a : Window
  b : Window
  priority : Car
  deriving DecidableEq, Repr

/-- The Stop Place Table (R14). -/
structure StopPlaces where
  bottom : PlaceEntry
  loop : PlaceEntry
  top : PlaceEntry
  deriving DecidableEq, Repr

/-- One entry of the Response Table (R116). -/
structure ResponseEntry where
  action : Action
  notice : Bool
  deriving DecidableEq, Repr

/-- A table set: the five tables (R5). Entry `k - 1` of `response` is that of fault kind `k`. -/
structure TableSet where
  line : LineConstants
  sources : SourceTable
  profile : Profile
  places : StopPlaces
  response : Vector ResponseEntry 31
  deriving DecidableEq, Repr

/-! ## Records the blocks keep -/

/-- A timer: stopped, or running with its expiry time. -/
abbrev Timer := Option Time

/-- The five counters of a Source Record and their rollover flag (R41). -/
structure SourceCounters where
  accepted : BitVec 16
  lost : BitVec 16
  late : BitVec 16
  jumps : BitVec 16
  substitutes : BitVec 16
  rollover : Bool
  deriving DecidableEq, Repr

/-- A Source Record (R25). -/
structure SourceRecord where
  sync : SyncState
  baselineHeld : Bool
  expected : BitVec 8
  subs : Nat
  timer : Timer
  counters : SourceCounters
  lastPayload : Option (List Byte)
  deriving DecidableEq, Repr

/-- The encoder sample against which the next delta is taken (R46). -/
structure EncoderBaseline where
  count : BitVec 24
  stamp : BitVec 16
  deriving DecidableEq, Repr

/-- The Position Estimator's state (R46). R_µm is the real part plus coast travel, clamped, and is computed (R53). `statTime` is the
stationary time in force at the last speed update, by which an expiry re-arms the stationary timer (R62, R63, log 37). -/
structure Estimator where
  real : Nat
  coast : Int
  baseline : Option EncoderBaseline
  v : Nat
  dir : Dir
  offA : Int
  offB : Int
  ropeEst : Bool
  offBSet : Bool
  agedA : Bool
  agedB : Bool
  degraded : Bool
  statTimer : Timer
  statTime : Nat
  deriving DecidableEq, Repr

/-- A point of a Restriction List (R18, R19). -/
structure Point where
  chainage : Nat
  speed : Nat
  decel : Nat
  deriving DecidableEq, Repr

/-- The Envelope Unit's state (R65). -/
structure Envelope where
  uphill : List Point
  downhill : List Point
  eA : Nat
  eB : Nat
  eT : Option Nat
  e : Nat
  deriving DecidableEq, Repr

/-- A Stop Record (R109). -/
structure StopRecord where
  number : BitVec 16
  leg : BitVec 16
  dir : Dir
  place : Place
  rStar : Nat
  finalR : Nat
  error : Int
  aPos : Nat
  bPos : Nat
  aInside : Bool
  bInside : Bool
  split : Bool
  degraded : Bool
  outcome : StopOutcome
  deriving DecidableEq, Repr

/-- The Leg Controller's state and its two outputs DRA and DRB (R83, R102). -/
structure Leg where
  run : RunState
  active : Bool
  number : BitVec 16
  dir : Dir
  endPlace : Place
  rStar : Nat
  frozen : Bool
  split : Bool
  haltPlace : Option Place
  brakeTimer : Timer
  mismatchA : Bool
  mismatchB : Bool
  log : List StopRecord
  lastRecord : BitVec 16
  dra : Bool
  drb : Bool
  deriving DecidableEq, Repr

/-- A fault record (R122). -/
structure FaultRecord where
  kind : FaultKind
  firstTime : Time
  stateAtRaise : RunState
  rMm : Nat
  aPos : Nat
  bPos : Nat
  count : Nat
  deriving DecidableEq, Repr

/-- One discrete input: its raw history, newest first, and its qualified value (R112). -/
structure Input where
  history : List Bool
  qualified : Bool
  deriving DecidableEq, Repr

/-- The six discrete inputs (R131). -/
structure Inputs where
  estop : Input
  otTop : Input
  otBottom : Input
  slip : Input
  brkS : Input
  brkE : Input
  deriving DecidableEq, Repr

/-- The origin of the service-stop ramp (R112, R127). -/
structure RampOrigin where
  speed : Nat
  time : Time
  deriving DecidableEq, Repr

/-- The Trip Unit's state and its three outputs DEN, SBR and EBR (R112, R134). -/
structure Trip where
  faults : List FaultRecord
  inputs : Inputs
  slipUnderlying : Bool
  slipTimer : Timer
  lastSetpoint : Nat
  ramp : Option RampOrigin
  sampleTimer : Timer
  den : Bool
  sbr : Bool
  ebr : Bool
  deriving DecidableEq, Repr

/-- The last console demand (R135). -/
structure LastDemand where
  setpoint : Nat
  enable : Bool
  dir : Dir
  deriving DecidableEq, Repr

/-- The Demand Limiter's state (R135). -/
structure Limiter where
  last : Option LastDemand
  genTimer : Timer
  deriving DecidableEq, Repr

/-- The nine counters of a port and its rollover flag (R152). -/
structure PortCounters where
  good : BitVec 16
  transmitted : BitVec 16
  framing : BitVec 16
  aborted : BitVec 16
  length : BitVec 16
  check : BitVec 16
  misaddressed : BitVec 16
  foreignDemand : BitVec 16
  queueDrop : BitVec 16
  rollover : Bool
  deriving DecidableEq, Repr

/-- A notice with its fields (R163). -/
inductive Notice where
  | stateChanged (prev new : RunState) (cause : StateCause) (kind : Nat) (leg : BitVec 16)
  | faultRaised (kind : FaultKind) (action : Action) (state : RunState) (count rMm aPos bPos : Nat)
  | stopResult (record : StopRecord)
  | sourceState (index : Fin 16) (entry : SourceEntry) (prev new : SyncState) (cause : SourceCause) (subs : Nat)
  deriving DecidableEq, Repr

/-- A demand waiting in the Port B queue (R139, R144). `offered` is the setpoint it waits with, `received` the setpoint as received
or as generated, which LIMITED is judged against (R141). `seq` is not read for a generated demand. -/
structure Demand where
  dst : Byte
  src : Byte
  seq : Byte
  offered : Nat
  received : Nat
  enable : Bool
  dir : Dir
  generated : Bool
  deriving DecidableEq, Repr

/-- A frame in a transmit queue: forwarded byte for byte, or originated by the part (R154). `restart` marks the reply at whose end the
RESTART reset is taken (R177). -/
inductive OutFrame where
  | forwarded (bytes : List Byte)
  | reply (dst : Byte) (payload : List Byte) (restart : Bool)
  | notice (dst : Byte) (n : Notice)
  | demand (d : Demand)
  deriving DecidableEq, Repr

/-- The frame a transmit line is sending (R157). -/
structure OnLine where
  bytes : List Byte
  restart : Bool
  deriving DecidableEq, Repr

/-- A line port: receiver (`none` is IDLE), counters, transmit queue oldest first, transmit line (`none` is free) and
originated-frame sequence counter (R150, R152, R155..R159). -/
structure Port where
  rx : Option (List Byte)
  counters : PortCounters
  queue : List OutFrame
  line : Option OnLine
  seqNo : BitVec 8
  deriving DecidableEq, Repr

/-- A good frame as the Frame Sorter takes it: its fields and its bytes as they arrived (R153, R160). -/
structure RxFrame where
  dst : Byte
  src : Byte
  kind : Byte
  seq : Byte
  payload : List Byte
  bytes : List Byte
  deriving DecidableEq, Repr

/-- A request that has passed the form step (R162). -/
inductive Request where
  | statusRead
  | faultsRead (firstKind form : Byte)
  | resetTrip
  | makeReady
  | armLeg (direction place : Byte)
  | disarm
  | stopLogRead (index : Byte)
  | countersRead (selector clear : Byte)
  | tableRead (table index copy : Byte)
  | tableWrite (table index : Byte) (entry : List Byte)
  | commit
  | verify (first count : Byte)
  | maintenanceRequest
  | maintenanceConfirm (echo : BitVec 16)
  | leaveMaintenance
  | restart
  deriving DecidableEq, Repr

/-- The store operation in flight (R164). A COMMIT holds the set it commits (R6, R181); a VERIFY holds the next and the last block of
its range and the mismatching blocks found (R185). -/
inductive StoreOp where
  | none
  | commit (dst : Byte) (port : PortId) (set : TableSet)
  | verify (dst : Byte) (port : PortId) (next last : Nat) (bad : List Nat)
  deriving DecidableEq, Repr

/-- The Management Responder's state (R164). -/
structure Responder where
  seq : MaintSeq
  requester : Option Byte
  echo : Option (BitVec 16)
  staged : Option TableSet
  op : StoreOp
  restartPending : Bool
  deriving DecidableEq, Repr

/-- A block under erase-and-write and the bytes it is given (R178, R182). -/
structure Programming where
  block : Fin 6
  bytes : List Byte
  deriving DecidableEq, Repr

/-- The Table Store (R178): non-volatile header and blocks 1..5 (block `k` at index `k - 1`), commit count, working copy, validity
and programming in progress. -/
structure Tables where
  header : List Byte
  blocks : Vector (List Byte) 5
  commitCount : BitVec 16
  working : TableSet
  valid : Bool
  programming : Option Programming
  deriving DecidableEq, Repr

/-- The strap pins and what the last reset read from them (R148, R149). -/
structure Straps where
  addrPins : BitVec 6
  ratePins : BitVec 2
  own : Byte
  rate : LineRate
  deriving DecidableEq, Repr

/-! ## Numbers of members (R160, R114) -/

/-- Number of a run state on the line. -/
def RunState.num : RunState → Nat
  | .safe => 0 | .ready => 1 | .armed => 2 | .depart => 3 | .run => 4 | .approach => 5 | .creep => 6 | .halted => 7
  | .serviceStop => 8 | .emergencyStop => 9 | .maintenance => 10

/-- Number of a sync state on the line. -/
def SyncState.num : SyncState → Nat
  | .hunt => 0 | .sync => 1 | .coast => 2 | .lost => 3

/-- Number of a direction on the line: UP is 1. -/
def Dir.num : Dir → Nat
  | .down => 0 | .up => 1

/-- Number of a place on the line and in table 4. -/
def Place.num : Place → Nat
  | .bottom => 0 | .loop => 1 | .top => 2

/-- Number of a car (R14). -/
def Car.num : Car → Nat
  | .a => 0 | .b => 1

/-- Number of a role (R21). -/
def Role.num : Role → Nat
  | .encoder => 0 | .carAPosition => 1 | .carBPosition => 2 | .carADoors => 3 | .carBDoors => 4 | .tension => 5
  | .loopDetector => 6 | .drive => 7 | .console => 8

/-- Number of a segment kind (R11). -/
def SegKind.num : SegKind → Nat
  | .plain => 0 | .platform => 1 | .terminal => 2

/-- Number of an action (R116); a greater number is more severe (R114). -/
def Action.num : Action → Nat
  | .notice => 0 | .service => 1 | .emergency => 2

/-- Number of a maintenance sequence state. -/
def MaintSeq.num : MaintSeq → Nat
  | .idle => 0 | .pending => 1 | .frozen => 2

/-- Number of a Stop Record outcome. -/
def StopOutcome.num : StopOutcome → Nat
  | .completed => 0 | .trippedService => 1 | .trippedEmergency => 2

/-- Number of a STATE_CHANGED cause. -/
def StateCause.num : StateCause → Nat
  | .makeReady => 0 | .armLeg => 1 | .disarm => 2 | .enableDemand => 3 | .brakesOpen => 4 | .approachDistance => 5
  | .creepDistance => 6 | .stationary => 7 | .fault => 8 | .maintenanceEntry => 9 | .leaveMaintenance => 10

/-- Number of a SOURCE_STATE cause. -/
def SourceCause.num : SourceCause → Nat
  | .inOrder => 0 | .jump => 1 | .expiry => 2 | .arrival => 3 | .activation => 4

/-- Number of a reply code (R162). -/
def ReplyCode.num : ReplyCode → Nat
  | .done => 0 | .doneClamped => 1 | .refusedState => 2 | .busy => 3 | .refusedSource => 4 | .badIndex => 5 | .badLeg => 6
  | .doorsOpen => 7 | .notReady => 8 | .frozen => 9 | .checkFailed => 10 | .storeWorn => 11 | .storeFault => 12
  | .unknownCommand => 13

/-- Number of a fault kind (R114). -/
def FaultKind.num : FaultKind → Nat
  | .overspeedWarning => 1 | .overspeedService => 2 | .overspeedEmergency => 3 | .absoluteOverspeed => 4 | .wrongWay => 5
  | .uncommandedMotion => 6 | .overrun => 7 | .encoderLost => 8 | .carAPositionLost => 9 | .carBPositionLost => 10
  | .positionDisagree => 11 | .stretchLimit => 12 | .consoleLost => 13 | .driveLost => 14 | .driveNotReady => 15
  | .doorOpenInMotion => 16 | .doorSourceLost => 17 | .tensionLost => 18 | .slackRope => 19 | .ropeOverload => 20 | .estop => 21
  | .overtravel => 22 | .ropeSlip => 23 | .brakeReleaseTimeout => 24 | .brakeFeedbackLost => 25 | .directionConflict => 26
  | .loopDetectorMismatch => 27 | .loopDetectorLost => 28 | .splitStop => 29 | .stopOutsideWindow => 30 | .storeMismatch => 31

/-- Index of a fault kind's entry in the Response Table. -/
def FaultKind.idx (k : FaultKind) : Fin 31 := ⟨k.num - 1, by cases k <;> decide⟩

/-- The role a number names; a number above the highest is the highest member, CONSOLE (R7, R21). -/
def Role.ofNum : Nat → Role
  | 0 => .encoder | 1 => .carAPosition | 2 => .carBPosition | 3 => .carADoors | 4 => .carBDoors | 5 => .tension
  | 6 => .loopDetector | 7 => .drive | _ => .console

/-- The segment kind a number names, clamped to TERMINAL (R12). -/
def SegKind.ofNum : Nat → SegKind
  | 0 => .plain | 1 => .platform | _ => .terminal

/-- The action a number names, clamped to EMERGENCY (R116). -/
def Action.ofNum : Nat → Action
  | 0 => .notice | 1 => .service | _ => .emergency

/-- The car a number names, clamped to B (R15). -/
def Car.ofNum : Nat → Car
  | 0 => .a | _ => .b

/-- The direction a byte of ARM LEG names, if it is a member (R87, R160). -/
def Dir.ofByte? (b : Byte) : Option Dir :=
  if b = 0 then some .down else if b = 1 then some .up else none

/-- The place a byte of ARM LEG names, if it is a member (R87, R160). -/
def Place.ofByte? (b : Byte) : Option Place :=
  if b = 0 then some .bottom else if b = 1 then some .loop else if b = 2 then some .top else none

/-- The stop place entry of a place. -/
def StopPlaces.get (t : StopPlaces) : Place → PlaceEntry
  | .bottom => t.bottom | .loop => t.loop | .top => t.top

/-- A car's window at a place. -/
def PlaceEntry.window (p : PlaceEntry) : Car → Window
  | .a => p.a | .b => p.b

/-- A chainage lies inside a window, both ends included (R14). -/
def Window.holds (w : Window) (x : Nat) : Bool := decide (w.lo ≤ x ∧ x ≤ w.hi)

/-- One of the six inputs. -/
def Inputs.get (t : Inputs) : InputId → Input
  | .estop => t.estop | .otTop => t.otTop | .otBottom => t.otBottom | .slip => t.slip | .brkS => t.brkS | .brkE => t.brkE

/-- Replaces one of the six inputs. -/
def Inputs.set (t : Inputs) (i : InputId) (x : Input) : Inputs :=
  match i with
  | .estop => { t with estop := x }
  | .otTop => { t with otTop := x }
  | .otBottom => { t with otBottom := x }
  | .slip => { t with slip := x }
  | .brkS => { t with brkS := x }
  | .brkE => { t with brkE := x }

/-- One of the six raw levels of a sample. -/
def rawLevel (r : RawInputs) : InputId → Bool
  | .estop => r.estop | .otTop => r.otTop | .otBottom => r.otBottom | .slip => r.slip | .brkS => r.brkS | .brkE => r.brkE

end Sys2Proof.Machine
end

