-- ==== Sys2Proof/Machine/Operands.lean ====
section
/-! DEFINITION. Every byte layout the line and the store carry: multi-byte fields, the 16-bit check, frames, requests, samples, demands,
table entries, notices and Stop Records (R151, R160 to R163, R179). -/

namespace Sys2Proof.Machine

/-! ## Numbers and bytes -/

/-- `x` held within `lo .. hi`: a value outside is replaced by the nearer bound (R7). -/
def clampNat (lo hi x : Nat) : Nat := if x < lo then lo else if hi < x then hi else x

/-- `x` held within `-m .. m` (R56). -/
def clampMag (m : Nat) (x : Int) : Int := if x < -(m : Int) then -(m : Int) else if (m : Int) < x then (m : Int) else x

/-- `x` held within `0 .. hi` (R2, R53). -/
def clampTo (hi : Nat) (x : Int) : Nat := min x.toNat hi

/-- The number that bytes carry, most significant byte first (R160). -/
def beNat (bs : List Byte) : Nat := bs.foldl (fun acc b => acc * 256 + b.toNat) 0

/-- `x` in `k` bytes, most significant byte first (R160). -/
def toBytes : Nat → Nat → List Byte
  | 0, _ => []
  | k + 1, x => BitVec.ofNat 8 (x / 256 ^ k) :: toBytes k x

/-- The field of `len` bytes at offset `off`. -/
def field (bs : List Byte) (off len : Nat) : Nat := beNat ((bs.drop off).take len)

/-- A signed number in three bytes, two's complement (R160). -/
def signedBytes (x : Int) : List Byte := toBytes 3 (x % 16777216).toNat

/-- A number in one byte. -/
def byteOf (n : Nat) : Byte := BitVec.ofNat 8 n

/-- A flag as the number 0 or 1. -/
def flagNum (b : Bool) : Nat := if b then 1 else 0

/-! ## The check (R151) -/

/-- One bit of the cyclic check, generator 1021h. -/
def crcBit (c : BitVec 16) : BitVec 16 := if c.msb then (c <<< 1) ^^^ 0x1021#16 else c <<< 1

/-- One byte enters the check, most significant bit first. -/
def crcByte (c : BitVec 16) (b : Byte) : BitVec 16 :=
  crcBit (crcBit (crcBit (crcBit (crcBit (crcBit (crcBit (crcBit (c ^^^ (b.setWidth 16 <<< 8)))))))))

/-- The 16-bit check over bytes in order, initial value FFFFh. -/
def crc16 (bs : List Byte) : BitVec 16 := bs.foldl crcByte 0xFFFF#16

/-- Bytes followed by their check, most significant byte first. -/
def withCheck (bs : List Byte) : List Byte := bs ++ toBytes 2 (crc16 bs).toNat

/-! ## Frames (R160) -/

/-- The kinds of frame that mean something to the part. -/
def kindSample : Byte := 1
def kindDemand : Byte := 2
def kindRequest : Byte := 3
def kindReply : Byte := 4
def kindNotice : Byte := 5

/-- A whole frame: header, payload and check. -/
def frameBytes (dst src kind seq : Byte) (payload : List Byte) : List Byte :=
  withCheck ([dst, src, kind, seq, byteOf payload.length] ++ payload)

/-- A completed frame's check field agrees with the check formed over every byte before it (R151). -/
def frameGood (bs : List Byte) : Bool :=
  decide ((crc16 (bs.take (bs.length - 2))).toNat = beNat (bs.drop (bs.length - 2)))

/-- The fields of a completed frame. -/
def parseFrame (bs : List Byte) : RxFrame :=
  { dst := byteOf (field bs 0 1), src := byteOf (field bs 1 1), kind := byteOf (field bs 2 1), seq := byteOf (field bs 3 1)
    payload := (bs.drop 5).take (field bs 4 1), bytes := bs }

/-! ## Samples and demands (R161) -/

/-- Payload bytes a role's frames must carry (R22). -/
def Role.payloadLength : Role → Nat
  | .encoder => 6 | .carAPosition => 4 | .carBPosition => 4 | .carADoors => 1 | .carBDoors => 1 | .tension => 2
  | .loopDetector => 1 | .drive => 1 | .console => 3

/-- Kind of frame a role is tracked on (R22). -/
def Role.trackedKind : Role → Byte
  | .console => kindDemand
  | _ => kindSample

/-- The length of a payload and its members of lists are those of the role (R27, the first two tests). -/
def wellFormedPayload (r : Role) (p : List Byte) : Bool :=
  decide (p.length = r.payloadLength) &&
  match r with
  | .encoder => decide (field p 5 1 ≤ 1)
  | .carAPosition | .carBPosition => decide (field p 3 1 ≤ 2)
  | .carADoors | .carBDoors | .drive => decide (field p 0 1 ≤ 1)
  | .loopDetector => decide (field p 0 1 ≤ 3)
  | .tension | .console => true

/-- Count, timestamp and healthy flag of an encoder sample. -/
def encoderCount (p : List Byte) : BitVec 24 := BitVec.ofNat 24 (field p 0 3)
def encoderStamp (p : List Byte) : BitVec 16 := BitVec.ofNat 16 (field p 3 2)
def encoderHealthy (p : List Byte) : Bool := decide (field p 5 1 = 1)

/-- Chainage and quality of a car position sample. -/
def carChainage (p : List Byte) : Nat := field p 0 3
def carQuality (p : List Byte) : Nat := field p 3 1

/-- A door sample reports CLOSED_LOCKED, or OPEN. -/
def doorClosed (p : List Byte) : Bool := decide (field p 0 1 = 0)
def doorOpen (p : List Byte) : Bool := decide (field p 0 1 = 1)

/-- Tension of a tension sample, in units of 10 N. -/
def tensionOf (p : List Byte) : Nat := field p 0 2

/-- A drive status sample reports the drive ready. -/
def driveReady (p : List Byte) : Bool := decide (field p 0 1 = 1)

/-- Presence on a track in a loop detector sample: bit 0 track A, bit 1 track B. -/
def loopPresence (p : List Byte) : Car → Bool
  | .a => (byteOf (field p 0 1)).getLsbD 0
  | .b => (byteOf (field p 0 1)).getLsbD 1

/-- Setpoint, ENABLE_REQUEST and direction of a demand payload. -/
def demandSetpoint (p : List Byte) : Nat := field p 0 2
def demandEnable (p : List Byte) : Bool := (byteOf (field p 2 1)).getLsbD 0
def demandDir (p : List Byte) : Dir := if (byteOf (field p 2 1)).getLsbD 1 then .up else .down

/-! ## Table entries (R162) -/

/-- The length of the entry that a table and an index name, `none` where they name no entry. -/
def entryLength (table index : Nat) : Option Nat :=
  match table with
  | 1 => if 1 ≤ index ∧ index ≤ 28 then some 3 else none
  | 2 => if index ≤ 15 then some 5 else if index = 16 then some 1 else none
  | 3 => if index ≤ 63 then some 8 else if index = 64 then some 1 else none
  | 4 => if index ≤ 2 then some 19 else none
  | 5 => if 1 ≤ index ∧ index ≤ 31 then some 2 else none
  | _ => none

/-- Field `n` of the Line Constants record, numbered as R8 numbers them. -/
def LineConstants.get (c : LineConstants) : Nat → Nat
  | 1 => c.lineLength | 2 => c.ropeSum | 3 => c.encoderScale | 4 => c.vMax | 5 => c.vTrip | 6 => c.vDegraded
  | 7 => c.brakingMargin | 8 => c.aStop | 9 => c.serviceDecel | 10 => c.warnMargin | 11 => c.serviceMargin
  | 12 => c.emergencyMargin | 13 => c.approachDistance | 14 => c.creepDistance | 15 => c.creepSpeed
  | 16 => c.overrunTolerance | 17 => c.stationaryThreshold | 18 => c.stationaryTime | 19 => c.brakeReleaseTimeout
  | 20 => c.offsetSlew | 21 => c.disagreementLimit | 22 => c.stretchLimit | 23 => c.tensionMin | 24 => c.tensionMax
  | 25 => c.qualWindow | 26 => c.qualPeriod | 27 => c.slipStep | 28 => c.slipTime
  | _ => 0

/-- Replaces field `n` of the Line Constants record. -/
def LineConstants.put (c : LineConstants) (n x : Nat) : LineConstants :=
  match n with
  | 1 => { c with lineLength := x } | 2 => { c with ropeSum := x } | 3 => { c with encoderScale := x }
  | 4 => { c with vMax := x } | 5 => { c with vTrip := x } | 6 => { c with vDegraded := x }
  | 7 => { c with brakingMargin := x } | 8 => { c with aStop := x } | 9 => { c with serviceDecel := x }
  | 10 => { c with warnMargin := x } | 11 => { c with serviceMargin := x } | 12 => { c with emergencyMargin := x }
  | 13 => { c with approachDistance := x } | 14 => { c with creepDistance := x } | 15 => { c with creepSpeed := x }
  | 16 => { c with overrunTolerance := x } | 17 => { c with stationaryThreshold := x } | 18 => { c with stationaryTime := x }
  | 19 => { c with brakeReleaseTimeout := x } | 20 => { c with offsetSlew := x } | 21 => { c with disagreementLimit := x }
  | 22 => { c with stretchLimit := x } | 23 => { c with tensionMin := x } | 24 => { c with tensionMax := x }
  | 25 => { c with qualWindow := x } | 26 => { c with qualPeriod := x } | 27 => { c with slipStep := x }
  | 28 => { c with slipTime := x }
  | _ => c

/-- The record whose field `n` is `f n`. -/
def LineConstants.build (f : Nat → Nat) : LineConstants :=
  { lineLength := f 1, ropeSum := f 2, encoderScale := f 3, vMax := f 4, vTrip := f 5, vDegraded := f 6, brakingMargin := f 7
    aStop := f 8, serviceDecel := f 9, warnMargin := f 10, serviceMargin := f 11, emergencyMargin := f 12
    approachDistance := f 13, creepDistance := f 14, creepSpeed := f 15, overrunTolerance := f 16
    stationaryThreshold := f 17, stationaryTime := f 18, brakeReleaseTimeout := f 19, offsetSlew := f 20
    disagreementLimit := f 21, stretchLimit := f 22, tensionMin := f 23, tensionMax := f 24, qualWindow := f 25
    qualPeriod := f 26, slipStep := f 27, slipTime := f 28 }

/-- Layout of a source entry: address 1, role 1, late timeout 2, maximum substitutes 1. -/
def sourceBytes (e : SourceEntry) : List Byte :=
  toBytes 1 e.address ++ toBytes 1 e.role.num ++ toBytes 2 e.lateTimeout ++ toBytes 1 e.maxSubs

/-- Layout of a segment: start 3, speed limit 2, braking deceleration 2, kind 1. -/
def segmentBytes (g : Segment) : List Byte :=
  toBytes 3 g.start ++ toBytes 2 g.limit ++ toBytes 2 g.decel ++ toBytes 1 g.kind.num

/-- Layout of a window: low 3, nominal 3, high 3. -/
def windowBytes (w : Window) : List Byte := toBytes 3 w.lo ++ toBytes 3 w.nom ++ toBytes 3 w.hi

/-- Layout of a place: car A's window, car B's window, priority car 1. -/
def placeBytes (p : PlaceEntry) : List Byte := windowBytes p.a ++ windowBytes p.b ++ toBytes 1 p.priority.num

/-- Layout of a response entry: action 1, notice enable 1. -/
def responseBytes (e : ResponseEntry) : List Byte := toBytes 1 e.action.num ++ toBytes 1 (flagNum e.notice)

/-- The source entry that five bytes carry. -/
def sourceOf (bs : List Byte) : SourceEntry :=
  { address := field bs 0 1, role := Role.ofNum (field bs 1 1), lateTimeout := field bs 2 2, maxSubs := field bs 4 1 }

/-- The segment that eight bytes carry. -/
def segmentOf (bs : List Byte) : Segment :=
  { start := field bs 0 3, limit := field bs 3 2, decel := field bs 5 2, kind := SegKind.ofNum (field bs 7 1) }

/-- The window that nine bytes carry. -/
def windowOf (bs : List Byte) : Window := { lo := field bs 0 3, nom := field bs 3 3, hi := field bs 6 3 }

/-- The place entry that nineteen bytes carry. -/
def placeOf (bs : List Byte) : PlaceEntry :=
  { a := windowOf bs, b := windowOf (bs.drop 9), priority := Car.ofNum (field bs 18 1) }

/-- The response entry that two bytes carry. -/
def responseOf (bs : List Byte) : ResponseEntry :=
  { action := Action.ofNum (field bs 0 1), notice := decide (field bs 1 1 ≠ 0) }

/-- The bytes of the entry that a table and an index name (TABLE READ, R173). -/
def entryBytes (t : TableSet) (table index : Nat) : List Byte :=
  match table with
  | 1 => toBytes 3 (t.line.get index)
  | 2 => if h : index < 16 then sourceBytes t.sources.entries[index] else toBytes 1 t.sources.count
  | 3 => if h : index < 64 then segmentBytes t.profile.segs[index] else toBytes 1 t.profile.count
  | 4 => placeBytes (if index = 0 then t.places.bottom else if index = 1 then t.places.loop else t.places.top)
  | 5 => if h : index - 1 < 31 then responseBytes t.response[index - 1] else []
  | _ => []

/-! ## The store's blocks (R179; byte layout log 8) -/

/-- Every entry of a table in index order, as block `k` holds it after its generation. -/
def tableBytes (t : TableSet) (k : Nat) : List Byte :=
  match k with
  | 1 => (List.range 28).flatMap fun i => toBytes 3 (t.line.get (i + 1))
  | 2 => t.sources.entries.toList.flatMap sourceBytes ++ toBytes 1 t.sources.count
  | 3 => t.profile.segs.toList.flatMap segmentBytes ++ toBytes 1 t.profile.count
  | 4 => placeBytes t.places.bottom ++ placeBytes t.places.loop ++ placeBytes t.places.top
  | 5 => t.response.toList.flatMap responseBytes
  | _ => []

/-- Block `k` of a set written for a generation. -/
def blockBytes (gen : BitVec 16) (t : TableSet) (k : Nat) : List Byte := toBytes 2 gen.toNat ++ tableBytes t k

/-- The table set that the contents of blocks 1 to 5 carry, each after its two generation bytes. -/
def tableSetOf (blocks : Vector (List Byte) 5) : TableSet :=
  let b (k : Fin 5) : List Byte := (blocks[k]).drop 2
  { line := LineConstants.build fun n => field (b 0) (3 * (n - 1)) 3
    sources := { entries := Vector.ofFn fun i : Fin 16 => sourceOf ((b 1).drop (5 * i.val)), count := field (b 1) 80 1 }
    profile := { segs := Vector.ofFn fun i : Fin 64 => segmentOf ((b 2).drop (8 * i.val)), count := field (b 2) 512 1 }
    places := { bottom := placeOf (b 3), loop := placeOf ((b 3).drop 19), top := placeOf ((b 3).drop 38) }
    response := Vector.ofFn fun i : Fin 31 => responseOf ((b 4).drop (2 * i.val)) }

/-- The header for a commit count and the checks of blocks 1 to 5: with its own check, 14 bytes. -/
def headerBytes (count : BitVec 16) (blocks : Vector (List Byte) 5) : List Byte :=
  withCheck (toBytes 2 count.toNat ++ blocks.toList.flatMap fun b => toBytes 2 (crc16 b).toNat)

/-- The header passes its own check. -/
def headerGood (h : List Byte) : Bool := decide (h.length = 14) && frameGood h

/-- The header's commit count. -/
def headerCount (h : List Byte) : BitVec 16 := BitVec.ofNat 16 (field h 0 2)

/-- A block matches: the check over its content equals the header's stored check for it and its generation equals the header's
commit count (R179). `k` is 1..5. -/
def blockMatches (h : List Byte) (k : Nat) (block : List Byte) : Bool :=
  decide ((crc16 block).toNat = field h (2 * k) 2) && decide (field block 0 2 = field h 0 2)

/-! ## Requests (R162) -/

/-- The command code of a request. -/
def Request.code : Request → Byte
  | .statusRead => 0x01 | .faultsRead _ _ => 0x02 | .resetTrip => 0x03 | .makeReady => 0x04 | .armLeg _ _ => 0x05
  | .disarm => 0x06 | .stopLogRead _ => 0x07 | .countersRead _ _ => 0x08 | .tableRead _ _ _ => 0x09
  | .tableWrite _ _ _ => 0x0A | .commit => 0x0B | .verify _ _ => 0x0C | .maintenanceRequest => 0x0D
  | .maintenanceConfirm _ => 0x0E | .leaveMaintenance => 0x0F | .restart => 0x10

/-- The length of a TABLE WRITE's entry is that of the entry named; where none is named it is not judged. -/
def entryFits (table index : Byte) (entry : List Byte) : Bool :=
  match entryLength table.toNat index.toNat with
  | some n => decide (entry.length = n)
  | none => true

/-- The form step (R162, R165 step 1): the request a payload spells, `none` for an unknown code or a wrong parameter length. -/
def parseRequest (payload : List Byte) : Option Request :=
  match payload with
  | [] => none
  | c :: ps =>
    match c.toNat, ps with
    | 0x01, [] => some .statusRead
    | 0x02, [k, f] => some (.faultsRead k f)
    | 0x03, [] => some .resetTrip
    | 0x04, [] => some .makeReady
    | 0x05, [d, p] => some (.armLeg d p)
    | 0x06, [] => some .disarm
    | 0x07, [i] => some (.stopLogRead i)
    | 0x08, [x, f] => some (.countersRead x f)
    | 0x09, [t, i, x] => some (.tableRead t i x)
    | 0x0A, t :: i :: e => if entryFits t i e then some (.tableWrite t i e) else none
    | 0x0B, [] => some .commit
    | 0x0C, [f, n] => some (.verify f n)
    | 0x0D, [] => some .maintenanceRequest
    | 0x0E, [h, l] => some (.maintenanceConfirm (BitVec.ofNat 16 (beNat [h, l])))
    | 0x0F, [] => some .leaveMaintenance
    | 0x10, [] => some .restart
    | _, _ => none

/-- The payload that spells a request, in the layouts of R162. -/
def requestPayload : Request → List Byte
  | .statusRead => [0x01] | .faultsRead k f => [0x02, k, f] | .resetTrip => [0x03] | .makeReady => [0x04]
  | .armLeg d p => [0x05, d, p] | .disarm => [0x06] | .stopLogRead i => [0x07, i] | .countersRead x f => [0x08, x, f]
  | .tableRead t i x => [0x09, t, i, x] | .tableWrite t i e => 0x0A :: t :: i :: e | .commit => [0x0B]
  | .verify f n => [0x0C, f, n] | .maintenanceRequest => [0x0D]
  | .maintenanceConfirm h => 0x0E :: toBytes 2 h.toNat | .leaveMaintenance => [0x0F] | .restart => [0x10]

/-! ## Stop Records and notices (R163) -/

/-- The flags byte of a Stop Record: bit 0 A_inside, bit 1 B_inside, bit 2 split, bit 3 degraded. -/
def stopFlags (r : StopRecord) : Nat :=
  flagNum r.aInside + 2 * flagNum r.bInside + 4 * flagNum r.split + 8 * flagNum r.degraded

/-- The 23 bytes of a Stop Record. -/
def stopRecordBytes (r : StopRecord) : List Byte :=
  toBytes 2 r.number.toNat ++ toBytes 2 r.leg.toNat ++ toBytes 1 r.dir.num ++ toBytes 1 r.place.num ++ toBytes 3 r.rStar ++
  toBytes 3 r.finalR ++ signedBytes r.error ++ toBytes 3 r.aPos ++ toBytes 3 r.bPos ++ toBytes 1 (stopFlags r) ++
  toBytes 1 r.outcome.num

/-- The payload of a notice: its notice kind, then the fields of that kind. -/
def noticePayload : Notice → List Byte
  | .stateChanged p n c k l =>
    [0x01] ++ toBytes 1 p.num ++ toBytes 1 n.num ++ toBytes 1 c.num ++ toBytes 1 k ++ toBytes 2 l.toNat
  | .faultRaised k a r c x y z =>
    [0x02] ++ toBytes 1 k.num ++ toBytes 1 a.num ++ toBytes 1 r.num ++ toBytes 1 c ++ toBytes 3 x ++ toBytes 3 y ++ toBytes 3 z
  | .stopResult r => 0x03 :: stopRecordBytes r
  | .sourceState i e p n c s =>
    [0x04] ++ toBytes 1 i.val ++ toBytes 1 e.address ++ toBytes 1 e.role.num ++ toBytes 1 p.num ++ toBytes 1 n.num ++
    toBytes 1 c.num ++ toBytes 1 s

end Sys2Proof.Machine
end

