-- ==== Sys2Proof/Machine/Flags.lean ====
section
/-! DEFINITION. Counters with their rollover flags (R41, R152), the flags byte of a demand (R141, R161) and the qualification of an input by
agreement of samples (R132). -/

namespace Sys2Proof.Machine

/-- A 16-bit counter raised by `n`: past 65,535 it continues from 0, and the second part says that it wrapped. -/
def bumpBy (c : BitVec 16) (n : Nat) : BitVec 16 × Bool := (c + BitVec.ofNat 16 n, decide (65536 ≤ c.toNat + n))

/-! ## Source counters (R41) -/

/-- All five counters 0 and the rollover flag clear. -/
def SourceCounters.zero : SourceCounters :=
  { accepted := 0, lost := 0, late := 0, jumps := 0, substitutes := 0, rollover := false }

/-- A frame accepted after `d` lost ones: accepted rises by 1, lost by `d` (R30). -/
def SourceCounters.accept (c : SourceCounters) (d : Nat) : SourceCounters :=
  { c with accepted := (bumpBy c.accepted 1).1, lost := (bumpBy c.lost d).1
           rollover := c.rollover || (bumpBy c.accepted 1).2 || (bumpBy c.lost d).2 }

/-- A LATE frame (R32). -/
def SourceCounters.bumpLate (c : SourceCounters) : SourceCounters :=
  { c with late := (bumpBy c.late 1).1, rollover := c.rollover || (bumpBy c.late 1).2 }

/-- A JUMP, a hunt restart or a malformed frame (R27, R29, R31). -/
def SourceCounters.bumpJumps (c : SourceCounters) : SourceCounters :=
  { c with jumps := (bumpBy c.jumps 1).1, rollover := c.rollover || (bumpBy c.jumps 1).2 }

/-- A substitute issued (R35). -/
def SourceCounters.bumpSubstitutes (c : SourceCounters) : SourceCounters :=
  { c with substitutes := (bumpBy c.substitutes 1).1, rollover := c.rollover || (bumpBy c.substitutes 1).2 }

/-- The results of a COUNTERS READ of a source (R162). -/
def SourceCounters.bytes (c : SourceCounters) : List Byte :=
  toBytes 2 c.accepted.toNat ++ toBytes 2 c.lost.toNat ++ toBytes 2 c.late.toNat ++ toBytes 2 c.jumps.toNat ++
  toBytes 2 c.substitutes.toNat ++ toBytes 1 (flagNum c.rollover)

/-! ## Port counters (R152) -/

/-- All nine counters 0 and the rollover flag clear. -/
def PortCounters.zero : PortCounters :=
  { good := 0, transmitted := 0, framing := 0, aborted := 0, length := 0, check := 0, misaddressed := 0, foreignDemand := 0
    queueDrop := 0, rollover := false }

/-- One of the nine counters. -/
def PortCounters.get (c : PortCounters) : PortCounter → BitVec 16
  | .good => c.good | .transmitted => c.transmitted | .framing => c.framing | .aborted => c.aborted | .length => c.length
  | .check => c.check | .misaddressed => c.misaddressed | .foreignDemand => c.foreignDemand | .queueDrop => c.queueDrop

/-- One counter rises by 1; a wrap sets the rollover flag. -/
def PortCounters.bump (c : PortCounters) (k : PortCounter) : PortCounters :=
  let n := (bumpBy (c.get k) 1).1
  let r := c.rollover || (bumpBy (c.get k) 1).2
  match k with
  | .good => { c with good := n, rollover := r }
  | .transmitted => { c with transmitted := n, rollover := r }
  | .framing => { c with framing := n, rollover := r }
  | .aborted => { c with aborted := n, rollover := r }
  | .length => { c with length := n, rollover := r }
  | .check => { c with check := n, rollover := r }
  | .misaddressed => { c with misaddressed := n, rollover := r }
  | .foreignDemand => { c with foreignDemand := n, rollover := r }
  | .queueDrop => { c with queueDrop := n, rollover := r }

/-- The results of a COUNTERS READ of a port: the nine counters in table order, then the rollover flag (R162). -/
def PortCounters.bytes (c : PortCounters) : List Byte :=
  toBytes 2 c.good.toNat ++ toBytes 2 c.transmitted.toNat ++ toBytes 2 c.framing.toNat ++ toBytes 2 c.aborted.toNat ++
  toBytes 2 c.length.toNat ++ toBytes 2 c.check.toNat ++ toBytes 2 c.misaddressed.toNat ++ toBytes 2 c.foreignDemand.toNat ++
  toBytes 2 c.queueDrop.toNat ++ toBytes 1 (flagNum c.rollover)

/-! ## The flags byte of a demand (R161) -/

/-- Bit 0 ENABLE_REQUEST, bit 1 DIRECTION, bit 2 LIMITED, bit 3 GENERATED; the other positions are sent clear (R141). -/
def demandFlags (enable : Bool) (dir : Dir) (limited generated : Bool) : Nat :=
  flagNum enable + 2 * dir.num + 4 * flagNum limited + 8 * flagNum generated

/-! ## Qualification (R132) -/

/-- The raw history with one more sample, newest first, the six most recent kept. -/
def pushSample (h : List Bool) (x : Bool) : List Bool := (x :: h).take Config.historyDepth

/-- The value on which the last `w` samples agree, if there are `w` of them and they do. -/
def agreed (w : Nat) (h : List Bool) : Option Bool :=
  if h.length < w then none
  else if (h.take w).all (· == true) then some true
  else if (h.take w).all (· == false) then some false
  else none

end Sys2Proof.Machine
end

