-- ==== Sys2Proof/Machine/Blank.lean ====
section
/-! DEFINITION. The blank set (R5, R21, R116), the fault kinds' default actions, floors and sorts (R114), and the value each block's state has
after a reset (R45, R47, R66, R83, R113, R135, R164). -/

namespace Sys2Proof.Machine

/-! ## Fault kinds (R114) -/

/-- The 31 fault kinds in kind order. -/
def FaultKind.all : List FaultKind :=
  [.overspeedWarning, .overspeedService, .overspeedEmergency, .absoluteOverspeed, .wrongWay, .uncommandedMotion, .overrun,
   .encoderLost, .carAPositionLost, .carBPositionLost, .positionDisagree, .stretchLimit, .consoleLost, .driveLost] ++
  [.driveNotReady, .doorOpenInMotion, .doorSourceLost, .tensionLost, .slackRope, .ropeOverload, .estop, .overtravel, .ropeSlip,
   .brakeReleaseTimeout, .brakeFeedbackLost, .directionConflict, .loopDetectorMismatch, .loopDetectorLost, .splitStop,
   .stopOutsideWindow, .storeMismatch]

/-- Default action of a kind. -/
def FaultKind.default : FaultKind → Action
  | .overspeedWarning | .stretchLimit | .tensionLost | .loopDetectorMismatch | .loopDetectorLost | .splitStop
  | .stopOutsideWindow | .storeMismatch => .notice
  | .overspeedService | .carAPositionLost | .carBPositionLost | .positionDisagree | .consoleLost | .doorOpenInMotion
  | .doorSourceLost | .ropeOverload | .brakeReleaseTimeout | .directionConflict => .service
  | .overspeedEmergency | .absoluteOverspeed | .wrongWay | .uncommandedMotion | .overrun | .encoderLost | .driveLost
  | .driveNotReady | .slackRope | .estop | .overtravel | .ropeSlip | .brakeFeedbackLost => .emergency

/-- Floor of a kind: the least severe action its Response Table entry may hold. -/
def FaultKind.floor : FaultKind → Action
  | .overspeedWarning | .carAPositionLost | .carBPositionLost | .stretchLimit | .doorSourceLost | .tensionLost | .ropeOverload
  | .loopDetectorMismatch | .loopDetectorLost | .splitStop | .stopOutsideWindow | .storeMismatch => .notice
  | .overspeedService | .wrongWay | .overrun | .positionDisagree | .consoleLost | .driveLost | .driveNotReady
  | .doorOpenInMotion | .ropeSlip | .brakeReleaseTimeout | .directionConflict => .service
  | .overspeedEmergency | .absoluteOverspeed | .uncommandedMotion | .encoderLost | .slackRope | .estop | .overtravel
  | .brakeFeedbackLost => .emergency

/-- A condition kind records a state of the world that may still hold; the others are event kinds. -/
def FaultKind.isCondition : FaultKind → Bool
  | .encoderLost | .carAPositionLost | .carBPositionLost | .consoleLost | .driveLost | .driveNotReady | .doorSourceLost
  | .tensionLost | .slackRope | .ropeOverload | .estop | .overtravel | .loopDetectorLost => true
  | _ => false

/-! ## Write bounds of the Line Constants (R8) -/

/-- Lower write bound of field `n`. -/
def lineLo : Nat → Nat
  | 1 => 10000 | 2 => 10000 | 3 => 1 | 4 => 500 | 5 => 600 | 6 => 200 | 7 => 0 | 8 => 100 | 9 => 100 | 10 => 0 | 11 => 0
  | 12 => 0 | 13 => 1000 | 14 => 100 | 15 => 50 | 16 => 10 | 17 => 5 | 18 => 100 | 19 => 500 | 20 => 1 | 21 => 50
  | 22 => 100 | 23 => 0 | 24 => 0 | 25 => 3 | 26 => 1 | 27 => 0 | 28 => 0
  | _ => 0

/-- Upper write bound of field `n`; that of field 6 is the staged V_max (R9) and is given apart. -/
def lineHi (vMax : Nat) : Nat → Nat
  | 1 => 4000000 | 2 => 8000000 | 3 => 1000 | 4 => 15000 | 5 => 18000 | 6 => vMax | 7 => 20000 | 8 => 1500 | 9 => 2000
  | 10 => 3000 | 11 => 3000 | 12 => 3000 | 13 => 500000 | 14 => 50000 | 15 => 2000 | 16 => 2000 | 17 => 200 | 18 => 5000
  | 19 => 10000 | 20 => 500 | 21 => 5000 | 22 => 10000 | 23 => 65535 | 24 => 65535 | 25 => 6 | 26 => 50 | 27 => 5000
  | 28 => 2000
  | _ => 0

/-! ## The blank set (R5) -/

/-- Every field at its lower bound, except tension maximum 65,535 and qualification window 3. -/
def blankLine : LineConstants :=
  LineConstants.build fun n => if n = 24 then 65535 else if n = 25 then 3 else lineLo n

/-- A blank source entry (R21). -/
def blankSource : SourceEntry := { address := 0, role := .encoder, lateTimeout := 5, maxSubs := 0 }

/-- A blank segment (R5). -/
def blankSegment : Segment := { start := 0, limit := 100, decel := 200, kind := .plain }

/-- A blank place (R5). -/
def blankPlace : PlaceEntry := { a := ⟨0, 0, 0⟩, b := ⟨0, 0, 0⟩, priority := .a }

/-- Each kind's default action, with its notice enabled (R116). -/
def blankResponse : Vector ResponseEntry 31 :=
  Vector.ofFn fun i : Fin 31 => { action := (FaultKind.all.getD i.val .storeMismatch).default, notice := true }

/-- The table set the working copy holds after POR. -/
def blankSet : TableSet :=
  { line := blankLine
    sources := { entries := Vector.replicate 16 blankSource, count := 0 }
    profile := { segs := Vector.replicate 64 blankSegment, count := 1 }
    places := { bottom := blankPlace, loop := blankPlace, top := blankPlace }
    response := blankResponse }

/-! ## An erased store (R179, log 7) -/

/-- Bytes of the content of blocks 1 to 5: generation and entries. -/
def blockLength : Nat → Nat
  | 1 => 86 | 2 => 83 | 3 => 515 | 4 => 59 | 5 => 64 | _ => 14

/-- A header never written. -/
def erasedHeader : List Byte := List.replicate 14 Config.erasedByte

/-- Blocks never written. -/
def erasedBlocks : Vector (List Byte) 5 :=
  Vector.ofFn fun i : Fin 5 => List.replicate (blockLength (i.val + 1)) Config.erasedByte

/-! ## The blocks after a reset -/

/-- A Source Record after a reset, with the counters it then has (R45). -/
def SourceRecord.fresh (c : SourceCounters) : SourceRecord :=
  { sync := .hunt, baselineHeld := false, expected := 0, subs := 0, timer := none, counters := c, lastPayload := none }

/-- The Position Estimator after any reset (R47). The stationary time 0 is not read before a speed update has set it (log 37). -/
def Estimator.fresh : Estimator :=
  { real := 0, coast := 0, baseline := none, v := 0, dir := .up, offA := 0, offB := 0, ropeEst := false, offBSet := false
    agedA := false, agedB := false, degraded := false, statTimer := none, statTime := 0 }

/-- The Envelope Unit after a reset, with the Restriction Lists it then has (R66). -/
def Envelope.fresh (up down : List Point) : Envelope := { uphill := up, downhill := down, eA := 0, eB := 0, eT := none, e := 0 }

/-- The Leg Controller after a reset, with what a RESTART keeps (R83). -/
def Leg.fresh (number : BitVec 16) (log : List StopRecord) (last : BitVec 16) : Leg :=
  { run := .safe, active := false, number := number, dir := .up, endPlace := .bottom, rStar := 0, frozen := false, split := false
    haltPlace := none, brakeTimer := none, mismatchA := false, mismatchB := false, log := log, lastRecord := last, dra := false
    drb := false }

/-- The six inputs after any reset (R113, R131). -/
def Inputs.fresh : Inputs :=
  { estop := ⟨[], true⟩, otTop := ⟨[], true⟩, otBottom := ⟨[], true⟩, slip := ⟨[], false⟩, brkS := ⟨[], false⟩, brkE := ⟨[], false⟩ }

/-- The Trip Unit after a reset, with the Fault Set it then has (R113). -/
def Trip.fresh (faults : List FaultRecord) : Trip :=
  { faults := faults, inputs := Inputs.fresh, slipUnderlying := false, slipTimer := none, lastSetpoint := 0, ramp := none
    sampleTimer := none, den := false, sbr := false, ebr := false }

/-- The Demand Limiter after any reset (R135). -/
def Limiter.fresh : Limiter := { last := none, genTimer := none }

/-- The Management Responder after any reset (R164). -/
def Responder.fresh : Responder :=
  { seq := .idle, requester := none, echo := none, staged := none, op := .none, restartPending := false }

/-- A line port after a reset, with the counters it then has (R150, R152, R155..R159). -/
def Port.fresh (c : PortCounters) : Port := { rx := none, counters := c, queue := [], line := none, seqNo := 0 }

/-- The own line address read from the straps: 63 is taken as 62 (R149). -/
def ownAddress (pins : BitVec 6) : Byte := if pins = 63 then 62 else pins.setWidth 8

/-- The line rate read from RATE1 and RATE0 (R148). -/
def lineRate (pins : BitVec 2) : LineRate :=
  if pins = 0 then .r115200 else if pins = 1 then .r230400 else if pins = 2 then .r460800 else .r921600

/-- The straps as a reset reads them. -/
def Straps.read (addr : BitVec 6) (rate : BitVec 2) : Straps :=
  { addrPins := addr, ratePins := rate, own := ownAddress addr, rate := lineRate rate }

/-- The straps as a RESTART reads them: the levels they were changed to since the last reset, or those of that reset (R148, R149, log 25). -/
def Straps.reread (x : Straps) (levels : Option StrapLevels) : Straps :=
  match levels with
  | some l => Straps.read l.addr l.rate
  | none => Straps.read x.addrPins x.ratePins

end Sys2Proof.Machine
end

