-- ==== Sys2Proof/Syntax.lean ====
section
/-! DEFINITION. The commands of the VK-480: one constructor per row of spec/opcode_table.json, in the table's order. -/

namespace Sys2Proof

/-- A command from outside the blocks. A management request carries the port it arrived on, its source address and its
parameters as received bytes (R162). -/
inductive Instr where
  /-- POR with the levels at the six address and two rate straps (R148, R149, R178). -/
  | powerOnReset (addrStraps : BitVec 6) (rateStraps : BitVec 2)
  /-- Assertion of the RST pin, with the strap levels read at it (R178). -/
  | rst (addrStraps : BitVec 6) (rateStraps : BitVec 2)
  /-- The start-up load decides (R180). -/
  | startUpLoadComplete
  /-- A character arrives: eight data bits, the mark bit, and whether the stop bit is at the mark level (R148, R150). Where the
  step takes the RESTART reset, the straps are read as the event gives them (R148, R149, R177). -/
  | receiveCharacter (event : PortEvent) (byte : Byte) (mark stopGood : Bool)
  /-- The receive line has been at the space level for two character times (R150). -/
  | lineBreak (port : PortId)
  /-- STATUS READ (R170). -/
  | statusRead (port : PortId) (src : Byte)
  /-- FAULTS READ (R171). -/
  | faultsRead (port : PortId) (src firstKind form : Byte)
  /-- RESET TRIP (R130). -/
  | resetTrip (port : PortId) (src : Byte)
  /-- MAKE READY (R85). -/
  | makeReady (port : PortId) (src : Byte)
  /-- ARM LEG (R87, R88). -/
  | armLeg (port : PortId) (src direction place : Byte)
  /-- DISARM (R89). -/
  | disarm (port : PortId) (src : Byte)
  /-- STOP LOG READ (R171). -/
  | stopLogRead (port : PortId) (src index : Byte)
  /-- COUNTERS READ (R42, R152, R171). -/
  | countersRead (port : PortId) (src selector clear : Byte)
  /-- TABLE READ (R173). -/
  | tableRead (port : PortId) (src table index copy : Byte)
  /-- TABLE WRITE, with the bytes of the entry (R174). -/
  | tableWrite (port : PortId) (src table index : Byte) (entry : List Byte)
  /-- COMMIT (R175, R181). -/
  | commit (port : PortId) (src : Byte)
  /-- VERIFY (R175, R185). -/
  | verify (port : PortId) (src first count : Byte)
  /-- MAINTENANCE REQUEST (R168). -/
  | maintenanceRequest (port : PortId) (src : Byte)
  /-- MAINTENANCE CONFIRM (R169). -/
  | maintenanceConfirm (port : PortId) (src : Byte) (echo : BitVec 16)
  /-- LEAVE MAINTENANCE (R176). -/
  | leaveMaintenance (port : PortId) (src : Byte)
  /-- RESTART (R177); the straps as in `receiveCharacter`. -/
  | restart (event : PortEvent) (src : Byte)
  /-- A request whose payload fails the form step (R162, R165 step 1). -/
  | unknownCommand (port : PortId) (src : Byte) (payload : List Byte)
  /-- The late timer of the Source Record at an index expires (R35, R36). -/
  | lateTimerExpiry (index : Fin 16)
  /-- The generation timer expires (R146). -/
  | generationTimerExpiry
  /-- The stationary timer expires (R63). -/
  | stationaryTimerExpiry
  /-- The brake-release timer expires (R94). -/
  | brakeReleaseTimerExpiry
  /-- The six inputs are sampled and judged (R132). -/
  | qualificationSample (raw : RawInputs)
  /-- The slip blanking timer expires (R133). -/
  | slipBlankingTimerExpiry
  /-- The stop bit of the last character of the frame on a port's transmit line has been sent (R157, R177); the straps as in
  `receiveCharacter`. -/
  | transmitEnd (event : PortEvent)
  /-- The erase-and-write and the read-back of the block under way end (R182). `fault` is what the block then holds where the
  write did not go through; `none` where it holds what was written. The bytes are such
  that the next load fails (R182, log 9). -/
  | blockProgrammed (fault : Option (List Byte))
  /-- A block read of a VERIFY completes (R185). -/
  | verifyBlockRead
  /-- The block that was being programmed when a reset was taken reaches its end (R178); `fault` as above, and a
  block of 1 to 5 carries the new generation (R184). -/
  | resetBlockFinished (fault : Option (List Byte))
  deriving DecidableEq, Repr

end Sys2Proof
end

