-- ==== Sys2Proof/Machine/State.lean ====
section
/-! DEFINITION. The state of the part, plain data; the reasons a step can stop; the machine right after reset. -/

namespace Sys2Proof.Machine

/-- Faults of the model. There is none: nothing in the manual stops the part, whose own faults are records in the Fault Set (R122). -/
inductive Fault
  deriving DecidableEq, Repr

/-- Refusals of the model. -/
inductive Refusal where
  /-- An arm of `exec` that has no meaning yet. No arm raises it: every command has its meaning. Safe. -/
  | notModelled (mnemonic : String)
  deriving DecidableEq, Repr

/-- The state of the part, by owning block (00_scope, Who owns what), and the queue of waiting commands. -/
structure State where
  pending : List Instr
  phase : Phase
  now : Time
  straps : Straps
  tables : Tables
  resp : Responder
  sources : Vector SourceRecord 16
  est : Estimator
  env : Envelope
  leg : Leg
  trip : Trip
  lim : Limiter
  portA : Port
  portB : Port
  deriving DecidableEq, Repr

/-- The machine right after POR with a store that was never written: every block in its POR state, the working copy the blank set, the
tables invalid and the start-up load in progress (R5, R45, R47, R66, R83, R113, R135, R149, R164, R178, R180). The straps read 0 and the
commit count is 0 until the load decides (log 6, 11). -/
def State.reset : State :=
  { pending := []
    phase := .loading
    now := 0
    straps := Straps.read 0 0
    tables := { header := erasedHeader, blocks := erasedBlocks, commitCount := 0, working := blankSet, valid := false
                programming := none }
    resp := Responder.fresh
    sources := Vector.replicate 16 (SourceRecord.fresh SourceCounters.zero)
    est := Estimator.fresh
    env := Envelope.fresh [] []
    leg := Leg.fresh 0 [] 0
    trip := Trip.fresh []
    lim := Limiter.fresh
    portA := Port.fresh PortCounters.zero
    portB := Port.fresh PortCounters.zero }

end Sys2Proof.Machine
end

