-- ==== Sys2Proof/Machine/Tables.lean ====
section
/-! DEFINITION. The tables: lookups, TABLE WRITE with its clamping, the commit checks, the forcing of R24 and the Restriction Lists
(chapters 1, 2 and 6). -/

namespace Sys2Proof.Machine

/-! ## Lookups -/

/-- The segments in use (R11). -/
def Profile.inUse (p : Profile) : List Segment := p.segs.toList.take p.count

/-- The segment that contains a chainage: the last in use whose start is at or below it, and below the first start the first (R4). -/
def Profile.at (p : Profile) (x : Nat) : Segment :=
  ((p.inUse.filter fun g => decide (g.start ≤ x)).getLast?).getD p.segs[0]

/-- The first entry in use that satisfies a test, by its index (R21). -/
def SourceTable.find (t : SourceTable) (test : SourceEntry → Bool) : Option (Fin 16) :=
  (List.finRange 16).find? fun i => decide (i.val < t.count) && test t.entries[i]

/-- The index of the entry in use that holds a role. -/
def SourceTable.role (t : SourceTable) (r : Role) : Option (Fin 16) := t.find fun e => decide (e.role = r)

/-- The indices of the LOOP_DETECTOR entries in use, in increasing order. -/
def SourceTable.detectors (t : SourceTable) : List (Fin 16) :=
  (List.finRange 16).filter fun i => decide (i.val < t.count) && decide (t.entries[i].role = .loopDetector)

/-- The detector that serves a car's track: a single one serves both, of two the lower index serves A and the higher B (R22). -/
def SourceTable.detector (t : SourceTable) (c : Car) : Option (Fin 16) :=
  match t.detectors, c with
  | [], _ => none
  | [d], _ => some d
  | d :: _ :: _, .a => some d
  | _ :: d :: _, .b => some d

/-- The Response Table's entry of a fault kind (R116). -/
def TableSet.responseOf (t : TableSet) (k : FaultKind) : ResponseEntry := t.response[k.idx]

/-! ## TABLE WRITE (R7, R8, R9, R12, R15, R21, R116) -/

/-- The value a write leaves in field `n` of the Line Constants record. -/
def lineClamp (vMax n x : Nat) : Nat :=
  if n = 25 then (if x ≤ 4 then 3 else 6) else clampNat (lineLo n) (lineHi vMax n) x

/-- The source entry a write leaves, and whether a field was clamped (R21). -/
def writeSource (bs : List Byte) : SourceEntry × Bool :=
  let a := field bs 0 1
  let r := field bs 1 1
  let t := field bs 2 2
  let m := field bs 4 1
  ({ address := clampNat 0 62 a, role := Role.ofNum r, lateTimeout := clampNat 5 800 t, maxSubs := clampNat 0 7 m },
   decide (62 < a) || decide (8 < r) || decide (clampNat 5 800 t ≠ t) || decide (7 < m))

/-- The segment a write leaves, and whether a field was clamped (R12). -/
def writeSegment (vMax : Nat) (bs : List Byte) : Segment × Bool :=
  let s := field bs 0 3
  let l := field bs 3 2
  let d := field bs 5 2
  let k := field bs 7 1
  ({ start := clampNat 0 4000000 s, limit := clampNat 100 vMax l, decel := clampNat 200 2000 d, kind := SegKind.ofNum k },
   decide (4000000 < s) || decide (clampNat 100 vMax l ≠ l) || decide (clampNat 200 2000 d ≠ d) || decide (2 < k))

/-- A window with its chainages clamped to 0..4,000,000 (R15). -/
def clampWindow (w : Window) : Window :=
  { lo := clampNat 0 4000000 w.lo, nom := clampNat 0 4000000 w.nom, hi := clampNat 0 4000000 w.hi }

/-- The place entry a write leaves, and whether a field was clamped (R15). -/
def writePlace (bs : List Byte) : PlaceEntry × Bool :=
  let a := windowOf bs
  let b := windowOf (bs.drop 9)
  let p := field bs 18 1
  ({ a := clampWindow a, b := clampWindow b, priority := Car.ofNum p },
   decide (clampWindow a ≠ a) || decide (clampWindow b ≠ b) || decide (1 < p))

/-- The response entry a write leaves for a kind, held at or above its floor, and whether a field was clamped (R116). -/
def writeResponse (k : FaultKind) (bs : List Byte) : ResponseEntry × Bool :=
  let a := field bs 0 1
  let n := field bs 1 1
  let act := Action.ofNum a
  let held := if act.num < k.floor.num then k.floor else act
  ({ action := held, notice := decide (n ≠ 0) }, decide (held.num ≠ a) || decide (1 < n))

/-- The fault kind of index 1..31. -/
def kindOfIndex (i : Nat) : FaultKind := FaultKind.all.getD (i - 1) .storeMismatch

/-- The staged copy after a TABLE WRITE of a named entry, and whether a field was clamped (R7). -/
def writeEntry (t : TableSet) (table index : Nat) (bs : List Byte) : TableSet × Bool :=
  match table with
  | 1 =>
    let x := field bs 0 3
    let y := lineClamp t.line.vMax index x
    ({ t with line := t.line.put index y }, decide (y ≠ x))
  | 2 =>
    if h : index < 16 then
      ({ t with sources := { t.sources with entries := t.sources.entries.set index (writeSource bs).1 } }, (writeSource bs).2)
    else
      let n := field bs 0 1
      ({ t with sources := { t.sources with count := clampNat 0 16 n } }, decide (16 < n))
  | 3 =>
    if h : index < 64 then
      let w := writeSegment t.line.vMax bs
      ({ t with profile := { t.profile with segs := t.profile.segs.set index w.1 } }, w.2)
    else
      let n := field bs 0 1
      ({ t with profile := { t.profile with count := clampNat 1 64 n } }, decide (clampNat 1 64 n ≠ n))
  | 4 =>
    let w := writePlace bs
    (if index = 0 then { t with places := { t.places with bottom := w.1 } }
     else if index = 1 then { t with places := { t.places with loop := w.1 } }
     else { t with places := { t.places with top := w.1 } }, w.2)
  | 5 =>
    if h : index - 1 < 31 then
      let w := writeResponse (kindOfIndex index) bs
      ({ t with response := t.response.set (index - 1) w.1 }, w.2)
    else (t, false)
  | _ => (t, false)

/-! ## The commit checks (R10, R13, R16, R17, R23) -/

/-- The field reported by the first Line Constants relation that fails (R10). -/
def checkLine (c : LineConstants) : Option Nat :=
  if c.vTrip ≤ c.vMax then some 5
  else if c.vMax < c.vDegraded then some 6
  else if c.serviceMargin < c.warnMargin then some 11
  else if c.emergencyMargin < c.serviceMargin then some 12
  else if c.approachDistance ≤ c.creepDistance then some 14
  else if c.tensionMax ≤ c.tensionMin then some 23
  else none

/-- Roles that may be present once at most (R22). -/
def Role.single : Role → Bool
  | .loopDetector => false
  | _ => true

/-- Entry `e` fails one of the four checks of R23 against the own address and the entries below it. -/
def sourceFails (own : Byte) (below : List SourceEntry) (e : SourceEntry) : Bool :=
  decide (e.address = own.toNat) || below.any (fun b => decide (b.address = e.address)) ||
  (e.role.single && below.any fun b => decide (b.role = e.role)) ||
  (decide (e.role = .loopDetector) && decide (2 ≤ (below.filter fun b => decide (b.role = .loopDetector)).length))

/-- The index of the first entry that fails, walking the entries in use with those already passed. -/
def checkEntries (own : Byte) (i : Nat) (below : List SourceEntry) : List SourceEntry → Option Nat
  | [] => none
  | e :: rest => if sourceFails own below e then some i else checkEntries own (i + 1) (below ++ [e]) rest

/-- The seven roles that must be present (R23). -/
def requiredRoles : List Role := [.encoder, .carAPosition, .carBPosition, .carADoors, .carBDoors, .drive, .console]

/-- The index reported by the Source Table's checks (R23); 16 for a missing role. -/
def checkSources (own : Byte) (t : SourceTable) : Option Nat :=
  match checkEntries own 0 [] (t.entries.toList.take t.count) with
  | some i => some i
  | none => if requiredRoles.all fun r => (t.role r).isSome then none else some 16

/-- The index of the first segment in use that fails (R13), walking them with the one before. -/
def checkSegments (vMax lineLength : Nat) (i : Nat) (before : Option Segment) : List Segment → Option Nat
  | [] => none
  | g :: rest =>
    let startBad := match before with
      | none => decide (g.start ≠ 0)
      | some b => decide (g.start ≤ b.start)
    if startBad || decide (vMax < g.limit) || (rest.isEmpty && decide (lineLength ≤ g.start)) then some i
    else checkSegments vMax lineLength (i + 1) (some g) rest

/-- A window is in order and ends within the line (R16, checks 1 and 2). -/
def windowInOrder (lineLength : Nat) (w : Window) : Bool := decide (w.lo ≤ w.nom ∧ w.nom ≤ w.hi ∧ w.hi ≤ lineLength)

/-- A place passes the five checks of R16, with the place before it and the segment kind its nominals must lie in. -/
def placePasses (t : TableSet) (before : Option PlaceEntry) (kind : SegKind) (p : PlaceEntry) : Bool :=
  windowInOrder t.line.lineLength p.a && windowInOrder t.line.lineLength p.b &&
  (match before with
   | none => true
   | some q => decide (q.a.nom < p.a.nom) && decide (p.b.nom < q.b.nom)) &&
  decide ((t.profile.at p.a.nom).kind = kind) && decide ((t.profile.at p.b.nom).kind = kind)

/-- The index of the first place that fails (R16). -/
def checkPlaces (t : TableSet) : Option Nat :=
  if !placePasses t none .terminal t.places.bottom then some 0
  else if !placePasses t (some t.places.bottom) .platform t.places.loop then some 1
  else if !placePasses t (some t.places.loop) .terminal t.places.top then some 2
  else none

/-- The commit checks in table number order, stopping at the first failure: its table and index (R17). -/
def checkSet (own : Byte) (t : TableSet) : Option (Nat × Nat) :=
  match checkLine t.line with
  | some i => some (1, i)
  | none =>
    match checkSources own t.sources with
    | some i => some (2, i)
    | none =>
      match checkSegments t.line.vMax t.line.lineLength 0 none t.profile.inUse with
      | some i => some (3, i)
      | none => (checkPlaces t).map fun i => (4, i)

/-! ## The forcing of maximum substitutes (R24) -/

/-- Roles that are never coasted. -/
def Role.forced : Role → Bool
  | .carADoors | .carBDoors | .tension | .loopDetector | .drive => true
  | _ => false

/-- The set as committed: maximum substitutes forced to 0 in the entries in use whose role is never coasted. -/
def forceSubs (t : TableSet) : TableSet :=
  { t with sources := { t.sources with
      entries := Vector.ofFn fun i : Fin 16 =>
        let e := t.sources.entries[i]
        if decide (i.val < t.sources.count) && e.role.forced then { e with maxSubs := 0 } else e } }

/-! ## The Restriction Lists (R18, R19) -/

/-- The uphill points above a segment; `lowest` is the lowest braking deceleration up to and including it. -/
def uphillFrom (lowest : Nat) (below : Segment) : List Segment → List Point
  | [] => []
  | g :: rest =>
    (if g.limit < below.limit then [{ chainage := g.start, speed := g.limit, decel := lowest }] else []) ++
    uphillFrom (min lowest g.decel) g rest

/-- The uphill Restriction List of the segments in use (R18). -/
def uphillList : List Segment → List Point
  | [] => []
  | g :: rest => uphillFrom g.decel g rest

/-- The lowest braking deceleration among a segment and those above it. -/
def lowestDecel (g : Segment) (above : List Segment) : Nat := above.foldl (fun m s => min m s.decel) g.decel

/-- The downhill points above a segment (R19). -/
def downhillFrom (below : Segment) : List Segment → List Point
  | [] => []
  | g :: rest =>
    (if below.limit < g.limit then [{ chainage := g.start, speed := below.limit, decel := lowestDecel g rest }] else []) ++
    downhillFrom g rest

/-- The downhill Restriction List of the segments in use (R19). -/
def downhillList : List Segment → List Point
  | [] => []
  | g :: rest => downhillFrom g rest

end Sys2Proof.Machine
end

