-- ==== Sys2Proof/Machine/Ops.lean ====
section
/-! DEFINITION. The named operations every block uses: one update per part of the state, the readings blocks make of one another, timers, the
transmit queues, notices and replies (R2, R53, R84, R112, R154 to R159, R165). -/

namespace Sys2Proof.Machine

/-! ## Updates, one per part of the state -/

def State.setPending (s : State) (x : List Instr) : State := { s with pending := x }
def State.setPhase (s : State) (x : Phase) : State := { s with phase := x }
def State.setNow (s : State) (x : Time) : State := { s with now := x }
def State.setStraps (s : State) (x : Straps) : State := { s with straps := x }
def State.setTables (s : State) (x : Tables) : State := { s with tables := x }
def State.setResp (s : State) (x : Responder) : State := { s with resp := x }
def State.setSources (s : State) (x : Vector SourceRecord 16) : State := { s with sources := x }
def State.setEst (s : State) (x : Estimator) : State := { s with est := x }
def State.setEnv (s : State) (x : Envelope) : State := { s with env := x }
def State.setLeg (s : State) (x : Leg) : State := { s with leg := x }
def State.setTrip (s : State) (x : Trip) : State := { s with trip := x }
def State.setLim (s : State) (x : Limiter) : State := { s with lim := x }
def State.setPortA (s : State) (x : Port) : State := { s with portA := x }
def State.setPortB (s : State) (x : Port) : State := { s with portB := x }

/-- One of the two ports. -/
def State.port (s : State) : PortId → Port
  | .a => s.portA
  | .b => s.portB

/-- Replaces one of the two ports. -/
def State.setPort (s : State) (p : PortId) (x : Port) : State :=
  match p with
  | .a => s.setPortA x
  | .b => s.setPortB x

/-- The other port. -/
def otherPort : PortId → PortId
  | .a => .b
  | .b => .a

/-! ## Timers (R34, R63, R94, R112, R133, R146) -/

/-- A timer that expires `ms` milliseconds from `now`. -/
def timerAfter (now : Time) (ms : Nat) : Timer := some (now + BitVec.ofNat 32 ms)

/-- A timer is running and its time has come: the difference of the two times, taken modulo 4,294,967,296 (R112), lies in the lower
half (log 2). -/
def timerDue (now : Time) (t : Timer) : Bool :=
  match t with
  | none => false
  | some e => decide ((now - e).toNat < 2147483648)

/-! ## Readings -/

/-- The Line Constants record in force. -/
def State.line (s : State) : LineConstants := s.tables.working.line

/-- The Response Table's entry in force of a kind. -/
def State.response (s : State) (k : FaultKind) : ResponseEntry := s.tables.working.responseOf k

/-- The source entry in force at an index. -/
def State.entry (s : State) (i : Fin 16) : SourceEntry := s.tables.working.sources.entries[i]

/-- The Source Record at an index. -/
def State.record (s : State) (i : Fin 16) : SourceRecord := s.sources[i]

/-- The record at an index is live: the tables are valid and the entry is in use (R25, R26). -/
def State.live (s : State) (i : Fin 16) : Bool := s.tables.valid && decide (i.val < s.tables.working.sources.count)

/-- The index of the live record of a role. -/
def State.roleIndex (s : State) (r : Role) : Option (Fin 16) :=
  if s.tables.valid then s.tables.working.sources.role r else none

/-- The live record of a role. -/
def State.roleRecord (s : State) (r : Role) : Option SourceRecord := (s.roleIndex r).map s.record

/-- The live record of a role is in a sync state. -/
def State.roleIn (s : State) (r : Role) (x : SyncState) : Bool :=
  match s.roleRecord r with
  | some c => decide (c.sync = x)
  | none => false

/-- The address of the CONSOLE entry while the tables are valid (R166). -/
def State.consoleAddress (s : State) : Option Byte := (s.roleIndex .console).map fun i => byteOf (s.entry i).address

/-- Where notices go: the CONSOLE entry's address while the tables are valid, 63 otherwise (R43, R84, R124). -/
def State.noticeAddress (s : State) : Byte := s.consoleAddress.getD Config.broadcast

/-- Where generated demands go: the DRIVE entry's address (R144). Without a DRIVE entry, which no run reaches where a demand is
generated, the broadcast address (log 21). -/
def State.driveAddress (s : State) : Byte :=
  ((s.roleIndex .drive).map fun i => byteOf (s.entry i).address).getD Config.broadcast

/-- R_µm: the real part plus coast travel, clamped to 0..L × 1,000 (R53). -/
def State.rUm (s : State) : Nat := clampTo (s.line.lineLength * 1000) (s.est.real + s.est.coast)

/-- R_mm: R_µm divided by 1,000, rounded down (R46). -/
def State.rMm (s : State) : Nat := s.rUm / 1000

/-- A_pos: R_mm + Off_A, clamped to 0..L (R2). -/
def State.aPos (s : State) : Nat := clampTo s.line.lineLength (s.rMm + s.est.offA)

/-- B_pos: K − R_mm + Off_B, clamped to 0..L (R2). -/
def State.bPos (s : State) : Nat := clampTo s.line.lineLength (s.line.ropeSum - s.rMm + s.est.offB)

/-- A car's fused chainage. -/
def State.carPos (s : State) : Car → Nat
  | .a => s.aPos
  | .b => s.bPos

/-- Position is established (R46). -/
def State.established (s : State) : Bool := s.est.ropeEst && s.est.offBSet

/-- The motion states (00_scope, Run states at a glance). -/
def RunState.motion : RunState → Bool
  | .depart | .run | .approach | .creep => true
  | _ => false

/-- The states in which DEN, SBR and EBR are energized (R134). -/
def RunState.energized : RunState → Bool
  | .depart | .run | .approach | .creep | .serviceStop => true
  | _ => false

/-- The remaining rope distance D of the leg (R72). -/
def State.remaining (s : State) : Int :=
  match s.leg.dir with
  | .up => (s.leg.rStar : Int) - s.rMm
  | .down => (s.rMm : Int) - s.leg.rStar

/-- The ramp ceiling C, present while the ramp origin is (R121). -/
def State.rampCeiling (s : State) : Option Nat :=
  s.trip.ramp.map fun o => o.speed - s.line.serviceDecel * (s.now - o.time).toNat / 1000

/-! ## Transmit queues (R154 to R159) -/

/-- A waiting frame is a demand. -/
def OutFrame.isDemand : OutFrame → Bool
  | .demand _ => true
  | _ => false

/-- A waiting frame is the reply at whose end the RESTART reset is taken (R177). -/
def OutFrame.isRestart : OutFrame → Bool
  | .reply _ _ r => r
  | _ => false

/-- The start of a transmission (R157): a forwarded frame goes as it arrived; a frame the part originates takes the port's sequence
number and its check is formed (R159). A demand is finished by the Demand Limiter and does not go this way. -/
def Port.send (p : Port) (own : Byte) : OutFrame → Port
  | .forwarded bs => { p with line := some ⟨bs, false⟩ }
  | .reply dst payload r =>
    { p with line := some ⟨frameBytes dst own kindReply p.seqNo payload, r⟩, seqNo := p.seqNo + 1 }
  | .notice dst n =>
    { p with line := some ⟨frameBytes dst own kindNotice p.seqNo (noticePayload n), false⟩, seqNo := p.seqNo + 1 }
  | .demand _ => p

/-- A counted event of a port (R152). -/
def Port.bump (p : Port) (k : PortCounter) : Port := { p with counters := p.counters.bump k }

/-- A frame that is no demand is offered to a queue: taken at once where the queue is empty and the line free, else at the tail, else
dropped with QUEUE_DROP (R155, R156, R157). -/
def Port.offer (p : Port) (own : Byte) (f : OutFrame) : Port :=
  if p.queue = [] ∧ p.line = none then p.send own f
  else if p.queue.length < Config.queueDepth then { p with queue := p.queue ++ [f] }
  else p.bump .queueDrop

/-- Offers a frame that is no demand to a port's queue. -/
def State.offer (s : State) (p : PortId) (f : OutFrame) : State := s.setPort p ((s.port p).offer s.straps.own f)

/-- Offers a notice to the Port A queue (R84, R124, R154). -/
def notify (s : State) (n : Notice) : State := s.setPortA (s.portA.offer s.straps.own (.notice s.noticeAddress n))

/-- Offers a reply to the queue of the port the request came in on: code echoed, reply code, results (R162, R165). -/
def reply (s : State) (p : PortId) (dst code : Byte) (rc : ReplyCode) (results : List Byte) : State :=
  s.offer p (.reply dst (code :: byteOf rc.num :: results) false)

/-- A demand takes the place of the one waiting (R156). -/
def replaceDemand (d : Demand) : List OutFrame → List OutFrame
  | [] => []
  | f :: rest => if f.isDemand then .demand d :: rest else f :: replaceDemand d rest

end Sys2Proof.Machine
end

