-- ==== Sys2Proof/Machine/DemandLimiter.lean ====
section
/-! DEFINITION. The Demand Limiter's shared operations: the clamp at transmission, slip blanking at the start of a transmission, the placing
of demands in the Port B queue, generated demands (R133, R139 to R146, R156, R157). -/

namespace Sys2Proof.Machine

/-- The setpoint sent (R140). -/
def sentSetpoint (s : State) (d : Demand) : Nat :=
  match s.leg.run with
  | .run | .approach | .creep => min d.offered s.env.e
  | .serviceStop => min (min d.offered s.env.e) (s.rampCeiling.getD 0)
  | _ => 0

/-- The ENABLE_REQUEST sent (R140). -/
def sentEnable (s : State) (d : Demand) : Bool :=
  match s.leg.run with
  | .depart | .serviceStop => true
  | .run | .approach | .creep => d.enable
  | _ => false

/-- The direction sent (R140). -/
def sentDir (s : State) (d : Demand) : Dir := if s.leg.run.energized then s.leg.dir else d.dir

/-- LIMITED: the setpoint sent is lower than that received or generated (R141). -/
def sentLimited (s : State) (d : Demand) : Bool := decide (sentSetpoint s d < d.received)

/-- The payload of a demand as it goes on the line (R141, R161). -/
def sentPayload (s : State) (d : Demand) : List Byte :=
  toBytes 2 (sentSetpoint s d) ++ toBytes 1 (demandFlags (sentEnable s d) (sentDir s d) (sentLimited s d) d.generated)

/-- Two setpoints differ by more than the slip blanking step, which is not 0 (R133). -/
def isSlipStep (step old new : Nat) : Bool := decide (step ≠ 0) && (decide (old + step < new) || decide (new + step < old))

/-- The Trip Unit takes the setpoint a demand leaves with: a step arms the slip blanking timer; in either case the last transmitted
setpoint takes it (R133, R143). -/
def takeSetpoint (s : State) (x : Nat) : Trip :=
  { s.trip with
    slipTimer := if isSlipStep s.line.slipStep s.trip.lastSetpoint x then timerAfter s.now s.line.slipTime else s.trip.slipTimer
    lastSetpoint := x }

/-- Port B with a finished demand on its line; a generated demand takes the port's sequence number (R141, R144, R159). -/
def demandOnLine (s : State) (d : Demand) : Port :=
  let seq := if d.generated then s.portB.seqNo else d.seq
  { s.portB with
    line := some ⟨frameBytes d.dst d.src kindDemand seq (sentPayload s d), false⟩
    seqNo := if d.generated then s.portB.seqNo + 1 else s.portB.seqNo }

/-- The start of a demand's transmission on Port B. -/
def sendDemand (s : State) (d : Demand) : State :=
  (s.setPortB (demandOnLine s d)).setTrip (takeSetpoint s (sentSetpoint s d))

/-- A demand is offered to Port B (R139, R156, R157): it replaces the waiting one in its place, or is taken at once, or joins at the
tail, or evicts the oldest of 8 frames. A demand is always placed. -/
def offerDemand (s : State) (d : Demand) : State :=
  let q := s.portB.queue
  if q.any OutFrame.isDemand then s.setPortB { s.portB with queue := replaceDemand d q }
  else if q = [] ∧ s.portB.line = none then sendDemand s d
  else if q.length < Config.queueDepth then s.setPortB { s.portB with queue := q ++ [.demand d] }
  else s.setPortB { (s.portB.bump .queueDrop) with queue := q.tail ++ [.demand d] }

/-- A generated demand (R144) is made with a setpoint and offered. -/
def generateDemand (s : State) (setpoint : Nat) : State :=
  offerDemand s { dst := s.driveAddress, src := s.straps.own, seq := 0, offered := setpoint, received := setpoint, enable := true
                  dir := s.leg.dir, generated := true }

/-- The late timeout of the CONSOLE entry in force, the period of the generation timer (R146). -/
def State.consoleTimeout (s : State) : Nat := ((s.roleIndex .console).map fun i => (s.entry i).lateTimeout).getD 0

/-- One demand is generated at the ramp ceiling and the generation timer is armed (R146). -/
def generateAtCeiling (s : State) : State :=
  let t := generateDemand s (s.rampCeiling.getD 0)
  t.setLim { t.lim with genTimer := timerAfter t.now t.consoleTimeout }

end Sys2Proof.Machine
end

