-- ==== Sys2Proof/Machine/EnvelopeUnit.lean ====
section
/-! DEFINITION. The Envelope Unit: integer square root, braking curve, per-car, target and system envelopes (chapter 4). -/

namespace Sys2Proof.Machine

/-- The root built bit by bit from the highest: bit `k` is kept where the square still does not exceed `n`. -/
def isqrtBits (n : Nat) : Nat → Nat → Nat
  | 0, r => r
  | k + 1, r => isqrtBits n k (if (r + 2 ^ k) * (r + 2 ^ k) ≤ n then r + 2 ^ k else r)

/-- The integer square root: the largest whole number whose square does not exceed `n` (R67). -/
def isqrt (n : Nat) : Nat := isqrtBits n (n.log2 / 2 + 1) 0

/-- The braking curve toward speed `vr` at distance `d` with deceleration `a` and allowance `m`, clamped to V_max (R68). -/
def curve (vMax vr d a m : Nat) : Nat := min vMax (isqrt (vr * vr + 2 * a * (d - m)))

/-- Car A climbs on an UP leg, car B on a DOWN leg (R3, R69). -/
def climbs (dir : Dir) (c : Car) : Bool :=
  match dir, c with
  | .up, .a => true
  | .down, .b => true
  | _, _ => false

/-- The curve toward a restriction point that is ahead of a car at `p`; `none` where the point is behind it (R3, R70). -/
def pointCurve (lc : LineConstants) (climbing : Bool) (p : Nat) (x : Point) : Option Nat :=
  if climbing then
    if p ≤ x.chainage then some (curve lc.vMax x.speed (x.chainage - p) x.decel lc.brakingMargin) else none
  else
    if x.chainage ≤ p then some (curve lc.vMax x.speed (p - x.chainage) x.decel lc.brakingMargin) else none

/-- The per-car envelope: the limit of the car's segment and, while a leg is active, the curve of every point of its list ahead of it
(R69, R70). -/
def carEnvelope (s : State) (c : Car) : Nat :=
  let limit := (s.tables.working.profile.at (s.carPos c)).limit
  if s.leg.active then
    let up := climbs s.leg.dir c
    let points := if up then s.env.uphill else s.env.downhill
    (points.filterMap (pointCurve s.line up (s.carPos c))).foldl min limit
  else limit

/-- The target envelope at a remaining distance D (R73). -/
def targetEnvelope (lc : LineConstants) (d : Int) : Nat :=
  if (lc.creepDistance : Int) < d then
    min (curve lc.vMax 0 d.toNat lc.aStop 0) (curve lc.vMax lc.creepSpeed (d.toNat - lc.creepDistance) lc.aStop 0)
  else if 0 < d then min lc.creepSpeed (isqrt (2 * lc.aStop * d.toNat))
  else 0

/-- The envelope values formed afresh from every input as it stands (R70, R74, R75). -/
def formEnvelope (s : State) : Envelope :=
  let eA := carEnvelope s .a
  let eB := carEnvelope s .b
  let eT := if s.leg.active then some (targetEnvelope s.line s.remaining) else none
  let e := min (min eA eB) (min (eT.getD s.line.vMax) s.line.vMax)
  { s.env with eA := eA, eB := eB, eT := eT, e := if s.est.degraded then min e s.line.vDegraded else e }

/-- One recomputation: on a position update (R76) or a target change (R77). -/
def recompute (s : State) : State := s.setEnv (formEnvelope s)

/-- Both Restriction Lists derived afresh from the Profile Table in force (R20). -/
def deriveLists (s : State) : State :=
  s.setEnv { s.env with uphill := uphillList s.tables.working.profile.inUse
                        downhill := downhillList s.tables.working.profile.inUse }

end Sys2Proof.Machine
end

