-- ==== Sys2Proof/Machine/TripUnit.lean ====
section
/-! DEFINITION. The change of the run state with its outputs and notice, the raise of a fault and its action, the conditions of condition
kinds, the speed tests and the judgement of samples and inputs (chapter 6; R84, R105, R106, R134). -/

namespace Sys2Proof.Machine

/-! ## Changes of the run state -/

/-- The Leg Controller's fields in a new run state: the brake-release timer runs in DEPART alone (R93, R94); halt place, DRA and DRB
do not outlast HALTED (R102, R104). -/
def legInState (s : State) (new : RunState) : Leg :=
  { s.leg with
    run := new
    brakeTimer := if new = .depart then timerAfter s.now s.line.brakeReleaseTimeout else none
    haltPlace := if new = .halted then s.leg.haltPlace else none
    dra := if new = .halted then s.leg.dra else false
    drb := if new = .halted then s.leg.drb else false }

/-- The Trip Unit's fields in a new run state: outputs by state (R134); the ramp origin is recorded at an entry into SERVICE_STOP and
present there alone (R112, R127, R129). -/
def tripInState (s : State) (new : RunState) : Trip :=
  { s.trip with
    den := new.energized, sbr := new.energized, ebr := new.energized
    ramp := if new = .serviceStop then some ⟨s.est.v, s.now⟩ else none }

/-- The generation timer is stopped by every exit from SERVICE_STOP (R147). -/
def limInState (s : State) (new : RunState) : Limiter :=
  { s.lim with genTimer := if new = .serviceStop then s.lim.genTimer else none }

/-- The run state and everything that follows it in the same step. -/
def enterState (s : State) (new : RunState) : State :=
  ((s.setLeg (legInState s new)).setTrip (tripInState s new)).setLim (limInState s new)

/-- A change of the run state with its STATE_CHANGED notice (R84). An entry into SERVICE_STOP while the CONSOLE record is LOST starts
the generation timer with one demand (R146). `kind` is the fault kind's number, 0 where the cause is no fault. -/
def changeState (s : State) (new : RunState) (cause : StateCause) (kind : Nat) : State :=
  let t := notify (enterState s new) (.stateChanged s.leg.run new cause kind s.leg.number)
  if new = .serviceStop && t.roleIn .console .lost then generateAtCeiling t else t

/-- The leg ends: leg active becomes no and a target change is handed on (R108, R77). -/
def endLeg (s : State) : State := recompute (s.setLeg { s.leg with active := false })

/-! ## The raise of a fault (R122 to R125) -/

/-- The Fault Set with a record added in kind order, or the record of its kind counted once more up to 255 (R122, R123). -/
def addFault (new : FaultRecord) : List FaultRecord → List FaultRecord
  | [] => [new]
  | r :: rest =>
    if r.kind = new.kind then { r with count := min 255 (r.count + 1) } :: rest
    else if new.kind.num < r.kind.num then new :: r :: rest
    else r :: addFault new rest

/-- The record of a kind, if the Fault Set holds one. -/
def faultOf (faults : List FaultRecord) (k : FaultKind) : Option FaultRecord := faults.find? fun r => decide (r.kind = k)

/-- The record a raise of a kind creates now (R122). -/
def newFault (s : State) (k : FaultKind) : FaultRecord :=
  { kind := k, firstTime := s.now, stateAtRaise := s.leg.run, rMm := s.rMm, aPos := s.aPos, bPos := s.bPos, count := 1 }

/-- Step 1 of a raise: the record (R123). -/
def recordFault (s : State) (k : FaultKind) : State :=
  s.setTrip { s.trip with faults := addFault (newFault s k) s.trip.faults }

/-- The FAULT_RAISED notice of a raise just recorded (R124). -/
def faultNotice (s : State) (k : FaultKind) : Notice :=
  .faultRaised k (s.response k).action s.leg.run (((faultOf s.trip.faults k).map (·.count)).getD 1) s.rMm s.aPos s.bPos

/-- Where the action of a raise moves the run state, `none` where it stays (R125). -/
def actionTarget (a : Action) (st : RunState) : Option RunState :=
  match a, st with
  | .service, .depart | .service, .run | .service, .approach | .service, .creep => some .serviceStop
  | .emergency, .depart | .emergency, .run | .emergency, .approach | .emergency, .creep => some .emergencyStop
  | .emergency, .serviceStop => some .emergencyStop
  | .service, .ready | .service, .armed | .service, .halted => some .safe
  | .emergency, .ready | .emergency, .armed | .emergency, .halted => some .safe
  | _, _ => none

/-- Step 3 of a raise: the action applied to the run state as it stands now (R105, R106, R125). A leg ARMED ends without a record. -/
def applyAction (s : State) (a : Action) (k : FaultKind) : State :=
  match actionTarget a s.leg.run with
  | none => s
  | some new =>
    let t := changeState s new .fault k.num
    if s.leg.run = .armed then endLeg t else t

/-- A raise taken whole: record, notice, action (R123). -/
def raiseFault (s : State) (k : FaultKind) : State :=
  let t := recordFault s k
  let u := if (s.response k).notice then notify t (faultNotice t k) else t
  applyAction u (s.response k).action k

/-- A raise made where a test found the kind. -/
def raiseIf (s : State) (found : Bool) (k : FaultKind) : State := if found then raiseFault s k else s

/-! ## Conditions (R115) -/

/-- A live record of a role holds a last payload that satisfies a test. -/
def lastSays (s : State) (r : Role) (test : List Byte → Bool) : Bool :=
  match (s.roleRecord r).bind (·.lastPayload) with
  | some p => test p
  | none => false

/-- Any LOOP_DETECTOR record is live and LOST. -/
def anyDetectorLost (s : State) : Bool :=
  s.tables.valid && s.tables.working.sources.detectors.any fun i => decide ((s.record i).sync = .lost)

/-- The condition of a condition kind, at the moment it is asked for (R115). Event kinds have none. -/
def conditionPresent (s : State) (k : FaultKind) : Bool :=
  match k with
  | .encoderLost => s.roleIn .encoder .lost
  | .carAPositionLost => s.roleIn .carAPosition .lost
  | .carBPositionLost => s.roleIn .carBPosition .lost
  | .consoleLost => s.roleIn .console .lost
  | .driveLost => s.roleIn .drive .lost
  | .driveNotReady => lastSays s .drive fun p => !driveReady p
  | .doorSourceLost => s.roleIn .carADoors .lost || s.roleIn .carBDoors .lost
  | .tensionLost => s.roleIn .tension .lost
  | .slackRope => lastSays s .tension fun p => decide (tensionOf p < s.line.tensionMin)
  | .ropeOverload => lastSays s .tension fun p => decide (s.line.tensionMax < tensionOf p)
  | .estop => s.trip.inputs.estop.qualified
  | .overtravel => s.trip.inputs.otTop.qualified || s.trip.inputs.otBottom.qualified
  | .loopDetectorLost => anyDetectorLost s
  | _ => false

/-- RESET TRIP keeps a record of a condition kind whose condition is present (R130). -/
def keptAtReset (s : State) (r : FaultRecord) : Bool := r.kind.isCondition && conditionPresent s r.kind

/-! ## Speed tests (R119, R120) -/

/-- The envelope test: the highest margin exceeded. -/
def envelopeKind (s : State) : Option FaultKind :=
  if s.env.e + s.line.emergencyMargin < s.est.v then some .overspeedEmergency
  else if s.env.e + s.line.serviceMargin < s.est.v then some .overspeedService
  else if s.env.e + s.line.warnMargin < s.est.v then some .overspeedWarning
  else none

/-- The ramp test in SERVICE_STOP. -/
def rampKind (s : State) : Option FaultKind :=
  if min s.env.e (s.rampCeiling.getD 0) + s.line.emergencyMargin < s.est.v then some .overspeedEmergency else none

/-- The kinds one speed update finds, in the order in which they are raised (R120). -/
def speedFindings (s : State) : List FaultKind :=
  let absolute := if s.line.vTrip < s.est.v then [.absoluteOverspeed] else []
  let low := decide (s.line.stationaryThreshold < s.est.v)
  match s.leg.run with
  | .depart | .run | .approach | .creep =>
    absolute ++ (envelopeKind s).toList ++ (if low && decide (s.est.dir ≠ s.leg.dir) then [.wrongWay] else [])
  | .serviceStop => absolute ++ (rampKind s).toList
  | .emergencyStop => absolute
  | .safe | .ready | .armed | .halted | .maintenance => absolute ++ (if low then [.uncommandedMotion] else [])

/-- All tests of one speed update are made first; the kinds found are then raised one after another (R120). -/
def speedTests (s : State) : State := (speedFindings s).foldl raiseFault s

/-! ## Samples (R117) -/

/-- A door sample that reports OPEN. -/
def judgeDoors (s : State) (p : List Byte) : State :=
  raiseIf s (doorOpen p && s.leg.run.energized) .doorOpenInMotion

/-- A tension sample: below the minimum, above the maximum. A set in force has minimum below maximum (R10), so a sample meets at most
one of the two tests. -/
def judgeTension (s : State) (p : List Byte) : State :=
  let t := raiseIf s (decide (tensionOf p < s.line.tensionMin) && s.leg.run.motion) .slackRope
  raiseIf t (decide (s.line.tensionMax < tensionOf p)) .ropeOverload

/-- A drive status sample. -/
def judgeDrive (s : State) (p : List Byte) : State :=
  raiseIf s (!driveReady p && s.leg.run.motion) .driveNotReady

/-! ## Inputs (R118) -/

/-- The kind a qualified transition of an input to a value raises in a run state, if any (R118). -/
def inputKind (i : InputId) (value : Bool) (st : RunState) : Option FaultKind :=
  match i, value with
  | .estop, true => some .estop
  | .otTop, true | .otBottom, true => some .overtravel
  | .slip, true => if st.motion then some .ropeSlip else none
  | .brkS, false | .brkE, false =>
    if st = .run ∨ st = .approach ∨ st = .creep ∨ st = .serviceStop then some .brakeFeedbackLost else none
  | _, _ => none

/-- The raise of a qualified transition, if it raises a kind. -/
def raiseInput (s : State) (i : InputId) (value : Bool) : State :=
  match inputKind i value s.leg.run with
  | some k => raiseFault s k
  | none => s

end Sys2Proof.Machine
end

