-- ==== Sys2Proof/Machine/LegController.lean ====
section
/-! DEFINITION. The Leg Controller: the stop target, departure, the distance passages, the halt, door permits, the ends of stops, the Stop
Log and the conditions of MAKE READY and ARM LEG (chapter 5). -/

namespace Sys2Proof.Machine

/-! ## The stop target (R90, R91, R92) -/

/-- The stop target and split for a place, K, L and the two offsets (R90, R91). -/
def stopTarget (p : PlaceEntry) (k lineLength : Nat) (offA offB : Int) : Nat × Bool :=
  let aLo := (p.a.lo : Int) - offA
  let aHi := (p.a.hi : Int) - offA
  let bLo := (k : Int) + offB - p.b.hi
  let bHi := (k : Int) + offB - p.b.lo
  let preferred := (((p.a.nom : Int) - offA) + ((k : Int) + offB - p.b.nom)) / 2
  let lo := max aLo bLo
  let hi := min aHi bHi
  if lo ≤ hi then (clampTo lineLength (max lo (min hi preferred)), false)
  else
    let r := match p.priority with
      | .a => if bHi < aLo then aLo else aHi
      | .b => if aHi < bLo then bLo else bHi
    (clampTo lineLength r, true)

/-- The end place's entry in force. -/
def State.endEntry (s : State) : PlaceEntry := s.tables.working.places.get s.leg.endPlace

/-- R* and split computed afresh, while frozen is no (R92), and the target change handed on (R77). -/
def computeTarget (s : State) : Leg :=
  if s.leg.frozen then s.leg
  else
    let t := stopTarget s.endEntry s.line.ropeSum s.line.lineLength s.est.offA s.est.offB
    { s.leg with rStar := t.1, split := t.2 }

/-- A re-latch: the target computed afresh and a target change (R97). -/
def relatch (s : State) : State := recompute (s.setLeg (computeTarget s))

/-! ## Passages and overrun (R95 to R99) -/

/-- D lies beyond the target by more than the overrun tolerance (R99). -/
def overruns (s : State) : Bool := decide (s.remaining < -(s.line.overrunTolerance : Int))

/-- The entry into CREEP: final computation, freeze, target change, notice, overrun, SPLIT_STOP (R98). After an overrun no further
step is taken (R99). -/
def creepEntry (s : State) : State :=
  let t := s.setLeg { computeTarget s with frozen := true }
  let u := changeState (recompute t) .creep .creepDistance 0
  if overruns u then raiseFault u .overrun
  else raiseIf u u.leg.split .splitStop

/-- The CREEP test in APPROACH (R96). -/
def testCreep (s : State) : State :=
  if s.remaining ≤ (s.line.creepDistance : Int) then creepEntry s else s

/-- The distance passages, in RUN and APPROACH (R96). -/
def testPassages (s : State) : State :=
  if s.leg.run = .run then
    if s.remaining ≤ (s.line.approachDistance : Int) then testCreep (changeState s .approach .approachDistance 0) else s
  else if s.leg.run = .approach then testCreep s
  else s

/-! ## Departure (R93, R94) -/

/-- In DEPART, both brake-open inputs reading open pass the leg to RUN, and the passages are tested at once (R94). -/
def testBrakesOpen (s : State) : State :=
  if s.leg.run = .depart && s.trip.inputs.brkS.qualified && s.trip.inputs.brkE.qualified then
    testPassages (changeState s .run .brakesOpen 0)
  else s

/-- The Demand Limiter's report of an accepted demand (R93, R138). -/
def departureReport (s : State) (d : LastDemand) : State :=
  if s.leg.run = .armed && d.enable && decide (0 < d.setpoint) && decide (d.dir = s.leg.dir) then
    testBrakesOpen (changeState s .depart .enableDemand 0)
  else s

/-! ## Door permits (R102, R103) -/

/-- The loop condition for a car's track at a halt place (R103). A detector in COAST, which no run reaches, is not satisfied. -/
def loopVerdict (s : State) (place : Place) (c : Car) (inside : Bool) : LoopVerdict :=
  if place ≠ .loop then .free
  else
    match s.tables.working.sources.detector c with
    | none => .free
    | some i =>
      match (s.record i).sync, (s.record i).lastPayload with
      | .sync, some p => if loopPresence p c then .present else if inside then .absentInside else .unmet
      | _, _ => .unmet

/-- Sets a car's door release output. -/
def setPermit (s : State) (c : Car) (x : Bool) : State :=
  match c with
  | .a => s.setLeg { s.leg with dra := x }
  | .b => s.setLeg { s.leg with drb := x }

/-- Sets a track's mismatch flag. -/
def setMismatch (s : State) (c : Car) (x : Bool) : State :=
  match c with
  | .a => s.setLeg { s.leg with mismatchA := x }
  | .b => s.setLeg { s.leg with mismatchB := x }

/-- A track's mismatch flag. -/
def mismatch (s : State) : Car → Bool
  | .a => s.leg.mismatchA
  | .b => s.leg.mismatchB

/-- One car's permit evaluated in HALTED: the loop condition first, with its raise, then the output (R102, R103). -/
def evaluatePermit (s : State) (c : Car) : State :=
  match s.leg.run, s.leg.haltPlace with
  | .halted, some place =>
    let inside := ((s.tables.working.places.get place).window c).holds (s.carPos c)
    match loopVerdict s place c inside with
    | .free => setPermit s c inside
    | .present => setPermit (setMismatch s c false) c inside
    | .absentInside =>
      setPermit (if mismatch s c then s else raiseFault (setMismatch s c true) .loopDetectorMismatch) c false
    | .unmet => setPermit s c false
  | _, _ => s

/-- Both permits evaluated, car A's first (log 29). -/
def evaluatePermits (s : State) : State := evaluatePermit (evaluatePermit s .a) .b

/-! ## Stop Records (R109, R110) -/

/-- The record of the leg as it ends now (R109). -/
def stopRecord (s : State) (o : StopOutcome) : StopRecord :=
  { number := s.leg.lastRecord + 1, leg := s.leg.number, dir := s.leg.dir, place := s.leg.endPlace, rStar := s.leg.rStar
    finalR := s.rMm, error := -s.remaining, aPos := s.aPos, bPos := s.bPos, aInside := s.endEntry.a.holds s.aPos
    bInside := s.endEntry.b.holds s.bPos, split := s.leg.split, degraded := s.est.agedA || s.est.agedB, outcome := o }

/-- The record placed first in the Stop Log, the oldest removed past 16 (R110). -/
def writeStop (s : State) (r : StopRecord) : State :=
  s.setLeg { s.leg with log := (r :: s.leg.log).take Config.stopLogDepth, lastRecord := r.number }

/-- The halt (R101): record, HALTED with its place, end of the leg, notices, window check, permits. -/
def halt (s : State) : State :=
  let r := stopRecord s .completed
  let t := writeStop s r
  let u := t.setLeg { t.leg with haltPlace := some t.leg.endPlace, mismatchA := false, mismatchB := false }
  let w := endLeg (notify (changeState u .halted .stationary 0) (.stopResult r))
  evaluatePermits (raiseIf w (!r.split && !(r.aInside && r.bInside)) .stopOutsideWindow)

/-- STATIONARY in a stop state (R107): record, SAFE, end of the leg, notices. -/
def endStop (s : State) (o : StopOutcome) : State :=
  let r := stopRecord s o
  endLeg (notify (changeState (writeStop s r) .safe .stationary 0) (.stopResult r))

/-- STATIONARY by run state (R100). -/
def takeStationary (s : State) : State :=
  match s.leg.run with
  | .creep => halt s
  | .serviceStop => endStop s .trippedService
  | .emergencyStop => endStop s .trippedEmergency
  | .safe | .ready | .armed | .depart | .run | .approach | .halted | .maintenance => s

/-! ## Position updates (R61, R95) -/

/-- The Leg Controller takes a position update, last of the three blocks (R95). -/
def legUpdate (s : State) (u : Update) : State :=
  match s.leg.run with
  | .run | .approach | .creep =>
    let t := if s.leg.run = .approach && decide (u = .carReport) then relatch s else s
    if overruns t then raiseFault t .overrun else testPassages t
  | .halted => evaluatePermits s
  | _ => s

/-- A position update handed on: Envelope Unit, Trip Unit for a speed update, Leg Controller (R61, R76). -/
def positionUpdate (s : State) (u : Update) : State :=
  let t := recompute s
  legUpdate (if u = .speed then speedTests t else t) u

/-! ## MAKE READY and ARM LEG (R85, R87, R88) -/

/-- A door source is in SYNC with last payload CLOSED_LOCKED. -/
def doorsClosed (s : State) (r : Role) : Bool := s.roleIn r .sync && lastSays s r doorClosed

/-- The first role of a list that fails a test, as the index of its source (R85). -/
def firstFailing (s : State) (test : Role → Bool) (roles : List Role) : Option Nat :=
  (roles.find? fun r => !test r).map fun r => ((s.roleIndex r).map (·.val)).getD 0

/-- A kind's action in force is SERVICE or EMERGENCY. -/
def stopsDeparture (s : State) (k : FaultKind) : Bool := decide ((s.response k).action ≠ .notice)

/-- Condition 5 of MAKE READY for a car source. -/
def carSourceOk (s : State) (r : Role) : Bool :=
  s.roleIn r .sync || s.roleIn r .coast ||
  (s.roleIn r .lost && !stopsDeparture s (if r = .carAPosition then .carAPositionLost else .carBPositionLost))

/-- The first condition of MAKE READY that fails, with its reason and detail (R85). -/
def notReady (s : State) : Option (Nat × Nat) :=
  if !s.tables.valid then some (1, 0)
  else
    match s.trip.faults.find? fun r => stopsDeparture s r.kind with
    | some r => some (2, r.kind.num)
    | none =>
      match firstFailing s (fun r => s.roleIn r .sync) [.encoder, .console, .drive] with
      | some i => some (3, i)
      | none =>
        if !s.established then some (4, 0)
        else
          match firstFailing s (carSourceOk s) [.carAPosition, .carBPosition] with
          | some i => some (5, i)
          | none =>
            match firstFailing s (doorsClosed s) [.carADoors, .carBDoors] with
            | some i => some (6, i)
            | none =>
              if s.trip.inputs.estop.qualified then some (7, 1)
              else if s.trip.inputs.otTop.qualified then some (7, 2)
              else if s.trip.inputs.otBottom.qualified then some (7, 3)
              else if !lastSays s .drive driveReady then some (8, 0)
              else none

/-- The end place lies ahead of car A, judged on A_pos against its car A window (R87). -/
def placeAhead (s : State) (d : Dir) (p : Place) : Bool :=
  match d with
  | .up => decide (s.aPos < (s.tables.working.places.get p).a.lo)
  | .down => decide ((s.tables.working.places.get p).a.hi < s.aPos)

/-- An accepted ARM LEG (R88): leg number, direction and place, target, leg active, ARMED, target change. Leaving HALTED takes halt
place and the permits with it. -/
def armLeg (s : State) (d : Dir) (p : Place) : State :=
  let l := { s.leg with number := s.leg.number + 1, dir := d, endPlace := p, frozen := false }
  let t := s.setLeg l
  let u := t.setLeg { computeTarget t with active := true, mismatchA := false, mismatchB := false }
  recompute (changeState u .armed .armLeg 0)

end Sys2Proof.Machine
end

