-- ==== Sys2Proof/Machine/PositionEstimator.lean ====
section
/-! DEFINITION. The Position Estimator: encoder arithmetic, coast travel, car offsets, degraded mode, the stationary timer and the table
activation (chapter 3). -/

namespace Sys2Proof.Machine

/-! ## The encoder -/

/-- A travel or a speed with the sign of a direction: positive when car A climbs. -/
def signed (d : Dir) (x : Nat) : Int :=
  match d with
  | .up => (x : Int)
  | .down => -(x : Int)

/-- The real part moved by a travel, clamped to 0..L × 1,000 (R49). -/
def moveReal (s : State) (travel : Int) : Nat := clampTo (s.line.lineLength * 1000) (s.est.real + travel)

/-- The count delta Δc, in −8,388,608..8,388,607 (R49). -/
def countDelta (old new : BitVec 24) : Int := (new - old).toInt

/-- The time delta Δt modulo 65,536, in 0.1 ms (R49). -/
def timeDelta (old new : BitVec 16) : Nat := (new - old).toNat

/-- The speed over an interval: ten times the travel's magnitude by Δt, at most 20,000 (R50). -/
def speedOver (travel : Int) (dt : Nat) : Nat := min Config.speedCeiling (travel.natAbs * 10 / dt)

/-- The stationary timer after a speed update with speed `v` (R62). -/
def stationaryTimer (s : State) (v : Nat) : Timer :=
  if s.line.stationaryThreshold < v then none
  else match s.est.statTimer with
    | some t => some t
    | none => timerAfter s.now s.line.stationaryTime

/-- A speed update judges the stationary timer with the speed it leaves, and takes the stationary time in force (R62). -/
def judgeStationary (s : State) (e : Estimator) : Estimator :=
  { e with statTimer := stationaryTimer s e.v, statTime := s.line.stationaryTime }

/-- An encoder frame taken as a baseline: coast travel folded, the new baseline held (R48). -/
def encoderBaseline (s : State) (count : BitVec 24) (stamp : BitVec 16) : State :=
  s.setEst { s.est with real := s.rUm, coast := 0, baseline := some ⟨count, stamp⟩ }

/-- The estimator after an accepted healthy encoder frame (R49, R50). -/
def healthyEstimate (s : State) (b : EncoderBaseline) (count : BitVec 24) (stamp : BitVec 16) : Estimator :=
  let dc := countDelta b.count count
  let travel := dc * s.line.encoderScale
  let v := speedOver travel (timeDelta b.stamp stamp)
  judgeStationary s { s.est with
    real := moveReal s travel, coast := 0, v := v
    dir := if 0 < dc then .up else if dc < 0 then .down else s.est.dir
    baseline := some ⟨count, stamp⟩ }

/-- The estimator after an accepted encoder frame flagged not healthy: dead reckoning at the held speed (R51). -/
def unhealthyEstimate (s : State) (b : EncoderBaseline) (count : BitVec 24) (stamp : BitVec 16) : Estimator :=
  judgeStationary s { s.est with
    real := moveReal s (signed s.est.dir (s.est.v * timeDelta b.stamp stamp / 10)), coast := 0, baseline := some ⟨count, stamp⟩ }

/-- An accepted encoder frame (R49, R51). With no baseline held, which no run reaches, the frame becomes the baseline (log 21). -/
def encoderSample (s : State) (p : List Byte) : State :=
  match s.est.baseline with
  | none => encoderBaseline s (encoderCount p) (encoderStamp p)
  | some b =>
    if encoderHealthy p then positionUpdate (s.setEst (healthyEstimate s b (encoderCount p) (encoderStamp p))) .speed
    else positionUpdate (s.setEst (unhealthyEstimate s b (encoderCount p) (encoderStamp p))) .speed

/-- An encoder substitute: coast travel at the held speed for one late timeout (R52). -/
def encoderSubstitute (s : State) (lateTimeout : Nat) : State :=
  positionUpdate (s.setEst (judgeStationary s { s.est with coast := s.est.coast + signed s.est.dir (s.est.v * lateTimeout) })) .speed

/-! ## The car offsets (R54 to R58) -/

/-- An offset drawn toward a report by the slew (R56, step 3). -/
def slewed (lc : LineConstants) (off e : Int) : Int := off + clampMag lc.offsetSlew e

/-- An offset lies past the stretch limit (R56, step 4). -/
def overStretch (lc : LineConstants) (off : Int) : Bool := decide (lc.stretchLimit < off.natAbs)

/-- An offset within the stretch limit. -/
def heldOffset (lc : LineConstants) (off : Int) : Int := clampMag lc.stretchLimit off

/-- A discrepancy exceeds the disagreement limit (R56, step 2). -/
def disagrees (lc : LineConstants) (e : Int) : Bool := decide (lc.disagreementLimit < e.natAbs)

/-- A car A report of quality 1 or 2, `c` already clamped to L (R55, R56). -/
def carAReport (s : State) (c : Nat) : State :=
  if !s.est.ropeEst then
    positionUpdate (s.setEst { s.est with real := c * 1000, coast := 0, offA := 0, agedA := false, ropeEst := true }) .carSet
  else
    let e := (c : Int) - (s.rMm + s.est.offA)
    if disagrees s.line e then raiseFault s .positionDisagree
    else
      let off := slewed s.line s.est.offA e
      let t := s.setEst { s.est with offA := heldOffset s.line off, agedA := false }
      positionUpdate (raiseIf t (overStretch s.line off) .stretchLimit) .carReport

/-- A car B report of quality 1 or 2 (R57, R58). -/
def carBReport (s : State) (c : Nat) : State :=
  if !s.est.ropeEst then s
  else if !s.est.offBSet then
    let off := (c : Int) - (s.line.ropeSum - s.rMm)
    let t := s.setEst { s.est with offB := heldOffset s.line off, offBSet := true, agedB := false }
    positionUpdate (raiseIf t (overStretch s.line off) .stretchLimit) .carSet
  else
    let e := (c : Int) - (s.line.ropeSum - s.rMm + s.est.offB)
    if disagrees s.line e then raiseFault s .positionDisagree
    else
      let off := slewed s.line s.est.offB e
      let t := s.setEst { s.est with offB := heldOffset s.line off, agedB := false }
      positionUpdate (raiseIf t (overStretch s.line off) .stretchLimit) .carReport

/-- An accepted car position frame, taken by its quality (R54). -/
def carSample (s : State) (car : Car) (p : List Byte) : State :=
  if carQuality p = 0 then s
  else
    let c := min (carChainage p) s.line.lineLength
    match car with
    | .a => carAReport s c
    | .b => carBReport s c

/-! ## Degraded mode (R59) -/

/-- A car's offset is marked aged. -/
def markAged (s : State) (c : Car) : State :=
  match c with
  | .a => s.setEst { s.est with agedA := true }
  | .b => s.setEst { s.est with agedB := true }

/-- A car position source is LOST. -/
def carLost (s : State) : Bool := s.roleIn .carAPosition .lost || s.roleIn .carBPosition .lost

/-- Degraded follows the LOST state of the car sources; a change is handed on as a position update (R59, R80). -/
def refreshDegraded (s : State) : State :=
  if s.est.degraded = carLost s then s
  else positionUpdate (s.setEst { s.est with degraded := carLost s }) .degradedChange

/-! ## Table activation (R60) -/

/-- The estimator brought into the Line Constants now in force, `old` being those before. -/
def activatedEstimate (s : State) (old : LineConstants) : Estimator :=
  let kept := decide (old.ropeSum = s.line.ropeSum)
  let offB := if kept then s.est.offB else 0
  { s.est with
    real := min s.est.real (s.line.lineLength * 1000)
    offA := heldOffset s.line s.est.offA, offB := heldOffset s.line offB
    offBSet := kept && s.est.offBSet, agedB := kept && s.est.agedB
    degraded := carLost s }

/-- The Position Estimator takes an activation: its state first, STRETCH_LIMIT once for each offset clamped, then the position update
(R60). Degraded follows the records as the activation left them (R59, log 28). -/
def activateEstimator (s : State) (old : LineConstants) : State :=
  let overA := overStretch s.line s.est.offA
  let overB := decide (old.ropeSum = s.line.ropeSum) && overStretch s.line s.est.offB
  let t := s.setEst (activatedEstimate s old)
  positionUpdate (raiseIf (raiseIf t overA .stretchLimit) overB .stretchLimit) .activation

end Sys2Proof.Machine
end

