-- ==== Sys2Proof/Machine/SourceTracker.lean ====
section
/-! DEFINITION. The Source Tracker: the judgement of presented frames, the delivery of accepted ones, late timer expiries, substitutes and
LOST declarations, and the comparison of records at a table activation (chapter 2; R136 to R138). -/

namespace Sys2Proof.Machine

/-! ## Console demands (R136 to R139) -/

/-- The Demand Limiter takes an accepted console demand: clamp, last console demand, direction check, departure report, queueing. -/
def consoleDemand (s : State) (f : RxFrame) : State :=
  let received := demandSetpoint f.payload
  let d : LastDemand := { setpoint := min received Config.speedCeiling, enable := demandEnable f.payload, dir := demandDir f.payload }
  let t := s.setLim { s.lim with last := some d }
  let u := raiseIf t (t.leg.run.motion && decide (d.dir ≠ t.leg.dir)) .directionConflict
  let w := departureReport u d
  offerDemand w { dst := f.dst, src := f.src, seq := f.seq, offered := d.setpoint, received := received, enable := d.enable
                  dir := d.dir, generated := false }

/-! ## Delivery (R38) -/

/-- An accepted frame is delivered to the consumer of its role (R22, R38). -/
def deliver (s : State) (r : Role) (f : RxFrame) : State :=
  match r with
  | .encoder => encoderSample s f.payload
  | .carAPosition => carSample s .a f.payload
  | .carBPosition => carSample s .b f.payload
  | .carADoors => judgeDoors s f.payload
  | .carBDoors => judgeDoors s f.payload
  | .tension => judgeTension s f.payload
  | .loopDetector => evaluatePermits s
  | .drive => judgeDrive s f.payload
  | .console => consoleDemand s f

/-! ## Records -/

/-- Replaces the Source Record at an index. -/
def setRecord (s : State) (i : Fin 16) (r : SourceRecord) : State := s.setSources (s.sources.set i r)

/-- What other blocks do at a change of a record's sync state: degraded follows a car source, with its offset aged at LOST (R59); the
door permits follow a loop detector (R102); the generation timer stops when CONSOLE reaches SYNC and starts when it goes LOST in
SERVICE_STOP (R146, R147). -/
def syncChanged (s : State) (r : Role) (new : SyncState) : State :=
  match r with
  | .carAPosition => refreshDegraded (if new = .lost then markAged s .a else s)
  | .carBPosition => refreshDegraded (if new = .lost then markAged s .b else s)
  | .loopDetector => evaluatePermits s
  | .console =>
    if new = .sync then s.setLim { s.lim with genTimer := none }
    else if new = .lost ∧ s.leg.run = .serviceStop then generateAtCeiling s
    else s
  | _ => s

/-- A record takes a new value; a change of its sync state sends one SOURCE_STATE notice (R43) and is seen by the other blocks. -/
def updateRecord (s : State) (i : Fin 16) (r : SourceRecord) (cause : SourceCause) : State :=
  let old := (s.record i).sync
  let t := setRecord s i r
  if r.sync = old then t
  else syncChanged (notify t (.sourceState i (s.entry i) old r.sync cause r.subs)) (s.entry i).role r.sync

/-- The late timer armed with the entry's late timeout (R34). -/
def armed (s : State) (i : Fin 16) : Timer := timerAfter s.now (s.entry i).lateTimeout

/-! ## Presented frames (R27 to R33) -/

/-- A malformed frame: jumps rises by 1 and nothing else changes (R27). -/
def malformed (s : State) (i : Fin 16) : State :=
  setRecord s i { s.record i with counters := (s.record i).counters.bumpJumps }

/-- The record with a frame as its baseline (R29). -/
def baselineRecord (s : State) (i : Fin 16) (seq : Byte) (c : SourceCounters) : SourceRecord :=
  { s.record i with sync := .hunt, baselineHeld := true, expected := seq + 1, subs := 0, timer := armed s i, counters := c }

/-- A frame taken as the baseline of a hunt; an encoder frame also becomes the Position Estimator's baseline (R29, R33). -/
def takeBaseline (s : State) (i : Fin 16) (f : RxFrame) (c : SourceCounters) : State :=
  let t := updateRecord s i (baselineRecord s i f.seq c) .arrival
  if (s.entry i).role = .encoder then encoderBaseline t (encoderCount f.payload) (encoderStamp f.payload) else t

/-- The record after an accepted frame with sequence difference `d` (R29, R30). -/
def acceptedRecord (s : State) (i : Fin 16) (f : RxFrame) (d : Nat) : SourceRecord :=
  { sync := .sync, baselineHeld := false, expected := f.seq + 1, subs := 0, timer := armed s i
    counters := (s.record i).counters.accept d, lastPayload := some f.payload }

/-- The third test of R27: an encoder frame that would be accepted carries the baseline's timestamp. -/
def zeroDelta (s : State) (i : Fin 16) (p : List Byte) : Bool :=
  decide ((s.entry i).role = .encoder) &&
  match s.est.baseline with
  | some b => decide (b.stamp = encoderStamp p)
  | none => false

/-- A frame found acceptable: malformed by its time delta, or accepted and delivered (R27, R30, R38). -/
def accept (s : State) (i : Fin 16) (f : RxFrame) (d : Nat) : State :=
  if zeroDelta s i f.payload then malformed s i
  else deliver (updateRecord s i (acceptedRecord s i f d) .inOrder) (s.entry i).role f

/-- The record after a JUMP (R31). -/
def jumpRecord (r : SourceRecord) : SourceRecord :=
  { r with sync := .hunt, baselineHeld := false, subs := 0, timer := none, counters := r.counters.bumpJumps }

/-- A good frame presented to the Source Record at an index (R26 to R33). -/
def present (s : State) (i : Fin 16) (f : RxFrame) : State :=
  let r := s.record i
  let d := (f.seq - r.expected).toNat
  if !wellFormedPayload (s.entry i).role f.payload then malformed s i
  else
    match r.sync with
    | .lost => takeBaseline s i f r.counters
    | .hunt =>
      if !r.baselineHeld then takeBaseline s i f r.counters
      else if d = 0 then accept s i f 0
      else takeBaseline s i f r.counters.bumpJumps
    | .sync | .coast =>
      if d ≤ 7 then accept s i f d
      else if d ≤ 127 then updateRecord s i (jumpRecord r) .jump
      else setRecord s i { r with counters := r.counters.bumpLate }

/-! ## Late timer expiry (R35, R36, R39, R40) -/

/-- The LOST fault kind of a role (R40). -/
def Role.lostKind : Role → FaultKind
  | .encoder => .encoderLost | .carAPosition => .carAPositionLost | .carBPosition => .carBPositionLost
  | .carADoors => .doorSourceLost | .carBDoors => .doorSourceLost | .tension => .tensionLost
  | .loopDetector => .loopDetectorLost | .drive => .driveLost | .console => .consoleLost

/-- The console substitute: in a motion state or SERVICE_STOP a demand is generated at the last console setpoint (R145). -/
def consoleSubstitute (s : State) : State :=
  if s.leg.run.energized then generateDemand s ((s.lim.last.map (·.setpoint)).getD 0) else s

/-- A substitute is handed to the consumers of its role (R39). -/
def takeSubstitute (s : State) (i : Fin 16) : State :=
  match (s.entry i).role with
  | .encoder => encoderSubstitute s (s.entry i).lateTimeout
  | .carAPosition => markAged s .a
  | .carBPosition => markAged s .b
  | .console => consoleSubstitute s
  | .carADoors | .carBDoors | .tension | .loopDetector | .drive => s

/-- The record after a substitute (R35). -/
def substituteRecord (s : State) (i : Fin 16) : SourceRecord :=
  let r := s.record i
  { r with sync := .coast, subs := r.subs + 1, expected := r.expected + 1, timer := armed s i
           counters := r.counters.bumpSubstitutes }

/-- The record gone LOST (R35). -/
def lostRecord (r : SourceRecord) : SourceRecord := { r with sync := .lost, timer := none }

/-- The record with its baseline dropped (R36). -/
def droppedRecord (r : SourceRecord) : SourceRecord := { r with baselineHeld := false, timer := none }

/-- The late timer of the record at an index expires (R35, R36). The SOURCE_STATE notice of a change to COAST is offered before the substitute
is handed to its consumers, an order that R35, R39 and R43 leave open (DESIGN CHOICE, log 38). -/
def lateExpiry (s : State) (i : Fin 16) : State :=
  let r := s.record i
  match r.sync with
  | .sync | .coast =>
    if r.subs < (s.entry i).maxSubs then takeSubstitute (updateRecord s i (substituteRecord s i) .expiry) i
    else raiseFault (updateRecord s i (lostRecord r) .expiry) (s.entry i).role.lostKind
  | .hunt => setRecord s i (droppedRecord r)
  | .lost => setRecord s i { r with timer := none }

/-! ## Presentation (R26) and table activation (R44) -/

/-- The entry in use to whose record a frame is presented: its address is the frame's source and its role is tracked on the frame's
kind (R26). -/
def presentedTo (s : State) (f : RxFrame) : Option (Fin 16) :=
  if s.tables.valid then
    s.tables.working.sources.find fun e => decide (e.address = f.src.toNat) && decide (e.role.trackedKind = f.kind)
  else none

/-- A record restarted by an activation (R44). Its expected sequence, which R44 does not name, is set to 0, as every reset sets it; the next
frame replaces it unread (DESIGN CHOICE, log 36). -/
def restartedRecord : SourceRecord := SourceRecord.fresh SourceCounters.zero

/-- One record compared with its old and new entries (R44); `wasIn` says that the index was in use in the old set. -/
def compareRecord (old : SourceTable) (oldValid : Bool) (s : State) (i : Fin 16) : State :=
  let new := s.tables.working.sources
  let wasIn := oldValid && decide (i.val < old.count)
  if i.val < new.count then
    if wasIn && decide (old.entries[i] = new.entries[i]) then s
    else
      let r := s.record i
      let t := setRecord s i restartedRecord
      if r.sync = .hunt then t else notify t (.sourceState i new.entries[i] r.sync .hunt .activation 0)
  else if wasIn then setRecord s i { s.record i with timer := none }
  else s

/-- The Source Records compared with the old and new Source Tables, index by index (R44, R183). -/
def activateSources (s : State) (old : SourceTable) (oldValid : Bool) : State :=
  (List.finRange 16).foldl (compareRecord old oldValid) s

end Sys2Proof.Machine
end

