-- ==== Sys2Proof/Machine/Store.lean ====
section
/-! DEFINITION. The Table Store: programming block by block, the completion of a COMMIT, the judgement and activation of the start-up
load, and VERIFY (chapter 10; R5, R44, R60, R79). -/

namespace Sys2Proof.Machine

/-! ## Blocks against the header (R179) -/

/-- Every block of 1 to 5 matches the header. -/
def allMatch (header : List Byte) (blocks : Vector (List Byte) 5) : Bool :=
  (List.finRange 5).all fun i => blockMatches header (i.val + 1) blocks[i]

/-- What the block under way can hold at its end (R182, log 9): what was written; or, where the write went wrong, for a block of 1 to 5
bytes that do not match the old header, for block 0 a header that fails its own check or names blocks other than those held. -/
def canHold (t : Tables) (p : Programming) (held : List Byte) : Bool :=
  decide (held = p.bytes) ||
  if p.block = 0 then !(headerGood held && allMatch held t.blocks) else !blockMatches t.header p.block.val held

/-- What a block can hold that a reset lets finish: a block of 1 to 5 carries the new generation (R184, log 9). -/
def canFinish (t : Tables) (p : Programming) (held : List Byte) : Bool :=
  canHold t p held && (decide (p.block = 0) || decide (held.take 2 = p.bytes.take 2))

/-! ## Programming (R182) -/

/-- The bytes a block is given under a COMMIT of a set: blocks 1 to 5 the new generation and the table, block 0 the new count and the
checks of the blocks as just written (R179, R182). -/
def writtenBytes (s : State) (set : TableSet) (k : Fin 6) : List Byte :=
  if k = 0 then headerBytes (s.tables.commitCount + 1) s.tables.blocks
  else blockBytes (s.tables.commitCount + 1) set k.val

/-- The erase-and-write of a block begins. -/
def startBlock (s : State) (set : TableSet) (k : Fin 6) : State :=
  s.setTables { s.tables with programming := some ⟨k, writtenBytes s set k⟩ }

/-- The block under way reaches its end and holds `held`. -/
def holdBlock (t : Tables) (k : Fin 6) (held : List Byte) : Tables :=
  if h : k.val = 0 then { t with header := held, programming := none }
  else { t with blocks := t.blocks.set (k.val - 1) held (by omega), programming := none }

/-- The block programmed after block `k`, 1 to 5: the next one, and after block 5 the header. -/
def nextBlock (k : Fin 6) : Fin 6 := if k = 5 then 0 else k + 1

/-- The store operation returns to none (R164, R175). -/
def clearOp (s : State) : State := s.setResp { s.resp with op := .none }

/-! ## Activation (R183, R180) -/

/-- The working copy takes a set and the tables become valid; both Restriction Lists are derived (R5, R20). -/
def takeSet (s : State) (set : TableSet) : State :=
  deriveLists (s.setTables { s.tables with working := set, valid := true })

/-- The completion of a COMMIT up to its reply: count, working copy, lists, Source Records, Position Estimator (R183, steps 1 to 5). -/
def commitActivate (s : State) (set : TableSet) : State :=
  let old := s.tables
  let t := s.setTables { old with commitCount := old.commitCount + 1 }
  let u := activateSources (takeSet t set) old.working.sources old.valid
  activateEstimator u old.working.line

/-- The completion of a COMMIT (R183). -/
def commitComplete (s : State) (dst : Byte) (port : PortId) (set : TableSet) : State :=
  let t := commitActivate s set
  clearOp (reply t port dst Request.commit.code .done (toBytes 2 t.tables.commitCount.toNat))

/-- The erase-and-write and the read-back of the block under way end (R182): a mismatch stops the COMMIT with STORE_FAULT, a match goes
on to the next block or completes. A block that comes to hold what it cannot is no event of the part, and nothing changes (log 9, 32). -/
def blockProgrammed (s : State) (fault : Option (List Byte)) : State :=
  match s.tables.programming, s.resp.op with
  | some p, .commit dst port set =>
    let held := fault.getD p.bytes
    let t := s.setTables (holdBlock s.tables p.block held)
    if !canHold s.tables p held then s
    else if held ≠ p.bytes then clearOp (reply t port dst Request.commit.code .storeFault [byteOf p.block.val])
    else if p.block = 0 then commitComplete t dst port set
    else startBlock t set (nextBlock p.block)
  | _, _ => s

/-! ## COMMIT at its acceptance (R181) -/

/-- COMMIT in MAINTENANCE: snapshot with the forcing, checks, wear, start. `staged` is the staged copy as it stands. -/
def acceptCommit (s : State) (port : PortId) (dst : Byte) (staged : TableSet) : State :=
  let set := forceSubs staged
  match checkSet s.straps.own set with
  | some (table, index) => reply s port dst Request.commit.code .checkFailed [byteOf table, byteOf index]
  | none =>
    if s.tables.commitCount = 65535 then reply s port dst Request.commit.code .storeWorn []
    else startBlock (s.setResp { s.resp with op := .commit dst port set }) set 1

/-! ## The start-up load (R180) -/

/-- What the load decides: the commit count, and the set where every step passes. -/
def judgeLoad (own : Byte) (header : List Byte) (blocks : Vector (List Byte) 5) : BitVec 16 × Option TableSet :=
  if !headerGood header then (0, none)
  else if !allMatch header blocks then (headerCount header, none)
  else
    let set := tableSetOf blocks
    match checkSet own set with
    | some _ => (headerCount header, none)
    | none => (headerCount header, some (forceSubs set))

/-- The start-up load decides (R180). The Source Records stand as the reset left them (R44, R45). -/
def loadDecides (s : State) : State :=
  let r := judgeLoad s.straps.own s.tables.header s.tables.blocks
  let t := (s.setTables { s.tables with commitCount := r.1 }).setPhase .running
  match r.2 with
  | none => t
  | some set => activateEstimator (takeSet t set) s.tables.working.line

/-! ## VERIFY (R185) -/

/-- The last block of a range: a count of 0 is taken as 1, and the range is cut at block 5. -/
def verifyLast (first count : Nat) : Nat := min 5 (first + max 1 count - 1)

/-- The mismatching blocks as the reply carries them: bit b for block b (R162). -/
def verifyMask (bad : List Nat) : Nat := ((List.range 6).filter fun b => bad.contains b).foldl (fun m b => m + 2 ^ b) 0

/-- The reply of a VERIFY; the store operation returns to none. -/
def verifyDone (s : State) (port : PortId) (dst : Byte) (bad : List Nat) : State :=
  clearOp (reply s port dst (Request.verify 0 0).code .done [byteOf (verifyMask bad)])

/-- The blocks `first .. last`. -/
def blockRange (first last : Nat) : List Nat := (List.range 6).filter fun b => decide (first ≤ b ∧ b ≤ last)

/-- An accepted VERIFY: the header is read; where its own check fails every block of the range mismatches and the VERIFY ends (log 19). -/
def startVerify (s : State) (port : PortId) (dst : Byte) (first count : Nat) : State :=
  let last := verifyLast first count
  if headerGood s.tables.header then s.setResp { s.resp with op := .verify dst port first last [] }
  else
    let bad := blockRange first last
    verifyDone (bad.foldl (fun t _ => raiseFault t .storeMismatch) s) port dst bad

/-- Block `k`, 1 to 5, matches the header in the store as it stands (R179). -/
def storeMatches (s : State) (k : Nat) : Bool :=
  if h : k - 1 < 5 then blockMatches s.tables.header k s.tables.blocks[k - 1] else false

/-- A block read of a VERIFY completes: the block is judged, a mismatch raised, and after the last block the reply given (R185). -/
def verifyRead (s : State) : State :=
  match s.resp.op with
  | .verify dst port next last bad =>
    let found := !storeMatches s next
    let bad := if found then bad ++ [next] else bad
    let t := raiseIf s found .storeMismatch
    if next < last then t.setResp { t.resp with op := .verify dst port (next + 1) last bad }
    else verifyDone t port dst bad
  | _ => s

end Sys2Proof.Machine
end

