-- ==== Sys2Proof/Machine/Responder.lean ====
section
/-! DEFINITION. The Management Responder: the steps in which a request is taken, and the service of each of the sixteen requests
(chapter 9; R85 to R89, R130). -/

namespace Sys2Proof.Machine

/-! ## Replies -/

/-- The reply to a request: its code echoed, the reply code and the results (R165). -/
def answer (s : State) (p : PortId) (src : Byte) (r : Request) (rc : ReplyCode) (results : List Byte) : State :=
  reply s p src r.code rc results

/-- The answer to a payload that fails the form step: its first byte echoed, 00h for an empty payload (R162). -/
def answerUnknown (s : State) (p : PortId) (src : Byte) (payload : List Byte) : State :=
  reply s p src (payload.headD 0) .unknownCommand []

/-! ## Reading the part (R170, R171, R173) -/

/-- The sync states of four records in one byte, the lowest index in bits 7 and 6 (R162). -/
def syncByte (s : State) (a b c d : Fin 16) : Byte :=
  byteOf (64 * (s.record a).sync.num + 16 * (s.record b).sync.num + 4 * (s.record c).sync.num + (s.record d).sync.num)

/-- The results of STATUS READ (R162, R170). -/
def statusBytes (s : State) : List Byte :=
  [byteOf s.leg.run.num, byteOf (flagNum s.tables.valid), byteOf s.resp.seq.num] ++
  [syncByte s 0 1 2 3, syncByte s 4 5 6 7, syncByte s 8 9 10 11, syncByte s 12 13 14 15] ++
  toBytes 2 s.env.e ++ toBytes 2 s.est.v ++ toBytes 3 s.rMm ++ toBytes 3 s.aPos ++ toBytes 3 s.bPos ++ toBytes 3 s.leg.rStar

/-- STATUS READ (R170). -/
def serveStatusRead (s : State) (p : PortId) (src : Byte) : State := answer s p src .statusRead .done (statusBytes s)

/-- A fault record in the short form of FAULTS READ. -/
def shortFault (r : FaultRecord) : List Byte := [byteOf r.kind.num, byteOf r.count, byteOf r.stateAtRaise.num]

/-- A fault record in the full form. -/
def fullFault (r : FaultRecord) : List Byte :=
  shortFault r ++ toBytes 4 r.firstTime.toNat ++ toBytes 3 r.rMm ++ toBytes 3 r.aPos ++ toBytes 3 r.bPos

/-- The results of FAULTS READ over the records from the first kind onward. -/
def faultBytes (records : List FaultRecord) (full : Bool) : List Byte :=
  if full then
    match records with
    | [] => [0]
    | r :: _ => 1 :: fullFault r
  else
    byteOf (records.take Config.shortFaults).length :: (records.take Config.shortFaults).flatMap shortFault

/-- FAULTS READ (R171). -/
def serveFaultsRead (s : State) (p : PortId) (src first form : Byte) : State :=
  let r : Request := .faultsRead first form
  if first.toNat < 1 ∨ 31 < first.toNat ∨ 1 < form.toNat then answer s p src r .badIndex []
  else
    let records := s.trip.faults.filter fun x => decide (first.toNat ≤ x.kind.num)
    answer s p src r .done (faultBytes records (decide (form = 1)))

/-- STOP LOG READ (R110, R171). -/
def serveStopLogRead (s : State) (p : PortId) (src index : Byte) : State :=
  let r : Request := .stopLogRead index
  match s.leg.log[index.toNat]? with
  | none => answer s p src r .badIndex []
  | some x => answer s p src r .done (stopRecordBytes x)

/-- The Source Records with the counters of one cleared (R42). -/
def clearSourceCounters (s : State) (i : Fin 16) : State :=
  s.setSources (s.sources.set i { s.record i with counters := SourceCounters.zero })

/-- A port with its counters cleared (R152). -/
def clearPortCounters (s : State) (p : PortId) : State := s.setPort p { s.port p with counters := PortCounters.zero }

/-- COUNTERS READ of a port: read, cleared if asked, answered. -/
def servePortCounters (s : State) (p : PortId) (src : Byte) (r : Request) (which : PortId) (clear : Bool) : State :=
  let results := (s.port which).counters.bytes
  answer (if clear then clearPortCounters s which else s) p src r .done results

/-- COUNTERS READ (R42, R152, R171). -/
def serveCountersRead (s : State) (p : PortId) (src selector clear : Byte) : State :=
  let r : Request := .countersRead selector clear
  if 1 < clear.toNat then answer s p src r .badIndex []
  else if h : selector.toNat < 16 then
    let i : Fin 16 := ⟨selector.toNat, h⟩
    let results := (s.record i).counters.bytes
    answer (if clear = 1 then clearSourceCounters s i else s) p src r .done results
  else if selector = 0x40 then servePortCounters s p src r .a (decide (clear = 1))
  else if selector = 0x41 then servePortCounters s p src r .b (decide (clear = 1))
  else answer s p src r .badIndex []

/-- The copy a TABLE READ is answered from. A staged copy absent in MAINTENANCE, which no run reaches, reads as the working copy
(log 21). -/
def copyRead (s : State) (staged : Bool) : TableSet :=
  if staged then s.resp.staged.getD s.tables.working else s.tables.working

/-- TABLE READ (R173). -/
def serveTableRead (s : State) (p : PortId) (src table index copy : Byte) : State :=
  let r : Request := .tableRead table index copy
  if entryLength table.toNat index.toNat = none ∨ 1 < copy.toNat then answer s p src r .badIndex []
  else if copy = 1 ∧ s.leg.run ≠ .maintenance then answer s p src r .refusedState []
  else
    answer s p src r .done ([table, index] ++ entryBytes (copyRead s (decide (copy = 1))) table.toNat index.toNat)

/-! ## Moving the run state (R85 to R89, R130, R172) -/

/-- MAKE READY (R85). -/
def serveMakeReady (s : State) (p : PortId) (src : Byte) : State :=
  if s.leg.run ≠ .safe then answer s p src .makeReady .refusedState []
  else
    match notReady s with
    | some (reason, detail) => answer s p src .makeReady .notReady [byteOf reason, byteOf detail]
    | none => answer (changeState s .ready .makeReady 0) p src .makeReady .done []

/-- The results of an accepted ARM LEG: leg number, R* and split (R88, R162). -/
def armBytes (s : State) : List Byte :=
  toBytes 2 s.leg.number.toNat ++ toBytes 3 s.leg.rStar ++ [byteOf (flagNum s.leg.split)]

/-- ARM LEG (R87, R88). -/
def serveArmLeg (s : State) (p : PortId) (src direction place : Byte) : State :=
  let r : Request := .armLeg direction place
  if s.leg.run ≠ .ready ∧ s.leg.run ≠ .halted then answer s p src r .refusedState []
  else
    match Dir.ofByte? direction, Place.ofByte? place with
    | some d, some pl =>
      if !placeAhead s d pl then answer s p src r .badLeg []
      else if !(doorsClosed s .carADoors && doorsClosed s .carBDoors) then answer s p src r .doorsOpen []
      else answer (armLeg s d pl) p src r .done (armBytes (armLeg s d pl))
    | _, _ => answer s p src r .badLeg []

/-- DISARM (R89). -/
def serveDisarm (s : State) (p : PortId) (src : Byte) : State :=
  if s.leg.run ≠ .armed then answer s p src .disarm .refusedState []
  else answer (endLeg (changeState s .ready .disarm 0)) p src .disarm .done []

/-- The Fault Set that RESET TRIP leaves (R130). -/
def tripCleared (s : State) : State := s.setTrip { s.trip with faults := s.trip.faults.filter (keptAtReset s) }

/-- RESET TRIP (R130). -/
def serveResetTrip (s : State) (p : PortId) (src : Byte) : State :=
  if s.leg.run ≠ .safe then answer s p src .resetTrip .refusedState []
  else answer (tripCleared s) p src .resetTrip .done [byteOf (tripCleared s).trip.faults.length]

/-! ## Maintenance (R168, R169, R174 to R176) -/

/-- The sequence becomes FROZEN; requester and echo become absent (R169). -/
def freeze (s : State) : State := s.setResp { s.resp with seq := .frozen, requester := none, echo := none }

/-- A request is the matching confirm of the entry pending (R169). -/
def confirmMatches (s : State) (src : Byte) (r : Request) : Bool :=
  match r with
  | .maintenanceConfirm echo => decide (s.resp.requester = some src) && decide (s.resp.echo = some echo)
  | _ => false

/-- MAINTENANCE with the staged copy made of the working copy; the sequence returns to IDLE (R6, R86, R169). -/
def enterMaintenance (s : State) : State :=
  let t := changeState s .maintenance .maintenanceEntry 0
  t.setResp { t.resp with seq := .idle, requester := none, echo := none, staged := some t.tables.working }

/-- The matching confirm (R86, R169). Where the entry is refused the sequence freezes, since the entry was not completed (log 16). -/
def completeEntry (s : State) (p : PortId) (src : Byte) (r : Request) : State :=
  if s.leg.run = .safe then answer (enterMaintenance s) p src r .done []
  else answer (freeze s) p src r .refusedState []

/-- MAINTENANCE REQUEST at its own step (R168). -/
def serveMaintenanceRequest (s : State) (p : PortId) (src : Byte) : State :=
  if s.resp.seq = .frozen then answer s p src .maintenanceRequest .frozen []
  else if s.leg.run ≠ .safe then answer s p src .maintenanceRequest .refusedState []
  else
    let t := s.setResp { s.resp with seq := .pending, requester := some src, echo := some s.tables.commitCount }
    answer t p src .maintenanceRequest .done (toBytes 2 s.tables.commitCount.toNat)

/-- MAINTENANCE CONFIRM at its own step: FROZEN, or REFUSED_STATE in IDLE (R169). -/
def serveMaintenanceConfirm (s : State) (p : PortId) (src : Byte) (echo : BitVec 16) : State :=
  answer s p src (.maintenanceConfirm echo) (if s.resp.seq = .frozen then .frozen else .refusedState) []

/-- TABLE WRITE (R7, R174). -/
def serveTableWrite (s : State) (p : PortId) (src table index : Byte) (entry : List Byte) : State :=
  let r : Request := .tableWrite table index entry
  if s.leg.run ≠ .maintenance then answer s p src r .refusedState []
  else if entryLength table.toNat index.toNat = none then answer s p src r .badIndex []
  else
    let w := writeEntry (copyRead s true) table.toNat index.toNat entry
    answer (s.setResp { s.resp with staged := some w.1 }) p src r (if w.2 then .doneClamped else .done) []

/-- COMMIT (R175, R181). -/
def serveCommit (s : State) (p : PortId) (src : Byte) : State :=
  if s.leg.run ≠ .maintenance then answer s p src .commit .refusedState []
  else acceptCommit s p src (copyRead s true)

/-- VERIFY (R175, R185). -/
def serveVerify (s : State) (p : PortId) (src first count : Byte) : State :=
  if first.toNat < 1 ∨ 5 < first.toNat then answer s p src (.verify first count) .badIndex []
  else startVerify s p src first.toNat count.toNat

/-- LEAVE MAINTENANCE (R86, R176). -/
def serveLeaveMaintenance (s : State) (p : PortId) (src : Byte) : State :=
  if s.leg.run ≠ .maintenance then answer s p src .leaveMaintenance .refusedState []
  else
    answer (changeState (s.setResp { s.resp with staged := none }) .safe .leaveMaintenance 0) p src .leaveMaintenance .done []

/-- RESTART (R177): the reply is marked as the one at whose end the reset is taken. -/
def serveRestart (s : State) (p : PortId) (src : Byte) : State :=
  if s.leg.run ≠ .safe ∧ s.leg.run ≠ .maintenance then answer s p src .restart .refusedState []
  else
    (s.setResp { s.resp with restartPending := true }).offer p
      (.reply src [Request.restart.code, byteOf ReplyCode.done.num] true)

/-! ## Taking a request (R165) -/

/-- The state-changing requests (R166). -/
def Request.stateChanging : Request → Bool
  | .makeReady | .armLeg _ _ | .disarm | .resetTrip | .maintenanceRequest | .maintenanceConfirm _ | .tableWrite _ _ _ | .commit
  | .leaveMaintenance | .restart => true
  | .statusRead | .faultsRead _ _ | .stopLogRead _ | .countersRead _ _ | .tableRead _ _ _ | .verify _ _ => false

/-- The requests answered BUSY while a store operation is in flight (R165, step 5). -/
def Request.needsStore : Request → Bool
  | .commit | .verify _ _ | .leaveMaintenance | .restart => true
  | _ => false

/-- A state-changing request is taken from an address: the console's while the tables are valid, any while they are not (R166). A valid set
without a CONSOLE entry, which no run reaches, takes it from none (log 21). -/
def sourceAllowed (s : State) (src : Byte) : Bool := !s.tables.valid || decide (s.consoleAddress = some src)

/-- A store operation is in flight (R164). -/
def StoreOp.inFlight : StoreOp → Bool
  | .none => false
  | .commit _ _ _ | .verify _ _ _ _ _ => true

/-- Step 6: the request's own conditions and service. -/
def serve (s : State) (p : PortId) (src : Byte) (r : Request) : State :=
  match r with
  | .statusRead => serveStatusRead s p src
  | .faultsRead k f => serveFaultsRead s p src k f
  | .resetTrip => serveResetTrip s p src
  | .makeReady => serveMakeReady s p src
  | .armLeg d pl => serveArmLeg s p src d pl
  | .disarm => serveDisarm s p src
  | .stopLogRead i => serveStopLogRead s p src i
  | .countersRead x c => serveCountersRead s p src x c
  | .tableRead t i c => serveTableRead s p src t i c
  | .tableWrite t i e => serveTableWrite s p src t i e
  | .commit => serveCommit s p src
  | .verify f n => serveVerify s p src f n
  | .maintenanceRequest => serveMaintenanceRequest s p src
  | .maintenanceConfirm e => serveMaintenanceConfirm s p src e
  | .leaveMaintenance => serveLeaveMaintenance s p src
  | .restart => serveRestart s p src

/-- Steps 4 to 6 (R165). -/
def serveFrom (s : State) (p : PortId) (src : Byte) (r : Request) : State :=
  if r.stateChanging && !sourceAllowed s src then answer s p src r .refusedSource []
  else if r.needsStore && s.resp.op.inFlight then answer s p src r .busy []
  else serve s p src r

/-- Every request but STATUS READ is answered BUSY during the load and while a restart is pending (R165 step 2, R167). -/
def startUpBusy (s : State) (r : Request) : Bool :=
  (decide (s.phase = .loading) || s.resp.restartPending) && decide (r ≠ .statusRead)

/-- A request that has passed the form step is taken whole (R165, steps 2 to 6). -/
def takeRequest (s : State) (p : PortId) (src : Byte) (r : Request) : State :=
  if startUpBusy s r then answer s p src r .busy []
  else if s.resp.seq = .pending then
    if confirmMatches s src r then completeEntry s p src r else serveFrom (freeze s) p src r
  else serveFrom s p src r

/-- A MGMT_REQUEST payload is taken: the form step first (R165, step 1). -/
def takePayload (s : State) (p : PortId) (src : Byte) (payload : List Byte) : State :=
  match parseRequest payload with
  | none => answerUnknown s p src payload
  | some r => takeRequest s p src r

end Sys2Proof.Machine
end

