-- ==== Sys2Proof/Machine/LinePorts.lean ====
section
/-! DEFINITION. The line ports' receivers and the Frame Sorter, and the arbiters at the end of a transmission (R26, R150 to R154, R157). -/

namespace Sys2Proof.Machine

/-! ## The Frame Sorter (R153, R154) -/

/-- A frame is forwarded to the other port's queue, byte for byte. -/
def forward (s : State) (arrival : PortId) (f : RxFrame) : State := s.offer (otherPort arrival) (.forwarded f.bytes)

/-- A counted event of a port (R152). -/
def countAt (s : State) (p : PortId) (k : PortCounter) : State := s.setPort p ((s.port p).bump k)

/-- A DEMAND on Port A: presented to the CONSOLE Source Record where it comes from that entry's address, else FOREIGN_DEMAND (R153, tests 4
and 5). -/
def consoleFrame (s : State) (f : RxFrame) : State :=
  match s.roleIndex .console with
  | some i => if byteOf (s.entry i).address = f.src then present s i f else countAt s .a .foreignDemand
  | none => countAt s .a .foreignDemand

/-- A SAMPLE: forwarded first, then presented where R26 admits it (R153 test 6, R154). -/
def sampleFrame (s : State) (p : PortId) (f : RxFrame) : State :=
  let t := forward s p f
  match presentedTo t f with
  | some i => present t i f
  | none => t

/-- The tests of the Frame Sorter in order (R153). -/
def sortFrame (s : State) (p : PortId) (f : RxFrame) : State :=
  if f.dst = s.straps.own then
    if f.kind = kindRequest then takePayload s p f.src f.payload else countAt s p .misaddressed
  else if f.kind = kindDemand then
    match p with
    | .b => forward s .b f
    | .a => consoleFrame s f
  else if f.kind = kindSample then sampleFrame s p f
  else forward s p f

/-! ## The receiver (R150, R151) -/

/-- Puts a receiver into a state. -/
def setRx (s : State) (p : PortId) (x : Option (List Byte)) : State := s.setPort p { s.port p with rx := x }

/-- A completed frame: CHECK counted and dropped, or counted good and sorted (R151). -/
def completeFrame (s : State) (p : PortId) (bs : List Byte) : State :=
  if frameGood bs then sortFrame (countAt s p .good) p (parseFrame bs) else countAt s p .check

/-- A character appended to a partial frame, judged by its place (R150). -/
def appendCharacter (s : State) (p : PortId) (bs : List Byte) (byte : Byte) : State :=
  let now := bs ++ [byte]
  if now.length = 5 ∧ Config.maxPayload < byte.toNat then setRx (countAt s p .length) p none
  else if 5 ≤ now.length ∧ now.length = 7 + field now 4 1 then completeFrame (setRx s p none) p now
  else setRx s p (some now)

/-- A received character by receiver state (R150). -/
def receiveCharacter (s : State) (p : PortId) (byte : Byte) (mark stopGood : Bool) : State :=
  match (s.port p).rx, mark, stopGood with
  | none, true, true => setRx s p (some [byte])
  | none, true, false => countAt s p .framing
  | none, false, _ => s
  | some _, true, true => setRx (countAt s p .aborted) p (some [byte])
  | some bs, false, true => appendCharacter s p bs byte
  | some _, _, false => setRx (countAt s p .framing) p none

/-- A break by receiver state (R150). -/
def lineBreak (s : State) (p : PortId) : State :=
  match (s.port p).rx with
  | none => s
  | some _ => setRx (countAt s p .aborted) p none

/-! ## The arbiters (R155 to R157) -/

/-- The waiting demand of a queue. -/
def waitingDemand (q : List OutFrame) : Option Demand :=
  match q.find? OutFrame.isDemand with
  | some (.demand d) => some d
  | _ => none

/-- The oldest frame of a port's queue is taken and its transmission begins. -/
def Port.sendOldest (p : Port) (own : Byte) : Port :=
  match p.queue with
  | [] => p
  | f :: rest => { p with queue := rest }.send own f

/-- An arbiter finds its line free: Port A takes the oldest frame, Port B the waiting demand or else the oldest. -/
def startNext (s : State) (p : PortId) : State :=
  match p with
  | .a => s.setPortA (s.portA.sendOldest s.straps.own)
  | .b =>
    match waitingDemand s.portB.queue with
    | some d => sendDemand (s.setPortB { s.portB with queue := s.portB.queue.eraseP OutFrame.isDemand }) d
    | none => s.setPortB (s.portB.sendOldest s.straps.own)

/-- The last character of the frame on a line has been sent: transmitted rises by 1, the line is free, the arbiter goes on (R157). -/
def transmitEnd (s : State) (p : PortId) : State :=
  match (s.port p).line with
  | none => s
  | some _ => startNext (s.setPort p ({ s.port p with line := none }.bump .transmitted)) p

end Sys2Proof.Machine
end

