-- ==== Sys2Proof/Machine/Resets.lean ====
section
/-! DEFINITION. The three resets, the two steps in which the Table Store takes them, and the RESTART reset at the end of a step (00_scope,
Resets; R5, R20, R45, R47, R66, R83, R113, R135, R148 to R152, R164, R177, R178). -/

namespace Sys2Proof.Machine

/-- The start-up load begins: the tables-valid flag becomes invalid (R5, R178 step 2). -/
def beginLoad (s : State) : State := (s.setTables { s.tables with valid := false }).setPhase .loading

/-- What survives a reset: `x` for RESTART, `cleared` for POR and RST. -/
def keptAtRestart {α : Type} (k : ResetKind) (x cleared : α) : α :=
  match k with
  | .restart => x
  | .por | .rst => cleared

/-- What POR clears: `cleared` for POR, `x` for RST and RESTART. -/
def clearedAtPor {α : Type} (k : ResetKind) (x cleared : α) : α :=
  match k with
  | .por => cleared
  | .rst | .restart => x

/-- The tables as a reset leaves them: the blank set and no count after POR (R5, log 11). -/
def resetTables (k : ResetKind) (t : Tables) : Tables :=
  { t with commitCount := clearedAtPor k t.commitCount 0, working := clearedAtPor k t.working blankSet }

/-- The Source Records after a reset (R45). -/
def resetSources (k : ResetKind) (v : Vector SourceRecord 16) : Vector SourceRecord 16 :=
  v.map fun r => SourceRecord.fresh (keptAtRestart k r.counters SourceCounters.zero)

/-- A port after a reset (R150, R152, R155 to R159). -/
def resetPort (k : ResetKind) (p : Port) : Port := Port.fresh (keptAtRestart k p.counters PortCounters.zero)

/-- Every block but the Table Store's progress, as a reset leaves it. -/
def resetBlocks (k : ResetKind) (straps : Straps) (s : State) : State :=
  { s with
    now := 0
    straps := straps
    tables := resetTables k s.tables
    resp := Responder.fresh
    sources := resetSources k s.sources
    est := Estimator.fresh
    env := Envelope.fresh (clearedAtPor k s.env.uphill []) (clearedAtPor k s.env.downhill [])
    leg := Leg.fresh (keptAtRestart k s.leg.number 0) (keptAtRestart k s.leg.log []) (keptAtRestart k s.leg.lastRecord 0)
    trip := Trip.fresh (keptAtRestart k s.trip.faults [])
    lim := Limiter.fresh
    portA := resetPort k s.portA
    portB := resetPort k s.portB }

/-- A reset is taken (R178): the blocks at once; then the load, or first the end of the block being programmed. -/
def resetPart (k : ResetKind) (straps : Straps) (s : State) : State :=
  let t := resetBlocks k straps s
  match t.tables.programming with
  | none => beginLoad t
  | some _ => t.setPhase .finishing

/-- A port holds the reply at whose end the RESTART reset is taken, waiting or on its line (R177). -/
def Port.holdsRestart (p : Port) : Bool := p.queue.any OutFrame.isRestart || (p.line.map (·.restart)).getD false

/-- The RESTART reset, taken in the step in which the reply has been sent, dropped or evicted (R177, log 20). The straps are
read again. -/
def settle (s : State) (straps : Option StrapLevels := none) : State :=
  if s.resp.restartPending && !s.portA.holdsRestart && !s.portB.holdsRestart then resetPart .restart (s.straps.reread straps) s
  else s

/-- A command other than a reset: nothing while a reset waits for the block under way (log 5), else its effect and then the RESTART reset
where it has become due, at the strap levels `straps`. -/
def taken (s : State) (f : State → State) (straps : Option StrapLevels := none) : Host.Outcome State Fault Refusal :=
  if s.phase = .finishing then .next s else .next (settle (f s) straps)

end Sys2Proof.Machine
end

