-- ==== Sys2Proof/Machine/LineCommands.lean ====
section
/-! DEFINITION. The meanings of RECEIVE_CHARACTER, LINE_BREAK and TRANSMIT_END (R150, R157, R177). -/

namespace Sys2Proof.Machine

/-- RECEIVE_CHARACTER: taken by receiver state; the character that completes a good frame brings about all the frame does (R150 to R154). -/
def execReceiveCharacter (e : PortEvent) (byte : Byte) (mark stopGood : Bool) (s : State) : Host.Outcome State Fault Refusal :=
  taken s (fun t => receiveCharacter t e.port byte mark stopGood) e.straps

/-- LINE_BREAK: a partial frame is dropped and ABORTED counted (R150). -/
def execLineBreak (p : PortId) (s : State) : Host.Outcome State Fault Refusal :=
  taken s fun t => lineBreak t p

/-- TRANSMIT_END: transmitted is counted, the line is free and the arbiter takes the next frame; the end of the RESTART reply takes the
RESTART reset (R157, R177). -/
def execTransmitEnd (e : PortEvent) (s : State) : Host.Outcome State Fault Refusal :=
  taken s (fun t => transmitEnd t e.port) e.straps

end Sys2Proof.Machine
end

