-- ==== Sys2Proof/Machine/RequestCommands.lean ====
section
/-! DEFINITION. The meanings of the seventeen request rows: the Responder takes the request from the port and the address it came from
(R165, log 4). -/

namespace Sys2Proof.Machine

/-- STATUS READ (R170). -/
def execStatusRead (p : PortId) (src : Byte) (s : State) : Host.Outcome State Fault Refusal :=
  taken s fun t => takeRequest t p src .statusRead

/-- FAULTS READ (R171). -/
def execFaultsRead (p : PortId) (src firstKind form : Byte) (s : State) : Host.Outcome State Fault Refusal :=
  taken s fun t => takeRequest t p src (.faultsRead firstKind form)

/-- RESET TRIP (R130, R172). -/
def execResetTrip (p : PortId) (src : Byte) (s : State) : Host.Outcome State Fault Refusal :=
  taken s fun t => takeRequest t p src .resetTrip

/-- MAKE READY (R85, R172). -/
def execMakeReady (p : PortId) (src : Byte) (s : State) : Host.Outcome State Fault Refusal :=
  taken s fun t => takeRequest t p src .makeReady

/-- ARM LEG (R87, R88, R172). -/
def execArmLeg (p : PortId) (src direction place : Byte) (s : State) : Host.Outcome State Fault Refusal :=
  taken s fun t => takeRequest t p src (.armLeg direction place)

/-- DISARM (R89, R172). -/
def execDisarm (p : PortId) (src : Byte) (s : State) : Host.Outcome State Fault Refusal :=
  taken s fun t => takeRequest t p src .disarm

/-- STOP LOG READ (R110, R171). -/
def execStopLogRead (p : PortId) (src index : Byte) (s : State) : Host.Outcome State Fault Refusal :=
  taken s fun t => takeRequest t p src (.stopLogRead index)

/-- COUNTERS READ (R42, R152, R171). -/
def execCountersRead (p : PortId) (src selector clear : Byte) (s : State) : Host.Outcome State Fault Refusal :=
  taken s fun t => takeRequest t p src (.countersRead selector clear)

/-- TABLE READ (R173). -/
def execTableRead (p : PortId) (src table index copy : Byte) (s : State) : Host.Outcome State Fault Refusal :=
  taken s fun t => takeRequest t p src (.tableRead table index copy)

/-- TABLE WRITE (R7, R174). An entry that is not as long as the entry named fails the form step (R162). -/
def execTableWrite (p : PortId) (src table index : Byte) (entry : List Byte) (s : State) : Host.Outcome State Fault Refusal :=
  taken s fun t => takePayload t p src (requestPayload (.tableWrite table index entry))

/-- COMMIT (R175, R181). -/
def execCommit (p : PortId) (src : Byte) (s : State) : Host.Outcome State Fault Refusal :=
  taken s fun t => takeRequest t p src .commit

/-- VERIFY (R175, R185). -/
def execVerify (p : PortId) (src first count : Byte) (s : State) : Host.Outcome State Fault Refusal :=
  taken s fun t => takeRequest t p src (.verify first count)

/-- MAINTENANCE REQUEST (R168). -/
def execMaintenanceRequest (p : PortId) (src : Byte) (s : State) : Host.Outcome State Fault Refusal :=
  taken s fun t => takeRequest t p src .maintenanceRequest

/-- MAINTENANCE CONFIRM (R169). -/
def execMaintenanceConfirm (p : PortId) (src : Byte) (echo : BitVec 16) (s : State) : Host.Outcome State Fault Refusal :=
  taken s fun t => takeRequest t p src (.maintenanceConfirm echo)

/-- LEAVE MAINTENANCE (R176). -/
def execLeaveMaintenance (p : PortId) (src : Byte) (s : State) : Host.Outcome State Fault Refusal :=
  taken s fun t => takeRequest t p src .leaveMaintenance

/-- RESTART (R177). -/
def execRestart (e : PortEvent) (src : Byte) (s : State) : Host.Outcome State Fault Refusal :=
  taken s (fun t => takeRequest t e.port src .restart) e.straps

/-- UNKNOWN_COMMAND: a payload that fails the form step (R162, R165 step 1). A payload that passes it is no such request (log 32). -/
def execUnknownCommand (p : PortId) (src : Byte) (payload : List Byte) (s : State) : Host.Outcome State Fault Refusal :=
  taken s fun t => if parseRequest payload = none then answerUnknown t p src payload else t

end Sys2Proof.Machine
end

