-- ==== Sys2Proof/Machine/ResetCommands.lean ====
section
/-! DEFINITION. The meanings of POWER_ON_RESET, RST and RESET_BLOCK_FINISHED (R178). -/

namespace Sys2Proof.Machine

/-- POWER_ON_RESET: the reset is taken, with the straps as it reads them (R148, R149, R178). -/
def execPowerOnReset (addr : BitVec 6) (rate : BitVec 2) (s : State) : Host.Outcome State Fault Refusal :=
  .next (resetPart .por (Straps.read addr rate) s)

/-- RST: as POR, the working copy, the Restriction Lists and the commit count held apart (R5, R20, R178). -/
def execRst (addr : BitVec 6) (rate : BitVec 2) (s : State) : Host.Outcome State Fault Refusal :=
  .next (resetPart .rst (Straps.read addr rate) s)

/-- The block that was being programmed when the reset was taken reaches its end; the load begins (R178, R184). A block that comes to hold
what it cannot is no event of the part, and nothing changes (log 9, 32). -/
def finishReset (s : State) (fault : Option (List Byte)) : State :=
  match s.tables.programming with
  | some p =>
    let held := fault.getD p.bytes
    if canFinish s.tables p held then beginLoad (s.setTables (holdBlock s.tables p.block held)) else s
  | none => s

/-- RESET_BLOCK_FINISHED: while a reset waits for the block under way, no read-back is made and the load begins (R178). -/
def execResetBlockFinished (fault : Option (List Byte)) (s : State) : Host.Outcome State Fault Refusal :=
  .next (if s.phase = .finishing then finishReset s fault else s)

end Sys2Proof.Machine
end

