-- ==== Sys2Proof/Machine/StoreCommands.lean ====
section
/-! DEFINITION. The meanings of START_UP_LOAD_COMPLETE, BLOCK_PROGRAMMED and VERIFY_BLOCK_READ (R180, R182, R183, R185). -/

namespace Sys2Proof.Machine

/-- START_UP_LOAD_COMPLETE: the load in progress decides (R180). -/
def execStartUpLoadComplete (s : State) : Host.Outcome State Fault Refusal :=
  taken s fun t => if t.phase = .loading then loadDecides t else t

/-- BLOCK_PROGRAMMED: the block under way ends and is read back (R182, R183). -/
def execBlockProgrammed (fault : Option (List Byte)) (s : State) : Host.Outcome State Fault Refusal :=
  taken s fun t => blockProgrammed t fault

/-- VERIFY_BLOCK_READ: the next block of the VERIFY in flight is judged (R185). -/
def execVerifyBlockRead (s : State) : Host.Outcome State Fault Refusal :=
  taken s fun t => verifyRead t

end Sys2Proof.Machine
end

