-- ==== Sys2Proof/Machine/Inputs.lean ====
section
/-! DEFINITION. Sampling, qualification and slip blanking of the six discrete inputs (R118, R131 to R133). -/

namespace Sys2Proof.Machine

/-- An input with one more raw sample. -/
def Input.sampled (x : Input) (raw : Bool) : Input := { x with history := pushSample x.history raw }

/-- The six inputs with one more sample each (R132). -/
def Inputs.sampled (t : Inputs) (raw : RawInputs) : Inputs :=
  { estop := t.estop.sampled raw.estop, otTop := t.otTop.sampled raw.otTop, otBottom := t.otBottom.sampled raw.otBottom
    slip := t.slip.sampled raw.slip, brkS := t.brkS.sampled raw.brkS, brkE := t.brkE.sampled raw.brkE }

/-- The Trip Unit with one more sample of the six inputs; the next is one qualification period later. -/
def takeSample (s : State) (raw : RawInputs) : State :=
  s.setTrip { s.trip with inputs := s.trip.inputs.sampled raw, sampleTimer := timerAfter s.now s.line.qualPeriod }

/-- The qualified value of an input takes a value. -/
def setQualified (s : State) (i : InputId) (x : Bool) : State :=
  s.setTrip { s.trip with inputs := s.trip.inputs.set i { s.trip.inputs.get i with qualified := x } }

/-- An input whose transitions the Leg Controller takes. -/
def InputId.isBrake : InputId → Bool
  | .brkS | .brkE => true
  | _ => false

/-- A qualified transition: the value, the raise, and for a brake input the departure test (R118). -/
def transition (s : State) (i : InputId) (x : Bool) : State :=
  let t := raiseInput (setQualified s i x) i x
  if i.isBrake then testBrakesOpen t else t

/-- The qualified value takes a judged value; a value that differs is a transition. -/
def qualify (s : State) (i : InputId) (x : Bool) : State :=
  if (s.trip.inputs.get i).qualified = x then s else transition s i x

/-- The judgement of SLIP changes the underlying value; the qualified value follows while the blanking timer is stopped (R133). -/
def judgeSlip (s : State) (x : Bool) : State :=
  let t := s.setTrip { s.trip with slipUnderlying := x }
  if t.trip.slipTimer = none then qualify t .slip x else t

/-- One input is judged against the window in force (R132). -/
def judgeInput (s : State) (i : InputId) : State :=
  match agreed s.line.qualWindow (s.trip.inputs.get i).history with
  | none => s
  | some x =>
    match i with
    | .slip => judgeSlip s x
    | .estop | .otTop | .otBottom | .brkS | .brkE => qualify s i x

/-- The six inputs in the order of R131 (log 12). -/
def inputOrder : List InputId := [.estop, .otTop, .otBottom, .slip, .brkS, .brkE]

/-- One sample of the six inputs and their judgement. -/
def sampleInputs (s : State) (raw : RawInputs) : State := inputOrder.foldl judgeInput (takeSample s raw)

/-- A sample is due: none has been taken since the reset (log 13), or one qualification period has passed since the last. -/
def sampleDue (s : State) : Bool := decide (s.trip.sampleTimer = none) || timerDue s.now s.trip.sampleTimer

/-- The slip blanking timer expires: the qualified value takes the underlying value (R133). -/
def releaseSlip (s : State) : State :=
  qualify (s.setTrip { s.trip with slipTimer := none }) .slip s.trip.slipUnderlying

end Sys2Proof.Machine
end

