-- ==== Sys2Proof/Machine/TimerCommands.lean ====
section
/-! DEFINITION. The meanings of the timer expiries and of QUALIFICATION_SAMPLE (R35, R36, R63, R94, R132, R133, R146). An expiry has its effect
when its timer is running and its time has come (log 2, 32). -/

namespace Sys2Proof.Machine

/-- The late timer of a live record has reached its time. -/
def lateDue (s : State) (i : Fin 16) : Bool := s.live i && timerDue s.now (s.record i).timer

/-- LATE_TIMER_EXPIRY (R35, R36). -/
def execLateTimerExpiry (i : Fin 16) (s : State) : Host.Outcome State Fault Refusal :=
  taken s fun t => if lateDue t i then lateExpiry t i else t

/-- GENERATION_TIMER_EXPIRY: one demand at the ramp ceiling, and the timer re-armed (R146). -/
def execGenerationTimerExpiry (s : State) : Host.Outcome State Fault Refusal :=
  taken s fun t => if timerDue t.now t.lim.genTimer then generateAtCeiling t else t

/-- STATIONARY: the timer re-armed by the stationary time of the last speed update, and the event taken by run state (R62, R63, R100). -/
def stationaryExpiry (s : State) : State :=
  takeStationary (s.setEst { s.est with statTimer := timerAfter s.now s.est.statTime })

/-- STATIONARY_TIMER_EXPIRY (R63). -/
def execStationaryTimerExpiry (s : State) : Host.Outcome State Fault Refusal :=
  taken s fun t => if timerDue t.now t.est.statTimer then stationaryExpiry t else t

/-- The brake-release timer expires: it stops, and in DEPART, where alone it runs, BRAKE_RELEASE_TIMEOUT is raised (R94). -/
def brakeReleaseExpiry (s : State) : State :=
  raiseIf (s.setLeg { s.leg with brakeTimer := none }) (decide (s.leg.run = .depart)) .brakeReleaseTimeout

/-- BRAKE_RELEASE_TIMER_EXPIRY (R94). -/
def execBrakeReleaseTimerExpiry (s : State) : Host.Outcome State Fault Refusal :=
  taken s fun t => if timerDue t.now t.leg.brakeTimer then brakeReleaseExpiry t else t

/-- QUALIFICATION_SAMPLE (R132). -/
def execQualificationSample (raw : RawInputs) (s : State) : Host.Outcome State Fault Refusal :=
  taken s fun t => if sampleDue t then sampleInputs t raw else t

/-- SLIP_BLANKING_TIMER_EXPIRY (R133). -/
def execSlipBlankingTimerExpiry (s : State) : Host.Outcome State Fault Refusal :=
  taken s fun t => if timerDue t.now t.trip.slipTimer then releaseSlip t else t

end Sys2Proof.Machine
end

