-- ==== Sys2Proof/Machine/Dispatch.lean ====
section
/-! DEFINITION. One arm per command. -/

namespace Sys2Proof.Machine

/-- The effect of a command on everything but the queue. -/
def exec (i : Instr) (s : State) : Host.Outcome State Fault Refusal :=
  match i with
  | .powerOnReset addrStraps rateStraps => Sys2Proof.Machine.execPowerOnReset addrStraps rateStraps s
  | .rst addrStraps rateStraps => Sys2Proof.Machine.execRst addrStraps rateStraps s
  | .startUpLoadComplete => Sys2Proof.Machine.execStartUpLoadComplete s
  | .receiveCharacter event byte mark stopGood => Sys2Proof.Machine.execReceiveCharacter event byte mark stopGood s
  | .lineBreak port => Sys2Proof.Machine.execLineBreak port s
  | .statusRead port src => Sys2Proof.Machine.execStatusRead port src s
  | .faultsRead port src firstKind form => Sys2Proof.Machine.execFaultsRead port src firstKind form s
  | .resetTrip port src => Sys2Proof.Machine.execResetTrip port src s
  | .makeReady port src => Sys2Proof.Machine.execMakeReady port src s
  | .armLeg port src direction place => Sys2Proof.Machine.execArmLeg port src direction place s
  | .disarm port src => Sys2Proof.Machine.execDisarm port src s
  | .stopLogRead port src index => Sys2Proof.Machine.execStopLogRead port src index s
  | .countersRead port src selector clear => Sys2Proof.Machine.execCountersRead port src selector clear s
  | .tableRead port src table index copy => Sys2Proof.Machine.execTableRead port src table index copy s
  | .tableWrite port src table index entry => Sys2Proof.Machine.execTableWrite port src table index entry s
  | .commit port src => Sys2Proof.Machine.execCommit port src s
  | .verify port src first count => Sys2Proof.Machine.execVerify port src first count s
  | .maintenanceRequest port src => Sys2Proof.Machine.execMaintenanceRequest port src s
  | .maintenanceConfirm port src echo => Sys2Proof.Machine.execMaintenanceConfirm port src echo s
  | .leaveMaintenance port src => Sys2Proof.Machine.execLeaveMaintenance port src s
  | .restart event src => Sys2Proof.Machine.execRestart event src s
  | .unknownCommand port src payload => Sys2Proof.Machine.execUnknownCommand port src payload s
  | .lateTimerExpiry index => Sys2Proof.Machine.execLateTimerExpiry index s
  | .generationTimerExpiry => Sys2Proof.Machine.execGenerationTimerExpiry s
  | .stationaryTimerExpiry => Sys2Proof.Machine.execStationaryTimerExpiry s
  | .brakeReleaseTimerExpiry => Sys2Proof.Machine.execBrakeReleaseTimerExpiry s
  | .qualificationSample raw => Sys2Proof.Machine.execQualificationSample raw s
  | .slipBlankingTimerExpiry => Sys2Proof.Machine.execSlipBlankingTimerExpiry s
  | .transmitEnd event => Sys2Proof.Machine.execTransmitEnd event s
  | .blockProgrammed fault => Sys2Proof.Machine.execBlockProgrammed fault s
  | .verifyBlockRead => Sys2Proof.Machine.execVerifyBlockRead s
  | .resetBlockFinished fault => Sys2Proof.Machine.execResetBlockFinished fault s

end Sys2Proof.Machine
end

