-- ==== Sys2Proof/Machine/Step.lean ====
section
/-! DEFINITION. One step of the part: the command at the front of the queue, or on an empty queue one millisecond of the timebase. -/

namespace Sys2Proof.Machine

/-- One step. On an empty queue the timebase advances by one millisecond (R112, log 1). -/
def step (s : State) : Host.Outcome State Fault Refusal :=
  match s.pending with
  | [] => .next (s.setNow (s.now + 1))
  | c :: rest => exec c (s.setPending rest)

/-- The state with the command a word spells at the front of its queue. The table gives no command any bits, so no word spells one. -/
def State.withFetchWord (s : State) (_nbits _w : Nat) : State := s

end Sys2Proof.Machine
end

