-- ==== Sys2Proof/Safety.lean ====
section
/-! DEFINITION. The vocabulary of the statements: the parts of the state and what leaves them alone, the conditions under which a command is
served, and the invariants of the part. -/

namespace Sys2Proof.Machine

/-! ## Frames -/

/-- The parts of the state, by owning block. -/
inductive Part where
  | pending | phase | now | straps | tables | resp | sources | est | env | leg | trip | lim | portA | portB
  deriving DecidableEq, Repr

/-- A part is the same in two states. -/
def Part.same (s t : State) : Part → Prop
  | .pending => t.pending = s.pending
  | .phase => t.phase = s.phase
  | .now => t.now = s.now
  | .straps => t.straps = s.straps
  | .tables => t.tables = s.tables
  | .resp => t.resp = s.resp
  | .sources => t.sources = s.sources
  | .est => t.est = s.est
  | .env => t.env = s.env
  | .leg => t.leg = s.leg
  | .trip => t.trip = s.trip
  | .lim => t.lim = s.lim
  | .portA => t.portA = s.portA
  | .portB => t.portB = s.portB

/-- Every part but those named is the same in both states. -/
def unchangedBut (changed : List Part) (s t : State) : Prop := ∀ p : Part, p ∉ changed → p.same s t

/-- The part a port is. -/
def portPart : PortId → Part
  | .a => .portA
  | .b => .portB

/-! ## Conditions on a state -/

/-- No reset, no start-up load and no restart is in progress (R167, R178). -/
abbrev ordinary (s : State) : Prop := s.phase = .running ∧ s.resp.restartPending = false

/-- A state-changing request is taken from an address (R166). -/
abbrev mayChangeState (s : State) (src : Byte) : Prop := s.tables.valid = false ∨ s.consoleAddress = some src

/-- A request is served in IDLE or FROZEN at step 6 (R165): nothing before that step answers it. -/
abbrev servable (s : State) (src : Byte) (r : Request) : Prop :=
  ordinary s ∧ s.resp.seq ≠ .pending ∧ (r.stateChanging = true → mayChangeState s src) ∧
  (r.needsStore = true → s.resp.op.inFlight = false)

/-- The role of a car's position source (R22). -/
def Car.positionRole : Car → Role
  | .a => .carAPosition
  | .b => .carBPosition

/-- The kind raised when a car's position source is LOST (R40). -/
def Car.positionLost : Car → FaultKind
  | .a => .carAPositionLost
  | .b => .carBPositionLost

/-- The eight conditions of MAKE READY (R85). -/
def readyConditions (s : State) : Prop :=
  s.tables.valid = true ∧
  (∀ x ∈ s.trip.faults, (s.response x.kind).action = .notice) ∧
  (s.roleIn .encoder .sync ∧ s.roleIn .console .sync ∧ s.roleIn .drive .sync) ∧
  s.established = true ∧
  (∀ c : Car, s.roleIn c.positionRole .sync ∨ s.roleIn c.positionRole .coast ∨
    (s.roleIn c.positionRole .lost ∧ (s.response c.positionLost).action = .notice)) ∧
  (doorsClosed s .carADoors ∧ doorsClosed s .carBDoors) ∧
  (s.trip.inputs.estop.qualified = false ∧ s.trip.inputs.otTop.qualified = false ∧ s.trip.inputs.otBottom.qualified = false) ∧
  lastSays s .drive driveReady = true

/-- The payload of a reply: code echoed, reply code, results (R162). -/
def replyPayload (code : Byte) (rc : ReplyCode) (results : List Byte) : List Byte := code :: byteOf rc.num :: results

/-- A request is answered: one reply is offered to its port, to its source (R165). -/
def answered (s : State) (p : PortId) (src code : Byte) (rc : ReplyCode) (results : List Byte) : State :=
  s.offer p (.reply src (replyPayload code rc results) false)

/-- A STATE_CHANGED notice as the part offers it to Port A (R84). -/
def stateNotice (s : State) (new : RunState) (cause : StateCause) (kind : Nat) (number : BitVec 16) : OutFrame :=
  .notice s.noticeAddress (.stateChanged s.leg.run new cause kind number)

/-- A port after a frame that is no demand has been offered to it (R155 to R157). -/
def offered (s : State) (p : PortId) (f : OutFrame) : Port := (s.port p).offer s.straps.own f

/-- The Leg Controller's fields in a run state other than DEPART and HALTED: the brake-release timer is stopped, there is no halt place and no
door permit (R94, R102, R104). -/
def legAtRest (l : Leg) (r : RunState) : Leg :=
  { l with run := r, brakeTimer := none, haltPlace := none, dra := false, drb := false }

/-- The Trip Unit with its three outputs de-energized and no ramp origin (R112, R134). -/
def tripAtRest (t : Trip) : Trip := { t with den := false, sbr := false, ebr := false, ramp := none }

/-- The Demand Limiter with its generation timer stopped (R147). -/
def limAtRest (l : Limiter) : Limiter := { l with genTimer := none }

/-- The RESTART reply is on no line and in no queue but those of one port. -/
abbrev noRestartReply (p : Port) : Prop := p.holdsRestart = false

/-! ## Widths of a table set on the line and in the store (R162, R179) -/

/-- Every field of a table set fits the bytes it travels and is stored in. -/
def setFits (t : TableSet) : Prop :=
  (∀ n, t.line.get n < 16777216) ∧
  (∀ i : Fin 16, t.sources.entries[i].address < 256 ∧ t.sources.entries[i].lateTimeout < 65536 ∧
    t.sources.entries[i].maxSubs < 256) ∧ t.sources.count < 256 ∧
  (∀ i : Fin 64, t.profile.segs[i].start < 16777216 ∧ t.profile.segs[i].limit < 65536 ∧ t.profile.segs[i].decel < 65536) ∧
  t.profile.count < 256 ∧
  (∀ p : Place, ∀ c : Car, ((t.places.get p).window c).lo < 16777216 ∧ ((t.places.get p).window c).nom < 16777216 ∧
    ((t.places.get p).window c).hi < 16777216)

/-- Blocks 1 to 5 as a COMMIT of a set writes them for a generation (R179, R182). -/
def writtenBlocks (gen : BitVec 16) (t : TableSet) : Vector (List Byte) 5 := Vector.ofFn fun i : Fin 5 => blockBytes gen t (i.val + 1)

/-! ## A write that went wrong (R182) -/

/-- Bytes that a failed write can leave in a block: for a block of 1 to 5 ones that do not match the old header, for block 0 a header that
fails its own check or names blocks other than those held. -/
def leftByFailedWrite (t : Tables) (p : Programming) (held : List Byte) : Prop :=
  (p.block ≠ 0 → blockMatches t.header p.block.val held = false) ∧
  (p.block = 0 → headerGood held = false ∨ ∃ k : Fin 5, blockMatches held (k.val + 1) t.blocks[k] = false)

/-- A start-up load of a store fails: validity and working copy stay as they stood (R180). -/
def loadFails (header : List Byte) (blocks : Vector (List Byte) 5) : Prop :=
  ∀ s : State, s.phase = .loading → s.resp.restartPending = false → s.tables.header = header → s.tables.blocks = blocks →
    ∃ t, exec .startUpLoadComplete s = .next t ∧ t.phase = .running ∧ t.tables.valid = s.tables.valid ∧
      t.tables.working = s.tables.working

/-! ## Invariants -/

/-- Neither queue holds more than 8 frames, Port B at most one demand, Port A none (R155, R156). -/
abbrev queuesWithin (s : State) : Prop :=
  s.portA.queue.length ≤ 8 ∧ s.portB.queue.length ≤ 8 ∧ (s.portA.queue.filter OutFrame.isDemand).length = 0 ∧
  (s.portB.queue.filter OutFrame.isDemand).length ≤ 1

/-- DEN, SBR and EBR follow the run state (R134); the ramp origin is present in SERVICE_STOP alone (R112), the halt place in HALTED alone
(R83); the brake-release timer runs in DEPART alone (R94) and the generation timer in SERVICE_STOP alone (R147). -/
def outputsFollow (s : State) : Prop :=
  s.trip.den = s.leg.run.energized ∧ s.trip.sbr = s.leg.run.energized ∧ s.trip.ebr = s.leg.run.energized ∧
  (s.trip.ramp.isSome = true ↔ s.leg.run = .serviceStop) ∧ (s.leg.haltPlace.isSome = true ↔ s.leg.run = .halted) ∧
  (s.leg.brakeTimer.isSome = true → s.leg.run = .depart) ∧ (s.lim.genTimer.isSome = true → s.leg.run = .serviceStop)

/-- The tables in force change in SAFE at a load and in MAINTENANCE at a COMMIT alone (R125): outside running the run state is SAFE and no
store operation is in flight, and a COMMIT in flight finds MAINTENANCE. -/
def tablesChangeAtRest (s : State) : Prop :=
  (s.phase ≠ .running → s.leg.run = .safe ∧ s.resp.op.inFlight = false) ∧
  (∀ dst p set, s.resp.op = .commit dst p set → s.leg.run = .maintenance)

/-- A car's door release output. -/
def permit (s : State) : Car → Bool
  | .a => s.leg.dra
  | .b => s.leg.drb

/-- A door release output is energized only in HALTED, and only while that car's fused chainage lies inside its window of the halt place
(R102). -/
def permitsInsideWindows (s : State) : Prop :=
  ∀ c : Car, permit s c = true → s.leg.run = .halted ∧
    ∃ place, s.leg.haltPlace = some place ∧ ((s.tables.working.places.get place).window c).holds (s.carPos c) = true

/-- The Fault Set holds at most one record per kind, in kind order, with counts 1..255 (R122). -/
abbrev faultSetOrdered (s : State) : Prop :=
  (s.trip.faults.map fun r => r.kind.num).Pairwise (· < ·) ∧ ∀ r ∈ s.trip.faults, 1 ≤ r.count ∧ r.count ≤ 255

/-- The Stop Log holds at most 16 records and its newest carries the last record number (R110). -/
def stopLogOrdered (s : State) : Prop :=
  s.leg.log.length ≤ 16 ∧ ∀ r, s.leg.log.head? = some r → r.number = s.leg.lastRecord

/-- The run states in which the Fault Set holds no record whose kind's action is SERVICE or EMERGENCY (R125). -/
def RunState.faultFree : RunState → Bool
  | .ready | .armed | .depart | .run | .approach | .creep | .halted => true
  | _ => false

/-- In those states every record's action in force is NOTICE (R125). -/
def departureFaultFree (s : State) : Prop :=
  s.leg.run.faultFree = true → ∀ r ∈ s.trip.faults, (s.response r.kind).action = .notice

/-- Speeds and setpoints stay within 0..20,000 (R46, R112, R135): the haul speed, the last transmitted setpoint, the last console demand,
the ramp origin, and the setpoint of a demand that waits. -/
def speedsWithin (s : State) : Prop :=
  s.est.v ≤ 20000 ∧ s.trip.lastSetpoint ≤ 20000 ∧ (∀ d, s.lim.last = some d → d.setpoint ≤ 20000) ∧
  (∀ o, s.trip.ramp = some o → o.speed ≤ 20000) ∧ (∀ d, .demand d ∈ s.portB.queue → d.offered ≤ 20000)

/-- E never exceeds V_max (R75). -/
abbrev envelopeWithin (s : State) : Prop := s.env.e ≤ s.line.vMax

/-- Raw histories keep at most 6 samples (R112), and while the slip blanking timer is stopped the qualified SLIP value equals the underlying
value (R133). -/
def inputsConsistent (s : State) : Prop :=
  (∀ i : InputId, (s.trip.inputs.get i).history.length ≤ 6) ∧
  (s.trip.slipTimer = none → s.trip.inputs.slip.qualified = s.trip.slipUnderlying)

/-- A live source's consecutive substitutes never exceed its entry's maximum, and a source in SYNC has none (R35); the tables are invalid during
the load (R5), and records that no valid tables have used since the reset hold none. -/
def substitutesWithin (s : State) : Prop :=
  (∀ i : Fin 16, s.live i = true → (s.record i).subs ≤ (s.entry i).maxSubs ∧ ((s.record i).sync = .sync → (s.record i).subs = 0)) ∧
  (s.phase = .loading → s.tables.valid = false) ∧
  (s.tables.valid = false ∨ s.phase = .finishing → ∀ i : Fin 16, (s.record i).subs = 0)

/-- Degraded is yes exactly while a live car position record is LOST (R59); it is no while a reset waits for the block under way. -/
def degradedFollows (s : State) : Prop := s.est.degraded = carLost s ∧ (s.phase = .finishing → s.est.degraded = false)

/-- R stays on the line and the offsets within the stretch limit (R46, R53, R56). -/
def positionWithin (s : State) : Prop :=
  s.est.real ≤ s.line.lineLength * 1000 ∧ s.est.offA.natAbs ≤ s.line.stretchLimit ∧ s.est.offB.natAbs ≤ s.line.stretchLimit

/-- A store operation is a COMMIT. -/
def StoreOp.isCommit : StoreOp → Bool
  | .commit _ _ _ => true
  | _ => false

/-- The maintenance sequence and the staged copy: requester and echo are held in PENDING alone, which SAFE alone knows; the staged copy exists
in MAINTENANCE alone (R6, R164, R168, R169). -/
def maintenanceConsistent (s : State) : Prop :=
  (s.resp.requester.isSome = true ↔ s.resp.seq = .pending) ∧ (s.resp.echo.isSome = true ↔ s.resp.seq = .pending) ∧
  (s.resp.seq = .pending → s.leg.run = .safe) ∧ (s.resp.staged.isSome = true ↔ s.leg.run = .maintenance)

/-- A block is being programmed exactly while a COMMIT is in flight or a reset waits for its end (R178, R182); a pending restart waits for
a reply that a port still holds (R177). -/
def storeConsistent (s : State) : Prop :=
  (s.phase ≠ .finishing → (s.tables.programming.isSome = true ↔ s.resp.op.isCommit = true)) ∧
  (s.phase = .finishing → s.tables.programming.isSome = true ∧ s.resp.op = .none) ∧
  (s.resp.restartPending = true → s.portA.holdsRestart = true ∨ s.portB.holdsRestart = true)

end Sys2Proof.Machine
end

