-- ==== Sys2Proof/Certificates/Slice0/Obligations.lean ====
section
/-! DEFINITION. The statements for the provers. -/

open Sys2Proof Sys2Proof.Machine

/-! ## Step and queue -/

/-- Step of a state with a command at the front of its queue is that command on the state with the queue's rest, and on an empty queue the
timebase advances by one millisecond and nothing else changes. The queue is the model's account of the outside world (log 31), and that a
millisecond passes on an empty queue is the model's choice (log 1). -/
def Obligations.StepRunsTheFrontCommand : Prop :=
  (∀ (c : Instr) (rest : List Instr) (s : State), s.pending = c :: rest → step s = exec c { s with pending := rest }) ∧
  (∀ s : State, s.pending = [] → step s = .next { s with now := s.now + 1 })

/-- Every command answers a next state, and leaves the queue. That a command whose event cannot
happen is answered so too is the model's choice (log 5, 32). -/
def Obligations.ExecAnswersNextAndKeepsTheQueue : Prop :=
  ∀ (c : Instr) (s : State), ∃ t, exec c s = .next t ∧ t.pending = s.pending

/-! ## Resets (R5, R20, R45, R47, R66, R83, R113, R135, R149, R164, R178) -/

/-- With no block being programmed, POR leaves the reset state but for the store's blocks and the straps read; RST also keeps the working
copy, the Restriction Lists and the commit count. The own address and the line rate are those of the strap levels read. The commit count
of 0 after POR and its keeping at RST are the model's choice (log 11). -/
def Obligations.PorAndRstLeaveTheResetState : Prop :=
  (∀ (a : BitVec 6) (r : BitVec 2), (Straps.read a r).own.toNat = min 62 a.toNat ∧
    (Straps.read a r).rate = (if r = 0 then .r115200 else if r = 1 then .r230400 else if r = 2 then .r460800 else .r921600)) ∧
  ∀ (a : BitVec 6) (r : BitVec 2) (s : State), s.tables.programming = none →
    exec (.powerOnReset a r) s = .next { State.reset with
      pending := s.pending
      straps := Straps.read a r
      tables := { s.tables with commitCount := 0, working := blankSet, valid := false } } ∧
    exec (.rst a r) s = .next { State.reset with
      pending := s.pending
      straps := Straps.read a r
      tables := { s.tables with valid := false }
      env := { State.reset.env with uphill := s.env.uphill, downhill := s.env.downhill } }

/-- While a block is being programmed, POR and RST de-energize every output at once and wait; what the block holds at its end stands in
the store, and the load begins with the tables invalid. That load fails where a block of 1 to 5 was under way, which carries a generation
the header does not name, and where the block was not written whole (R178, R184). What a block holds whose writing went wrong is the
command's operand, within what R182 and R184 leave possible, and a command outside it changes nothing (log 9, 32); the commit count is as
log 11 has it. -/
def Obligations.ResetWaitsForTheBlockUnderWay : Prop :=
  (∀ (a : BitVec 6) (r : BitVec 2) (s : State) (p : Programming), s.tables.programming = some p →
    ∀ c, c = Instr.powerOnReset a r ∨ c = Instr.rst a r →
      ∃ t, exec c s = .next t ∧ t.phase = .finishing ∧ t.tables.programming = some p ∧ t.tables.header = s.tables.header ∧
        t.tables.blocks = s.tables.blocks ∧ t.resp.op = .none ∧ t.leg.run = .safe ∧ t.trip.den = false ∧ t.trip.sbr = false ∧
        t.trip.ebr = false ∧ t.leg.dra = false ∧ t.leg.drb = false) ∧
  (∀ (s : State) (p : Programming) (fault : Option (List Byte)), s.phase = .finishing → s.tables.programming = some p →
    let held := fault.getD p.bytes
    let possible := held = p.bytes ∨ (leftByFailedWrite s.tables p held ∧ (p.block ≠ 0 → held.take 2 = p.bytes.take 2))
    (possible → ∃ t, exec (.resetBlockFinished fault) s = .next t ∧ unchangedBut [.phase, .tables] s t ∧ t.phase = .loading ∧
      t.tables.valid = false ∧ t.tables.programming = none ∧ t.tables.working = s.tables.working ∧
      t.tables.commitCount = s.tables.commitCount ∧ t.tables.header = (if p.block = 0 then held else s.tables.header) ∧
      (∀ k : Fin 5, t.tables.blocks[k] = if p.block.val = k.val + 1 then held else s.tables.blocks[k]) ∧
      ((p.block ≠ 0 ∧ field p.bytes 0 2 ≠ field s.tables.header 0 2) ∨ held ≠ p.bytes → loadFails t.tables.header t.tables.blocks)) ∧
    (¬possible → exec (.resetBlockFinished fault) s = .next s))

/-- At the end of the RESTART reply's transmission the RESTART reset is taken: the Fault Set, the Stop Log with its numbers, the leg
number and the counters are kept, the straps are read again, the queues are emptied and the load begins (R177). A strap changed since the
last reset takes effect (R148, R149); its level is an operand of the event (log 25). The reset falls at the end of the step (log 20). -/
def Obligations.RestartResetAtTheEndOfItsReply : Prop :=
  ∀ (p : PortId) (levels : Option StrapLevels) (s : State) (bytes : List Byte), s.phase ≠ .finishing → s.resp.restartPending = true →
    (s.port p).line = some ⟨bytes, true⟩ → (s.port p).queue.any OutFrame.isRestart = false →
    noRestartReply (s.port (otherPort p)) → s.tables.programming = none →
    ∃ t, exec (.transmitEnd ⟨p, levels⟩) s = .next t ∧
      t = { State.reset with
        pending := s.pending
        straps := match levels with
          | some l => Straps.read l.addr l.rate
          | none => Straps.read s.straps.addrPins s.straps.ratePins
        tables := { s.tables with valid := false }
        sources := s.sources.map fun r => SourceRecord.fresh r.counters
        env := { State.reset.env with uphill := s.env.uphill, downhill := s.env.downhill }
        leg := { State.reset.leg with number := s.leg.number, log := s.leg.log, lastRecord := s.leg.lastRecord }
        trip := { State.reset.trip with faults := s.trip.faults }
        portA := { State.reset.portA with
          counters := if p = .a then s.portA.counters.bump .transmitted else s.portA.counters }
        portB := { State.reset.portB with
          counters := if p = .b then s.portB.counters.bump .transmitted else s.portB.counters } }

/-- The values the chapters give for the state after POR, spelled out, the blank set in the working copy among them (R5, R21, R116).
State.reset has the straps at 0 (log 6), and the stationary time held is the model's own (log 37). -/
def Obligations.ResetHoldsTheSpecValues : Prop :=
  let s := State.reset
  (s.pending = [] ∧ s.phase = .loading ∧ s.now = 0 ∧ s.tables.valid = false ∧ s.tables.programming = none) ∧
  (let set := s.tables.working
   (∀ n, set.line.get n = if n = 24 then 65535 else if n = 25 then 3 else lineLo n) ∧
   set.sources.count = 0 ∧ (∀ i : Fin 16, set.sources.entries[i] = ⟨0, .encoder, 5, 0⟩) ∧
   set.profile.count = 1 ∧ (∀ i : Fin 64, set.profile.segs[i] = ⟨0, 100, 200, .plain⟩) ∧
   (∀ pl : Place, set.places.get pl = ⟨⟨0, 0, 0⟩, ⟨0, 0, 0⟩, .a⟩) ∧
   ∀ k : FaultKind, (set.responseOf k).action = k.default ∧ (set.responseOf k).notice = true) ∧
  (s.resp.seq = .idle ∧ s.resp.requester = none ∧ s.resp.echo = none ∧ s.resp.staged = none ∧ s.resp.op = .none ∧
    s.resp.restartPending = false) ∧
  (∀ i : Fin 16, (s.record i).sync = .hunt ∧ (s.record i).baselineHeld = false ∧ (s.record i).expected = 0 ∧
    (s.record i).subs = 0 ∧ (s.record i).timer = none ∧ (s.record i).lastPayload = none ∧ (s.record i).counters.accepted = 0 ∧
    (s.record i).counters.lost = 0 ∧ (s.record i).counters.late = 0 ∧ (s.record i).counters.jumps = 0 ∧
    (s.record i).counters.substitutes = 0 ∧ (s.record i).counters.rollover = false) ∧
  (s.est.real = 0 ∧ s.est.coast = 0 ∧ s.rUm = 0 ∧ s.est.baseline = none ∧ s.est.v = 0 ∧ s.est.dir = .up ∧ s.est.offA = 0 ∧
    s.est.offB = 0 ∧ s.est.ropeEst = false ∧ s.est.offBSet = false ∧ s.est.agedA = false ∧ s.est.agedB = false ∧
    s.est.degraded = false ∧ s.est.statTimer = none ∧ s.est.statTime = 0) ∧
  (s.env.uphill = [] ∧ s.env.downhill = [] ∧ s.env.eA = 0 ∧ s.env.eB = 0 ∧ s.env.eT = none ∧ s.env.e = 0) ∧
  (s.leg.run = .safe ∧ s.leg.active = false ∧ s.leg.number = 0 ∧ s.leg.dir = .up ∧ s.leg.endPlace = .bottom ∧ s.leg.rStar = 0 ∧
    s.leg.frozen = false ∧ s.leg.split = false ∧ s.leg.haltPlace = none ∧ s.leg.brakeTimer = none ∧ s.leg.mismatchA = false ∧
    s.leg.mismatchB = false ∧ s.leg.log = [] ∧ s.leg.lastRecord = 0 ∧ s.leg.dra = false ∧ s.leg.drb = false) ∧
  (s.trip.faults = [] ∧ (∀ i : InputId, (s.trip.inputs.get i).history = []) ∧ s.trip.inputs.estop.qualified = true ∧
    s.trip.inputs.otTop.qualified = true ∧ s.trip.inputs.otBottom.qualified = true ∧ s.trip.inputs.slip.qualified = false ∧
    s.trip.inputs.brkS.qualified = false ∧ s.trip.inputs.brkE.qualified = false ∧ s.trip.slipUnderlying = false ∧
    s.trip.slipTimer = none ∧ s.trip.lastSetpoint = 0 ∧ s.trip.ramp = none ∧ s.trip.den = false ∧ s.trip.sbr = false ∧
    s.trip.ebr = false) ∧
  (s.lim.last = none ∧ s.lim.genTimer = none) ∧
  (∀ p : PortId, (s.port p).rx = none ∧ (s.port p).queue = [] ∧ (s.port p).line = none ∧ (s.port p).seqNo = 0 ∧
    (s.port p).counters.rollover = false ∧ ∀ k : PortCounter, (s.port p).counters.get k = 0)

/-! ## The start-up load and the store (R179, R180, R184) -/

/-- A store that holds a set written whole loads: header, blocks and consistency pass, and the set is activated with the header's count
(R180, last row of R184). The blocks' byte layout is the model's reading (log 8). -/
def Obligations.StoreWrittenWholeLoads : Prop :=
  ∀ (s : State) (count : BitVec 16) (set : TableSet), s.phase = .loading → s.resp.restartPending = false →
    setFits set → checkSet s.straps.own set = none → s.tables.blocks = writtenBlocks count set →
    s.tables.header = headerBytes count (writtenBlocks count set) →
    ∃ t, exec .startUpLoadComplete s = .next t ∧ t.phase = .running ∧ t.tables.valid = true ∧ t.tables.working = forceSubs set ∧
      t.tables.commitCount = count ∧ t.tables.header = s.tables.header ∧ t.tables.blocks = s.tables.blocks ∧
      t.env.uphill = uphillList set.profile.inUse ∧ t.env.downhill = downhillList set.profile.inUse ∧ t.sources = s.sources ∧
      t.resp = s.resp ∧ t.now = s.now ∧ t.straps = s.straps

/-- A load that fails leaves the validity and the working copy as they stood: the commit count becomes 0 where the header's own check
fails, and the header's count where only a block or the consistency failed (R180). The blocks' byte layout is the model's reading (log 8).
-/
def Obligations.FailedLoadLeavesTheTables : Prop :=
  ∀ s : State, s.phase = .loading → s.resp.restartPending = false →
    (headerGood s.tables.header = false → exec .startUpLoadComplete s =
      .next { s with phase := .running, tables := { s.tables with commitCount := 0 } }) ∧
    (headerGood s.tables.header = true →
      ((∃ k : Fin 5, blockMatches s.tables.header (k.val + 1) s.tables.blocks[k] = false) ∨
        checkSet s.straps.own (tableSetOf s.tables.blocks) ≠ none) →
      exec .startUpLoadComplete s =
        .next { s with phase := .running, tables := { s.tables with commitCount := headerCount s.tables.header } })

/-- The set read from the blocks a set was written to is that set: no bit of any entry of the five tables is dropped (R162, R179). The
blocks' byte layout is the model's reading (log 8). -/
def Obligations.TablesReadBackAsWritten : Prop :=
  ∀ (gen : BitVec 16) (t : TableSet), setFits t → tableSetOf (writtenBlocks gen t) = t

/-! ## Frames and requests as bytes (R151, R160, R162) -/

/-- The form step reads from a request's payload that request; an entry of a TABLE WRITE has the length its table and index name. -/
def Obligations.RequestPayloadReadsBack : Prop :=
  ∀ r : Request, (∀ t i e, r = .tableWrite t i e → entryFits t i e = true) → parseRequest (requestPayload r) = some r

/-- A frame the part forms passes the check and reads back field by field, for every payload of up to 32 bytes; formed over a whole frame
including its check field the check gives 0 exactly when the frame is good, and the nine bytes 31h to 39h give 29B1h (R151, R160). -/
def Obligations.FrameFormedIsGoodAndReadsBack : Prop :=
  (∀ (dst src kind seq : Byte) (payload : List Byte), payload.length ≤ 32 →
    (frameBytes dst src kind seq payload).length = 7 + payload.length ∧
    frameGood (frameBytes dst src kind seq payload) = true ∧
    parseFrame (frameBytes dst src kind seq payload) =
      { dst := dst, src := src, kind := kind, seq := seq, payload := payload, bytes := frameBytes dst src kind seq payload }) ∧
  (∀ bs : List Byte, 2 ≤ bs.length → (crc16 bs = 0 ↔ frameGood bs = true)) ∧
  crc16 [0x31, 0x32, 0x33, 0x34, 0x35, 0x36, 0x37, 0x38, 0x39] = 0x29B1

/-! ## The receiver and the Frame Sorter (R150 to R154) -/

/-- The receiver takes a character or a break by its state: what is counted, and what it holds after. A character appended to a partial frame
is judged by its place: a length above 32 drops the frame, a frame not yet whole grows, a whole frame that fails the check is counted and
dropped, and a good one is counted and sorted with the receiver IDLE (R150, R151). -/
def Obligations.ReceiverTakesCharactersAndBreaks : Prop :=
  ∀ (s : State) (e : PortEvent) (b : Byte), s.phase ≠ .finishing → s.resp.restartPending = false →
    let p := e.port
    let counted (k : PortCounter) (rx : Option (List Byte)) : Port :=
      { s.port p with rx := rx, counters := (s.port p).counters.bump k }
    ((s.port p).rx = none →
      exec (.receiveCharacter e b true true) s = .next (s.setPort p { s.port p with rx := some [b] }) ∧
      exec (.receiveCharacter e b true false) s = .next (s.setPort p (counted .framing none)) ∧
      (∀ g, exec (.receiveCharacter e b false g) s = .next s) ∧
      exec (.lineBreak p) s = .next s) ∧
    (∀ bs, (s.port p).rx = some bs →
      exec (.receiveCharacter e b true true) s = .next (s.setPort p (counted .aborted (some [b]))) ∧
      (∀ m, exec (.receiveCharacter e b m false) s = .next (s.setPort p (counted .framing none))) ∧
      exec (.lineBreak p) s = .next (s.setPort p (counted .aborted none)) ∧
      (let now := bs ++ [b]
       let tooLong := now.length = 5 ∧ 32 < b.toNat
       let whole := 5 ≤ now.length ∧ now.length = 7 + field now 4 1
       (tooLong → exec (.receiveCharacter e b false true) s = .next (s.setPort p (counted .length none))) ∧
       (¬tooLong → ¬whole → exec (.receiveCharacter e b false true) s = .next (s.setPort p { s.port p with rx := some now })) ∧
       (¬tooLong → whole → frameGood now = false →
         exec (.receiveCharacter e b false true) s = .next (s.setPort p (counted .check none))) ∧
       (¬tooLong → whole → frameGood now = true →
         exec (.receiveCharacter e b false true) s =
           .next (settle (sortFrame (s.setPort p (counted .good none)) p (parseFrame now)) e.straps))))

/-- The Frame Sorter's tests in order: a request to the part is taken, another frame to it is MISADDRESSED, a demand from Port B is forwarded,
a demand on Port A from no console is FOREIGN_DEMAND, a sample is forwarded before it is presented, and any other frame is forwarded
(R153, R154). A sample is presented to the record of the entry in use that has its source address and a role tracked on samples, while the
tables are valid (R22, R26); of several such entries, which no committed set holds, to that of the lowest index (log 21). -/
def Obligations.SorterDecidesByDestinationKindAndSource : Prop :=
  ∀ (s : State) (p : PortId) (f : RxFrame),
    let count (q : PortId) (k : PortCounter) := s.setPort q { s.port q with counters := (s.port q).counters.bump k }
    let passedOn := s.offer (otherPort p) (.forwarded f.bytes)
    let tracked (i : Fin 16) := s.tables.valid = true ∧ i.val < s.tables.working.sources.count ∧ (s.entry i).address = f.src.toNat ∧
      (s.entry i).role ≠ .console
    (f.dst = s.straps.own → f.kind = kindRequest → sortFrame s p f = takePayload s p f.src f.payload) ∧
    (f.dst = s.straps.own → f.kind ≠ kindRequest → sortFrame s p f = count p .misaddressed) ∧
    (f.dst ≠ s.straps.own → f.kind = kindDemand → p = .b → sortFrame s p f = passedOn) ∧
    (f.dst ≠ s.straps.own → f.kind = kindDemand → p = .a → s.consoleAddress ≠ some f.src →
      sortFrame s p f = count .a .foreignDemand) ∧
    (f.dst ≠ s.straps.own → f.kind = kindDemand → p = .a → s.consoleAddress = some f.src →
      ∃ i, s.roleIndex .console = some i ∧ sortFrame s p f = present s i f) ∧
    (f.dst ≠ s.straps.own → f.kind = kindSample →
      ((∀ i, ¬tracked i) → sortFrame s p f = passedOn) ∧
      (∀ i, tracked i → (∀ j < i, ¬tracked j) → sortFrame s p f = present passedOn i f)) ∧
    (f.dst ≠ s.straps.own → f.kind ≠ kindDemand → f.kind ≠ kindSample → sortFrame s p f = passedOn)

/-! ## Transmit queues (R155 to R159) -/

/-- At the end of a transmission the transmitted counter rises by 1 and the line is free or takes the next frame: on Port A the oldest, on Port B
the waiting demand and otherwise the oldest (R157). -/
def Obligations.TransmitEndTakesTheNextFrame : Prop :=
  ∀ (s : State) (e : PortEvent) (sent : OnLine), s.phase ≠ .finishing → s.resp.restartPending = false →
    (s.port e.port).line = some sent →
    let p := e.port
    let free : Port := { s.port p with line := none, counters := (s.port p).counters.bump .transmitted }
    ((s.port p).queue = [] → exec (.transmitEnd e) s = .next (s.setPort p free)) ∧
    (∀ f rest, (s.port p).queue = f :: rest → (p = .b → (s.port p).queue.any OutFrame.isDemand = false) →
      exec (.transmitEnd e) s = .next (s.setPort p ({ free with queue := rest }.send s.straps.own f))) ∧
    (∀ d before after, p = .b → s.portB.queue = before ++ .demand d :: after → before.any OutFrame.isDemand = false →
      exec (.transmitEnd e) s = .next (sendDemand (s.setPortB { free with queue := before ++ after }) d))

/-- How an offered frame is placed: a frame that is no demand is sent at once, joins, or is dropped with QUEUE_DROP; a demand replaces the
waiting one in its place without a count, is sent at once, joins, or evicts the oldest with QUEUE_DROP (R155 to R157); an originated frame
takes the port's sequence number as its transmission begins (R159). -/
def Obligations.OfferedFrameIsPlaced : Prop :=
  (∀ (p : Port) (own : Byte) (f : OutFrame),
    (p.queue = [] → p.line = none → p.offer own f = p.send own f) ∧
    (¬(p.queue = [] ∧ p.line = none) → p.queue.length < 8 → p.offer own f = { p with queue := p.queue ++ [f] }) ∧
    (8 ≤ p.queue.length → p.offer own f = { p with counters := p.counters.bump .queueDrop })) ∧
  (∀ (p : Port) (own dst : Byte) (payload : List Byte) (n : Notice),
    p.send own (.reply dst payload false) =
      { p with line := some ⟨frameBytes dst own 4 p.seqNo payload, false⟩, seqNo := p.seqNo + 1 } ∧
    p.send own (.notice dst n) =
      { p with line := some ⟨frameBytes dst own 5 p.seqNo (noticePayload n), false⟩, seqNo := p.seqNo + 1 } ∧
    p.send own (.forwarded payload) = { p with line := some ⟨payload, false⟩ }) ∧
  (∀ (s : State) (d : Demand),
    (∀ before old after, s.portB.queue = before ++ .demand old :: after → before.any OutFrame.isDemand = false →
      offerDemand s d = s.setPortB { s.portB with queue := before ++ .demand d :: after }) ∧
    (s.portB.queue = [] → s.portB.line = none → offerDemand s d = sendDemand s d) ∧
    (s.portB.queue.any OutFrame.isDemand = false → ¬(s.portB.queue = [] ∧ s.portB.line = none) → s.portB.queue.length < 8 →
      offerDemand s d = s.setPortB { s.portB with queue := s.portB.queue ++ [.demand d] }) ∧
    (s.portB.queue.any OutFrame.isDemand = false → 8 ≤ s.portB.queue.length →
      offerDemand s d = s.setPortB { s.portB with
        queue := s.portB.queue.tail ++ [.demand d], counters := s.portB.counters.bump .queueDrop }))

/-! ## The clamp at transmission (R121, R140, R141, R143) -/

/-- As a demand's transmission begins it leaves with the setpoint, ENABLE_REQUEST and direction the run state allows, LIMITED where the setpoint
was lowered, GENERATED where the part made it; the Trip Unit takes the setpoint sent. -/
def Obligations.DemandIsClampedAsItsTransmissionBegins : Prop :=
  ∀ (s : State) (d : Demand),
    let ceiling := (s.trip.ramp.map fun o => o.speed - s.line.serviceDecel * (s.now - o.time).toNat / 1000).getD 0
    let sent : Nat × Bool × Dir := match s.leg.run with
      | .safe | .ready | .armed | .halted | .maintenance | .emergencyStop => (0, false, d.dir)
      | .depart => (0, true, s.leg.dir)
      | .run | .approach | .creep => (min d.offered s.env.e, d.enable, s.leg.dir)
      | .serviceStop => (min (min d.offered s.env.e) ceiling, true, s.leg.dir)
    let flags := flagNum sent.2.1 + 2 * sent.2.2.num + 4 * flagNum (decide (sent.1 < d.received)) + 8 * flagNum d.generated
    let seq := if d.generated then s.portB.seqNo else d.seq
    (sendDemand s d).portB = { s.portB with
      line := some ⟨frameBytes d.dst d.src 2 seq (toBytes 2 sent.1 ++ toBytes 1 flags), false⟩
      seqNo := if d.generated then s.portB.seqNo + 1 else s.portB.seqNo } ∧
    (sendDemand s d).trip.lastSetpoint = sent.1 ∧ unchangedBut [.portB, .trip] s (sendDemand s d) ∧
    (sendDemand s d).trip = { s.trip with
      lastSetpoint := sent.1
      slipTimer := if s.line.slipStep ≠ 0 ∧ (s.trip.lastSetpoint + s.line.slipStep < sent.1 ∨ sent.1 + s.line.slipStep < s.trip.lastSetpoint)
        then some (s.now + BitVec.ofNat 32 s.line.slipTime) else s.trip.slipTimer }

/-! ## Tracking (R27 to R33) and console demands (R93, R136 to R139) -/

/-- A presented frame is judged by the sequence difference: in SYNC or COAST a LATE frame and a JUMP are discarded as R32 and R31 give and
a frame in order is accepted and delivered (R30, R38); in HUNT a frame becomes the baseline, or in order after it is accepted, or restarts
the hunt (R29); in LOST it becomes the baseline of a hunt (R33); a frame that fails a test of R27 raises jumps alone, an encoder frame with
the baseline's timestamp among them. A change into SYNC is noticed (R43) and seen by the other blocks before the delivery (R59, R102, R147);
an encoder baseline is handed to the Position Estimator, which folds coast travel (R48). That an accepted frame sets baseline held to no is
the model's reading (log 33), and so is the order of what follows a change of state (log 22). -/
def Obligations.PresentedFrameIsJudgedByItsDifference : Prop :=
  ∀ (s : State) (i : Fin 16) (f : RxFrame),
    let r := s.record i
    let d := (f.seq - r.expected).toNat
    let role := (s.entry i).role
    let ok := wellFormedPayload role f.payload
    let tracked := r.sync = .sync ∨ r.sync = .coast
    let acceptable := (tracked ∧ d ≤ 7) ∨ (r.sync = .hunt ∧ r.baselineHeld = true ∧ d = 0)
    let still := role = .encoder ∧ ∃ b, s.est.baseline = some b ∧ b.stamp = BitVec.ofNat 16 (field f.payload 3 2)
    let late := some (s.now + BitVec.ofNat 32 (s.entry i).lateTimeout)
    let accepted (lost : Nat) : SourceRecord :=
      { sync := .sync, baselineHeld := false, expected := f.seq + 1, subs := 0, timer := late, counters := r.counters.accept lost
        lastPayload := some f.payload }
    let baseline (c : SourceCounters) : SourceRecord :=
      { r with sync := .hunt, baselineHeld := true, expected := f.seq + 1, subs := 0, timer := late, counters := c }
    let noticed : State := { s with
      sources := s.sources.set i (accepted d)
      portA := if r.sync = .sync then s.portA
        else offered s .a (.notice s.noticeAddress (.sourceState i (s.entry i) r.sync .sync .inOrder 0)) }
    let handed : State := if r.sync = .sync then noticed else match role with
      | .carAPosition | .carBPosition => refreshDegraded noticed
      | .loopDetector => evaluatePermits noticed
      | .console => { noticed with lim := { s.lim with genTimer := none } }
      | _ => noticed
    (ok = false → present s i f = { s with sources := s.sources.set i { r with counters := r.counters.bumpJumps } }) ∧
    (ok = true → tracked → 128 ≤ d →
      present s i f = { s with sources := s.sources.set i { r with counters := r.counters.bumpLate } }) ∧
    (ok = true → tracked → 8 ≤ d → d ≤ 127 →
      (present s i f).sources = s.sources.set i { r with
        sync := .hunt, baselineHeld := false, subs := 0, timer := none, counters := r.counters.bumpJumps } ∧
      (present s i f).est.baseline = s.est.baseline ∧ (present s i f).lim.last = s.lim.last) ∧
    (ok = true → acceptable → still → present s i f = { s with sources := s.sources.set i { r with counters := r.counters.bumpJumps } }) ∧
    (ok = true → acceptable → ¬still → present s i f = deliver handed role f ∧
      (present s i f).sources = s.sources.set i (accepted d)) ∧
    (ok = true → r.sync = .hunt → r.baselineHeld = true → d ≠ 0 →
      (present s i f).sources = s.sources.set i (baseline r.counters.bumpJumps)) ∧
    (ok = true → (r.sync = .hunt ∧ r.baselineHeld = false) ∨ r.sync = .lost →
      (present s i f).sources = s.sources.set i (baseline r.counters)) ∧
    (ok = true → (r.sync = .hunt ∧ (r.baselineHeld = true → d ≠ 0)) ∨ r.sync = .lost → role = .encoder →
      (present s i f).est = { s.est with
        real := s.rUm, coast := 0
        baseline := some ⟨BitVec.ofNat 24 (field f.payload 0 3), BitVec.ofNat 16 (field f.payload 3 2)⟩ })

/-- An accepted encoder frame and an encoder substitute: the travel and the speed from the deltas against the baseline where the frame is
healthy, dead reckoning at the held speed where it is not, coast travel withdrawn, the new baseline, the stationary timer judged with the
speed left; and the update goes to the Envelope Unit, the speed tests and the Leg Controller in that order (R49 to R53, R61, R62). The
stationary time taken with the update is the one a later expiry re-arms by (log 37). -/
def Obligations.EncoderSampleMovesTheRopeCoordinate : Prop :=
  ∀ s : State,
    let timer (v : Nat) : Option Time := if s.line.stationaryThreshold < v then none else match s.est.statTimer with
      | some x => some x
      | none => some (s.now + BitVec.ofNat 32 s.line.stationaryTime)
    let handedOn (e : Estimator) : State := legUpdate (speedTests (recompute { s with est := e })) .speed
    let sign : Int := if s.est.dir = .up then 1 else -1
    (∀ (f : RxFrame) (b : EncoderBaseline), s.est.baseline = some b →
      let count : BitVec 24 := BitVec.ofNat 24 (field f.payload 0 3)
      let stamp : BitVec 16 := BitVec.ofNat 16 (field f.payload 3 2)
      let diff : Nat := (count.toNat + 16777216 - b.count.toNat) % 16777216
      let dc : Int := if diff < 8388608 then diff else (diff : Int) - 16777216
      let dt : Nat := (stamp.toNat + 65536 - b.stamp.toNat) % 65536
      let travel : Int := dc * s.line.encoderScale
      let onLine (x : Int) : Nat := min x.toNat (s.line.lineLength * 1000)
      let v : Nat := min 20000 (travel.natAbs * 10 / dt)
      let dir : Dir := if 0 < dc then .up else if dc < 0 then .down else s.est.dir
      let healthy : Estimator := { s.est with
        real := onLine (s.est.real + travel), coast := 0, v := v, dir := dir, baseline := some ⟨count, stamp⟩
        statTimer := timer v, statTime := s.line.stationaryTime }
      let unhealthy : Estimator := { s.est with
        real := onLine (s.est.real + sign * ((s.est.v * dt / 10 : Nat) : Int)), coast := 0, baseline := some ⟨count, stamp⟩
        statTimer := timer s.est.v, statTime := s.line.stationaryTime }
      (field f.payload 5 1 = 1 → deliver s .encoder f = handedOn healthy ∧ (deliver s .encoder f).est = healthy) ∧
      (field f.payload 5 1 ≠ 1 → deliver s .encoder f = handedOn unhealthy ∧ (deliver s .encoder f).est = unhealthy)) ∧
    (∀ lateTimeout : Nat,
      let coasted : Estimator := { s.est with
        coast := s.est.coast + sign * ((s.est.v * lateTimeout : Nat) : Int), statTimer := timer s.est.v
        statTime := s.line.stationaryTime }
      encoderSubstitute s lateTimeout = handedOn coasted ∧ (encoderSubstitute s lateTimeout).est = coasted)

/-- A car report of quality 1 or 2, its chainage held to L: car A's first establishes the rope, car B's first after it sets Off_B, and any
later one draws its offset toward the report by at most the slew and holds it within the stretch limit, raising STRETCH_LIMIT where it was
cut; a discrepancy beyond the disagreement limit raises POSITION_DISAGREE and leaves the estimator. A report of quality 0, and one of car B
before the rope is established, changes nothing (R54 to R58). -/
def Obligations.CarReportsMoveTheOffsets : Prop :=
  ∀ (s : State) (f : RxFrame),
    let c : Nat := min (field f.payload 0 3) s.line.lineLength
    let fix := field f.payload 3 1 ≠ 0
    let within (m : Nat) (x : Int) : Int := max (-(m : Int)) (min m x)
    let after (off : Int) (t : State) : State := if s.line.stretchLimit < off.natAbs then raiseFault t .stretchLimit else t
    let established : Estimator := { s.est with real := c * 1000, coast := 0, offA := 0, agedA := false, ropeEst := true }
    let eA : Int := c - (s.rMm + s.est.offA)
    let newA : Int := s.est.offA + within s.line.offsetSlew eA
    let movedA : Estimator := { s.est with offA := within s.line.stretchLimit newA, agedA := false }
    let firstB : Int := c - (s.line.ropeSum - s.rMm)
    let setB : Estimator := { s.est with offB := within s.line.stretchLimit firstB, offBSet := true, agedB := false }
    let eB : Int := c - (s.line.ropeSum - s.rMm + s.est.offB)
    let newB : Int := s.est.offB + within s.line.offsetSlew eB
    let movedB : Estimator := { s.est with offB := within s.line.stretchLimit newB, agedB := false }
    (¬fix → deliver s .carAPosition f = s ∧ deliver s .carBPosition f = s) ∧
    (fix → s.est.ropeEst = false → deliver s .carAPosition f = positionUpdate { s with est := established } .carSet ∧
      (deliver s .carAPosition f).est = established ∧ deliver s .carBPosition f = s) ∧
    (fix → s.est.ropeEst = true →
      (s.line.disagreementLimit < eA.natAbs → deliver s .carAPosition f = raiseFault s .positionDisagree ∧
        (deliver s .carAPosition f).est = s.est) ∧
      (eA.natAbs ≤ s.line.disagreementLimit →
        deliver s .carAPosition f = positionUpdate (after newA { s with est := movedA }) .carReport ∧
        (deliver s .carAPosition f).est = movedA)) ∧
    (fix → s.est.ropeEst = true → s.est.offBSet = false →
      deliver s .carBPosition f = positionUpdate (after firstB { s with est := setB }) .carSet ∧ (deliver s .carBPosition f).est = setB) ∧
    (fix → s.est.ropeEst = true → s.est.offBSet = true →
      (s.line.disagreementLimit < eB.natAbs → deliver s .carBPosition f = raiseFault s .positionDisagree ∧
        (deliver s .carBPosition f).est = s.est) ∧
      (eB.natAbs ≤ s.line.disagreementLimit →
        deliver s .carBPosition f = positionUpdate (after newB { s with est := movedB }) .carReport ∧
        (deliver s .carBPosition f).est = movedB))

/-- An accepted console demand becomes the last console demand, clamped to 20,000; in ARMED an enabling demand in the armed direction takes the leg
out of ARMED, and any other leaves it there; in a motion state another direction than the armed one raises DIRECTION_CONFLICT; and in
every run state the demand is then offered to Port B with the setpoint clamped (R93, R136 to R139). -/
def Obligations.ConsoleDemandIsTaken : Prop :=
  ∀ (s : State) (f : RxFrame),
    let x := demandSetpoint f.payload
    let enable := demandEnable f.payload
    let dir := demandDir f.payload
    let last : LastDemand := { setpoint := min x 20000, enable := enable, dir := dir }
    let kept : State := { s with lim := { s.lim with last := some last } }
    let d : Demand := { dst := f.dst, src := f.src, seq := f.seq, offered := min x 20000, received := x, enable := enable, dir := dir
                        generated := false }
    let departs := s.leg.run = .armed ∧ enable = true ∧ 0 < x ∧ dir = s.leg.dir
    (consoleDemand s f).lim.last = some last ∧
    (s.leg.run = .armed → enable = true → 0 < x → dir = s.leg.dir → (consoleDemand s f).leg.run ≠ .armed ∧
      (s.trip.inputs.brkS.qualified = false ∨ s.trip.inputs.brkE.qualified = false → (consoleDemand s f).leg.run = .depart ∧
        (consoleDemand s f).leg.brakeTimer = some (s.now + BitVec.ofNat 32 s.line.brakeReleaseTimeout) ∧
        (consoleDemand s f).trip.den = true)) ∧
    (s.leg.run = .armed → (enable = false ∨ x = 0 ∨ dir ≠ s.leg.dir) → (consoleDemand s f).leg = s.leg) ∧
    (s.leg.run.motion = true → dir ≠ s.leg.dir → ∃ r ∈ (consoleDemand s f).trip.faults, r.kind = .directionConflict) ∧
    (departs → ∃ u, consoleDemand s f = offerDemand u d ∧ u.tables = s.tables ∧ u.lim.last = some last ∧
      (s.roleIn .console .lost = false → u.portB = s.portB)) ∧
    (s.leg.run.motion = true → dir ≠ s.leg.dir → consoleDemand s f = offerDemand (raiseFault kept .directionConflict) d) ∧
    (¬departs → (s.leg.run.motion = true → dir = s.leg.dir) → consoleDemand s f = offerDemand kept d)

/-! ## Requests (R85 to R89, R130, R164 to R177) -/

/-- STATUS READ replies with the values as they stand, in every run state, during the load and a pending restart too, from any address; it changes
nothing but the port of the reply, and in PENDING freezes the maintenance sequence first, as any request does (R169, R170). -/
def Obligations.StatusReadReportsTheState : Prop :=
  ∀ (p : PortId) (src : Byte) (s : State), s.phase ≠ .finishing →
    (s.resp.restartPending = true → s.portA.holdsRestart = true ∨ s.portB.holdsRestart = true) →
    let u : State := if s.resp.seq = .pending then { s with resp := { s.resp with seq := .frozen, requester := none, echo := none } } else s
    ∃ sync : List Byte, sync.length = 4 ∧
      (∀ i : Fin 16, (sync.getD (i.val / 4) 0).toNat / 4 ^ (3 - i.val % 4) % 4 = (s.record i).sync.num) ∧
      exec (.statusRead p src) s = .next (answered u p src 0x01 .done
        ([byteOf s.leg.run.num, byteOf (flagNum s.tables.valid), byteOf u.resp.seq.num] ++ sync ++ toBytes 2 s.env.e ++
          toBytes 2 s.est.v ++ toBytes 3 s.rMm ++ toBytes 3 s.aPos ++ toBytes 3 s.bPos ++ toBytes 3 s.leg.rStar))

/-- FAULTS READ in its short and its full form, and STOP LOG READ, reply with the records held and change nothing but the port of the reply
(R171). -/
def Obligations.FaultsAndStopLogReadReportTheRecords : Prop :=
  ∀ (p : PortId) (src : Byte) (s : State),
    (∀ first form : Byte, servable s src (.faultsRead first form) →
      let records := s.trip.faults.filter fun r => decide (first.toNat ≤ r.kind.num)
      ((first.toNat < 1 ∨ 31 < first.toNat ∨ 1 < form.toNat) →
        exec (.faultsRead p src first form) s = .next (answered s p src 0x02 .badIndex [])) ∧
      (1 ≤ first.toNat → first.toNat ≤ 31 → form = 0 →
        exec (.faultsRead p src first form) s = .next (answered s p src 0x02 .done
          (byteOf (min 8 records.length) :: (records.take 8).flatMap fun r =>
            [byteOf r.kind.num, byteOf r.count, byteOf r.stateAtRaise.num]))) ∧
      (1 ≤ first.toNat → first.toNat ≤ 31 → form = 1 →
        (records = [] → exec (.faultsRead p src first form) s = .next (answered s p src 0x02 .done [0])) ∧
        (∀ r rest, records = r :: rest → exec (.faultsRead p src first form) s = .next (answered s p src 0x02 .done
          ([1, byteOf r.kind.num, byteOf r.count, byteOf r.stateAtRaise.num] ++ toBytes 4 r.firstTime.toNat ++ toBytes 3 r.rMm ++
            toBytes 3 r.aPos ++ toBytes 3 r.bPos))))) ∧
    (∀ index : Byte, servable s src (.stopLogRead index) →
      (∀ r, s.leg.log[index.toNat]? = some r →
        exec (.stopLogRead p src index) s = .next (answered s p src 0x07 .done (stopRecordBytes r))) ∧
      (s.leg.log.length ≤ index.toNat →
        exec (.stopLogRead p src index) s = .next (answered s p src 0x07 .badIndex [])))

/-- COUNTERS READ returns the counters of a source or a port as they stand and, with the clear flag, clears them after; nothing else changes but
the port of the reply (R42, R152, R171). -/
def Obligations.CountersReadReturnsThenClears : Prop :=
  ∀ (p : PortId) (src x clear : Byte) (s : State), servable s src (.countersRead x clear) →
    (1 < clear.toNat ∨ (16 ≤ x.toNat ∧ x ≠ 0x40 ∧ x ≠ 0x41) →
      exec (.countersRead p src x clear) s = .next (answered s p src 0x08 .badIndex [])) ∧
    (∀ i : Fin 16, x.toNat = i.val →
      let c := (s.record i).counters
      let results := toBytes 2 c.accepted.toNat ++ toBytes 2 c.lost.toNat ++ toBytes 2 c.late.toNat ++ toBytes 2 c.jumps.toNat ++
        toBytes 2 c.substitutes.toNat ++ toBytes 1 (flagNum c.rollover)
      (clear = 0 → exec (.countersRead p src x clear) s = .next (answered s p src 0x08 .done results)) ∧
      (clear = 1 → exec (.countersRead p src x clear) s = .next (answered
        { s with sources := s.sources.set i { s.record i with counters := SourceCounters.zero } } p src 0x08 .done results))) ∧
    (∀ q : PortId, (q = .a ∧ x = 0x40) ∨ (q = .b ∧ x = 0x41) →
      let results := (s.port q).counters.bytes
      (clear = 0 → exec (.countersRead p src x clear) s = .next (answered s p src 0x08 .done results)) ∧
      (clear = 1 → exec (.countersRead p src x clear) s = .next (answered
        (s.setPort q { s.port q with counters := PortCounters.zero }) p src 0x08 .done results)))

/-- TABLE READ returns an entry of the active or, in MAINTENANCE, of the staged copy, and changes nothing but the port of the reply (R173). -/
def Obligations.TableReadReturnsTheEntry : Prop :=
  ∀ (p : PortId) (src table index copy : Byte) (s : State), servable s src (.tableRead table index copy) →
    let entryOf (t : TableSet) : List Byte := table :: index :: entryBytes t table.toNat index.toNat
    let named := (entryLength table.toNat index.toNat).isSome = true
    (¬named ∨ 1 < copy.toNat → exec (.tableRead p src table index copy) s = .next (answered s p src 0x09 .badIndex [])) ∧
    (named → copy = 0 → exec (.tableRead p src table index copy) s = .next (answered s p src 0x09 .done (entryOf s.tables.working))) ∧
    (named → copy = 1 → s.leg.run ≠ .maintenance →
      exec (.tableRead p src table index copy) s = .next (answered s p src 0x09 .refusedState [])) ∧
    (∀ t, named → copy = 1 → s.leg.run = .maintenance → s.resp.staged = some t →
      exec (.tableRead p src table index copy) s = .next (answered s p src 0x09 .done (entryOf t)))

/-- MAKE READY in SAFE with the eight conditions enters READY, its notice before the reply; otherwise the first that fails, in the order of R85,
is answered NOT_READY with its reason and detail, and in any other state the answer is REFUSED_STATE (R84, R85). A source that no entry in
use holds, which no committed set leaves so, has detail 0 (log 21). -/
def Obligations.MakeReadyEntersReady : Prop :=
  ∀ (p : PortId) (src : Byte) (s : State), servable s src .makeReady →
    let refused (reason detail : Byte) : Prop := exec (.makeReady p src) s = .next (answered s p src 0x04 .notReady [reason, detail])
    let index (r : Role) : Byte := match s.roleIndex r with
      | some i => byteOf i.val
      | none => 0
    let carOk (c : Car) : Prop := s.roleIn c.positionRole .sync = true ∨ s.roleIn c.positionRole .coast = true ∨
      (s.roleIn c.positionRole .lost = true ∧ (s.response c.positionLost).action = .notice)
    (s.leg.run = .safe → readyConditions s →
      exec (.makeReady p src) s = .next (answered
        { s with
          leg := legAtRest s.leg .ready, trip := tripAtRest s.trip, lim := limAtRest s.lim
          portA := offered s .a (stateNotice s .ready .makeReady 0 s.leg.number) } p src 0x04 .done [])) ∧
    (s.leg.run = .safe → s.tables.valid = false → refused 1 0) ∧
    (∀ r before after, s.leg.run = .safe → s.tables.valid = true → s.trip.faults = before ++ r :: after →
      (s.response r.kind).action ≠ .notice → (∀ x ∈ before, (s.response x.kind).action = .notice) → refused 2 (byteOf r.kind.num)) ∧
    (s.leg.run = .safe → s.tables.valid = true → (∀ x ∈ s.trip.faults, (s.response x.kind).action = .notice) →
      (s.roleIn .encoder .sync = false → refused 3 (index .encoder)) ∧
      (s.roleIn .encoder .sync = true → s.roleIn .console .sync = false → refused 3 (index .console)) ∧
      (s.roleIn .encoder .sync = true → s.roleIn .console .sync = true → s.roleIn .drive .sync = false → refused 3 (index .drive)) ∧
      (s.roleIn .encoder .sync = true → s.roleIn .console .sync = true → s.roleIn .drive .sync = true →
        (s.established = false → refused 4 0) ∧
        (s.established = true →
          (¬carOk .a → refused 5 (index .carAPosition)) ∧ (carOk .a → ¬carOk .b → refused 5 (index .carBPosition)) ∧
          (carOk .a → carOk .b →
            (doorsClosed s .carADoors = false → refused 6 (index .carADoors)) ∧
            (doorsClosed s .carADoors = true → doorsClosed s .carBDoors = false → refused 6 (index .carBDoors)) ∧
            (doorsClosed s .carADoors = true → doorsClosed s .carBDoors = true →
              (s.trip.inputs.estop.qualified = true → refused 7 1) ∧
              (s.trip.inputs.estop.qualified = false → s.trip.inputs.otTop.qualified = true → refused 7 2) ∧
              (s.trip.inputs.estop.qualified = false → s.trip.inputs.otTop.qualified = false →
                s.trip.inputs.otBottom.qualified = true → refused 7 3) ∧
              (s.trip.inputs.estop.qualified = false → s.trip.inputs.otTop.qualified = false →
                s.trip.inputs.otBottom.qualified = false → lastSays s .drive driveReady = false → refused 8 0)))))) ∧
    (s.leg.run ≠ .safe → exec (.makeReady p src) s = .next (answered s p src 0x04 .refusedState []))

/-- ARM LEG in READY or HALTED, with a place ahead and the doors closed and locked, arms the leg: number, direction, place and target are taken, the
permits drop and the envelope is recomputed; otherwise it is refused and changes nothing but the port of the reply (R87, R88). -/
def Obligations.ArmLegArmsTheLeg : Prop :=
  ∀ (p : PortId) (src db pb : Byte) (s : State), servable s src (.armLeg db pb) →
    let standing := s.leg.run = .ready ∨ s.leg.run = .halted
    let doors := doorsClosed s .carADoors = true ∧ doorsClosed s .carBDoors = true
    (∀ (d : Dir) (pl : Place), standing → db = byteOf d.num → pb = byteOf pl.num →
      let w := ((s.tables.working.places.get pl).window .a)
      let ahead := (d = .up ∧ s.aPos < w.lo) ∨ (d = .down ∧ w.hi < s.aPos)
      (ahead → doors →
        let target := stopTarget (s.tables.working.places.get pl) s.line.ropeSum s.line.lineLength s.est.offA s.est.offB
        let leg : Leg := { legAtRest s.leg .armed with
          number := s.leg.number + 1, dir := d, endPlace := pl, frozen := false, rStar := target.1, split := target.2
          active := true, mismatchA := false, mismatchB := false }
        exec (.armLeg p src db pb) s = .next (answered
          { s with
            leg := leg, trip := tripAtRest s.trip, lim := limAtRest s.lim, env := formEnvelope { s with leg := leg }
            portA := offered s .a (stateNotice s .armed .armLeg 0 (s.leg.number + 1)) } p src 0x05 .done
          (toBytes 2 (s.leg.number + 1).toNat ++ toBytes 3 target.1 ++ [byteOf (flagNum target.2)]))) ∧
      (¬ahead → exec (.armLeg p src db pb) s = .next (answered s p src 0x05 .badLeg [])) ∧
      (ahead → ¬doors → exec (.armLeg p src db pb) s = .next (answered s p src 0x05 .doorsOpen []))) ∧
    (standing → 1 < db.toNat ∨ 2 < pb.toNat → exec (.armLeg p src db pb) s = .next (answered s p src 0x05 .badLeg [])) ∧
    (¬standing → exec (.armLeg p src db pb) s = .next (answered s p src 0x05 .refusedState []))

/-- DISARM in ARMED returns to READY and ends the leg without a Stop Record, its number kept; in any other state it is refused (R89). -/
def Obligations.DisarmEndsTheLeg : Prop :=
  ∀ (p : PortId) (src : Byte) (s : State), servable s src .disarm →
    (s.leg.run = .armed →
      let leg : Leg := { legAtRest s.leg .ready with active := false }
      exec (.disarm p src) s = .next (answered
        { s with
          leg := leg, trip := tripAtRest s.trip, lim := limAtRest s.lim, env := formEnvelope { s with leg := leg }
          portA := offered s .a (stateNotice s .ready .disarm 0 s.leg.number) } p src 0x06 .done [])) ∧
    (s.leg.run ≠ .armed → exec (.disarm p src) s = .next (answered s p src 0x06 .refusedState []))

/-- RESET TRIP in SAFE removes every record of an event kind and every record of a condition kind whose condition is absent, keeps the others as
they are and replies with their number; in any other state it is refused (R115, R130). -/
def Obligations.ResetTripClearsTheFaultSet : Prop :=
  ∀ (p : PortId) (src : Byte) (s : State), servable s src .resetTrip →
    (s.leg.run = .safe →
      let kept := s.trip.faults.filter fun r => r.kind.isCondition && conditionPresent s r.kind
      exec (.resetTrip p src) s = .next (answered { s with trip := { s.trip with faults := kept } } p src 0x03 .done
        [byteOf kept.length])) ∧
    (s.leg.run ≠ .safe → exec (.resetTrip p src) s = .next (answered s p src 0x03 .refusedState []))

/-- MAINTENANCE REQUEST: FROZEN, REFUSED_STATE, or PENDING with the source as requester and the commit count as echo (R168). In PENDING the
matching confirm, in SAFE, enters MAINTENANCE with an exact copy of the working copy staged; out of PENDING a confirm is answered FROZEN or
REFUSED_STATE (R6, R86, R169). -/
def Obligations.MaintenanceIsEnteredByRequestAndConfirm : Prop :=
  (∀ (p : PortId) (src : Byte) (s : State), servable s src .maintenanceRequest →
    (s.resp.seq = .frozen → exec (.maintenanceRequest p src) s = .next (answered s p src 0x0D .frozen [])) ∧
    (s.resp.seq = .idle → s.leg.run ≠ .safe →
      exec (.maintenanceRequest p src) s = .next (answered s p src 0x0D .refusedState [])) ∧
    (s.resp.seq = .idle → s.leg.run = .safe →
      exec (.maintenanceRequest p src) s = .next (answered
        { s with resp := { s.resp with seq := .pending, requester := some src, echo := some s.tables.commitCount } } p src 0x0D .done
        (toBytes 2 s.tables.commitCount.toNat)))) ∧
  ∀ (p : PortId) (src : Byte) (echo : BitVec 16) (s : State),
    (ordinary s → s.resp.seq = .pending → s.resp.requester = some src → s.resp.echo = some echo → s.leg.run = .safe →
      exec (.maintenanceConfirm p src echo) s = .next (answered
        { s with
          leg := legAtRest s.leg .maintenance, trip := tripAtRest s.trip, lim := limAtRest s.lim
          resp := { s.resp with seq := .idle, requester := none, echo := none, staged := some s.tables.working }
          portA := offered s .a (stateNotice s .maintenance .maintenanceEntry 0 s.leg.number) } p src 0x0E .done [])) ∧
    (servable s src (.maintenanceConfirm echo) →
      exec (.maintenanceConfirm p src echo) s = .next (answered s p src 0x0E
        (if s.resp.seq = .frozen then .frozen else .refusedState) []))

/-- In PENDING any other request freezes the sequence, and is then served as from the frozen state (R169). -/
def Obligations.AnyOtherRequestFreezesTheEntry : Prop :=
  ∀ (p : PortId) (src : Byte) (r : Request) (s : State), ordinary s → s.resp.seq = .pending →
    (∀ echo, r = .maintenanceConfirm echo → ¬(s.resp.requester = some src ∧ s.resp.echo = some echo)) →
    takeRequest s p src r =
      takeRequest { s with resp := { s.resp with seq := .frozen, requester := none, echo := none } } p src r

/-- A request is answered before its own step: UNKNOWN_COMMAND where its payload fails the form step, with its code echoed, 00h for an empty
one; BUSY during the load and a pending restart, REFUSED_SOURCE from an address that may not change the state, BUSY while a store operation
is in flight; none has any other effect (R162, R165 to R167). -/
def Obligations.RequestIsRefusedBeforeItsOwnStep : Prop :=
  (∀ (p : PortId) (src : Byte) (payload : List Byte) (s : State), s.phase ≠ .finishing → s.resp.restartPending = false →
    parseRequest payload = none →
    exec (.unknownCommand p src payload) s = .next (answered s p src (payload.headD 0) .unknownCommand [])) ∧
  ∀ (p : PortId) (src : Byte) (r : Request) (s : State),
    (s.phase = .loading ∨ s.resp.restartPending = true → r ≠ .statusRead →
      takeRequest s p src r = answered s p src r.code .busy []) ∧
    (ordinary s → s.resp.seq ≠ .pending → r.stateChanging = true → ¬mayChangeState s src →
      takeRequest s p src r = answered s p src r.code .refusedSource []) ∧
    (ordinary s → s.resp.seq ≠ .pending → (r.stateChanging = true → mayChangeState s src) → r.needsStore = true →
      s.resp.op ≠ .none → takeRequest s p src r = answered s p src r.code .busy [])

/-- TABLE WRITE in MAINTENANCE replaces one entry of the staged copy alone and replies DONE_CLAMPED where a field was clamped; a table or index that
names no entry is answered BAD_INDEX, and any other state REFUSED_STATE (R7, R174). -/
def Obligations.TableWriteReplacesTheStagedEntry : Prop :=
  ∀ (p : PortId) (src table index : Byte) (entry : List Byte) (s : State), servable s src (.tableWrite table index entry) →
    entryFits table index entry = true →
    (∀ t, s.leg.run = .maintenance → s.resp.staged = some t → (entryLength table.toNat index.toNat).isSome = true →
      let w := writeEntry t table.toNat index.toNat entry
      exec (.tableWrite p src table index entry) s = .next (answered { s with resp := { s.resp with staged := some w.1 } } p src 0x0A
        (if w.2 then .doneClamped else .done) [])) ∧
    (s.leg.run = .maintenance → entryLength table.toNat index.toNat = none →
      exec (.tableWrite p src table index entry) s = .next (answered s p src 0x0A .badIndex [])) ∧
    (s.leg.run ≠ .maintenance → exec (.tableWrite p src table index entry) s = .next (answered s p src 0x0A .refusedState []))

/-- What a TABLE WRITE leaves, table by table. A Line Constants field out of bounds takes the nearer bound, and the qualification window 3 or 6;
a source entry, a segment, a place and a response entry are held field by field within their bounds, enumerated fields at the highest
member, an action at or above its kind's floor, and the two counts within 0..16 and 1..64; nothing else changes, and the clamp is reported
exactly where a value changed (R7 to R9, R12, R15, R21, R116). -/
def Obligations.TableWritesAreClamped : Prop :=
  ∀ (t : TableSet) (bs : List Byte),
    (∀ n, 1 ≤ n → n ≤ 28 →
      let x := field bs 0 3
      let w := writeEntry t 1 n bs
      (n ≠ 25 → w.1.line.get n = if x < lineLo n then lineLo n else if lineHi t.line.vMax n < x then lineHi t.line.vMax n else x) ∧
      (n = 25 → w.1.line.get n = if x ≤ 4 then 3 else 6) ∧
      (200 ≤ t.line.vMax → lineLo n ≤ w.1.line.get n ∧ w.1.line.get n ≤ lineHi t.line.vMax n) ∧
      (∀ k, k ≠ n → w.1.line.get k = t.line.get k) ∧ (w.2 = true ↔ w.1.line.get n ≠ x) ∧ w.1 = { t with line := w.1.line }) ∧
    (∀ i : Fin 16,
      let w := writeEntry t 2 i.val bs
      let e := w.1.sources.entries[i]
      e.address = min 62 (field bs 0 1) ∧ e.role.num = min 8 (field bs 1 1) ∧ e.lateTimeout = max 5 (min 800 (field bs 2 2)) ∧
      e.maxSubs = min 7 (field bs 4 1) ∧
      (w.2 = true ↔ e.address ≠ field bs 0 1 ∨ e.role.num ≠ field bs 1 1 ∨ e.lateTimeout ≠ field bs 2 2 ∨ e.maxSubs ≠ field bs 4 1) ∧
      w.1 = { t with sources := { t.sources with entries := t.sources.entries.set i e } }) ∧
    writeEntry t 2 16 bs = ({ t with sources := { t.sources with count := min 16 (field bs 0 1) } }, decide (16 < field bs 0 1)) ∧
    (∀ i : Fin 64,
      let w := writeEntry t 3 i.val bs
      let g := w.1.profile.segs[i]
      let limit := field bs 3 2
      g.start = min 4000000 (field bs 0 3) ∧ g.limit = (if limit < 100 then 100 else if t.line.vMax < limit then t.line.vMax else limit) ∧
      g.decel = max 200 (min 2000 (field bs 5 2)) ∧ g.kind.num = min 2 (field bs 7 1) ∧
      (w.2 = true ↔ g.start ≠ field bs 0 3 ∨ g.limit ≠ limit ∨ g.decel ≠ field bs 5 2 ∨ g.kind.num ≠ field bs 7 1) ∧
      w.1 = { t with profile := { t.profile with segs := t.profile.segs.set i g } }) ∧
    writeEntry t 3 64 bs = ({ t with profile := { t.profile with count := max 1 (min 64 (field bs 0 1)) } },
      decide (field bs 0 1 < 1 ∨ 64 < field bs 0 1)) ∧
    (∀ pl : Place,
      let w := writeEntry t 4 pl.num bs
      let e := w.1.places.get pl
      let at' (c : Car) (k : Nat) : Nat := field bs (9 * c.num + 3 * k) 3
      (∀ c : Car, e.window c = ⟨min 4000000 (at' c 0), min 4000000 (at' c 1), min 4000000 (at' c 2)⟩) ∧
      e.priority.num = min 1 (field bs 18 1) ∧
      (w.2 = true ↔ (∃ c : Car, 4000000 < at' c 0 ∨ 4000000 < at' c 1 ∨ 4000000 < at' c 2) ∨ 1 < field bs 18 1) ∧
      (∀ q, q ≠ pl → w.1.places.get q = t.places.get q) ∧ w.1 = { t with places := w.1.places }) ∧
    (∀ k : FaultKind,
      let w := writeEntry t 5 k.num bs
      let e := w.1.responseOf k
      e.action.num = max k.floor.num (min 2 (field bs 0 1)) ∧ e.notice = decide (field bs 1 1 ≠ 0) ∧
      (w.2 = true ↔ e.action.num ≠ field bs 0 1 ∨ 1 < field bs 1 1) ∧
      w.1 = { t with response := t.response.set k.idx e })

/-- COMMIT in MAINTENANCE takes the staged copy with the forcing of R24 as the set: CHECK_FAILED or STORE_WORN at once, or programming begins
with block 1 and no reply yet (R175, R181, R182). -/
def Obligations.CommitStartsProgramming : Prop :=
  ∀ (p : PortId) (src : Byte) (s : State), servable s src .commit →
    (s.leg.run ≠ .maintenance → exec (.commit p src) s = .next (answered s p src 0x0B .refusedState [])) ∧
    (∀ t, s.leg.run = .maintenance → s.resp.staged = some t →
      let set := forceSubs t
      (∀ table index, checkSet s.straps.own set = some (table, index) →
        exec (.commit p src) s = .next (answered s p src 0x0B .checkFailed [byteOf table, byteOf index])) ∧
      (checkSet s.straps.own set = none → s.tables.commitCount = 65535 →
        exec (.commit p src) s = .next (answered s p src 0x0B .storeWorn [])) ∧
      (checkSet s.straps.own set = none → s.tables.commitCount ≠ 65535 →
        exec (.commit p src) s = .next { s with
          resp := { s.resp with op := .commit src p set }
          tables := { s.tables with programming := some ⟨1, blockBytes (s.tables.commitCount + 1) set 1⟩ } }))

/-- VERIFY: BAD_INDEX for a first block outside 1..5; with a good header the operation begins over the range, a count of 0 taken as 1 and
the range cut at block 5; with a header that fails its own check every block of the range is raised and replied as mismatching (R175,
R185). That the header is judged in the step of the request is the model's reading (log 19). -/
def Obligations.VerifyTakesItsRange : Prop :=
  ∀ (p : PortId) (src first count : Byte) (s : State), servable s src (.verify first count) →
    let last := min 5 (first.toNat + max 1 count.toNat - 1)
    (first.toNat < 1 ∨ 5 < first.toNat → exec (.verify p src first count) s = .next (answered s p src 0x0C .badIndex [])) ∧
    (1 ≤ first.toNat → first.toNat ≤ 5 → headerGood s.tables.header = true →
      exec (.verify p src first count) s = .next { s with resp := { s.resp with op := .verify src p first.toNat last [] } }) ∧
    (1 ≤ first.toNat → first.toNat ≤ 5 → headerGood s.tables.header = false →
      let raised := (List.range (last + 1 - first.toNat)).foldl (fun u _ => raiseFault u .storeMismatch) s
      exec (.verify p src first count) s = .next
        { answered raised p src 0x0C .done [byteOf (2 ^ (last + 1) - 2 ^ first.toNat)] with resp := { s.resp with op := .none } })

/-- LEAVE MAINTENANCE returns the part to SAFE with the staged copy discarded and the working copy as it stands; in any other state it is
refused, and while a store operation is in flight it is answered BUSY (R86, R176). -/
def Obligations.LeaveMaintenanceReturnsToSafe : Prop :=
  ∀ (p : PortId) (src : Byte) (s : State), ordinary s → s.resp.seq ≠ .pending → mayChangeState s src →
    (s.resp.op ≠ .none → exec (.leaveMaintenance p src) s = .next (answered s p src 0x0F .busy [])) ∧
    (s.resp.op = .none → s.leg.run = .maintenance →
      exec (.leaveMaintenance p src) s = .next (answered
        { s with
          leg := legAtRest s.leg .safe, trip := tripAtRest s.trip, lim := limAtRest s.lim
          resp := { s.resp with staged := none }
          portA := offered s .a (stateNotice s .safe .leaveMaintenance 0 s.leg.number) } p src 0x0F .done [])) ∧
    (s.resp.op = .none → s.leg.run ≠ .maintenance → exec (.leaveMaintenance p src) s = .next (answered s p src 0x0F .refusedState []))

/-- RESTART in SAFE or MAINTENANCE becomes pending with its reply offered; a reply that meets a full queue is dropped and the reset is
taken at once, the straps read as the event gives them (log 25); in any other state RESTART is refused (R177). The reset at a drop falls
at the end of the step (log 20). -/
def Obligations.RestartBecomesPending : Prop :=
  ∀ (e : PortEvent) (src : Byte) (s : State), servable s src .restart →
    let p := e.port
    let pending : State := { s with resp := { s.resp with restartPending := true } }
    (s.leg.run = .safe ∨ s.leg.run = .maintenance → (s.port p).queue.length < 8 →
      exec (.restart e src) s = .next (pending.offer p (.reply src (replyPayload 0x10 .done []) true))) ∧
    (s.leg.run = .safe ∨ s.leg.run = .maintenance → 8 ≤ (s.port p).queue.length → noRestartReply s.portA → noRestartReply s.portB →
      s.tables.programming = none →
      ∃ t, exec (.restart e src) s = .next t ∧ t.phase = .loading ∧ t.leg.run = .safe ∧ t.resp = State.reset.resp ∧
        t.trip.faults = s.trip.faults ∧ t.leg.log = s.leg.log ∧ t.tables.working = s.tables.working ∧ t.portA.queue = [] ∧
        t.portB.queue = [] ∧ (t.port p).counters = (s.port p).counters.bump .queueDrop ∧ t.straps = s.straps.reread e.straps) ∧
    (s.leg.run ≠ .safe → s.leg.run ≠ .maintenance → exec (.restart e src) s = .next (answered s p src 0x10 .refusedState []))

/-! ## COMMIT and VERIFY under way (R182, R183, R185) -/

/-- A block that is read back as written is followed by the next block, and block 5 by the header over the checks of the blocks held; a
block that is not stops the COMMIT with STORE_FAULT and its number, and the next load of that store fails (R182). What a block holds whose
writing went wrong is the command's operand, within what R182 leaves possible, and a command outside it changes nothing (log 9, 32); the
read-back ends in the same step (log 10). -/
def Obligations.BlockProgrammedGoesOnOrStops : Prop :=
  ∀ (s : State) (fault : Option (List Byte)) (pr : Programming) (dst : Byte) (p : PortId) (set : TableSet),
    ordinary s → s.tables.programming = some pr → s.resp.op = .commit dst p set →
    let gen := s.tables.commitCount + 1
    let held := fault.getD pr.bytes
    (∀ k : Fin 5, pr.block.val = k.val + 1 → held = pr.bytes →
      let blocks := s.tables.blocks.set k pr.bytes
      (∀ next : Fin 6, next.val = k.val + 2 → exec (.blockProgrammed fault) s = .next { s with
        tables := { s.tables with blocks := blocks, programming := some ⟨next, blockBytes gen set next.val⟩ } }) ∧
      (k = 4 → exec (.blockProgrammed fault) s = .next { s with
        tables := { s.tables with blocks := blocks, programming := some ⟨0, headerBytes gen blocks⟩ } })) ∧
    (held ≠ pr.bytes → ¬leftByFailedWrite s.tables pr held → exec (.blockProgrammed fault) s = .next s) ∧
    (held ≠ pr.bytes → leftByFailedWrite s.tables pr held → ∃ t, exec (.blockProgrammed fault) s = .next t ∧
      t.portA = (answered s p dst 0x0B .storeFault [byteOf pr.block.val]).portA ∧
      t.portB = (answered s p dst 0x0B .storeFault [byteOf pr.block.val]).portB ∧ unchangedBut [.tables, .resp, .portA, .portB] s t ∧
      t.resp = { s.resp with op := .none } ∧ t.tables.programming = none ∧ t.tables.working = s.tables.working ∧
      t.tables.valid = s.tables.valid ∧ t.tables.commitCount = s.tables.commitCount ∧
      t.tables.header = (if pr.block = 0 then held else s.tables.header) ∧
      (∀ k : Fin 5, t.tables.blocks[k] = if pr.block.val = k.val + 1 then held else s.tables.blocks[k]) ∧
      loadFails t.tables.header t.tables.blocks)

/-- When the header is read back as written the COMMIT completes: the count rises, the committed set is in force and valid, both lists are
derived, each Source Record is kept, restarted or made dormant by its old and new entries, the estimator is brought into the new Line
Constants, each offset held within the new stretch limit with STRETCH_LIMIT raised where it was cut, the envelope is formed afresh, and the
reply DONE carries the new count (R44, R60, R79, R183). That a restarted record expects sequence 0 is the model's choice (log 36), and
degraded is taken with the activation (log 28). -/
def Obligations.CommitCompletionActivatesTheSet : Prop :=
  ∀ (s : State) (pr : Programming) (dst : Byte) (p : PortId) (set : TableSet),
    ordinary s → s.tables.programming = some pr → pr.block = 0 → s.resp.op = .commit dst p set →
    let old := s.tables.working
    let wasIn (i : Fin 16) := s.tables.valid = true ∧ i.val < old.sources.count
    let isIn (i : Fin 16) := i.val < set.sources.count
    let same (i : Fin 16) := old.sources.entries[i] = set.sources.entries[i]
    let sameRope := old.line.ropeSum = set.line.ropeSum
    let within (x : Int) : Int := max (-(set.line.stretchLimit : Int)) (min set.line.stretchLimit x)
    ∃ t, exec (.blockProgrammed none) s = .next t ∧
      t.tables = { s.tables with
        header := pr.bytes, programming := none, commitCount := s.tables.commitCount + 1, working := set, valid := true } ∧
      t.resp = { s.resp with op := .none } ∧ t.env.uphill = uphillList set.profile.inUse ∧
      t.env.downhill = downhillList set.profile.inUse ∧
      (∀ i : Fin 16, (isIn i ∧ wasIn i ∧ same i → t.record i = s.record i) ∧
        (isIn i ∧ ¬(wasIn i ∧ same i) → t.record i = SourceRecord.fresh SourceCounters.zero) ∧
        (¬isIn i ∧ wasIn i → t.record i = { s.record i with timer := none }) ∧ (¬isIn i ∧ ¬wasIn i → t.record i = s.record i)) ∧
      t.est = { s.est with
        real := min s.est.real (set.line.lineLength * 1000)
        offA := within s.est.offA
        offB := if sameRope then within s.est.offB else 0
        offBSet := decide sameRope && s.est.offBSet, agedB := decide sameRope && s.est.agedB
        degraded := t.roleIn .carAPosition .lost || t.roleIn .carBPosition .lost } ∧
      (set.line.stretchLimit < s.est.offA.natAbs ∨ (sameRope ∧ set.line.stretchLimit < s.est.offB.natAbs) →
        ∃ r ∈ t.trip.faults, r.kind = .stretchLimit) ∧
      (s.leg.run = .maintenance → t.env = formEnvelope t ∧ t.leg = s.leg ∧ t.lim = s.lim) ∧
      t.phase = s.phase ∧ t.now = s.now ∧ t.straps = s.straps ∧
      (∃ u, t = { answered u p dst 0x0B .done (toBytes 2 (s.tables.commitCount + 1).toNat) with resp := { s.resp with op := .none } } ∧
        (s.leg.run = .maintenance → u.portB = s.portB))

/-- A block read of a VERIFY judges the next block by its check and its generation; a mismatch raises STORE_MISMATCH, and after the last block the
reply lists the mismatching blocks, one bit each; the store, the working copy, the flag and the count are not changed (R185). -/
def Obligations.VerifyBlockReadJudgesTheBlock : Prop :=
  ∀ (s : State) (dst : Byte) (p : PortId) (k : Fin 5) (last : Nat) (bad : List Nat),
    ordinary s → s.resp.op = .verify dst p (k.val + 1) last bad →
    let found := !blockMatches s.tables.header (k.val + 1) s.tables.blocks[k]
    let judged := if found then raiseFault s .storeMismatch else s
    let bad' := if found then bad ++ [k.val + 1] else bad
    (k.val + 1 < last → exec .verifyBlockRead s =
      .next { judged with resp := { s.resp with op := .verify dst p (k.val + 2) last bad' } }) ∧
    (last ≤ k.val + 1 → exec .verifyBlockRead s =
      .next { answered judged p dst 0x0C .done [byteOf (verifyMask bad')] with resp := { s.resp with op := .none } }) ∧
    (found = true → ∃ r ∈ judged.trip.faults, r.kind = .storeMismatch) ∧ judged.tables = s.tables

/-! ## Timers (R35, R36, R40, R52, R59, R63, R94, R133, R146) -/

/-- At the expiry of a live record in SYNC or COAST a substitute is issued while fewer than the maximum have been, and otherwise the
record goes LOST and its role's fault kind is raised; no other record changes. A car position source's substitute and its loss mark its
offset aged (R35, R39, R40, R52, R59). At the expiry of a live record in HUNT the baseline is dropped and the timer stopped, and nothing
else changes (R36). When the expiry is due and from when the timer runs again is the model's reading (log 2, 3), and so is the order at a
LOST declaration (log 15, 22). -/
def Obligations.LateExpirySubstitutesOrDeclaresLost : Prop :=
  (∀ (s : State) (i : Fin 16), ordinary s → lateDue s i = true → (s.record i).sync = .hunt →
    exec (.lateTimerExpiry i) s =
      .next { s with sources := s.sources.set i { s.record i with baselineHeld := false, timer := none } }) ∧
  ∀ (s : State) (i : Fin 16), ordinary s → lateDue s i = true → (s.record i).sync = .sync ∨ (s.record i).sync = .coast →
    let r := s.record i
    let e := s.entry i
    (r.subs < e.maxSubs → ∃ t, exec (.lateTimerExpiry i) s = .next t ∧
      t.sources = s.sources.set i { r with
        sync := .coast, subs := r.subs + 1, expected := r.expected + 1
        timer := some (s.now + BitVec.ofNat 32 e.lateTimeout), counters := r.counters.bumpSubstitutes } ∧
      unchangedBut [.sources, .est, .env, .leg, .trip, .lim, .portA, .portB] s t ∧
      (e.role = .encoder → t.est.v = s.est.v ∧ t.est.real = s.est.real ∧ t.est.baseline = s.est.baseline ∧
        t.est.coast = s.est.coast + (if s.est.dir = .up then 1 else -1) * ((s.est.v * e.lateTimeout : Nat) : Int)) ∧
      (s.est.degraded = carLost s → e.role = .carAPosition →
        t.est = { s.est with agedA := true } ∧ unchangedBut [.sources, .est, .portA] s t) ∧
      (s.est.degraded = carLost s → e.role = .carBPosition →
        t.est = { s.est with agedB := true } ∧ unchangedBut [.sources, .est, .portA] s t) ∧
      (e.role = .carADoors ∨ e.role = .carBDoors ∨ e.role = .tension ∨ e.role = .drive →
        unchangedBut [.sources, .portA] s t)) ∧
    (e.maxSubs ≤ r.subs → ∃ t, exec (.lateTimerExpiry i) s = .next t ∧
      t.sources = s.sources.set i { r with sync := .lost, timer := none } ∧
      unchangedBut [.sources, .est, .env, .leg, .trip, .lim, .portA, .portB] s t ∧
      (∃ x ∈ t.trip.faults, x.kind = e.role.lostKind) ∧
      (e.role = .carAPosition → t.est.agedA = true) ∧ (e.role = .carBPosition → t.est.agedB = true))

/-- The demands the part makes for a silent console. At a console substitute in a motion state or SERVICE_STOP one demand repeats the last
console setpoint, and in any other state the substitute causes nothing (R145). The generation timer is started with one demand at the ramp
ceiling when CONSOLE goes LOST in SERVICE_STOP and when its loss takes a leg in motion into SERVICE_STOP, and at each expiry one demand is
made at the ceiling as it stands and the timer re-armed with the late timeout of the CONSOLE entry (R121, R144, R146). When the expiry is
due and from when the timer runs again is the model's reading (log 2, 3). -/
def Obligations.SilentConsoleIsAnsweredByGeneratedDemands : Prop :=
  ∀ (s : State) (ic dr : Fin 16), ordinary s → s.roleIndex .console = some ic → s.roleIndex .drive = some dr →
    let e := s.entry ic
    let r := s.record ic
    let late : Timer := some (s.now + BitVec.ofNat 32 e.lateTimeout)
    let made (x : Nat) : Demand := { dst := byteOf (s.entry dr).address, src := s.straps.own, seq := 0, offered := x, received := x
                                     enable := true, dir := s.leg.dir, generated := true }
    let ceiling (o : RampOrigin) : Nat := o.speed - s.line.serviceDecel * (s.now - o.time).toNat / 1000
    (∀ o, timerDue s.now s.lim.genTimer = true → s.trip.ramp = some o →
      exec .generationTimerExpiry s = .next { offerDemand s (made (ceiling o)) with lim := { s.lim with genTimer := late } }) ∧
    (lateDue s ic = true → r.sync = .sync ∨ r.sync = .coast →
      (r.subs < e.maxSubs →
        let noticed : State := { s with
          sources := s.sources.set ic { r with
            sync := .coast, subs := r.subs + 1, expected := r.expected + 1, timer := late, counters := r.counters.bumpSubstitutes }
          portA := if r.sync = .coast then s.portA
            else offered s .a (.notice s.noticeAddress (.sourceState ic e .sync .coast .expiry (r.subs + 1))) }
        let setpoint : Nat := match s.lim.last with
          | some x => x.setpoint
          | none => 0
        (s.leg.run.energized = true → exec (.lateTimerExpiry ic) s = .next (offerDemand noticed (made setpoint))) ∧
        (s.leg.run.energized = false → exec (.lateTimerExpiry ic) s = .next noticed)) ∧
      (e.maxSubs ≤ r.subs →
        (∀ o, s.leg.run = .serviceStop → s.trip.ramp = some o → (s.response .consoleLost).action ≠ .emergency →
          ∃ t, exec (.lateTimerExpiry ic) s = .next t ∧ t.leg.run = .serviceStop ∧ t.lim = { s.lim with genTimer := late } ∧
            t.portB = (offerDemand s (made (ceiling o))).portB) ∧
        (s.leg.run.motion = true → (s.response .consoleLost).action = .service →
          let stopped : State := { s with
            leg := legAtRest s.leg .serviceStop, trip := { s.trip with ramp := some ⟨s.est.v, s.now⟩ } }
          ∃ t, exec (.lateTimerExpiry ic) s = .next t ∧ t.leg = stopped.leg ∧ t.trip.ramp = stopped.trip.ramp ∧
            t.lim = { s.lim with genTimer := late } ∧ t.portB = (offerDemand stopped (made s.est.v)).portB)))

/-- STATIONARY re-arms its timer and is taken by run state: a halt in CREEP, the end of the leg with a TRIPPED record in a stop state, and
nothing else in any other (R63, R100, R101, R107, R109, R110). The timer is re-armed by the stationary time of the last speed update, so
that a time changed by an activation waits for the next one (R62, log 37). When the expiry is due and from when the timer runs again is the
model's reading (log 2, 3), and so is the order of the two door permits (log 29). -/
def Obligations.StationaryIsTakenByRunState : Prop :=
  ∀ s : State, ordinary s → timerDue s.now s.est.statTimer = true →
    let est := { s.est with statTimer := some (s.now + BitVec.ofNat 32 s.est.statTime) }
    let record (o : StopOutcome) : StopRecord :=
      { number := s.leg.lastRecord + 1, leg := s.leg.number, dir := s.leg.dir, place := s.leg.endPlace, rStar := s.leg.rStar
        finalR := s.rMm, error := if s.leg.dir = .up then (s.rMm : Int) - s.leg.rStar else (s.leg.rStar : Int) - s.rMm
        aPos := s.aPos, bPos := s.bPos
        aInside := ((s.tables.working.places.get s.leg.endPlace).window .a).holds s.aPos
        bInside := ((s.tables.working.places.get s.leg.endPlace).window .b).holds s.bPos
        split := s.leg.split, degraded := s.est.agedA || s.est.agedB, outcome := o }
    (s.leg.run = .creep → ∃ t, exec .stationaryTimerExpiry s = .next t ∧ t.est = est ∧
      t.leg.log = (record .completed :: s.leg.log).take 16 ∧ t.leg.lastRecord = s.leg.lastRecord + 1 ∧ t.leg.active = false ∧
      (t.leg.run = .halted ∨ t.leg.run = .safe) ∧
      ((s.response .stopOutsideWindow).action = .notice → (s.response .loopDetectorMismatch).action = .notice →
        t.leg.run = .halted ∧ t.leg.haltPlace = some s.leg.endPlace) ∧
      t.trip.den = false ∧ t.trip.sbr = false ∧ t.trip.ebr = false ∧ t.tables = s.tables ∧ t.sources = s.sources ∧ t.resp = s.resp) ∧
    (∀ o, (s.leg.run = .serviceStop ∧ o = .trippedService) ∨ (s.leg.run = .emergencyStop ∧ o = .trippedEmergency) →
      let leg : Leg := { legAtRest s.leg .safe with
        active := false, log := (record o :: s.leg.log).take 16, lastRecord := s.leg.lastRecord + 1 }
      ∃ t, exec .stationaryTimerExpiry s = .next t ∧ t.est = est ∧ t.leg = leg ∧ t.trip = tripAtRest s.trip ∧ t.lim = limAtRest s.lim ∧
        t.env = formEnvelope { s with leg := leg } ∧
        t.portA = (offered s .a (stateNotice s .safe .stationary 0 s.leg.number)).offer s.straps.own
          (.notice s.noticeAddress (.stopResult (record o))) ∧
        unchangedBut [.est, .leg, .trip, .lim, .env, .portA] s t) ∧
    (s.leg.run ≠ .creep → s.leg.run ≠ .serviceStop → s.leg.run ≠ .emergencyStop →
      exec .stationaryTimerExpiry s = .next { s with est := est })

/-- The brake-release timer's expiry in DEPART raises BRAKE_RELEASE_TIMEOUT, whose action moves the leg out of DEPART (R94, R125). When
the expiry is due is the model's reading (log 2). -/
def Obligations.BrakeReleaseExpiryEndsDeparture : Prop :=
  ∀ s : State, ordinary s → timerDue s.now s.leg.brakeTimer = true → s.leg.run = .depart →
    ∃ t, exec .brakeReleaseTimerExpiry s = .next t ∧ (∃ r ∈ t.trip.faults, r.kind = .brakeReleaseTimeout) ∧
      t.leg.brakeTimer = none ∧
      ((s.response .brakeReleaseTimeout).action = .service → t.leg.run = .serviceStop ∧ t.trip.den = true ∧
        t.trip.ramp = some ⟨s.est.v, s.now⟩) ∧
      ((s.response .brakeReleaseTimeout).action = .emergency → t.leg.run = .emergencyStop ∧ t.trip.den = false) ∧
      t.leg.rStar = s.leg.rStar ∧ t.leg.active = s.leg.active ∧ t.leg.log = s.leg.log ∧
      unchangedBut [.leg, .trip, .lim, .env, .portA, .portB] s t

/-- A due sample enters every raw history, which keeps the six most recent, and the next is due one qualification period later; an input
on which the last W samples agree takes that value, and any other keeps its own; SLIP is judged into the underlying value (R112, R132,
R133). A transition to active raises ESTOP or OVERTRAVEL in every run state and ROPE_SLIP in motion, a brake input that closes raises
BRAKE_FEEDBACK_LOST where R118 names the run state, and both brake inputs open in DEPART pass the leg to RUN (R94, R118). When a sample is
due, from when the next is counted, and the order in which the six inputs are judged, are the model's reading (log 2, 3, 12, 13). -/
def Obligations.QualificationSampleJudgesTheInputs : Prop :=
  ∀ (s : State) (raw : RawInputs), ordinary s → sampleDue s = true →
    let history (i : InputId) := (rawLevel raw i :: (s.trip.inputs.get i).history).take 6
    let judged (i : InputId) (before : Bool) := (agreed s.line.qualWindow (history i)).getD before
    let turns (i : InputId) (x : Bool) := agreed s.line.qualWindow (history i) = some x ∧ (s.trip.inputs.get i).qualified ≠ x ∧
      (i = .slip → s.trip.slipTimer = none)
    let calm := ¬turns .estop true ∧ ¬turns .otTop true ∧ ¬turns .otBottom true
    ∃ t, exec (.qualificationSample raw) s = .next t ∧
      (∀ i, (t.trip.inputs.get i).history = history i) ∧
      t.trip.sampleTimer = some (s.now + BitVec.ofNat 32 s.line.qualPeriod) ∧
      (∀ i, i ≠ .slip → (t.trip.inputs.get i).qualified = judged i (s.trip.inputs.get i).qualified) ∧
      t.trip.slipUnderlying = judged .slip s.trip.slipUnderlying ∧
      (s.leg.run = .safe → t.leg = s.leg ∧ t.env = s.env ∧ t.lim = s.lim ∧ t.portB = s.portB ∧
        (s.trip.slipTimer ≠ none → t.trip.inputs.slip.qualified = s.trip.inputs.slip.qualified)) ∧
      (turns .estop true → ∃ r ∈ t.trip.faults, r.kind = .estop) ∧
      (turns .otTop true ∨ turns .otBottom true → ∃ r ∈ t.trip.faults, r.kind = .overtravel) ∧
      (calm → turns .slip true → s.leg.run.motion = true → ∃ r ∈ t.trip.faults, r.kind = .ropeSlip) ∧
      (calm → ¬turns .slip true → turns .brkS false ∨ turns .brkE false →
        s.leg.run = .run ∨ s.leg.run = .approach ∨ s.leg.run = .creep ∨ s.leg.run = .serviceStop →
        ∃ r ∈ t.trip.faults, r.kind = .brakeFeedbackLost) ∧
      (calm → ¬turns .slip true → s.leg.run = .depart → turns .brkS true ∨ turns .brkE true →
        judged .brkS s.trip.inputs.brkS.qualified = true → judged .brkE s.trip.inputs.brkE.qualified = true →
        t.leg.run ≠ .depart ∧ t.leg.brakeTimer = none ∧
        ((s.line.approachDistance : Int) < s.remaining → t.leg = legAtRest s.leg .run ∧ t.trip.den = true ∧
          t.trip.faults = s.trip.faults ∧ t.portA = offered s .a (stateNotice s .run .brakesOpen 0 s.leg.number))) ∧
      unchangedBut [.trip, .leg, .env, .lim, .portA, .portB] s t

/-- At the expiry of the slip blanking timer the qualified SLIP value takes the underlying value; a release to active in a motion state
raises ROPE_SLIP, and without a transition nothing else changes (R118, R133). When the expiry is due is the model's reading (log 2). -/
def Obligations.SlipBlankingExpiryReleasesTheValue : Prop :=
  ∀ s : State, ordinary s → timerDue s.now s.trip.slipTimer = true →
    (s.trip.inputs.slip.qualified = s.trip.slipUnderlying →
      exec .slipBlankingTimerExpiry s = .next { s with trip := { s.trip with slipTimer := none } }) ∧
    (s.trip.inputs.slip.qualified ≠ s.trip.slipUnderlying → ∃ t, exec .slipBlankingTimerExpiry s = .next t ∧
      t.trip.inputs.slip.qualified = s.trip.slipUnderlying ∧ t.trip.inputs.estop = s.trip.inputs.estop ∧
      unchangedBut [.trip, .leg, .env, .lim, .portA, .portB] s t ∧
      (s.trip.slipUnderlying = true → s.leg.run.motion = true → ∃ r ∈ t.trip.faults, r.kind = .ropeSlip) ∧
      (s.trip.slipUnderlying = false ∨ s.leg.run.motion = false → unchangedBut [.trip] s t ∧ t.trip.slipTimer = none ∧
        t.trip.faults = s.trip.faults))

/-! ## Arithmetic and judgement (R67, R75, R90, R91, R123, R125) -/

/-- The integer square root is the largest whole number whose square does not exceed its argument (R67). -/
def Obligations.IntegerSquareRootIsExact : Prop :=
  ∀ n : Nat, isqrt n * isqrt n ≤ n ∧ ∀ r : Nat, r * r ≤ n → r ≤ isqrt n

/-- Each recomputation forms E as the least of E_A, E_B, E_T while a leg is active, V_max, and V_degraded while degraded: it is at most each of
them and equals one; and it exceeds neither V_max nor the limit of the segment either car stands in (R70, R75). A car's envelope is the
least of its segment's limit and, while a leg is active, the braking curves toward the points of its list that lie ahead of it (R68 to
R70). E_T is formed by the zone of the remaining distance (R72 to R74). -/
def Obligations.SystemEnvelopeIsTheLeast : Prop :=
  ∀ s : State,
    let t := recompute s
    let terms := [t.env.eA, t.env.eB, s.line.vMax] ++ t.env.eT.toList ++ (if s.est.degraded then [s.line.vDegraded] else [])
    let braking (vr d a m : Nat) : Nat := min s.line.vMax (isqrt (vr * vr + 2 * a * (d - m)))
    let climbing (c : Car) := (s.leg.dir = .up ∧ c = .a) ∨ (s.leg.dir = .down ∧ c = .b)
    let points (c : Car) : List Point := if climbing c then s.env.uphill else s.env.downhill
    let ahead (c : Car) (x : Point) := if climbing c then s.carPos c ≤ x.chainage else x.chainage ≤ s.carPos c
    let toward (c : Car) (x : Point) : Nat :=
      braking x.speed (if climbing c then x.chainage - s.carPos c else s.carPos c - x.chainage) x.decel s.line.brakingMargin
    let limit (c : Car) : Nat := (s.tables.working.profile.at (s.carPos c)).limit
    let own (c : Car) : Nat := match c with
      | .a => t.env.eA
      | .b => t.env.eB
    let left : Int := if s.leg.dir = .up then (s.leg.rStar : Int) - s.rMm else (s.rMm : Int) - s.leg.rStar
    (∀ x ∈ terms, t.env.e ≤ x) ∧ t.env.e ∈ terms ∧ (t.env.eT.isSome = true ↔ s.leg.active = true) ∧ t.env.e ≤ s.line.vMax ∧
    (∀ c : Car, t.env.e ≤ limit c) ∧ unchangedBut [.env] s t ∧
    (∀ c : Car, own c ≤ limit c ∧ (s.leg.active = false → own c = limit c) ∧
      (s.leg.active = true → (∀ x ∈ points c, ahead c x → own c ≤ toward c x) ∧
        (own c = limit c ∨ ∃ x ∈ points c, ahead c x ∧ own c = toward c x))) ∧
    (s.leg.active = true →
      ((s.line.creepDistance : Int) < left → t.env.eT = some (min (braking 0 left.toNat s.line.aStop 0)
        (braking s.line.creepSpeed (left - s.line.creepDistance).toNat s.line.aStop 0))) ∧
      (left ≤ s.line.creepDistance → 0 < left → t.env.eT = some (min s.line.creepSpeed (isqrt (2 * s.line.aStop * left.toNat)))) ∧
      (left ≤ 0 → t.env.eT = some 0)) ∧
    t.env.uphill = s.env.uphill ∧ t.env.downhill = s.env.downhill

/-- A raise records its kind or, in a Fault Set in kind order, counts it once more up to 255; a FAULT_RAISED notice is offered to Port A where
the kind's notice is enabled; and its action in force moves the run state by the table of R125, with the STATE_CHANGED notice after it. No
other record of the Fault Set changes (R84, R122 to R125). -/
def Obligations.RaiseRecordsAndActs : Prop :=
  ∀ (s : State) (k : FaultKind),
    let t := raiseFault s k
    let moving := s.leg.run = .depart ∨ s.leg.run = .run ∨ s.leg.run = .approach ∨ s.leg.run = .creep
    let standing := s.leg.run = .ready ∨ s.leg.run = .armed ∨ s.leg.run = .halted
    let a := (s.response k).action
    let noticed (count : Nat) : Port := if (s.response k).notice
      then offered s .a (.notice s.noticeAddress (.faultRaised k a s.leg.run count s.rMm s.aPos s.bPos)) else s.portA
    let changed (count : Nat) : Port := (noticed count).offer s.straps.own (stateNotice s t.leg.run .fault k.num s.leg.number)
    (faultOf t.trip.faults k).isSome = true ∧
    (∀ r, faultSetOrdered s → faultOf s.trip.faults k = some r →
      faultOf t.trip.faults k = some { r with count := min 255 (r.count + 1) }) ∧
    (faultOf s.trip.faults k = none → faultOf t.trip.faults k = some
      { kind := k, firstTime := s.now, stateAtRaise := s.leg.run, rMm := s.rMm, aPos := s.aPos, bPos := s.bPos, count := 1 }) ∧
    (∀ k', k' ≠ k → faultOf t.trip.faults k' = faultOf s.trip.faults k') ∧
    (a = .service → moving → t.leg.run = .serviceStop ∧ t.trip.den = true ∧ t.trip.ramp = some ⟨s.est.v, s.now⟩) ∧
    (a = .emergency → moving ∨ s.leg.run = .serviceStop → t.leg.run = .emergencyStop ∧ t.trip.den = false ∧ t.trip.sbr = false ∧
      t.trip.ebr = false ∧ t.trip.ramp = none) ∧
    (a ≠ .notice → standing → t.leg.run = .safe ∧ t.leg.dra = false ∧ t.leg.drb = false) ∧
    (a = .notice ∨ (a = .service ∧ s.leg.run = .serviceStop) ∨ s.leg.run = .safe ∨ s.leg.run = .maintenance ∨
        s.leg.run = .emergencyStop →
      t.leg = s.leg ∧ t.env = s.env ∧ t.lim = s.lim ∧ t.portB = s.portB) ∧
    (∀ count, (faultOf s.trip.faults k = none ∧ count = 1) ∨
        (faultSetOrdered s ∧ ∃ r, faultOf s.trip.faults k = some r ∧ count = min 255 (r.count + 1)) →
      t.portA = if t.leg.run = s.leg.run then noticed count else changed count) ∧
    unchangedBut [.leg, .trip, .env, .lim, .portA, .portB] s t

/-- One speed update finds kinds by the run state: the absolute test, the envelope test with the highest margin exceeded, wrong way, the ramp
test in SERVICE_STOP, uncommanded motion at rest; every comparison is strict; the kinds found are raised one after another, and each has
its record (R119 to R121). A door, tension or drive sample raises its kind where it meets its test in a run state R117 names. -/
def Obligations.SpeedAndSamplesAreJudged : Prop :=
  (∀ s : State,
    let v := s.est.v
    let absolute : List FaultKind := if s.line.vTrip < v then [.absoluteOverspeed] else []
    let envelope : List FaultKind := if s.env.e + s.line.emergencyMargin < v then [.overspeedEmergency]
      else if s.env.e + s.line.serviceMargin < v then [.overspeedService]
      else if s.env.e + s.line.warnMargin < v then [.overspeedWarning] else []
    let wrong : List FaultKind := if s.line.stationaryThreshold < v ∧ s.est.dir ≠ s.leg.dir then [.wrongWay] else []
    let ceiling : Nat := (s.trip.ramp.map fun o => o.speed - s.line.serviceDecel * (s.now - o.time).toNat / 1000).getD 0
    let ramp : List FaultKind := if min s.env.e ceiling + s.line.emergencyMargin < v then [.overspeedEmergency] else []
    let moved : List FaultKind := if s.line.stationaryThreshold < v then [.uncommandedMotion] else []
    let found : List FaultKind := match s.leg.run with
      | .depart | .run | .approach | .creep => absolute ++ envelope ++ wrong
      | .serviceStop => absolute ++ ramp
      | .emergencyStop => absolute
      | .safe | .ready | .armed | .halted | .maintenance => absolute ++ moved
    speedTests s = found.foldl raiseFault s ∧ (∀ k ∈ found, ∃ r ∈ (speedTests s).trip.faults, r.kind = k) ∧
    (s.leg.run.energized = true → (∃ k ∈ found, (s.response k).action = .emergency) →
      (speedTests s).leg.run = .emergencyStop ∧ (speedTests s).trip.den = false)) ∧
  (∀ (s : State) (f : RxFrame),
    let openDoor := field f.payload 0 1 = 1 ∧ s.leg.run.energized = true
    let tension := field f.payload 0 2
    let slack : State := if tension < s.line.tensionMin ∧ s.leg.run.motion = true then raiseFault s .slackRope else s
    let stopped := field f.payload 0 1 ≠ 1 ∧ s.leg.run.motion = true
    (∀ r, r = .carADoors ∨ r = .carBDoors → (openDoor → deliver s r f = raiseFault s .doorOpenInMotion) ∧
      (¬openDoor → deliver s r f = s)) ∧
    (s.line.tensionMax < tension → deliver s .tension f = raiseFault slack .ropeOverload) ∧
    (tension ≤ s.line.tensionMax → deliver s .tension f = slack) ∧
    (stopped → deliver s .drive f = raiseFault s .driveNotReady) ∧ (¬stopped → deliver s .drive f = s))

/-- The stop target: where the two cars' ranges meet, of the rope coordinates at which both stand inside their windows the one nearest the preferred
point, the mean of the nominals rounded down; where they do not, the end of the priority car's range nearest the other; held within 0..L (R90, R91). -/
def Obligations.StopTargetKeepsTheCarsInside : Prop :=
  ∀ (p : PlaceEntry) (k lineLength : Nat) (offA offB : Int),
    let t := stopTarget p k lineLength offA offB
    let inA (x : Int) := (p.a.lo : Int) ≤ x + offA ∧ x + offA ≤ p.a.hi
    let inB (x : Int) := (p.b.lo : Int) ≤ k - x + offB ∧ k - x + offB ≤ p.b.hi
    let held (x : Int) : Nat := min x.toNat lineLength
    let preferred (x : Int) := 2 * x ≤ ((p.a.nom : Int) - offA) + (k + offB - p.b.nom) ∧
      ((p.a.nom : Int) - offA) + (k + offB - p.b.nom) ≤ 2 * x + 1
    t.1 ≤ lineLength ∧
    (p.a.lo ≤ p.a.hi → p.b.lo ≤ p.b.hi → (t.2 = false ↔ ∃ x, inA x ∧ inB x)) ∧
    (t.2 = false → ∃ x, inA x ∧ inB x ∧ t.1 = held x ∧
      ∀ y, preferred y → ∀ z, inA z → inB z → (x - y).natAbs ≤ (z - y).natAbs) ∧
    (p.a.lo ≤ p.a.hi → p.b.lo ≤ p.b.hi → t.2 = true →
      (p.priority = .a → (k : Int) + offB - p.b.lo < p.a.lo - offA → t.1 = held (p.a.lo - offA)) ∧
      (p.priority = .a → (p.a.hi : Int) - offA < k + offB - p.b.hi → t.1 = held (p.a.hi - offA)) ∧
      (p.priority = .b → (p.a.hi : Int) - offA < k + offB - p.b.hi → t.1 = held (k + offB - p.b.hi)) ∧
      (p.priority = .b → (k : Int) + offB - p.b.lo < p.a.lo - offA → t.1 = held (k + offB - p.b.lo)))

/-! ## The leg under way and the door permits (R94 to R99, R102, R103) -/

/-- A position update in RUN, APPROACH or CREEP: in APPROACH a car report that corrects an offset re-latches the target first; a distance past
the target by more than the tolerance raises OVERRUN and ends the update; then the passages, from RUN to APPROACH and from APPROACH to CREEP
with the same distance. At the entry into CREEP the target is computed a last time and frozen, the envelope formed, the change noticed, the
overrun tested again and a split raised. In HALTED the door permits are evaluated; in any other state the update has no effect here. In
DEPART both brake inputs open pass the leg to RUN, where the passages are tested at once (R94 to R99). -/
def Obligations.LegClosesOnItsTarget : Prop :=
  ∀ (s : State) (u : Update),
    let distance (l : Leg) : Int := if l.dir = .up then (l.rStar : Int) - s.rMm else (s.rMm : Int) - l.rStar
    let beyond (l : Leg) := distance l < -(s.line.overrunTolerance : Int)
    let target := stopTarget (s.tables.working.places.get s.leg.endPlace) s.line.ropeSum s.line.lineLength s.est.offA s.est.offB
    let latched : Leg := { s.leg with rStar := target.1, split := target.2 }
    let moving : Trip := { s.trip with den := true, sbr := true, ebr := true, ramp := none }
    let passed (r : RunState) (cause : StateCause) : State := { s with
      leg := legAtRest s.leg r, trip := moving, lim := limAtRest s.lim, portA := offered s .a (stateNotice s r cause 0 s.leg.number) }
    let final : Leg := { latched with frozen := true }
    let creeping (a : Port) : State := { s with
      leg := legAtRest final .creep, trip := moving, lim := limAtRest s.lim, env := formEnvelope { s with leg := final }
      portA := a.offer s.straps.own (.notice s.noticeAddress (.stateChanged .approach .creep .creepDistance 0 s.leg.number)) }
    let entered (a : Port) : State := if beyond final then raiseFault (creeping a) .overrun
      else if target.2 then raiseFault (creeping a) .splitStop else creeping a
    let under := s.leg.run = .run ∨ s.leg.run = .approach ∨ s.leg.run = .creep
    (¬under → s.leg.run ≠ .halted → legUpdate s u = s) ∧ (s.leg.run = .halted → legUpdate s u = evaluatePermits s) ∧
    (s.leg.run = .approach → s.leg.frozen = false →
      legUpdate s .carReport = legUpdate { s with leg := latched, env := formEnvelope { s with leg := latched } } .speed) ∧
    (under → ¬(s.leg.run = .approach ∧ u = .carReport) →
      (beyond s.leg → legUpdate s u = raiseFault s .overrun) ∧ (¬beyond s.leg → legUpdate s u = testPassages s)) ∧
    (s.leg.run = .run → (s.line.approachDistance : Int) < distance s.leg → testPassages s = s) ∧
    (s.leg.run = .run → distance s.leg ≤ s.line.approachDistance → (s.line.creepDistance : Int) < distance s.leg →
      testPassages s = passed .approach .approachDistance) ∧
    (s.leg.run = .run → distance s.leg ≤ s.line.approachDistance → distance s.leg ≤ s.line.creepDistance → s.leg.frozen = false →
      testPassages s = entered (passed .approach .approachDistance).portA) ∧
    (s.leg.run = .approach → (s.line.creepDistance : Int) < distance s.leg → testPassages s = s) ∧
    (s.leg.run = .approach → distance s.leg ≤ s.line.creepDistance → s.leg.frozen = false → testPassages s = entered s.portA) ∧
    (s.leg.run = .creep → testPassages s = s) ∧
    (s.leg.run = .depart → s.trip.inputs.brkS.qualified = true → s.trip.inputs.brkE.qualified = true →
      testBrakesOpen s = testPassages (passed .run .brakesOpen)) ∧
    (s.leg.run ≠ .depart ∨ s.trip.inputs.brkS.qualified = false ∨ s.trip.inputs.brkE.qualified = false → testBrakesOpen s = s)

/-- An evaluation of the door permits in HALTED energizes DRA or DRB exactly where the car stands inside its window of the halt place and the
loop condition of its track holds: at BOTTOM and TOP and with no detector for the track at once, at LOOP where the detector serving the
track is in SYNC and its last payload reports presence. Presence clears the track's mismatch flag; absence with the car inside its window
raises LOOP_DETECTOR_MISMATCH and sets the flag where it was clear; anything else leaves the flag. An accepted detector sample evaluates the
permits, and outside HALTED an evaluation does nothing (R22, R102, R103). Car A's permit is judged first (log 29). -/
def Obligations.DoorPermitsFollowTheirConditions : Prop :=
  ∀ s : State,
    let detectors := (List.finRange 16).filter fun i =>
      decide (i.val < s.tables.working.sources.count) && decide (s.tables.working.sources.entries[i].role = .loopDetector)
    let serving (c : Car) : Option (Fin 16) := match detectors, c with
      | [], _ => none
      | [d], _ => some d
      | d :: _ :: _, .a => some d
      | _ :: d :: _, .b => some d
    let reports (c : Car) (present : Bool) := ∃ i payload, serving c = some i ∧ (s.record i).sync = .sync ∧
      (s.record i).lastPayload = some payload ∧ present = decide (field payload 0 1 / 2 ^ c.num % 2 = 1)
    (s.leg.run ≠ .halted → evaluatePermits s = s) ∧
    (∀ pl, s.leg.run = .halted → s.leg.haltPlace = some pl →
      let inside (c : Car) := ((s.tables.working.places.get pl).window c).holds (s.carPos c) = true
      let free (c : Car) := pl ≠ .loop ∨ serving c = none
      let onset (c : Car) := ¬free c ∧ reports c false ∧ inside c ∧ mismatch s c = false
      let t := evaluatePermits s
      ((s.response .loopDetectorMismatch).action = .notice → t.leg.run = .halted ∧ t.leg.haltPlace = some pl ∧
        ∀ c : Car, (permit t c = true ↔ inside c ∧ (free c ∨ reports c true)) ∧ (free c → mismatch t c = mismatch s c) ∧
          (¬free c → reports c true → mismatch t c = false) ∧
          (¬free c → ¬reports c true → (mismatch t c = true ↔ onset c ∨ mismatch s c = true))) ∧
      ((∃ c, onset c) → ∃ r ∈ t.trip.faults, r.kind = .loopDetectorMismatch) ∧
      ((∃ c, onset c) → (s.response .loopDetectorMismatch).action ≠ .notice → t.leg.run = .safe ∧ t.leg.dra = false ∧ t.leg.drb = false) ∧
      ((∀ c, ¬onset c) → unchangedBut [.leg] s t)) ∧
    ∀ f, deliver s .loopDetector f = evaluatePermits s

/-! ## Invariants -/

/-- The reset state has every invariant. The straps, the store and the commit count of State.reset are the model's choice (log 6, 7, 11).
-/
def Obligations.ResetHasTheInvariants : Prop :=
  queuesWithin State.reset ∧ outputsFollow State.reset ∧ tablesChangeAtRest State.reset ∧ permitsInsideWindows State.reset ∧
  faultSetOrdered State.reset ∧ stopLogOrdered State.reset ∧ departureFaultFree State.reset ∧ speedsWithin State.reset ∧
  envelopeWithin State.reset ∧ inputsConsistent State.reset ∧ substitutesWithin State.reset ∧ degradedFollows State.reset ∧
  positionWithin State.reset ∧ maintenanceConsistent State.reset ∧ storeConsistent State.reset

/-- Every step keeps each transmit queue within 8 frames and Port B's within one demand (R155, R156). -/
def Obligations.StepKeepsTheQueuesWithin : Prop := ∀ s t : State, queuesWithin s → step s = .next t → queuesWithin t

/-- Every step keeps DEN, SBR and EBR, the ramp origin, the halt place and the two timers as the run state has them (R83, R94, R112, R134,
R147). -/
def Obligations.StepKeepsTheOutputsWithTheRunState : Prop := ∀ s t : State, outputsFollow s → step s = .next t → outputsFollow t

/-- No step brings the part to READY, ARMED, HALTED or a motion state with a record held whose kind's action is SERVICE or EMERGENCY (R125). -/
def Obligations.StepKeepsTheDepartureFaultFree : Prop :=
  ∀ s t : State, tablesChangeAtRest s → departureFaultFree s → step s = .next t → tablesChangeAtRest t ∧ departureFaultFree t

/-- Every step keeps a door release energized only in HALTED and only while its car stands inside its window of the halt place (R102). -/
def Obligations.StepKeepsThePermitsInsideTheWindows : Prop :=
  ∀ s t : State, tablesChangeAtRest s → permitsInsideWindows s → step s = .next t → permitsInsideWindows t

/-- Every step keeps the Fault Set in kind order with at most one record per kind, the Stop Log within 16 records, every speed and setpoint
within 20,000, E within V_max, and the inputs' histories and slip value consistent (R75, R110, R112, R122, R133). -/
def Obligations.StepKeepsTheRecordsOrdered : Prop :=
  ∀ s t : State, step s = .next t →
    (faultSetOrdered s → faultSetOrdered t) ∧ (stopLogOrdered s → stopLogOrdered t) ∧ (speedsWithin s → speedsWithin t) ∧
    (envelopeWithin s → envelopeWithin t) ∧ (inputsConsistent s → inputsConsistent t)

/-- Every step keeps the substitutes within their maximum, degraded with the car records, the position on the line, the maintenance sequence with its
fields, and the store's progress with its operation (R6, R35, R46, R59, R164, R169, R177, R182). The first holds where the tables change at
rest alone, an invariant stated apart. -/
def Obligations.StepKeepsTheRecordsWithTheirSources : Prop :=
  ∀ s t : State, step s = .next t →
    (tablesChangeAtRest s → substitutesWithin s → substitutesWithin t) ∧ (degradedFollows s → degradedFollows t) ∧
    (positionWithin s → positionWithin t) ∧ (maintenanceConsistent s → maintenanceConsistent t) ∧ (storeConsistent s → storeConsistent t)
end

