-- ==== Sys2Proof/Decode.lean ====
section
/-! DEFINITION. The decoder of the table's words. The table gives none of its rows any bits. -/

namespace Sys2Proof

/-- The command a word spells by the table's bits: none, since no row of the table gives bits. -/
def decodeTableWord (_nbits _w : Nat) : Option Instr := none

end Sys2Proof
end

