-- ==== Sys2Proof/Laws/Bytes.lean ====
section
/-! SUPPORT. Fields written to bytes and read back: lengths, numbers, fields inside longer byte strings, numbers of list members. -/

namespace Sys2Proof.Machine

/-! ## Numbers in bytes -/

@[simp] theorem toBytes_length (k x : Nat) : (toBytes k x).length = k := by
  induction k with
  | zero => rfl
  | succ k ih => simp [toBytes, ih]

/-- The number bytes carry, from a number already read. -/
theorem beNat_foldl (acc : Nat) (bs : List Byte) :
    bs.foldl (fun a b => a * 256 + b.toNat) acc = acc * 256 ^ bs.length + beNat bs := by
  induction bs generalizing acc with
  | nil => simp [beNat]
  | cons b bs ih =>
    simp only [List.foldl_cons, List.length_cons, beNat]
    rw [ih, ih (0 * 256 + b.toNat)]
    ring

theorem beNat_cons (b : Byte) (bs : List Byte) : beNat (b :: bs) = b.toNat * 256 ^ bs.length + beNat bs := by
  simp only [beNat, List.foldl_cons]
  rw [beNat_foldl]
  simp [beNat]

/-- A number written in `k` bytes reads back modulo `256 ^ k`. -/
theorem beNat_toBytes (k x : Nat) : beNat (toBytes k x) = x % 256 ^ k := by
  induction k with
  | zero => simp [toBytes, beNat, Nat.mod_one]
  | succ k ih =>
    have h : x % 256 ^ (k + 1) = x % 256 ^ k + 256 ^ k * (x / 256 ^ k % 256) := by rw [pow_succ, Nat.mod_mul]
    have h8 : (BitVec.ofNat 8 (x / 256 ^ k)).toNat = x / 256 ^ k % 256 := by simp
    rw [toBytes, beNat_cons, ih, toBytes_length, h8, h, Nat.mul_comm, Nat.add_comm]

/-- A number that fits reads back. -/
theorem beNat_toBytes_of_lt {k x : Nat} (h : x < 256 ^ k) : beNat (toBytes k x) = x := by
  rw [beNat_toBytes, Nat.mod_eq_of_lt h]

/-! ## Fields inside longer byte strings -/

/-- A field that lies in the first part. -/
theorem field_append_left {a : List Byte} {off len : Nat} (b : List Byte) (h : off + len ≤ a.length) :
    field (a ++ b) off len = field a off len := by
  simp only [field]
  rw [List.drop_append_of_le_length (by omega), List.take_append_of_le_length (by simp; omega)]

/-- A field that lies in the second part. -/
theorem field_append_right {a : List Byte} {off : Nat} (b : List Byte) (len : Nat) (h : a.length ≤ off) :
    field (a ++ b) off len = field b (off - a.length) len := by
  simp only [field]
  rw [List.drop_append, List.drop_eq_nil_of_le h, List.nil_append]

/-- A field past a dropped front. -/
theorem field_drop (a : List Byte) (n off len : Nat) : field (a.drop n) off len = field a (n + off) len := by
  simp [field, List.drop_drop]

/-- The whole of a number's bytes. -/
theorem field_toBytes {k x : Nat} (h : x < 256 ^ k) : field (toBytes k x) 0 k = x := by
  simp only [field, List.drop_zero]
  rw [List.take_of_length_le (by simp), beNat_toBytes_of_lt h]

/-- The leading number of a byte string. -/
theorem field_toBytes_append {k x : Nat} (bs : List Byte) (h : x < 256 ^ k) : field (toBytes k x ++ bs) 0 k = x := by
  rw [field_append_left _ (by simp), field_toBytes h]

/-- The number that stands after `n` bytes. -/
theorem field_after {a : List Byte} {n k x : Nat} (bs : List Byte) (ha : a.length = n) (h : x < 256 ^ k) :
    field (a ++ (toBytes k x ++ bs)) n k = x := by
  rw [field_append_right _ _ (by omega), ha, Nat.sub_self, field_toBytes_append bs h]

/-- In a sequence of pieces of one length, piece `i` begins at `n * i`. -/
theorem drop_flatMap {α : Type} (f : α → List Byte) (n : Nat) (hf : ∀ x, (f x).length = n) (l : List α) (i : Nat) :
    (l.flatMap f).drop (n * i) = (l.drop i).flatMap f := by
  induction l generalizing i with
  | nil => simp
  | cons x xs ih =>
    cases i with
    | zero => simp
    | succ i =>
      rw [List.flatMap_cons, List.drop_append, List.drop_eq_nil_of_le (by rw [hf]; nlinarith), List.nil_append, hf]
      rw [show n * (i + 1) - n = n * i by rw [Nat.mul_succ]; omega, ih, List.drop_succ_cons]

theorem flatMap_length {α : Type} (f : α → List Byte) (n : Nat) (hf : ∀ x, (f x).length = n) (l : List α) :
    (l.flatMap f).length = n * l.length := by
  induction l with
  | nil => simp
  | cons x xs ih => rw [List.flatMap_cons, List.length_append, hf, ih, List.length_cons]; ring

/-! ## Members of lists -/

@[simp] theorem role_ofNum_num (r : Role) : Role.ofNum r.num = r := by cases r <;> rfl
@[simp] theorem segKind_ofNum_num (k : SegKind) : SegKind.ofNum k.num = k := by cases k <;> rfl
@[simp] theorem action_ofNum_num (a : Action) : Action.ofNum a.num = a := by cases a <;> rfl
@[simp] theorem car_ofNum_num (c : Car) : Car.ofNum c.num = c := by cases c <;> rfl
@[simp] theorem dir_ofByte_num (d : Dir) : Dir.ofByte? (byteOf d.num) = some d := by cases d <;> rfl
@[simp] theorem place_ofByte_num (p : Place) : Place.ofByte? (byteOf p.num) = some p := by cases p <;> rfl
theorem role_num_lt (r : Role) : r.num < 256 := by cases r <;> decide
theorem segKind_num_lt (k : SegKind) : k.num < 256 := by cases k <;> decide
theorem action_num_lt (a : Action) : a.num < 256 := by cases a <;> decide
theorem car_num_lt (c : Car) : c.num < 256 := by cases c <;> decide
theorem flagNum_lt (b : Bool) : flagNum b < 256 := by cases b <;> decide

/-- Each kind stands at its place in the list of kinds. -/
theorem kindOfIndex_num (k : FaultKind) : kindOfIndex k.num = k := by cases k <;> rfl

/-- No two kinds have one number. -/
theorem faultKind_num_inj {k k' : FaultKind} (h : k.num = k'.num) : k = k' := by
  rw [← kindOfIndex_num k, ← kindOfIndex_num k', h]

/-! ## Lengths of the layouts -/

@[simp] theorem sourceBytes_length (e : SourceEntry) : (sourceBytes e).length = 5 := by simp [sourceBytes]
@[simp] theorem segmentBytes_length (g : Segment) : (segmentBytes g).length = 8 := by simp [segmentBytes]
@[simp] theorem windowBytes_length (w : Window) : (windowBytes w).length = 9 := by simp [windowBytes]
@[simp] theorem placeBytes_length (p : PlaceEntry) : (placeBytes p).length = 19 := by simp [placeBytes]
@[simp] theorem responseBytes_length (e : ResponseEntry) : (responseBytes e).length = 2 := by simp [responseBytes]
@[simp] theorem stopRecordBytes_length (r : StopRecord) : (stopRecordBytes r).length = 23 := by
  simp [stopRecordBytes, signedBytes]

/-! ## Entries read back -/

/-- A source entry read from its bytes, whatever follows them. -/
theorem sourceOf_append (e : SourceEntry) (rest : List Byte) (h : e.address < 256 ∧ e.lateTimeout < 65536 ∧ e.maxSubs < 256) :
    sourceOf (sourceBytes e ++ rest) = e := by
  have hr := role_num_lt e.role
  have a1 : field (sourceBytes e ++ rest) 0 1 = e.address := by
    simp only [sourceBytes, List.append_assoc]; exact field_toBytes_append _ (by omega)
  have a2 : field (sourceBytes e ++ rest) 1 1 = e.role.num := by
    simp only [sourceBytes, List.append_assoc]; exact field_after _ (by simp) (by omega)
  have a3 : field (sourceBytes e ++ rest) 2 2 = e.lateTimeout := by
    simp only [sourceBytes, List.append_assoc]; rw [← List.append_assoc]; exact field_after _ (by simp) (by omega)
  have a4 : field (sourceBytes e ++ rest) 4 1 = e.maxSubs := by
    simp only [sourceBytes, List.append_assoc]
    rw [← List.append_assoc, ← List.append_assoc]
    exact field_after _ (by simp) (by omega)
  simp [sourceOf, a1, a2, a3, a4]

/-- A segment read from its bytes. -/
theorem segmentOf_append (e : Segment) (rest : List Byte) (h : e.start < 16777216 ∧ e.limit < 65536 ∧ e.decel < 65536) :
    segmentOf (segmentBytes e ++ rest) = e := by
  have hr := segKind_num_lt e.kind
  have a1 : field (segmentBytes e ++ rest) 0 3 = e.start := by
    simp only [segmentBytes, List.append_assoc]; exact field_toBytes_append _ (by omega)
  have a2 : field (segmentBytes e ++ rest) 3 2 = e.limit := by
    simp only [segmentBytes, List.append_assoc]; exact field_after _ (by simp) (by omega)
  have a3 : field (segmentBytes e ++ rest) 5 2 = e.decel := by
    simp only [segmentBytes, List.append_assoc]; rw [← List.append_assoc]; exact field_after _ (by simp) (by omega)
  have a4 : field (segmentBytes e ++ rest) 7 1 = e.kind.num := by
    simp only [segmentBytes, List.append_assoc]
    rw [← List.append_assoc, ← List.append_assoc]
    exact field_after _ (by simp) (by omega)
  simp [segmentOf, a1, a2, a3, a4]

/-- A window read from its bytes. -/
theorem windowOf_append (w : Window) (rest : List Byte) (h : w.lo < 16777216 ∧ w.nom < 16777216 ∧ w.hi < 16777216) :
    windowOf (windowBytes w ++ rest) = w := by
  have a1 : field (windowBytes w ++ rest) 0 3 = w.lo := by
    simp only [windowBytes, List.append_assoc]; exact field_toBytes_append _ (by omega)
  have a2 : field (windowBytes w ++ rest) 3 3 = w.nom := by
    simp only [windowBytes, List.append_assoc]; exact field_after _ (by simp) (by omega)
  have a3 : field (windowBytes w ++ rest) 6 3 = w.hi := by
    simp only [windowBytes, List.append_assoc]; rw [← List.append_assoc]; exact field_after _ (by simp) (by omega)
  simp [windowOf, a1, a2, a3]

/-- A place read from its bytes. -/
theorem placeOf_append (e : PlaceEntry) (rest : List Byte)
    (h : ∀ c, (e.window c).lo < 16777216 ∧ (e.window c).nom < 16777216 ∧ (e.window c).hi < 16777216) :
    placeOf (placeBytes e ++ rest) = e := by
  have hr := car_num_lt e.priority
  have a1 : windowOf (placeBytes e ++ rest) = e.a := by
    simp only [placeBytes, List.append_assoc]; exact windowOf_append _ _ (h .a)
  have a2 : windowOf ((placeBytes e ++ rest).drop 9) = e.b := by
    simp only [placeBytes, List.append_assoc]
    rw [List.drop_append_of_le_length (by simp), List.drop_eq_nil_of_le (by simp), List.nil_append]
    exact windowOf_append _ _ (h .b)
  have a3 : field (placeBytes e ++ rest) 18 1 = e.priority.num := by
    simp only [placeBytes, List.append_assoc]; rw [← List.append_assoc]; exact field_after _ (by simp) (by omega)
  simp [placeOf, a1, a2, a3]

/-- A response entry read from its bytes. -/
theorem responseOf_append (e : ResponseEntry) (rest : List Byte) : responseOf (responseBytes e ++ rest) = e := by
  have h1 := action_num_lt e.action
  have h2 := flagNum_lt e.notice
  have a1 : field (responseBytes e ++ rest) 0 1 = e.action.num := by
    simp only [responseBytes, List.append_assoc]; exact field_toBytes_append _ (by omega)
  have a2 : field (responseBytes e ++ rest) 1 1 = flagNum e.notice := by
    simp only [responseBytes, List.append_assoc]; exact field_after _ (by simp) (by omega)
  cases e; rename_i a n; cases n <;> simp_all [responseOf, flagNum]

end Sys2Proof.Machine
end

