-- ==== Sys2Proof/Laws/State.lean ====
section
/-! SUPPORT. One lemma per field per update of the state: what each update writes and what it leaves. -/

namespace Sys2Proof.Machine

/-! ## setPending -/

@[simp] theorem setPending_pending (s : State) (x : List Instr) : (s.setPending x).pending = x := rfl
@[simp] theorem setPending_phase (s : State) (x : List Instr) : (s.setPending x).phase = s.phase := rfl
@[simp] theorem setPending_now (s : State) (x : List Instr) : (s.setPending x).now = s.now := rfl
@[simp] theorem setPending_straps (s : State) (x : List Instr) : (s.setPending x).straps = s.straps := rfl
@[simp] theorem setPending_tables (s : State) (x : List Instr) : (s.setPending x).tables = s.tables := rfl
@[simp] theorem setPending_resp (s : State) (x : List Instr) : (s.setPending x).resp = s.resp := rfl
@[simp] theorem setPending_sources (s : State) (x : List Instr) : (s.setPending x).sources = s.sources := rfl
@[simp] theorem setPending_est (s : State) (x : List Instr) : (s.setPending x).est = s.est := rfl
@[simp] theorem setPending_env (s : State) (x : List Instr) : (s.setPending x).env = s.env := rfl
@[simp] theorem setPending_leg (s : State) (x : List Instr) : (s.setPending x).leg = s.leg := rfl
@[simp] theorem setPending_trip (s : State) (x : List Instr) : (s.setPending x).trip = s.trip := rfl
@[simp] theorem setPending_lim (s : State) (x : List Instr) : (s.setPending x).lim = s.lim := rfl
@[simp] theorem setPending_portA (s : State) (x : List Instr) : (s.setPending x).portA = s.portA := rfl
@[simp] theorem setPending_portB (s : State) (x : List Instr) : (s.setPending x).portB = s.portB := rfl

/-! ## setPhase -/

@[simp] theorem setPhase_pending (s : State) (x : Phase) : (s.setPhase x).pending = s.pending := rfl
@[simp] theorem setPhase_phase (s : State) (x : Phase) : (s.setPhase x).phase = x := rfl
@[simp] theorem setPhase_now (s : State) (x : Phase) : (s.setPhase x).now = s.now := rfl
@[simp] theorem setPhase_straps (s : State) (x : Phase) : (s.setPhase x).straps = s.straps := rfl
@[simp] theorem setPhase_tables (s : State) (x : Phase) : (s.setPhase x).tables = s.tables := rfl
@[simp] theorem setPhase_resp (s : State) (x : Phase) : (s.setPhase x).resp = s.resp := rfl
@[simp] theorem setPhase_sources (s : State) (x : Phase) : (s.setPhase x).sources = s.sources := rfl
@[simp] theorem setPhase_est (s : State) (x : Phase) : (s.setPhase x).est = s.est := rfl
@[simp] theorem setPhase_env (s : State) (x : Phase) : (s.setPhase x).env = s.env := rfl
@[simp] theorem setPhase_leg (s : State) (x : Phase) : (s.setPhase x).leg = s.leg := rfl
@[simp] theorem setPhase_trip (s : State) (x : Phase) : (s.setPhase x).trip = s.trip := rfl
@[simp] theorem setPhase_lim (s : State) (x : Phase) : (s.setPhase x).lim = s.lim := rfl
@[simp] theorem setPhase_portA (s : State) (x : Phase) : (s.setPhase x).portA = s.portA := rfl
@[simp] theorem setPhase_portB (s : State) (x : Phase) : (s.setPhase x).portB = s.portB := rfl

/-! ## setNow -/

@[simp] theorem setNow_pending (s : State) (x : Time) : (s.setNow x).pending = s.pending := rfl
@[simp] theorem setNow_phase (s : State) (x : Time) : (s.setNow x).phase = s.phase := rfl
@[simp] theorem setNow_now (s : State) (x : Time) : (s.setNow x).now = x := rfl
@[simp] theorem setNow_straps (s : State) (x : Time) : (s.setNow x).straps = s.straps := rfl
@[simp] theorem setNow_tables (s : State) (x : Time) : (s.setNow x).tables = s.tables := rfl
@[simp] theorem setNow_resp (s : State) (x : Time) : (s.setNow x).resp = s.resp := rfl
@[simp] theorem setNow_sources (s : State) (x : Time) : (s.setNow x).sources = s.sources := rfl
@[simp] theorem setNow_est (s : State) (x : Time) : (s.setNow x).est = s.est := rfl
@[simp] theorem setNow_env (s : State) (x : Time) : (s.setNow x).env = s.env := rfl
@[simp] theorem setNow_leg (s : State) (x : Time) : (s.setNow x).leg = s.leg := rfl
@[simp] theorem setNow_trip (s : State) (x : Time) : (s.setNow x).trip = s.trip := rfl
@[simp] theorem setNow_lim (s : State) (x : Time) : (s.setNow x).lim = s.lim := rfl
@[simp] theorem setNow_portA (s : State) (x : Time) : (s.setNow x).portA = s.portA := rfl
@[simp] theorem setNow_portB (s : State) (x : Time) : (s.setNow x).portB = s.portB := rfl

/-! ## setStraps -/

@[simp] theorem setStraps_pending (s : State) (x : Straps) : (s.setStraps x).pending = s.pending := rfl
@[simp] theorem setStraps_phase (s : State) (x : Straps) : (s.setStraps x).phase = s.phase := rfl
@[simp] theorem setStraps_now (s : State) (x : Straps) : (s.setStraps x).now = s.now := rfl
@[simp] theorem setStraps_straps (s : State) (x : Straps) : (s.setStraps x).straps = x := rfl
@[simp] theorem setStraps_tables (s : State) (x : Straps) : (s.setStraps x).tables = s.tables := rfl
@[simp] theorem setStraps_resp (s : State) (x : Straps) : (s.setStraps x).resp = s.resp := rfl
@[simp] theorem setStraps_sources (s : State) (x : Straps) : (s.setStraps x).sources = s.sources := rfl
@[simp] theorem setStraps_est (s : State) (x : Straps) : (s.setStraps x).est = s.est := rfl
@[simp] theorem setStraps_env (s : State) (x : Straps) : (s.setStraps x).env = s.env := rfl
@[simp] theorem setStraps_leg (s : State) (x : Straps) : (s.setStraps x).leg = s.leg := rfl
@[simp] theorem setStraps_trip (s : State) (x : Straps) : (s.setStraps x).trip = s.trip := rfl
@[simp] theorem setStraps_lim (s : State) (x : Straps) : (s.setStraps x).lim = s.lim := rfl
@[simp] theorem setStraps_portA (s : State) (x : Straps) : (s.setStraps x).portA = s.portA := rfl
@[simp] theorem setStraps_portB (s : State) (x : Straps) : (s.setStraps x).portB = s.portB := rfl

/-! ## setTables -/

@[simp] theorem setTables_pending (s : State) (x : Tables) : (s.setTables x).pending = s.pending := rfl
@[simp] theorem setTables_phase (s : State) (x : Tables) : (s.setTables x).phase = s.phase := rfl
@[simp] theorem setTables_now (s : State) (x : Tables) : (s.setTables x).now = s.now := rfl
@[simp] theorem setTables_straps (s : State) (x : Tables) : (s.setTables x).straps = s.straps := rfl
@[simp] theorem setTables_tables (s : State) (x : Tables) : (s.setTables x).tables = x := rfl
@[simp] theorem setTables_resp (s : State) (x : Tables) : (s.setTables x).resp = s.resp := rfl
@[simp] theorem setTables_sources (s : State) (x : Tables) : (s.setTables x).sources = s.sources := rfl
@[simp] theorem setTables_est (s : State) (x : Tables) : (s.setTables x).est = s.est := rfl
@[simp] theorem setTables_env (s : State) (x : Tables) : (s.setTables x).env = s.env := rfl
@[simp] theorem setTables_leg (s : State) (x : Tables) : (s.setTables x).leg = s.leg := rfl
@[simp] theorem setTables_trip (s : State) (x : Tables) : (s.setTables x).trip = s.trip := rfl
@[simp] theorem setTables_lim (s : State) (x : Tables) : (s.setTables x).lim = s.lim := rfl
@[simp] theorem setTables_portA (s : State) (x : Tables) : (s.setTables x).portA = s.portA := rfl
@[simp] theorem setTables_portB (s : State) (x : Tables) : (s.setTables x).portB = s.portB := rfl

/-! ## setResp -/

@[simp] theorem setResp_pending (s : State) (x : Responder) : (s.setResp x).pending = s.pending := rfl
@[simp] theorem setResp_phase (s : State) (x : Responder) : (s.setResp x).phase = s.phase := rfl
@[simp] theorem setResp_now (s : State) (x : Responder) : (s.setResp x).now = s.now := rfl
@[simp] theorem setResp_straps (s : State) (x : Responder) : (s.setResp x).straps = s.straps := rfl
@[simp] theorem setResp_tables (s : State) (x : Responder) : (s.setResp x).tables = s.tables := rfl
@[simp] theorem setResp_resp (s : State) (x : Responder) : (s.setResp x).resp = x := rfl
@[simp] theorem setResp_sources (s : State) (x : Responder) : (s.setResp x).sources = s.sources := rfl
@[simp] theorem setResp_est (s : State) (x : Responder) : (s.setResp x).est = s.est := rfl
@[simp] theorem setResp_env (s : State) (x : Responder) : (s.setResp x).env = s.env := rfl
@[simp] theorem setResp_leg (s : State) (x : Responder) : (s.setResp x).leg = s.leg := rfl
@[simp] theorem setResp_trip (s : State) (x : Responder) : (s.setResp x).trip = s.trip := rfl
@[simp] theorem setResp_lim (s : State) (x : Responder) : (s.setResp x).lim = s.lim := rfl
@[simp] theorem setResp_portA (s : State) (x : Responder) : (s.setResp x).portA = s.portA := rfl
@[simp] theorem setResp_portB (s : State) (x : Responder) : (s.setResp x).portB = s.portB := rfl

/-! ## setSources -/

@[simp] theorem setSources_pending (s : State) (x : Vector SourceRecord 16) : (s.setSources x).pending = s.pending := rfl
@[simp] theorem setSources_phase (s : State) (x : Vector SourceRecord 16) : (s.setSources x).phase = s.phase := rfl
@[simp] theorem setSources_now (s : State) (x : Vector SourceRecord 16) : (s.setSources x).now = s.now := rfl
@[simp] theorem setSources_straps (s : State) (x : Vector SourceRecord 16) : (s.setSources x).straps = s.straps := rfl
@[simp] theorem setSources_tables (s : State) (x : Vector SourceRecord 16) : (s.setSources x).tables = s.tables := rfl
@[simp] theorem setSources_resp (s : State) (x : Vector SourceRecord 16) : (s.setSources x).resp = s.resp := rfl
@[simp] theorem setSources_sources (s : State) (x : Vector SourceRecord 16) : (s.setSources x).sources = x := rfl
@[simp] theorem setSources_est (s : State) (x : Vector SourceRecord 16) : (s.setSources x).est = s.est := rfl
@[simp] theorem setSources_env (s : State) (x : Vector SourceRecord 16) : (s.setSources x).env = s.env := rfl
@[simp] theorem setSources_leg (s : State) (x : Vector SourceRecord 16) : (s.setSources x).leg = s.leg := rfl
@[simp] theorem setSources_trip (s : State) (x : Vector SourceRecord 16) : (s.setSources x).trip = s.trip := rfl
@[simp] theorem setSources_lim (s : State) (x : Vector SourceRecord 16) : (s.setSources x).lim = s.lim := rfl
@[simp] theorem setSources_portA (s : State) (x : Vector SourceRecord 16) : (s.setSources x).portA = s.portA := rfl
@[simp] theorem setSources_portB (s : State) (x : Vector SourceRecord 16) : (s.setSources x).portB = s.portB := rfl

/-! ## setEst -/

@[simp] theorem setEst_pending (s : State) (x : Estimator) : (s.setEst x).pending = s.pending := rfl
@[simp] theorem setEst_phase (s : State) (x : Estimator) : (s.setEst x).phase = s.phase := rfl
@[simp] theorem setEst_now (s : State) (x : Estimator) : (s.setEst x).now = s.now := rfl
@[simp] theorem setEst_straps (s : State) (x : Estimator) : (s.setEst x).straps = s.straps := rfl
@[simp] theorem setEst_tables (s : State) (x : Estimator) : (s.setEst x).tables = s.tables := rfl
@[simp] theorem setEst_resp (s : State) (x : Estimator) : (s.setEst x).resp = s.resp := rfl
@[simp] theorem setEst_sources (s : State) (x : Estimator) : (s.setEst x).sources = s.sources := rfl
@[simp] theorem setEst_est (s : State) (x : Estimator) : (s.setEst x).est = x := rfl
@[simp] theorem setEst_env (s : State) (x : Estimator) : (s.setEst x).env = s.env := rfl
@[simp] theorem setEst_leg (s : State) (x : Estimator) : (s.setEst x).leg = s.leg := rfl
@[simp] theorem setEst_trip (s : State) (x : Estimator) : (s.setEst x).trip = s.trip := rfl
@[simp] theorem setEst_lim (s : State) (x : Estimator) : (s.setEst x).lim = s.lim := rfl
@[simp] theorem setEst_portA (s : State) (x : Estimator) : (s.setEst x).portA = s.portA := rfl
@[simp] theorem setEst_portB (s : State) (x : Estimator) : (s.setEst x).portB = s.portB := rfl

/-! ## setEnv -/

@[simp] theorem setEnv_pending (s : State) (x : Envelope) : (s.setEnv x).pending = s.pending := rfl
@[simp] theorem setEnv_phase (s : State) (x : Envelope) : (s.setEnv x).phase = s.phase := rfl
@[simp] theorem setEnv_now (s : State) (x : Envelope) : (s.setEnv x).now = s.now := rfl
@[simp] theorem setEnv_straps (s : State) (x : Envelope) : (s.setEnv x).straps = s.straps := rfl
@[simp] theorem setEnv_tables (s : State) (x : Envelope) : (s.setEnv x).tables = s.tables := rfl
@[simp] theorem setEnv_resp (s : State) (x : Envelope) : (s.setEnv x).resp = s.resp := rfl
@[simp] theorem setEnv_sources (s : State) (x : Envelope) : (s.setEnv x).sources = s.sources := rfl
@[simp] theorem setEnv_est (s : State) (x : Envelope) : (s.setEnv x).est = s.est := rfl
@[simp] theorem setEnv_env (s : State) (x : Envelope) : (s.setEnv x).env = x := rfl
@[simp] theorem setEnv_leg (s : State) (x : Envelope) : (s.setEnv x).leg = s.leg := rfl
@[simp] theorem setEnv_trip (s : State) (x : Envelope) : (s.setEnv x).trip = s.trip := rfl
@[simp] theorem setEnv_lim (s : State) (x : Envelope) : (s.setEnv x).lim = s.lim := rfl
@[simp] theorem setEnv_portA (s : State) (x : Envelope) : (s.setEnv x).portA = s.portA := rfl
@[simp] theorem setEnv_portB (s : State) (x : Envelope) : (s.setEnv x).portB = s.portB := rfl

/-! ## setLeg -/

@[simp] theorem setLeg_pending (s : State) (x : Leg) : (s.setLeg x).pending = s.pending := rfl
@[simp] theorem setLeg_phase (s : State) (x : Leg) : (s.setLeg x).phase = s.phase := rfl
@[simp] theorem setLeg_now (s : State) (x : Leg) : (s.setLeg x).now = s.now := rfl
@[simp] theorem setLeg_straps (s : State) (x : Leg) : (s.setLeg x).straps = s.straps := rfl
@[simp] theorem setLeg_tables (s : State) (x : Leg) : (s.setLeg x).tables = s.tables := rfl
@[simp] theorem setLeg_resp (s : State) (x : Leg) : (s.setLeg x).resp = s.resp := rfl
@[simp] theorem setLeg_sources (s : State) (x : Leg) : (s.setLeg x).sources = s.sources := rfl
@[simp] theorem setLeg_est (s : State) (x : Leg) : (s.setLeg x).est = s.est := rfl
@[simp] theorem setLeg_env (s : State) (x : Leg) : (s.setLeg x).env = s.env := rfl
@[simp] theorem setLeg_leg (s : State) (x : Leg) : (s.setLeg x).leg = x := rfl
@[simp] theorem setLeg_trip (s : State) (x : Leg) : (s.setLeg x).trip = s.trip := rfl
@[simp] theorem setLeg_lim (s : State) (x : Leg) : (s.setLeg x).lim = s.lim := rfl
@[simp] theorem setLeg_portA (s : State) (x : Leg) : (s.setLeg x).portA = s.portA := rfl
@[simp] theorem setLeg_portB (s : State) (x : Leg) : (s.setLeg x).portB = s.portB := rfl

/-! ## setTrip -/

@[simp] theorem setTrip_pending (s : State) (x : Trip) : (s.setTrip x).pending = s.pending := rfl
@[simp] theorem setTrip_phase (s : State) (x : Trip) : (s.setTrip x).phase = s.phase := rfl
@[simp] theorem setTrip_now (s : State) (x : Trip) : (s.setTrip x).now = s.now := rfl
@[simp] theorem setTrip_straps (s : State) (x : Trip) : (s.setTrip x).straps = s.straps := rfl
@[simp] theorem setTrip_tables (s : State) (x : Trip) : (s.setTrip x).tables = s.tables := rfl
@[simp] theorem setTrip_resp (s : State) (x : Trip) : (s.setTrip x).resp = s.resp := rfl
@[simp] theorem setTrip_sources (s : State) (x : Trip) : (s.setTrip x).sources = s.sources := rfl
@[simp] theorem setTrip_est (s : State) (x : Trip) : (s.setTrip x).est = s.est := rfl
@[simp] theorem setTrip_env (s : State) (x : Trip) : (s.setTrip x).env = s.env := rfl
@[simp] theorem setTrip_leg (s : State) (x : Trip) : (s.setTrip x).leg = s.leg := rfl
@[simp] theorem setTrip_trip (s : State) (x : Trip) : (s.setTrip x).trip = x := rfl
@[simp] theorem setTrip_lim (s : State) (x : Trip) : (s.setTrip x).lim = s.lim := rfl
@[simp] theorem setTrip_portA (s : State) (x : Trip) : (s.setTrip x).portA = s.portA := rfl
@[simp] theorem setTrip_portB (s : State) (x : Trip) : (s.setTrip x).portB = s.portB := rfl

/-! ## setLim -/

@[simp] theorem setLim_pending (s : State) (x : Limiter) : (s.setLim x).pending = s.pending := rfl
@[simp] theorem setLim_phase (s : State) (x : Limiter) : (s.setLim x).phase = s.phase := rfl
@[simp] theorem setLim_now (s : State) (x : Limiter) : (s.setLim x).now = s.now := rfl
@[simp] theorem setLim_straps (s : State) (x : Limiter) : (s.setLim x).straps = s.straps := rfl
@[simp] theorem setLim_tables (s : State) (x : Limiter) : (s.setLim x).tables = s.tables := rfl
@[simp] theorem setLim_resp (s : State) (x : Limiter) : (s.setLim x).resp = s.resp := rfl
@[simp] theorem setLim_sources (s : State) (x : Limiter) : (s.setLim x).sources = s.sources := rfl
@[simp] theorem setLim_est (s : State) (x : Limiter) : (s.setLim x).est = s.est := rfl
@[simp] theorem setLim_env (s : State) (x : Limiter) : (s.setLim x).env = s.env := rfl
@[simp] theorem setLim_leg (s : State) (x : Limiter) : (s.setLim x).leg = s.leg := rfl
@[simp] theorem setLim_trip (s : State) (x : Limiter) : (s.setLim x).trip = s.trip := rfl
@[simp] theorem setLim_lim (s : State) (x : Limiter) : (s.setLim x).lim = x := rfl
@[simp] theorem setLim_portA (s : State) (x : Limiter) : (s.setLim x).portA = s.portA := rfl
@[simp] theorem setLim_portB (s : State) (x : Limiter) : (s.setLim x).portB = s.portB := rfl

/-! ## setPortA -/

@[simp] theorem setPortA_pending (s : State) (x : Port) : (s.setPortA x).pending = s.pending := rfl
@[simp] theorem setPortA_phase (s : State) (x : Port) : (s.setPortA x).phase = s.phase := rfl
@[simp] theorem setPortA_now (s : State) (x : Port) : (s.setPortA x).now = s.now := rfl
@[simp] theorem setPortA_straps (s : State) (x : Port) : (s.setPortA x).straps = s.straps := rfl
@[simp] theorem setPortA_tables (s : State) (x : Port) : (s.setPortA x).tables = s.tables := rfl
@[simp] theorem setPortA_resp (s : State) (x : Port) : (s.setPortA x).resp = s.resp := rfl
@[simp] theorem setPortA_sources (s : State) (x : Port) : (s.setPortA x).sources = s.sources := rfl
@[simp] theorem setPortA_est (s : State) (x : Port) : (s.setPortA x).est = s.est := rfl
@[simp] theorem setPortA_env (s : State) (x : Port) : (s.setPortA x).env = s.env := rfl
@[simp] theorem setPortA_leg (s : State) (x : Port) : (s.setPortA x).leg = s.leg := rfl
@[simp] theorem setPortA_trip (s : State) (x : Port) : (s.setPortA x).trip = s.trip := rfl
@[simp] theorem setPortA_lim (s : State) (x : Port) : (s.setPortA x).lim = s.lim := rfl
@[simp] theorem setPortA_portA (s : State) (x : Port) : (s.setPortA x).portA = x := rfl
@[simp] theorem setPortA_portB (s : State) (x : Port) : (s.setPortA x).portB = s.portB := rfl

/-! ## setPortB -/

@[simp] theorem setPortB_pending (s : State) (x : Port) : (s.setPortB x).pending = s.pending := rfl
@[simp] theorem setPortB_phase (s : State) (x : Port) : (s.setPortB x).phase = s.phase := rfl
@[simp] theorem setPortB_now (s : State) (x : Port) : (s.setPortB x).now = s.now := rfl
@[simp] theorem setPortB_straps (s : State) (x : Port) : (s.setPortB x).straps = s.straps := rfl
@[simp] theorem setPortB_tables (s : State) (x : Port) : (s.setPortB x).tables = s.tables := rfl
@[simp] theorem setPortB_resp (s : State) (x : Port) : (s.setPortB x).resp = s.resp := rfl
@[simp] theorem setPortB_sources (s : State) (x : Port) : (s.setPortB x).sources = s.sources := rfl
@[simp] theorem setPortB_est (s : State) (x : Port) : (s.setPortB x).est = s.est := rfl
@[simp] theorem setPortB_env (s : State) (x : Port) : (s.setPortB x).env = s.env := rfl
@[simp] theorem setPortB_leg (s : State) (x : Port) : (s.setPortB x).leg = s.leg := rfl
@[simp] theorem setPortB_trip (s : State) (x : Port) : (s.setPortB x).trip = s.trip := rfl
@[simp] theorem setPortB_lim (s : State) (x : Port) : (s.setPortB x).lim = s.lim := rfl
@[simp] theorem setPortB_portA (s : State) (x : Port) : (s.setPortB x).portA = s.portA := rfl
@[simp] theorem setPortB_portB (s : State) (x : Port) : (s.setPortB x).portB = x := rfl

/-! ## Ports -/

@[simp] theorem port_a (s : State) : s.port .a = s.portA := rfl
@[simp] theorem port_b (s : State) : s.port .b = s.portB := rfl
@[simp] theorem setPort_a (s : State) (x : Port) : s.setPort .a x = s.setPortA x := rfl
@[simp] theorem setPort_b (s : State) (x : Port) : s.setPort .b x = s.setPortB x := rfl
@[simp] theorem setPort_pending (s : State) (p : PortId) (x : Port) : (s.setPort p x).pending = s.pending := by cases p <;> rfl
@[simp] theorem setPort_phase (s : State) (p : PortId) (x : Port) : (s.setPort p x).phase = s.phase := by cases p <;> rfl
@[simp] theorem setPort_now (s : State) (p : PortId) (x : Port) : (s.setPort p x).now = s.now := by cases p <;> rfl
@[simp] theorem setPort_straps (s : State) (p : PortId) (x : Port) : (s.setPort p x).straps = s.straps := by cases p <;> rfl
@[simp] theorem setPort_tables (s : State) (p : PortId) (x : Port) : (s.setPort p x).tables = s.tables := by cases p <;> rfl
@[simp] theorem setPort_resp (s : State) (p : PortId) (x : Port) : (s.setPort p x).resp = s.resp := by cases p <;> rfl
@[simp] theorem setPort_sources (s : State) (p : PortId) (x : Port) : (s.setPort p x).sources = s.sources := by cases p <;> rfl
@[simp] theorem setPort_est (s : State) (p : PortId) (x : Port) : (s.setPort p x).est = s.est := by cases p <;> rfl
@[simp] theorem setPort_env (s : State) (p : PortId) (x : Port) : (s.setPort p x).env = s.env := by cases p <;> rfl
@[simp] theorem setPort_leg (s : State) (p : PortId) (x : Port) : (s.setPort p x).leg = s.leg := by cases p <;> rfl
@[simp] theorem setPort_trip (s : State) (p : PortId) (x : Port) : (s.setPort p x).trip = s.trip := by cases p <;> rfl
@[simp] theorem setPort_lim (s : State) (p : PortId) (x : Port) : (s.setPort p x).lim = s.lim := by cases p <;> rfl
/-- The port written holds what was written. -/
@[simp] theorem setPort_port (s : State) (p : PortId) (x : Port) : (s.setPort p x).port p = x := by cases p <;> rfl
/-- The other port is left alone. -/
@[simp] theorem setPort_other (s : State) (p : PortId) (x : Port) : (s.setPort p x).port (otherPort p) = s.port (otherPort p) := by
  cases p <;> rfl

/-! ## A part written twice holds the second value -/

@[simp] theorem setPending_twice (s : State) (x y : List Instr) : (s.setPending x).setPending y = s.setPending y := rfl
@[simp] theorem setPhase_twice (s : State) (x y : Phase) : (s.setPhase x).setPhase y = s.setPhase y := rfl
@[simp] theorem setNow_twice (s : State) (x y : Time) : (s.setNow x).setNow y = s.setNow y := rfl
@[simp] theorem setStraps_twice (s : State) (x y : Straps) : (s.setStraps x).setStraps y = s.setStraps y := rfl
@[simp] theorem setTables_twice (s : State) (x y : Tables) : (s.setTables x).setTables y = s.setTables y := rfl
@[simp] theorem setResp_twice (s : State) (x y : Responder) : (s.setResp x).setResp y = s.setResp y := rfl
@[simp] theorem setSources_twice (s : State) (x y : Vector SourceRecord 16) : (s.setSources x).setSources y = s.setSources y := rfl
@[simp] theorem setEst_twice (s : State) (x y : Estimator) : (s.setEst x).setEst y = s.setEst y := rfl
@[simp] theorem setEnv_twice (s : State) (x y : Envelope) : (s.setEnv x).setEnv y = s.setEnv y := rfl
@[simp] theorem setLeg_twice (s : State) (x y : Leg) : (s.setLeg x).setLeg y = s.setLeg y := rfl
@[simp] theorem setTrip_twice (s : State) (x y : Trip) : (s.setTrip x).setTrip y = s.setTrip y := rfl
@[simp] theorem setLim_twice (s : State) (x y : Limiter) : (s.setLim x).setLim y = s.setLim y := rfl
@[simp] theorem setPortA_twice (s : State) (x y : Port) : (s.setPortA x).setPortA y = s.setPortA y := rfl
@[simp] theorem setPortB_twice (s : State) (x y : Port) : (s.setPortB x).setPortB y = s.setPortB y := rfl
@[simp] theorem setPort_twice (s : State) (p : PortId) (x y : Port) : (s.setPort p x).setPort p y = s.setPort p y := by
  cases p <;> rfl

end Sys2Proof.Machine
end

