-- ==== Sys2Proof/Laws/Frames.lean ====
section
/-! SUPPORT. One lemma per operation: the parts of the state it leaves as they were. The provers cite these in place of the definitions. -/

namespace Sys2Proof.Machine

/-! ## Ops -/

@[simp] theorem offer_frame (s : State) (p : PortId) (f : OutFrame) :
    (s.offer p f).pending = s.pending ∧ (s.offer p f).phase = s.phase ∧ (s.offer p f).now = s.now ∧
    (s.offer p f).straps = s.straps ∧ (s.offer p f).tables = s.tables ∧ (s.offer p f).resp = s.resp ∧
    (s.offer p f).sources = s.sources ∧ (s.offer p f).est = s.est ∧ (s.offer p f).env = s.env ∧ (s.offer p f).leg = s.leg ∧
    (s.offer p f).trip = s.trip ∧ (s.offer p f).lim = s.lim := by
  simp [State.offer]

@[simp] theorem notify_frame (s : State) (n : Notice) :
    (notify s n).pending = s.pending ∧ (notify s n).phase = s.phase ∧ (notify s n).now = s.now ∧
    (notify s n).straps = s.straps ∧ (notify s n).tables = s.tables ∧ (notify s n).resp = s.resp ∧
    (notify s n).sources = s.sources ∧ (notify s n).est = s.est ∧ (notify s n).env = s.env ∧ (notify s n).leg = s.leg ∧
    (notify s n).trip = s.trip ∧ (notify s n).lim = s.lim ∧ (notify s n).portB = s.portB := by
  simp [notify]

@[simp] theorem reply_frame (s : State) (p : PortId) (dst code : Byte) (rc : ReplyCode) (bs : List Byte) :
    (reply s p dst code rc bs).pending = s.pending ∧ (reply s p dst code rc bs).phase = s.phase ∧
    (reply s p dst code rc bs).now = s.now ∧ (reply s p dst code rc bs).straps = s.straps ∧
    (reply s p dst code rc bs).tables = s.tables ∧ (reply s p dst code rc bs).resp = s.resp ∧
    (reply s p dst code rc bs).sources = s.sources ∧ (reply s p dst code rc bs).est = s.est ∧
    (reply s p dst code rc bs).env = s.env ∧ (reply s p dst code rc bs).leg = s.leg ∧
    (reply s p dst code rc bs).trip = s.trip ∧ (reply s p dst code rc bs).lim = s.lim := by
  simp [reply]

/-! ## Envelope Unit -/

@[simp] theorem recompute_frame (s : State) :
    (recompute s).pending = s.pending ∧ (recompute s).phase = s.phase ∧ (recompute s).now = s.now ∧
    (recompute s).straps = s.straps ∧ (recompute s).tables = s.tables ∧ (recompute s).resp = s.resp ∧
    (recompute s).sources = s.sources ∧ (recompute s).est = s.est ∧ (recompute s).leg = s.leg ∧
    (recompute s).trip = s.trip ∧ (recompute s).lim = s.lim ∧ (recompute s).portA = s.portA ∧
    (recompute s).portB = s.portB := by
  simp [recompute]

@[simp] theorem deriveLists_frame (s : State) :
    (deriveLists s).pending = s.pending ∧ (deriveLists s).phase = s.phase ∧ (deriveLists s).now = s.now ∧
    (deriveLists s).straps = s.straps ∧ (deriveLists s).tables = s.tables ∧ (deriveLists s).resp = s.resp ∧
    (deriveLists s).sources = s.sources ∧ (deriveLists s).est = s.est ∧ (deriveLists s).leg = s.leg ∧
    (deriveLists s).trip = s.trip ∧ (deriveLists s).lim = s.lim ∧ (deriveLists s).portA = s.portA ∧
    (deriveLists s).portB = s.portB := by
  simp [deriveLists]

/-! ## Demand Limiter -/

@[simp] theorem sendDemand_frame (s : State) (d : Demand) :
    (sendDemand s d).pending = s.pending ∧ (sendDemand s d).phase = s.phase ∧ (sendDemand s d).now = s.now ∧
    (sendDemand s d).straps = s.straps ∧ (sendDemand s d).tables = s.tables ∧ (sendDemand s d).resp = s.resp ∧
    (sendDemand s d).sources = s.sources ∧ (sendDemand s d).est = s.est ∧ (sendDemand s d).env = s.env ∧
    (sendDemand s d).leg = s.leg ∧ (sendDemand s d).lim = s.lim ∧ (sendDemand s d).portA = s.portA := by
  simp [sendDemand]

@[simp] theorem offerDemand_frame (s : State) (d : Demand) :
    (offerDemand s d).pending = s.pending ∧ (offerDemand s d).phase = s.phase ∧ (offerDemand s d).now = s.now ∧
    (offerDemand s d).straps = s.straps ∧ (offerDemand s d).tables = s.tables ∧ (offerDemand s d).resp = s.resp ∧
    (offerDemand s d).sources = s.sources ∧ (offerDemand s d).est = s.est ∧ (offerDemand s d).env = s.env ∧
    (offerDemand s d).leg = s.leg ∧ (offerDemand s d).lim = s.lim ∧ (offerDemand s d).portA = s.portA := by
  simp only [offerDemand]
  repeat' split
  all_goals simp

@[simp] theorem generateDemand_frame (s : State) (x : Nat) :
    (generateDemand s x).pending = s.pending ∧ (generateDemand s x).phase = s.phase ∧ (generateDemand s x).now = s.now ∧
    (generateDemand s x).straps = s.straps ∧ (generateDemand s x).tables = s.tables ∧ (generateDemand s x).resp = s.resp ∧
    (generateDemand s x).sources = s.sources ∧ (generateDemand s x).est = s.est ∧ (generateDemand s x).env = s.env ∧
    (generateDemand s x).leg = s.leg ∧ (generateDemand s x).lim = s.lim ∧ (generateDemand s x).portA = s.portA := by
  simp [generateDemand]

@[simp] theorem generateAtCeiling_frame (s : State) :
    (generateAtCeiling s).pending = s.pending ∧ (generateAtCeiling s).phase = s.phase ∧ (generateAtCeiling s).now = s.now ∧
    (generateAtCeiling s).straps = s.straps ∧ (generateAtCeiling s).tables = s.tables ∧
    (generateAtCeiling s).resp = s.resp ∧ (generateAtCeiling s).sources = s.sources ∧ (generateAtCeiling s).est = s.est ∧
    (generateAtCeiling s).env = s.env ∧ (generateAtCeiling s).leg = s.leg ∧ (generateAtCeiling s).portA = s.portA := by
  simp [generateAtCeiling]

/-! ## Trip Unit -/

@[simp] theorem enterState_frame (s : State) (new : RunState) :
    (enterState s new).pending = s.pending ∧ (enterState s new).phase = s.phase ∧ (enterState s new).now = s.now ∧
    (enterState s new).straps = s.straps ∧ (enterState s new).tables = s.tables ∧ (enterState s new).resp = s.resp ∧
    (enterState s new).sources = s.sources ∧ (enterState s new).est = s.est ∧ (enterState s new).env = s.env ∧
    (enterState s new).portA = s.portA ∧ (enterState s new).portB = s.portB := by
  simp [enterState]

@[simp] theorem changeState_frame (s : State) (new : RunState) (c : StateCause) (k : Nat) :
    (changeState s new c k).pending = s.pending ∧ (changeState s new c k).phase = s.phase ∧
    (changeState s new c k).now = s.now ∧ (changeState s new c k).straps = s.straps ∧
    (changeState s new c k).tables = s.tables ∧ (changeState s new c k).resp = s.resp ∧
    (changeState s new c k).sources = s.sources ∧ (changeState s new c k).est = s.est ∧
    (changeState s new c k).env = s.env := by
  simp only [changeState]
  repeat' split
  all_goals simp

@[simp] theorem endLeg_frame (s : State) :
    (endLeg s).pending = s.pending ∧ (endLeg s).phase = s.phase ∧ (endLeg s).now = s.now ∧ (endLeg s).straps = s.straps ∧
    (endLeg s).tables = s.tables ∧ (endLeg s).resp = s.resp ∧ (endLeg s).sources = s.sources ∧ (endLeg s).est = s.est ∧
    (endLeg s).trip = s.trip ∧ (endLeg s).lim = s.lim ∧ (endLeg s).portA = s.portA ∧ (endLeg s).portB = s.portB := by
  simp [endLeg]

@[simp] theorem recordFault_frame (s : State) (k : FaultKind) :
    (recordFault s k).pending = s.pending ∧ (recordFault s k).phase = s.phase ∧ (recordFault s k).now = s.now ∧
    (recordFault s k).straps = s.straps ∧ (recordFault s k).tables = s.tables ∧ (recordFault s k).resp = s.resp ∧
    (recordFault s k).sources = s.sources ∧ (recordFault s k).est = s.est ∧ (recordFault s k).env = s.env ∧
    (recordFault s k).leg = s.leg ∧ (recordFault s k).lim = s.lim ∧ (recordFault s k).portA = s.portA ∧
    (recordFault s k).portB = s.portB := by
  simp [recordFault]

@[simp] theorem applyAction_frame (s : State) (a : Action) (k : FaultKind) :
    (applyAction s a k).pending = s.pending ∧ (applyAction s a k).phase = s.phase ∧ (applyAction s a k).now = s.now ∧
    (applyAction s a k).straps = s.straps ∧ (applyAction s a k).tables = s.tables ∧ (applyAction s a k).resp = s.resp ∧
    (applyAction s a k).sources = s.sources ∧ (applyAction s a k).est = s.est := by
  simp only [applyAction]
  repeat' split
  all_goals simp

@[simp] theorem raiseFault_frame (s : State) (k : FaultKind) :
    (raiseFault s k).pending = s.pending ∧ (raiseFault s k).phase = s.phase ∧ (raiseFault s k).now = s.now ∧
    (raiseFault s k).straps = s.straps ∧ (raiseFault s k).tables = s.tables ∧ (raiseFault s k).resp = s.resp ∧
    (raiseFault s k).sources = s.sources ∧ (raiseFault s k).est = s.est := by
  simp only [raiseFault]
  repeat' split
  all_goals simp

@[simp] theorem raiseIf_frame (s : State) (b : Bool) (k : FaultKind) :
    (raiseIf s b k).pending = s.pending ∧ (raiseIf s b k).phase = s.phase ∧ (raiseIf s b k).now = s.now ∧
    (raiseIf s b k).straps = s.straps ∧ (raiseIf s b k).tables = s.tables ∧ (raiseIf s b k).resp = s.resp ∧
    (raiseIf s b k).sources = s.sources ∧ (raiseIf s b k).est = s.est := by
  simp only [raiseIf]
  repeat' split
  all_goals simp

@[simp] theorem speedTests_frame (s : State) :
    (speedTests s).pending = s.pending ∧ (speedTests s).phase = s.phase ∧ (speedTests s).now = s.now ∧
    (speedTests s).straps = s.straps ∧ (speedTests s).tables = s.tables ∧ (speedTests s).resp = s.resp ∧
    (speedTests s).sources = s.sources ∧ (speedTests s).est = s.est := by
  unfold speedTests
  generalize speedFindings s = l
  induction l generalizing s with
  | nil => simp
  | cons k rest ih => simpa using ih (raiseFault s k)

@[simp] theorem judgeDoors_frame (s : State) (p : List Byte) :
    (judgeDoors s p).pending = s.pending ∧ (judgeDoors s p).phase = s.phase ∧ (judgeDoors s p).now = s.now ∧
    (judgeDoors s p).straps = s.straps ∧ (judgeDoors s p).tables = s.tables ∧ (judgeDoors s p).resp = s.resp ∧
    (judgeDoors s p).sources = s.sources ∧ (judgeDoors s p).est = s.est := by
  simp [judgeDoors]

@[simp] theorem judgeTension_frame (s : State) (p : List Byte) :
    (judgeTension s p).pending = s.pending ∧ (judgeTension s p).phase = s.phase ∧ (judgeTension s p).now = s.now ∧
    (judgeTension s p).straps = s.straps ∧ (judgeTension s p).tables = s.tables ∧ (judgeTension s p).resp = s.resp ∧
    (judgeTension s p).sources = s.sources ∧ (judgeTension s p).est = s.est := by
  simp [judgeTension]

@[simp] theorem judgeDrive_frame (s : State) (p : List Byte) :
    (judgeDrive s p).pending = s.pending ∧ (judgeDrive s p).phase = s.phase ∧ (judgeDrive s p).now = s.now ∧
    (judgeDrive s p).straps = s.straps ∧ (judgeDrive s p).tables = s.tables ∧ (judgeDrive s p).resp = s.resp ∧
    (judgeDrive s p).sources = s.sources ∧ (judgeDrive s p).est = s.est := by
  simp [judgeDrive]

@[simp] theorem raiseInput_frame (s : State) (i : InputId) (x : Bool) :
    (raiseInput s i x).pending = s.pending ∧ (raiseInput s i x).phase = s.phase ∧ (raiseInput s i x).now = s.now ∧
    (raiseInput s i x).straps = s.straps ∧ (raiseInput s i x).tables = s.tables ∧ (raiseInput s i x).resp = s.resp ∧
    (raiseInput s i x).sources = s.sources ∧ (raiseInput s i x).est = s.est := by
  simp only [raiseInput]
  repeat' split
  all_goals simp

/-! ## Leg Controller -/

@[simp] theorem relatch_frame (s : State) :
    (relatch s).pending = s.pending ∧ (relatch s).phase = s.phase ∧ (relatch s).now = s.now ∧
    (relatch s).straps = s.straps ∧ (relatch s).tables = s.tables ∧ (relatch s).resp = s.resp ∧
    (relatch s).sources = s.sources ∧ (relatch s).est = s.est ∧ (relatch s).trip = s.trip ∧ (relatch s).lim = s.lim ∧
    (relatch s).portA = s.portA ∧ (relatch s).portB = s.portB := by
  simp [relatch]

@[simp] theorem creepEntry_frame (s : State) :
    (creepEntry s).pending = s.pending ∧ (creepEntry s).phase = s.phase ∧ (creepEntry s).now = s.now ∧
    (creepEntry s).straps = s.straps ∧ (creepEntry s).tables = s.tables ∧ (creepEntry s).resp = s.resp ∧
    (creepEntry s).sources = s.sources ∧ (creepEntry s).est = s.est := by
  simp only [creepEntry]
  repeat' split
  all_goals simp

@[simp] theorem testCreep_frame (s : State) :
    (testCreep s).pending = s.pending ∧ (testCreep s).phase = s.phase ∧ (testCreep s).now = s.now ∧
    (testCreep s).straps = s.straps ∧ (testCreep s).tables = s.tables ∧ (testCreep s).resp = s.resp ∧
    (testCreep s).sources = s.sources ∧ (testCreep s).est = s.est := by
  simp only [testCreep]
  repeat' split
  all_goals simp

@[simp] theorem testPassages_frame (s : State) :
    (testPassages s).pending = s.pending ∧ (testPassages s).phase = s.phase ∧ (testPassages s).now = s.now ∧
    (testPassages s).straps = s.straps ∧ (testPassages s).tables = s.tables ∧ (testPassages s).resp = s.resp ∧
    (testPassages s).sources = s.sources ∧ (testPassages s).est = s.est := by
  simp only [testPassages]
  repeat' split
  all_goals simp

@[simp] theorem testBrakesOpen_frame (s : State) :
    (testBrakesOpen s).pending = s.pending ∧ (testBrakesOpen s).phase = s.phase ∧ (testBrakesOpen s).now = s.now ∧
    (testBrakesOpen s).straps = s.straps ∧ (testBrakesOpen s).tables = s.tables ∧ (testBrakesOpen s).resp = s.resp ∧
    (testBrakesOpen s).sources = s.sources ∧ (testBrakesOpen s).est = s.est := by
  simp only [testBrakesOpen]
  repeat' split
  all_goals simp

@[simp] theorem departureReport_frame (s : State) (d : LastDemand) :
    (departureReport s d).pending = s.pending ∧ (departureReport s d).phase = s.phase ∧ (departureReport s d).now = s.now ∧
    (departureReport s d).straps = s.straps ∧ (departureReport s d).tables = s.tables ∧
    (departureReport s d).resp = s.resp ∧ (departureReport s d).sources = s.sources ∧ (departureReport s d).est = s.est := by
  simp only [departureReport]
  repeat' split
  all_goals simp

@[simp] theorem setPermit_frame (s : State) (c : Car) (x : Bool) :
    (setPermit s c x).pending = s.pending ∧ (setPermit s c x).phase = s.phase ∧ (setPermit s c x).now = s.now ∧
    (setPermit s c x).straps = s.straps ∧ (setPermit s c x).tables = s.tables ∧ (setPermit s c x).resp = s.resp ∧
    (setPermit s c x).sources = s.sources ∧ (setPermit s c x).est = s.est ∧ (setPermit s c x).env = s.env ∧
    (setPermit s c x).trip = s.trip ∧ (setPermit s c x).lim = s.lim ∧ (setPermit s c x).portA = s.portA ∧
    (setPermit s c x).portB = s.portB := by
  cases c <;> simp [setPermit]

@[simp] theorem setMismatch_frame (s : State) (c : Car) (x : Bool) :
    (setMismatch s c x).pending = s.pending ∧ (setMismatch s c x).phase = s.phase ∧ (setMismatch s c x).now = s.now ∧
    (setMismatch s c x).straps = s.straps ∧ (setMismatch s c x).tables = s.tables ∧ (setMismatch s c x).resp = s.resp ∧
    (setMismatch s c x).sources = s.sources ∧ (setMismatch s c x).est = s.est ∧ (setMismatch s c x).env = s.env ∧
    (setMismatch s c x).trip = s.trip ∧ (setMismatch s c x).lim = s.lim ∧ (setMismatch s c x).portA = s.portA ∧
    (setMismatch s c x).portB = s.portB := by
  cases c <;> simp [setMismatch]

@[simp] theorem evaluatePermit_frame (s : State) (c : Car) :
    (evaluatePermit s c).pending = s.pending ∧ (evaluatePermit s c).phase = s.phase ∧ (evaluatePermit s c).now = s.now ∧
    (evaluatePermit s c).straps = s.straps ∧ (evaluatePermit s c).tables = s.tables ∧ (evaluatePermit s c).resp = s.resp ∧
    (evaluatePermit s c).sources = s.sources ∧ (evaluatePermit s c).est = s.est := by
  simp only [evaluatePermit]
  repeat' split
  all_goals simp

@[simp] theorem evaluatePermits_frame (s : State) :
    (evaluatePermits s).pending = s.pending ∧ (evaluatePermits s).phase = s.phase ∧ (evaluatePermits s).now = s.now ∧
    (evaluatePermits s).straps = s.straps ∧ (evaluatePermits s).tables = s.tables ∧ (evaluatePermits s).resp = s.resp ∧
    (evaluatePermits s).sources = s.sources ∧ (evaluatePermits s).est = s.est := by
  simp [evaluatePermits]

@[simp] theorem writeStop_frame (s : State) (r : StopRecord) :
    (writeStop s r).pending = s.pending ∧ (writeStop s r).phase = s.phase ∧ (writeStop s r).now = s.now ∧
    (writeStop s r).straps = s.straps ∧ (writeStop s r).tables = s.tables ∧ (writeStop s r).resp = s.resp ∧
    (writeStop s r).sources = s.sources ∧ (writeStop s r).est = s.est ∧ (writeStop s r).env = s.env ∧
    (writeStop s r).trip = s.trip ∧ (writeStop s r).lim = s.lim ∧ (writeStop s r).portA = s.portA ∧
    (writeStop s r).portB = s.portB := by
  simp [writeStop]

@[simp] theorem halt_frame (s : State) :
    (halt s).pending = s.pending ∧ (halt s).phase = s.phase ∧ (halt s).now = s.now ∧ (halt s).straps = s.straps ∧
    (halt s).tables = s.tables ∧ (halt s).resp = s.resp ∧ (halt s).sources = s.sources ∧ (halt s).est = s.est := by
  simp [halt]

@[simp] theorem endStop_frame (s : State) (o : StopOutcome) :
    (endStop s o).pending = s.pending ∧ (endStop s o).phase = s.phase ∧ (endStop s o).now = s.now ∧
    (endStop s o).straps = s.straps ∧ (endStop s o).tables = s.tables ∧ (endStop s o).resp = s.resp ∧
    (endStop s o).sources = s.sources ∧ (endStop s o).est = s.est := by
  simp [endStop]

@[simp] theorem takeStationary_frame (s : State) :
    (takeStationary s).pending = s.pending ∧ (takeStationary s).phase = s.phase ∧ (takeStationary s).now = s.now ∧
    (takeStationary s).straps = s.straps ∧ (takeStationary s).tables = s.tables ∧ (takeStationary s).resp = s.resp ∧
    (takeStationary s).sources = s.sources ∧ (takeStationary s).est = s.est := by
  simp only [takeStationary]
  repeat' split
  all_goals simp

@[simp] theorem legUpdate_frame (s : State) (u : Update) :
    (legUpdate s u).pending = s.pending ∧ (legUpdate s u).phase = s.phase ∧ (legUpdate s u).now = s.now ∧
    (legUpdate s u).straps = s.straps ∧ (legUpdate s u).tables = s.tables ∧ (legUpdate s u).resp = s.resp ∧
    (legUpdate s u).sources = s.sources ∧ (legUpdate s u).est = s.est := by
  simp only [legUpdate]
  repeat' split
  all_goals simp

@[simp] theorem positionUpdate_frame (s : State) (u : Update) :
    (positionUpdate s u).pending = s.pending ∧ (positionUpdate s u).phase = s.phase ∧ (positionUpdate s u).now = s.now ∧
    (positionUpdate s u).straps = s.straps ∧ (positionUpdate s u).tables = s.tables ∧ (positionUpdate s u).resp = s.resp ∧
    (positionUpdate s u).sources = s.sources ∧ (positionUpdate s u).est = s.est := by
  simp only [positionUpdate]
  repeat' split
  all_goals simp

@[simp] theorem armLeg_frame (s : State) (d : Dir) (p : Place) :
    (armLeg s d p).pending = s.pending ∧ (armLeg s d p).phase = s.phase ∧ (armLeg s d p).now = s.now ∧
    (armLeg s d p).straps = s.straps ∧ (armLeg s d p).tables = s.tables ∧ (armLeg s d p).resp = s.resp ∧
    (armLeg s d p).sources = s.sources ∧ (armLeg s d p).est = s.est := by
  simp [armLeg]

/-! ## Position Estimator -/

@[simp] theorem encoderBaseline_frame (s : State) (c : BitVec 24) (t : BitVec 16) :
    (encoderBaseline s c t).pending = s.pending ∧ (encoderBaseline s c t).phase = s.phase ∧
    (encoderBaseline s c t).now = s.now ∧ (encoderBaseline s c t).straps = s.straps ∧
    (encoderBaseline s c t).tables = s.tables ∧ (encoderBaseline s c t).resp = s.resp ∧
    (encoderBaseline s c t).sources = s.sources ∧ (encoderBaseline s c t).env = s.env ∧
    (encoderBaseline s c t).leg = s.leg ∧ (encoderBaseline s c t).trip = s.trip ∧ (encoderBaseline s c t).lim = s.lim ∧
    (encoderBaseline s c t).portA = s.portA ∧ (encoderBaseline s c t).portB = s.portB := by
  simp [encoderBaseline]

@[simp] theorem encoderSample_frame (s : State) (p : List Byte) :
    (encoderSample s p).pending = s.pending ∧ (encoderSample s p).phase = s.phase ∧ (encoderSample s p).now = s.now ∧
    (encoderSample s p).straps = s.straps ∧ (encoderSample s p).tables = s.tables ∧ (encoderSample s p).resp = s.resp ∧
    (encoderSample s p).sources = s.sources := by
  simp only [encoderSample]
  repeat' split
  all_goals simp

@[simp] theorem encoderSubstitute_frame (s : State) (n : Nat) :
    (encoderSubstitute s n).pending = s.pending ∧ (encoderSubstitute s n).phase = s.phase ∧
    (encoderSubstitute s n).now = s.now ∧ (encoderSubstitute s n).straps = s.straps ∧
    (encoderSubstitute s n).tables = s.tables ∧ (encoderSubstitute s n).resp = s.resp ∧
    (encoderSubstitute s n).sources = s.sources := by
  simp [encoderSubstitute]

@[simp] theorem carAReport_frame (s : State) (c : Nat) :
    (carAReport s c).pending = s.pending ∧ (carAReport s c).phase = s.phase ∧ (carAReport s c).now = s.now ∧
    (carAReport s c).straps = s.straps ∧ (carAReport s c).tables = s.tables ∧ (carAReport s c).resp = s.resp ∧
    (carAReport s c).sources = s.sources := by
  simp only [carAReport]
  repeat' split
  all_goals simp

@[simp] theorem carBReport_frame (s : State) (c : Nat) :
    (carBReport s c).pending = s.pending ∧ (carBReport s c).phase = s.phase ∧ (carBReport s c).now = s.now ∧
    (carBReport s c).straps = s.straps ∧ (carBReport s c).tables = s.tables ∧ (carBReport s c).resp = s.resp ∧
    (carBReport s c).sources = s.sources := by
  simp only [carBReport]
  repeat' split
  all_goals simp

@[simp] theorem carSample_frame (s : State) (c : Car) (p : List Byte) :
    (carSample s c p).pending = s.pending ∧ (carSample s c p).phase = s.phase ∧ (carSample s c p).now = s.now ∧
    (carSample s c p).straps = s.straps ∧ (carSample s c p).tables = s.tables ∧ (carSample s c p).resp = s.resp ∧
    (carSample s c p).sources = s.sources := by
  simp only [carSample]
  repeat' split
  all_goals simp

@[simp] theorem markAged_frame (s : State) (c : Car) :
    (markAged s c).pending = s.pending ∧ (markAged s c).phase = s.phase ∧ (markAged s c).now = s.now ∧
    (markAged s c).straps = s.straps ∧ (markAged s c).tables = s.tables ∧ (markAged s c).resp = s.resp ∧
    (markAged s c).sources = s.sources ∧ (markAged s c).env = s.env ∧ (markAged s c).leg = s.leg ∧
    (markAged s c).trip = s.trip ∧ (markAged s c).lim = s.lim ∧ (markAged s c).portA = s.portA ∧
    (markAged s c).portB = s.portB := by
  cases c <;> simp [markAged]

@[simp] theorem refreshDegraded_frame (s : State) :
    (refreshDegraded s).pending = s.pending ∧ (refreshDegraded s).phase = s.phase ∧ (refreshDegraded s).now = s.now ∧
    (refreshDegraded s).straps = s.straps ∧ (refreshDegraded s).tables = s.tables ∧ (refreshDegraded s).resp = s.resp ∧
    (refreshDegraded s).sources = s.sources := by
  simp only [refreshDegraded]
  repeat' split
  all_goals simp

@[simp] theorem activateEstimator_frame (s : State) (old : LineConstants) :
    (activateEstimator s old).pending = s.pending ∧ (activateEstimator s old).phase = s.phase ∧
    (activateEstimator s old).now = s.now ∧ (activateEstimator s old).straps = s.straps ∧
    (activateEstimator s old).tables = s.tables ∧ (activateEstimator s old).resp = s.resp ∧
    (activateEstimator s old).sources = s.sources := by
  simp [activateEstimator]

/-! ## Source Tracker -/

@[simp] theorem consoleDemand_frame (s : State) (f : RxFrame) :
    (consoleDemand s f).pending = s.pending ∧ (consoleDemand s f).phase = s.phase ∧ (consoleDemand s f).now = s.now ∧
    (consoleDemand s f).straps = s.straps ∧ (consoleDemand s f).tables = s.tables ∧ (consoleDemand s f).resp = s.resp ∧
    (consoleDemand s f).sources = s.sources ∧ (consoleDemand s f).est = s.est := by
  simp [consoleDemand]

@[simp] theorem deliver_frame (s : State) (r : Role) (f : RxFrame) :
    (deliver s r f).pending = s.pending ∧ (deliver s r f).phase = s.phase ∧ (deliver s r f).now = s.now ∧
    (deliver s r f).straps = s.straps ∧ (deliver s r f).tables = s.tables ∧ (deliver s r f).resp = s.resp ∧
    (deliver s r f).sources = s.sources := by
  cases r <;> simp [deliver]

@[simp] theorem setRecord_frame (s : State) (i : Fin 16) (r : SourceRecord) :
    (setRecord s i r).pending = s.pending ∧ (setRecord s i r).phase = s.phase ∧ (setRecord s i r).now = s.now ∧
    (setRecord s i r).straps = s.straps ∧ (setRecord s i r).tables = s.tables ∧ (setRecord s i r).resp = s.resp ∧
    (setRecord s i r).est = s.est ∧ (setRecord s i r).env = s.env ∧ (setRecord s i r).leg = s.leg ∧
    (setRecord s i r).trip = s.trip ∧ (setRecord s i r).lim = s.lim ∧ (setRecord s i r).portA = s.portA ∧
    (setRecord s i r).portB = s.portB := by
  simp [setRecord]

@[simp] theorem syncChanged_frame (s : State) (r : Role) (x : SyncState) :
    (syncChanged s r x).pending = s.pending ∧ (syncChanged s r x).phase = s.phase ∧ (syncChanged s r x).now = s.now ∧
    (syncChanged s r x).straps = s.straps ∧ (syncChanged s r x).tables = s.tables ∧ (syncChanged s r x).resp = s.resp ∧
    (syncChanged s r x).sources = s.sources := by
  simp only [syncChanged]
  repeat' split
  all_goals simp

@[simp] theorem updateRecord_frame (s : State) (i : Fin 16) (r : SourceRecord) (c : SourceCause) :
    (updateRecord s i r c).pending = s.pending ∧ (updateRecord s i r c).phase = s.phase ∧
    (updateRecord s i r c).now = s.now ∧ (updateRecord s i r c).straps = s.straps ∧
    (updateRecord s i r c).tables = s.tables ∧ (updateRecord s i r c).resp = s.resp := by
  simp only [updateRecord]
  repeat' split
  all_goals simp

@[simp] theorem malformed_frame (s : State) (i : Fin 16) :
    (malformed s i).pending = s.pending ∧ (malformed s i).phase = s.phase ∧ (malformed s i).now = s.now ∧
    (malformed s i).straps = s.straps ∧ (malformed s i).tables = s.tables ∧ (malformed s i).resp = s.resp ∧
    (malformed s i).est = s.est ∧ (malformed s i).env = s.env ∧ (malformed s i).leg = s.leg ∧
    (malformed s i).trip = s.trip ∧ (malformed s i).lim = s.lim ∧ (malformed s i).portA = s.portA ∧
    (malformed s i).portB = s.portB := by
  simp [malformed]

@[simp] theorem takeBaseline_frame (s : State) (i : Fin 16) (f : RxFrame) (c : SourceCounters) :
    (takeBaseline s i f c).pending = s.pending ∧ (takeBaseline s i f c).phase = s.phase ∧
    (takeBaseline s i f c).now = s.now ∧ (takeBaseline s i f c).straps = s.straps ∧
    (takeBaseline s i f c).tables = s.tables ∧ (takeBaseline s i f c).resp = s.resp := by
  simp only [takeBaseline]
  repeat' split
  all_goals simp

@[simp] theorem accept_frame (s : State) (i : Fin 16) (f : RxFrame) (d : Nat) :
    (accept s i f d).pending = s.pending ∧ (accept s i f d).phase = s.phase ∧ (accept s i f d).now = s.now ∧
    (accept s i f d).straps = s.straps ∧ (accept s i f d).tables = s.tables ∧ (accept s i f d).resp = s.resp := by
  simp only [accept]
  repeat' split
  all_goals simp

@[simp] theorem present_frame (s : State) (i : Fin 16) (f : RxFrame) :
    (present s i f).pending = s.pending ∧ (present s i f).phase = s.phase ∧ (present s i f).now = s.now ∧
    (present s i f).straps = s.straps ∧ (present s i f).tables = s.tables ∧ (present s i f).resp = s.resp := by
  simp only [present]
  repeat' split
  all_goals simp

@[simp] theorem consoleSubstitute_frame (s : State) :
    (consoleSubstitute s).pending = s.pending ∧ (consoleSubstitute s).phase = s.phase ∧ (consoleSubstitute s).now = s.now ∧
    (consoleSubstitute s).straps = s.straps ∧ (consoleSubstitute s).tables = s.tables ∧
    (consoleSubstitute s).resp = s.resp ∧ (consoleSubstitute s).sources = s.sources ∧ (consoleSubstitute s).est = s.est ∧
    (consoleSubstitute s).env = s.env ∧ (consoleSubstitute s).leg = s.leg ∧ (consoleSubstitute s).lim = s.lim ∧
    (consoleSubstitute s).portA = s.portA := by
  simp only [consoleSubstitute]
  repeat' split
  all_goals simp

@[simp] theorem takeSubstitute_frame (s : State) (i : Fin 16) :
    (takeSubstitute s i).pending = s.pending ∧ (takeSubstitute s i).phase = s.phase ∧ (takeSubstitute s i).now = s.now ∧
    (takeSubstitute s i).straps = s.straps ∧ (takeSubstitute s i).tables = s.tables ∧ (takeSubstitute s i).resp = s.resp ∧
    (takeSubstitute s i).sources = s.sources := by
  simp only [takeSubstitute]
  repeat' split
  all_goals simp

@[simp] theorem lateExpiry_frame (s : State) (i : Fin 16) :
    (lateExpiry s i).pending = s.pending ∧ (lateExpiry s i).phase = s.phase ∧ (lateExpiry s i).now = s.now ∧
    (lateExpiry s i).straps = s.straps ∧ (lateExpiry s i).tables = s.tables ∧ (lateExpiry s i).resp = s.resp := by
  simp only [lateExpiry]
  repeat' split
  all_goals simp

@[simp] theorem compareRecord_frame (s : State) (old : SourceTable) (v : Bool) (i : Fin 16) :
    (compareRecord old v s i).pending = s.pending ∧ (compareRecord old v s i).phase = s.phase ∧
    (compareRecord old v s i).now = s.now ∧ (compareRecord old v s i).straps = s.straps ∧
    (compareRecord old v s i).tables = s.tables ∧ (compareRecord old v s i).resp = s.resp ∧
    (compareRecord old v s i).est = s.est ∧ (compareRecord old v s i).env = s.env ∧ (compareRecord old v s i).leg = s.leg ∧
    (compareRecord old v s i).trip = s.trip ∧ (compareRecord old v s i).lim = s.lim ∧
    (compareRecord old v s i).portB = s.portB := by
  simp only [compareRecord]
  repeat' split
  all_goals simp

@[simp] theorem activateSources_frame (s : State) (old : SourceTable) (v : Bool) :
    (activateSources s old v).pending = s.pending ∧ (activateSources s old v).phase = s.phase ∧
    (activateSources s old v).now = s.now ∧ (activateSources s old v).straps = s.straps ∧
    (activateSources s old v).tables = s.tables ∧ (activateSources s old v).resp = s.resp ∧
    (activateSources s old v).est = s.est ∧ (activateSources s old v).env = s.env ∧ (activateSources s old v).leg = s.leg ∧
    (activateSources s old v).trip = s.trip ∧ (activateSources s old v).lim = s.lim ∧
    (activateSources s old v).portB = s.portB := by
  unfold activateSources
  generalize List.finRange 16 = l
  induction l generalizing s with
  | nil => simp
  | cons i rest ih => simpa using ih (compareRecord old v s i)

/-! ## Inputs -/

@[simp] theorem takeSample_frame (s : State) (r : RawInputs) :
    (takeSample s r).pending = s.pending ∧ (takeSample s r).phase = s.phase ∧ (takeSample s r).now = s.now ∧
    (takeSample s r).straps = s.straps ∧ (takeSample s r).tables = s.tables ∧ (takeSample s r).resp = s.resp ∧
    (takeSample s r).sources = s.sources ∧ (takeSample s r).est = s.est ∧ (takeSample s r).env = s.env ∧
    (takeSample s r).leg = s.leg ∧ (takeSample s r).lim = s.lim ∧ (takeSample s r).portA = s.portA ∧
    (takeSample s r).portB = s.portB := by
  simp [takeSample]

@[simp] theorem setQualified_frame (s : State) (i : InputId) (x : Bool) :
    (setQualified s i x).pending = s.pending ∧ (setQualified s i x).phase = s.phase ∧ (setQualified s i x).now = s.now ∧
    (setQualified s i x).straps = s.straps ∧ (setQualified s i x).tables = s.tables ∧ (setQualified s i x).resp = s.resp ∧
    (setQualified s i x).sources = s.sources ∧ (setQualified s i x).est = s.est ∧ (setQualified s i x).env = s.env ∧
    (setQualified s i x).leg = s.leg ∧ (setQualified s i x).lim = s.lim ∧ (setQualified s i x).portA = s.portA ∧
    (setQualified s i x).portB = s.portB := by
  simp [setQualified]

@[simp] theorem transition_frame (s : State) (i : InputId) (x : Bool) :
    (transition s i x).pending = s.pending ∧ (transition s i x).phase = s.phase ∧ (transition s i x).now = s.now ∧
    (transition s i x).straps = s.straps ∧ (transition s i x).tables = s.tables ∧ (transition s i x).resp = s.resp ∧
    (transition s i x).sources = s.sources ∧ (transition s i x).est = s.est := by
  simp only [transition]
  repeat' split
  all_goals simp

@[simp] theorem qualify_frame (s : State) (i : InputId) (x : Bool) :
    (qualify s i x).pending = s.pending ∧ (qualify s i x).phase = s.phase ∧ (qualify s i x).now = s.now ∧
    (qualify s i x).straps = s.straps ∧ (qualify s i x).tables = s.tables ∧ (qualify s i x).resp = s.resp ∧
    (qualify s i x).sources = s.sources ∧ (qualify s i x).est = s.est := by
  simp only [qualify]
  repeat' split
  all_goals simp

@[simp] theorem judgeSlip_frame (s : State) (x : Bool) :
    (judgeSlip s x).pending = s.pending ∧ (judgeSlip s x).phase = s.phase ∧ (judgeSlip s x).now = s.now ∧
    (judgeSlip s x).straps = s.straps ∧ (judgeSlip s x).tables = s.tables ∧ (judgeSlip s x).resp = s.resp ∧
    (judgeSlip s x).sources = s.sources ∧ (judgeSlip s x).est = s.est := by
  simp only [judgeSlip]
  repeat' split
  all_goals simp

@[simp] theorem judgeInput_frame (s : State) (i : InputId) :
    (judgeInput s i).pending = s.pending ∧ (judgeInput s i).phase = s.phase ∧ (judgeInput s i).now = s.now ∧
    (judgeInput s i).straps = s.straps ∧ (judgeInput s i).tables = s.tables ∧ (judgeInput s i).resp = s.resp ∧
    (judgeInput s i).sources = s.sources ∧ (judgeInput s i).est = s.est := by
  simp only [judgeInput]
  repeat' split
  all_goals simp

@[simp] theorem sampleInputs_frame (s : State) (r : RawInputs) :
    (sampleInputs s r).pending = s.pending ∧ (sampleInputs s r).phase = s.phase ∧ (sampleInputs s r).now = s.now ∧
    (sampleInputs s r).straps = s.straps ∧ (sampleInputs s r).tables = s.tables ∧ (sampleInputs s r).resp = s.resp ∧
    (sampleInputs s r).sources = s.sources ∧ (sampleInputs s r).est = s.est := by
  simp [sampleInputs, inputOrder]

@[simp] theorem releaseSlip_frame (s : State) :
    (releaseSlip s).pending = s.pending ∧ (releaseSlip s).phase = s.phase ∧ (releaseSlip s).now = s.now ∧
    (releaseSlip s).straps = s.straps ∧ (releaseSlip s).tables = s.tables ∧ (releaseSlip s).resp = s.resp ∧
    (releaseSlip s).sources = s.sources ∧ (releaseSlip s).est = s.est := by
  simp [releaseSlip]

/-! ## Table Store -/

@[simp] theorem startBlock_frame (s : State) (t : TableSet) (k : Fin 6) :
    (startBlock s t k).pending = s.pending ∧ (startBlock s t k).phase = s.phase ∧ (startBlock s t k).now = s.now ∧
    (startBlock s t k).straps = s.straps ∧ (startBlock s t k).resp = s.resp ∧ (startBlock s t k).sources = s.sources ∧
    (startBlock s t k).est = s.est ∧ (startBlock s t k).env = s.env ∧ (startBlock s t k).leg = s.leg ∧
    (startBlock s t k).trip = s.trip ∧ (startBlock s t k).lim = s.lim ∧ (startBlock s t k).portA = s.portA ∧
    (startBlock s t k).portB = s.portB := by
  simp [startBlock]

@[simp] theorem clearOp_frame (s : State) :
    (clearOp s).pending = s.pending ∧ (clearOp s).phase = s.phase ∧ (clearOp s).now = s.now ∧
    (clearOp s).straps = s.straps ∧ (clearOp s).tables = s.tables ∧ (clearOp s).sources = s.sources ∧
    (clearOp s).est = s.est ∧ (clearOp s).env = s.env ∧ (clearOp s).leg = s.leg ∧ (clearOp s).trip = s.trip ∧
    (clearOp s).lim = s.lim ∧ (clearOp s).portA = s.portA ∧ (clearOp s).portB = s.portB := by
  simp [clearOp]

@[simp] theorem takeSet_frame (s : State) (t : TableSet) :
    (takeSet s t).pending = s.pending ∧ (takeSet s t).phase = s.phase ∧ (takeSet s t).now = s.now ∧
    (takeSet s t).straps = s.straps ∧ (takeSet s t).resp = s.resp ∧ (takeSet s t).sources = s.sources ∧
    (takeSet s t).est = s.est ∧ (takeSet s t).leg = s.leg ∧ (takeSet s t).trip = s.trip ∧ (takeSet s t).lim = s.lim ∧
    (takeSet s t).portA = s.portA ∧ (takeSet s t).portB = s.portB := by
  simp [takeSet]

@[simp] theorem commitActivate_frame (s : State) (t : TableSet) :
    (commitActivate s t).pending = s.pending ∧ (commitActivate s t).phase = s.phase ∧ (commitActivate s t).now = s.now ∧
    (commitActivate s t).straps = s.straps ∧ (commitActivate s t).resp = s.resp := by
  simp [commitActivate]

@[simp] theorem commitComplete_frame (s : State) (d : Byte) (p : PortId) (t : TableSet) :
    (commitComplete s d p t).pending = s.pending ∧ (commitComplete s d p t).phase = s.phase ∧
    (commitComplete s d p t).now = s.now ∧ (commitComplete s d p t).straps = s.straps := by
  simp [commitComplete]

@[simp] theorem blockProgrammed_frame (s : State) (f : Option (List Byte)) :
    (blockProgrammed s f).pending = s.pending ∧ (blockProgrammed s f).phase = s.phase ∧ (blockProgrammed s f).now = s.now ∧
    (blockProgrammed s f).straps = s.straps := by
  simp only [blockProgrammed]
  repeat' split
  all_goals simp

@[simp] theorem acceptCommit_frame (s : State) (p : PortId) (d : Byte) (t : TableSet) :
    (acceptCommit s p d t).pending = s.pending ∧ (acceptCommit s p d t).phase = s.phase ∧
    (acceptCommit s p d t).now = s.now ∧ (acceptCommit s p d t).straps = s.straps ∧
    (acceptCommit s p d t).sources = s.sources ∧ (acceptCommit s p d t).est = s.est ∧ (acceptCommit s p d t).env = s.env ∧
    (acceptCommit s p d t).leg = s.leg ∧ (acceptCommit s p d t).trip = s.trip ∧ (acceptCommit s p d t).lim = s.lim := by
  simp only [acceptCommit]
  repeat' split
  all_goals simp

@[simp] theorem loadDecides_frame (s : State) :
    (loadDecides s).pending = s.pending ∧ (loadDecides s).now = s.now ∧ (loadDecides s).straps = s.straps ∧
    (loadDecides s).resp = s.resp ∧ (loadDecides s).sources = s.sources := by
  simp only [loadDecides]
  repeat' split
  all_goals simp

@[simp] theorem verifyDone_frame (s : State) (p : PortId) (d : Byte) (l : List Nat) :
    (verifyDone s p d l).pending = s.pending ∧ (verifyDone s p d l).phase = s.phase ∧ (verifyDone s p d l).now = s.now ∧
    (verifyDone s p d l).straps = s.straps ∧ (verifyDone s p d l).tables = s.tables ∧
    (verifyDone s p d l).sources = s.sources ∧ (verifyDone s p d l).est = s.est ∧ (verifyDone s p d l).env = s.env ∧
    (verifyDone s p d l).leg = s.leg ∧ (verifyDone s p d l).trip = s.trip ∧ (verifyDone s p d l).lim = s.lim := by
  simp [verifyDone]

/-- STORE_MISMATCH raised once for each of a list of blocks (R185). -/
theorem storeRaises_frame (s : State) (l : List Nat) :
    let t := l.foldl (fun u _ => raiseFault u .storeMismatch) s
    t.pending = s.pending ∧ t.phase = s.phase ∧ t.now = s.now ∧ t.straps = s.straps ∧ t.tables = s.tables ∧ t.resp = s.resp ∧
    t.sources = s.sources ∧ t.est = s.est := by
  induction l generalizing s with
  | nil => simp
  | cons _ rest ih => simpa using ih (raiseFault s .storeMismatch)

@[simp] theorem startVerify_frame (s : State) (p : PortId) (d : Byte) (x n : Nat) :
    (startVerify s p d x n).pending = s.pending ∧ (startVerify s p d x n).phase = s.phase ∧
    (startVerify s p d x n).now = s.now ∧ (startVerify s p d x n).straps = s.straps ∧
    (startVerify s p d x n).tables = s.tables ∧ (startVerify s p d x n).sources = s.sources ∧
    (startVerify s p d x n).est = s.est := by
  have h (l : List Nat) (t : State) := storeRaises_frame t l
  simp only [startVerify]
  split
  all_goals simp [h]

@[simp] theorem verifyRead_frame (s : State) :
    (verifyRead s).pending = s.pending ∧ (verifyRead s).phase = s.phase ∧ (verifyRead s).now = s.now ∧
    (verifyRead s).straps = s.straps ∧ (verifyRead s).tables = s.tables ∧ (verifyRead s).sources = s.sources ∧
    (verifyRead s).est = s.est := by
  simp only [verifyRead]
  repeat' split
  all_goals simp

/-! ## Management Responder -/

@[simp] theorem answer_frame (s : State) (p : PortId) (d : Byte) (r : Request) (rc : ReplyCode) (bs : List Byte) :
    (answer s p d r rc bs).pending = s.pending ∧ (answer s p d r rc bs).phase = s.phase ∧
    (answer s p d r rc bs).now = s.now ∧ (answer s p d r rc bs).straps = s.straps ∧
    (answer s p d r rc bs).tables = s.tables ∧ (answer s p d r rc bs).resp = s.resp ∧
    (answer s p d r rc bs).sources = s.sources ∧ (answer s p d r rc bs).est = s.est ∧ (answer s p d r rc bs).env = s.env ∧
    (answer s p d r rc bs).leg = s.leg ∧ (answer s p d r rc bs).trip = s.trip ∧ (answer s p d r rc bs).lim = s.lim := by
  simp [answer]

@[simp] theorem answerUnknown_frame (s : State) (p : PortId) (d : Byte) (bs : List Byte) :
    (answerUnknown s p d bs).pending = s.pending ∧ (answerUnknown s p d bs).phase = s.phase ∧
    (answerUnknown s p d bs).now = s.now ∧ (answerUnknown s p d bs).straps = s.straps ∧
    (answerUnknown s p d bs).tables = s.tables ∧ (answerUnknown s p d bs).resp = s.resp ∧
    (answerUnknown s p d bs).sources = s.sources ∧ (answerUnknown s p d bs).est = s.est ∧
    (answerUnknown s p d bs).env = s.env ∧ (answerUnknown s p d bs).leg = s.leg ∧ (answerUnknown s p d bs).trip = s.trip ∧
    (answerUnknown s p d bs).lim = s.lim := by
  simp [answerUnknown]

@[simp] theorem serveStatusRead_frame (s : State) (p : PortId) (d : Byte) :
    (serveStatusRead s p d).pending = s.pending ∧ (serveStatusRead s p d).phase = s.phase ∧
    (serveStatusRead s p d).now = s.now ∧ (serveStatusRead s p d).straps = s.straps ∧
    (serveStatusRead s p d).tables = s.tables ∧ (serveStatusRead s p d).resp = s.resp ∧
    (serveStatusRead s p d).sources = s.sources ∧ (serveStatusRead s p d).est = s.est ∧
    (serveStatusRead s p d).env = s.env ∧ (serveStatusRead s p d).leg = s.leg ∧ (serveStatusRead s p d).trip = s.trip ∧
    (serveStatusRead s p d).lim = s.lim := by
  simp [serveStatusRead]

@[simp] theorem serveFaultsRead_frame (s : State) (p : PortId) (d x f : Byte) :
    (serveFaultsRead s p d x f).pending = s.pending ∧ (serveFaultsRead s p d x f).phase = s.phase ∧
    (serveFaultsRead s p d x f).now = s.now ∧ (serveFaultsRead s p d x f).straps = s.straps ∧
    (serveFaultsRead s p d x f).tables = s.tables ∧ (serveFaultsRead s p d x f).resp = s.resp ∧
    (serveFaultsRead s p d x f).sources = s.sources ∧ (serveFaultsRead s p d x f).est = s.est ∧
    (serveFaultsRead s p d x f).env = s.env ∧ (serveFaultsRead s p d x f).leg = s.leg ∧
    (serveFaultsRead s p d x f).trip = s.trip ∧ (serveFaultsRead s p d x f).lim = s.lim := by
  simp only [serveFaultsRead]
  repeat' split
  all_goals simp

@[simp] theorem serveStopLogRead_frame (s : State) (p : PortId) (d x : Byte) :
    (serveStopLogRead s p d x).pending = s.pending ∧ (serveStopLogRead s p d x).phase = s.phase ∧
    (serveStopLogRead s p d x).now = s.now ∧ (serveStopLogRead s p d x).straps = s.straps ∧
    (serveStopLogRead s p d x).tables = s.tables ∧ (serveStopLogRead s p d x).resp = s.resp ∧
    (serveStopLogRead s p d x).sources = s.sources ∧ (serveStopLogRead s p d x).est = s.est ∧
    (serveStopLogRead s p d x).env = s.env ∧ (serveStopLogRead s p d x).leg = s.leg ∧
    (serveStopLogRead s p d x).trip = s.trip ∧ (serveStopLogRead s p d x).lim = s.lim := by
  simp only [serveStopLogRead]
  repeat' split
  all_goals simp

@[simp] theorem clearSourceCounters_frame (s : State) (i : Fin 16) :
    (clearSourceCounters s i).pending = s.pending ∧ (clearSourceCounters s i).phase = s.phase ∧
    (clearSourceCounters s i).now = s.now ∧ (clearSourceCounters s i).straps = s.straps ∧
    (clearSourceCounters s i).tables = s.tables ∧ (clearSourceCounters s i).resp = s.resp ∧
    (clearSourceCounters s i).est = s.est ∧ (clearSourceCounters s i).env = s.env ∧ (clearSourceCounters s i).leg = s.leg ∧
    (clearSourceCounters s i).trip = s.trip ∧ (clearSourceCounters s i).lim = s.lim ∧
    (clearSourceCounters s i).portA = s.portA ∧ (clearSourceCounters s i).portB = s.portB := by
  simp [clearSourceCounters]

@[simp] theorem clearPortCounters_frame (s : State) (p : PortId) :
    (clearPortCounters s p).pending = s.pending ∧ (clearPortCounters s p).phase = s.phase ∧
    (clearPortCounters s p).now = s.now ∧ (clearPortCounters s p).straps = s.straps ∧
    (clearPortCounters s p).tables = s.tables ∧ (clearPortCounters s p).resp = s.resp ∧
    (clearPortCounters s p).sources = s.sources ∧ (clearPortCounters s p).est = s.est ∧
    (clearPortCounters s p).env = s.env ∧ (clearPortCounters s p).leg = s.leg ∧ (clearPortCounters s p).trip = s.trip ∧
    (clearPortCounters s p).lim = s.lim := by
  simp [clearPortCounters]

@[simp] theorem servePortCounters_frame (s : State) (p : PortId) (d : Byte) (r : Request) (w : PortId) (c : Bool) :
    (servePortCounters s p d r w c).pending = s.pending ∧ (servePortCounters s p d r w c).phase = s.phase ∧
    (servePortCounters s p d r w c).now = s.now ∧ (servePortCounters s p d r w c).straps = s.straps ∧
    (servePortCounters s p d r w c).tables = s.tables ∧ (servePortCounters s p d r w c).resp = s.resp ∧
    (servePortCounters s p d r w c).sources = s.sources ∧ (servePortCounters s p d r w c).est = s.est ∧
    (servePortCounters s p d r w c).env = s.env ∧ (servePortCounters s p d r w c).leg = s.leg ∧
    (servePortCounters s p d r w c).trip = s.trip ∧ (servePortCounters s p d r w c).lim = s.lim := by
  simp only [servePortCounters]
  repeat' split
  all_goals simp

@[simp] theorem serveCountersRead_frame (s : State) (p : PortId) (d x c : Byte) :
    (serveCountersRead s p d x c).pending = s.pending ∧ (serveCountersRead s p d x c).phase = s.phase ∧
    (serveCountersRead s p d x c).now = s.now ∧ (serveCountersRead s p d x c).straps = s.straps ∧
    (serveCountersRead s p d x c).tables = s.tables ∧ (serveCountersRead s p d x c).resp = s.resp ∧
    (serveCountersRead s p d x c).est = s.est ∧ (serveCountersRead s p d x c).env = s.env ∧
    (serveCountersRead s p d x c).leg = s.leg ∧ (serveCountersRead s p d x c).trip = s.trip ∧
    (serveCountersRead s p d x c).lim = s.lim := by
  simp only [serveCountersRead]
  repeat' split
  all_goals simp

@[simp] theorem serveTableRead_frame (s : State) (p : PortId) (d t i c : Byte) :
    (serveTableRead s p d t i c).pending = s.pending ∧ (serveTableRead s p d t i c).phase = s.phase ∧
    (serveTableRead s p d t i c).now = s.now ∧ (serveTableRead s p d t i c).straps = s.straps ∧
    (serveTableRead s p d t i c).tables = s.tables ∧ (serveTableRead s p d t i c).resp = s.resp ∧
    (serveTableRead s p d t i c).sources = s.sources ∧ (serveTableRead s p d t i c).est = s.est ∧
    (serveTableRead s p d t i c).env = s.env ∧ (serveTableRead s p d t i c).leg = s.leg ∧
    (serveTableRead s p d t i c).trip = s.trip ∧ (serveTableRead s p d t i c).lim = s.lim := by
  simp only [serveTableRead]
  repeat' split
  all_goals simp

@[simp] theorem serveMakeReady_frame (s : State) (p : PortId) (d : Byte) :
    (serveMakeReady s p d).pending = s.pending ∧ (serveMakeReady s p d).phase = s.phase ∧
    (serveMakeReady s p d).now = s.now ∧ (serveMakeReady s p d).straps = s.straps ∧
    (serveMakeReady s p d).tables = s.tables ∧ (serveMakeReady s p d).resp = s.resp ∧
    (serveMakeReady s p d).sources = s.sources ∧ (serveMakeReady s p d).est = s.est ∧
    (serveMakeReady s p d).env = s.env := by
  simp only [serveMakeReady]
  repeat' split
  all_goals simp

@[simp] theorem serveArmLeg_frame (s : State) (p : PortId) (d x y : Byte) :
    (serveArmLeg s p d x y).pending = s.pending ∧ (serveArmLeg s p d x y).phase = s.phase ∧
    (serveArmLeg s p d x y).now = s.now ∧ (serveArmLeg s p d x y).straps = s.straps ∧
    (serveArmLeg s p d x y).tables = s.tables ∧ (serveArmLeg s p d x y).resp = s.resp ∧
    (serveArmLeg s p d x y).sources = s.sources ∧ (serveArmLeg s p d x y).est = s.est := by
  simp only [serveArmLeg]
  repeat' split
  all_goals simp

@[simp] theorem serveDisarm_frame (s : State) (p : PortId) (d : Byte) :
    (serveDisarm s p d).pending = s.pending ∧ (serveDisarm s p d).phase = s.phase ∧ (serveDisarm s p d).now = s.now ∧
    (serveDisarm s p d).straps = s.straps ∧ (serveDisarm s p d).tables = s.tables ∧ (serveDisarm s p d).resp = s.resp ∧
    (serveDisarm s p d).sources = s.sources ∧ (serveDisarm s p d).est = s.est := by
  simp only [serveDisarm]
  repeat' split
  all_goals simp

@[simp] theorem tripCleared_frame (s : State) :
    (tripCleared s).pending = s.pending ∧ (tripCleared s).phase = s.phase ∧ (tripCleared s).now = s.now ∧
    (tripCleared s).straps = s.straps ∧ (tripCleared s).tables = s.tables ∧ (tripCleared s).resp = s.resp ∧
    (tripCleared s).sources = s.sources ∧ (tripCleared s).est = s.est ∧ (tripCleared s).env = s.env ∧
    (tripCleared s).leg = s.leg ∧ (tripCleared s).lim = s.lim ∧ (tripCleared s).portA = s.portA ∧
    (tripCleared s).portB = s.portB := by
  simp [tripCleared]

@[simp] theorem serveResetTrip_frame (s : State) (p : PortId) (d : Byte) :
    (serveResetTrip s p d).pending = s.pending ∧ (serveResetTrip s p d).phase = s.phase ∧
    (serveResetTrip s p d).now = s.now ∧ (serveResetTrip s p d).straps = s.straps ∧
    (serveResetTrip s p d).tables = s.tables ∧ (serveResetTrip s p d).resp = s.resp ∧
    (serveResetTrip s p d).sources = s.sources ∧ (serveResetTrip s p d).est = s.est ∧ (serveResetTrip s p d).env = s.env ∧
    (serveResetTrip s p d).leg = s.leg ∧ (serveResetTrip s p d).lim = s.lim := by
  simp only [serveResetTrip]
  repeat' split
  all_goals simp

@[simp] theorem freeze_frame (s : State) :
    (freeze s).pending = s.pending ∧ (freeze s).phase = s.phase ∧ (freeze s).now = s.now ∧ (freeze s).straps = s.straps ∧
    (freeze s).tables = s.tables ∧ (freeze s).sources = s.sources ∧ (freeze s).est = s.est ∧ (freeze s).env = s.env ∧
    (freeze s).leg = s.leg ∧ (freeze s).trip = s.trip ∧ (freeze s).lim = s.lim ∧ (freeze s).portA = s.portA ∧
    (freeze s).portB = s.portB := by
  simp [freeze]

@[simp] theorem enterMaintenance_frame (s : State) :
    (enterMaintenance s).pending = s.pending ∧ (enterMaintenance s).phase = s.phase ∧ (enterMaintenance s).now = s.now ∧
    (enterMaintenance s).straps = s.straps ∧ (enterMaintenance s).tables = s.tables ∧
    (enterMaintenance s).sources = s.sources ∧ (enterMaintenance s).est = s.est ∧ (enterMaintenance s).env = s.env := by
  simp [enterMaintenance]

@[simp] theorem completeEntry_frame (s : State) (p : PortId) (d : Byte) (r : Request) :
    (completeEntry s p d r).pending = s.pending ∧ (completeEntry s p d r).phase = s.phase ∧
    (completeEntry s p d r).now = s.now ∧ (completeEntry s p d r).straps = s.straps ∧
    (completeEntry s p d r).tables = s.tables ∧ (completeEntry s p d r).sources = s.sources ∧
    (completeEntry s p d r).est = s.est ∧ (completeEntry s p d r).env = s.env := by
  simp only [completeEntry]
  repeat' split
  all_goals simp

@[simp] theorem serveMaintenanceRequest_frame (s : State) (p : PortId) (d : Byte) :
    (serveMaintenanceRequest s p d).pending = s.pending ∧ (serveMaintenanceRequest s p d).phase = s.phase ∧
    (serveMaintenanceRequest s p d).now = s.now ∧ (serveMaintenanceRequest s p d).straps = s.straps ∧
    (serveMaintenanceRequest s p d).tables = s.tables ∧ (serveMaintenanceRequest s p d).sources = s.sources ∧
    (serveMaintenanceRequest s p d).est = s.est ∧ (serveMaintenanceRequest s p d).env = s.env ∧
    (serveMaintenanceRequest s p d).leg = s.leg ∧ (serveMaintenanceRequest s p d).trip = s.trip ∧
    (serveMaintenanceRequest s p d).lim = s.lim := by
  simp only [serveMaintenanceRequest]
  repeat' split
  all_goals simp

@[simp] theorem serveMaintenanceConfirm_frame (s : State) (p : PortId) (d : Byte) (e : BitVec 16) :
    (serveMaintenanceConfirm s p d e).pending = s.pending ∧ (serveMaintenanceConfirm s p d e).phase = s.phase ∧
    (serveMaintenanceConfirm s p d e).now = s.now ∧ (serveMaintenanceConfirm s p d e).straps = s.straps ∧
    (serveMaintenanceConfirm s p d e).tables = s.tables ∧ (serveMaintenanceConfirm s p d e).resp = s.resp ∧
    (serveMaintenanceConfirm s p d e).sources = s.sources ∧ (serveMaintenanceConfirm s p d e).est = s.est ∧
    (serveMaintenanceConfirm s p d e).env = s.env ∧ (serveMaintenanceConfirm s p d e).leg = s.leg ∧
    (serveMaintenanceConfirm s p d e).trip = s.trip ∧ (serveMaintenanceConfirm s p d e).lim = s.lim := by
  simp [serveMaintenanceConfirm]

@[simp] theorem serveTableWrite_frame (s : State) (p : PortId) (d t i : Byte) (e : List Byte) :
    (serveTableWrite s p d t i e).pending = s.pending ∧ (serveTableWrite s p d t i e).phase = s.phase ∧
    (serveTableWrite s p d t i e).now = s.now ∧ (serveTableWrite s p d t i e).straps = s.straps ∧
    (serveTableWrite s p d t i e).tables = s.tables ∧ (serveTableWrite s p d t i e).sources = s.sources ∧
    (serveTableWrite s p d t i e).est = s.est ∧ (serveTableWrite s p d t i e).env = s.env ∧
    (serveTableWrite s p d t i e).leg = s.leg ∧ (serveTableWrite s p d t i e).trip = s.trip ∧
    (serveTableWrite s p d t i e).lim = s.lim := by
  simp only [serveTableWrite]
  repeat' split
  all_goals simp

@[simp] theorem serveCommit_frame (s : State) (p : PortId) (d : Byte) :
    (serveCommit s p d).pending = s.pending ∧ (serveCommit s p d).phase = s.phase ∧ (serveCommit s p d).now = s.now ∧
    (serveCommit s p d).straps = s.straps ∧ (serveCommit s p d).sources = s.sources ∧ (serveCommit s p d).est = s.est ∧
    (serveCommit s p d).env = s.env ∧ (serveCommit s p d).leg = s.leg ∧ (serveCommit s p d).trip = s.trip ∧
    (serveCommit s p d).lim = s.lim := by
  simp only [serveCommit]
  repeat' split
  all_goals simp

@[simp] theorem serveVerify_frame (s : State) (p : PortId) (d x n : Byte) :
    (serveVerify s p d x n).pending = s.pending ∧ (serveVerify s p d x n).phase = s.phase ∧
    (serveVerify s p d x n).now = s.now ∧ (serveVerify s p d x n).straps = s.straps ∧
    (serveVerify s p d x n).tables = s.tables ∧ (serveVerify s p d x n).sources = s.sources ∧
    (serveVerify s p d x n).est = s.est := by
  simp only [serveVerify]
  repeat' split
  all_goals simp

@[simp] theorem serveLeaveMaintenance_frame (s : State) (p : PortId) (d : Byte) :
    (serveLeaveMaintenance s p d).pending = s.pending ∧ (serveLeaveMaintenance s p d).phase = s.phase ∧
    (serveLeaveMaintenance s p d).now = s.now ∧ (serveLeaveMaintenance s p d).straps = s.straps ∧
    (serveLeaveMaintenance s p d).tables = s.tables ∧ (serveLeaveMaintenance s p d).sources = s.sources ∧
    (serveLeaveMaintenance s p d).est = s.est ∧ (serveLeaveMaintenance s p d).env = s.env := by
  simp only [serveLeaveMaintenance]
  repeat' split
  all_goals simp

@[simp] theorem serveRestart_frame (s : State) (p : PortId) (d : Byte) :
    (serveRestart s p d).pending = s.pending ∧ (serveRestart s p d).phase = s.phase ∧ (serveRestart s p d).now = s.now ∧
    (serveRestart s p d).straps = s.straps ∧ (serveRestart s p d).tables = s.tables ∧
    (serveRestart s p d).sources = s.sources ∧ (serveRestart s p d).est = s.est ∧ (serveRestart s p d).env = s.env ∧
    (serveRestart s p d).leg = s.leg ∧ (serveRestart s p d).trip = s.trip ∧ (serveRestart s p d).lim = s.lim := by
  simp only [serveRestart]
  repeat' split
  all_goals simp

@[simp] theorem serve_frame (s : State) (p : PortId) (d : Byte) (r : Request) :
    (serve s p d r).pending = s.pending ∧ (serve s p d r).phase = s.phase ∧ (serve s p d r).now = s.now ∧
    (serve s p d r).straps = s.straps ∧ (serve s p d r).est = s.est := by
  cases r <;> simp [serve]

@[simp] theorem serveFrom_frame (s : State) (p : PortId) (d : Byte) (r : Request) :
    (serveFrom s p d r).pending = s.pending ∧ (serveFrom s p d r).phase = s.phase ∧ (serveFrom s p d r).now = s.now ∧
    (serveFrom s p d r).straps = s.straps ∧ (serveFrom s p d r).est = s.est := by
  simp only [serveFrom]
  repeat' split
  all_goals simp

@[simp] theorem takeRequest_frame (s : State) (p : PortId) (d : Byte) (r : Request) :
    (takeRequest s p d r).pending = s.pending ∧ (takeRequest s p d r).phase = s.phase ∧ (takeRequest s p d r).now = s.now ∧
    (takeRequest s p d r).straps = s.straps ∧ (takeRequest s p d r).est = s.est := by
  simp only [takeRequest]
  repeat' split
  all_goals simp

@[simp] theorem takePayload_frame (s : State) (p : PortId) (d : Byte) (bs : List Byte) :
    (takePayload s p d bs).pending = s.pending ∧ (takePayload s p d bs).phase = s.phase ∧
    (takePayload s p d bs).now = s.now ∧ (takePayload s p d bs).straps = s.straps ∧ (takePayload s p d bs).est = s.est := by
  simp only [takePayload]
  repeat' split
  all_goals simp

/-! ## Line Ports -/

@[simp] theorem forward_frame (s : State) (p : PortId) (f : RxFrame) :
    (forward s p f).pending = s.pending ∧ (forward s p f).phase = s.phase ∧ (forward s p f).now = s.now ∧
    (forward s p f).straps = s.straps ∧ (forward s p f).tables = s.tables ∧ (forward s p f).resp = s.resp ∧
    (forward s p f).sources = s.sources ∧ (forward s p f).est = s.est ∧ (forward s p f).env = s.env ∧
    (forward s p f).leg = s.leg ∧ (forward s p f).trip = s.trip ∧ (forward s p f).lim = s.lim := by
  simp [forward]

@[simp] theorem countAt_frame (s : State) (p : PortId) (k : PortCounter) :
    (countAt s p k).pending = s.pending ∧ (countAt s p k).phase = s.phase ∧ (countAt s p k).now = s.now ∧
    (countAt s p k).straps = s.straps ∧ (countAt s p k).tables = s.tables ∧ (countAt s p k).resp = s.resp ∧
    (countAt s p k).sources = s.sources ∧ (countAt s p k).est = s.est ∧ (countAt s p k).env = s.env ∧
    (countAt s p k).leg = s.leg ∧ (countAt s p k).trip = s.trip ∧ (countAt s p k).lim = s.lim := by
  simp [countAt]

@[simp] theorem consoleFrame_frame (s : State) (f : RxFrame) :
    (consoleFrame s f).pending = s.pending ∧ (consoleFrame s f).phase = s.phase ∧ (consoleFrame s f).now = s.now ∧
    (consoleFrame s f).straps = s.straps ∧ (consoleFrame s f).tables = s.tables ∧ (consoleFrame s f).resp = s.resp := by
  simp only [consoleFrame]
  repeat' split
  all_goals simp

@[simp] theorem sampleFrame_frame (s : State) (p : PortId) (f : RxFrame) :
    (sampleFrame s p f).pending = s.pending ∧ (sampleFrame s p f).phase = s.phase ∧ (sampleFrame s p f).now = s.now ∧
    (sampleFrame s p f).straps = s.straps ∧ (sampleFrame s p f).tables = s.tables ∧ (sampleFrame s p f).resp = s.resp := by
  simp only [sampleFrame]
  repeat' split
  all_goals simp

@[simp] theorem sortFrame_frame (s : State) (p : PortId) (f : RxFrame) :
    (sortFrame s p f).pending = s.pending ∧ (sortFrame s p f).phase = s.phase ∧ (sortFrame s p f).now = s.now ∧
    (sortFrame s p f).straps = s.straps := by
  simp only [sortFrame]
  repeat' split
  all_goals simp

@[simp] theorem setRx_frame (s : State) (p : PortId) (x : Option (List Byte)) :
    (setRx s p x).pending = s.pending ∧ (setRx s p x).phase = s.phase ∧ (setRx s p x).now = s.now ∧
    (setRx s p x).straps = s.straps ∧ (setRx s p x).tables = s.tables ∧ (setRx s p x).resp = s.resp ∧
    (setRx s p x).sources = s.sources ∧ (setRx s p x).est = s.est ∧ (setRx s p x).env = s.env ∧ (setRx s p x).leg = s.leg ∧
    (setRx s p x).trip = s.trip ∧ (setRx s p x).lim = s.lim := by
  simp [setRx]

@[simp] theorem completeFrame_frame (s : State) (p : PortId) (bs : List Byte) :
    (completeFrame s p bs).pending = s.pending ∧ (completeFrame s p bs).phase = s.phase ∧
    (completeFrame s p bs).now = s.now ∧ (completeFrame s p bs).straps = s.straps := by
  simp only [completeFrame]
  repeat' split
  all_goals simp

@[simp] theorem appendCharacter_frame (s : State) (p : PortId) (bs : List Byte) (b : Byte) :
    (appendCharacter s p bs b).pending = s.pending ∧ (appendCharacter s p bs b).phase = s.phase ∧
    (appendCharacter s p bs b).now = s.now ∧ (appendCharacter s p bs b).straps = s.straps := by
  simp only [appendCharacter]
  repeat' split
  all_goals simp

@[simp] theorem receiveCharacter_frame (s : State) (p : PortId) (b : Byte) (m g : Bool) :
    (receiveCharacter s p b m g).pending = s.pending ∧ (receiveCharacter s p b m g).phase = s.phase ∧
    (receiveCharacter s p b m g).now = s.now ∧ (receiveCharacter s p b m g).straps = s.straps := by
  simp only [receiveCharacter]
  repeat' split
  all_goals simp

@[simp] theorem lineBreak_frame (s : State) (p : PortId) :
    (lineBreak s p).pending = s.pending ∧ (lineBreak s p).phase = s.phase ∧ (lineBreak s p).now = s.now ∧
    (lineBreak s p).straps = s.straps ∧ (lineBreak s p).tables = s.tables ∧ (lineBreak s p).resp = s.resp ∧
    (lineBreak s p).sources = s.sources ∧ (lineBreak s p).est = s.est ∧ (lineBreak s p).env = s.env ∧
    (lineBreak s p).leg = s.leg ∧ (lineBreak s p).trip = s.trip ∧ (lineBreak s p).lim = s.lim := by
  simp only [lineBreak]
  repeat' split
  all_goals simp

@[simp] theorem startNext_frame (s : State) (p : PortId) :
    (startNext s p).pending = s.pending ∧ (startNext s p).phase = s.phase ∧ (startNext s p).now = s.now ∧
    (startNext s p).straps = s.straps ∧ (startNext s p).tables = s.tables ∧ (startNext s p).resp = s.resp ∧
    (startNext s p).sources = s.sources ∧ (startNext s p).est = s.est ∧ (startNext s p).env = s.env ∧
    (startNext s p).leg = s.leg ∧ (startNext s p).lim = s.lim := by
  simp only [startNext]
  repeat' split
  all_goals simp

@[simp] theorem transmitEnd_frame (s : State) (p : PortId) :
    (transmitEnd s p).pending = s.pending ∧ (transmitEnd s p).phase = s.phase ∧ (transmitEnd s p).now = s.now ∧
    (transmitEnd s p).straps = s.straps ∧ (transmitEnd s p).tables = s.tables ∧ (transmitEnd s p).resp = s.resp ∧
    (transmitEnd s p).sources = s.sources ∧ (transmitEnd s p).est = s.est ∧ (transmitEnd s p).env = s.env ∧
    (transmitEnd s p).leg = s.leg ∧ (transmitEnd s p).lim = s.lim := by
  simp only [transmitEnd]
  repeat' split
  all_goals simp

end Sys2Proof.Machine
end

