-- ==== Sys2Proof/Laws/Readings.lean ====
section
/-! SUPPORT. What each reading of the state depends on: two states that agree there give the same reading. -/

namespace Sys2Proof.Machine

theorem line_congr {s t : State} (h : t.tables = s.tables) : t.line = s.line := by simp [State.line, h]

theorem response_congr {s t : State} (h : t.tables = s.tables) (k : FaultKind) : t.response k = s.response k := by
  simp only [State.response, h]

theorem entry_congr {s t : State} (h : t.tables = s.tables) (i : Fin 16) : t.entry i = s.entry i := by
  simp only [State.entry, h]

theorem record_congr {s t : State} (h : t.sources = s.sources) (i : Fin 16) : t.record i = s.record i := by
  simp only [State.record, h]

theorem live_congr {s t : State} (h : t.tables = s.tables) (i : Fin 16) : t.live i = s.live i := by
  simp only [State.live, h]

theorem roleIndex_congr {s t : State} (h : t.tables = s.tables) (r : Role) : t.roleIndex r = s.roleIndex r := by
  simp only [State.roleIndex, h]

theorem roleRecord_congr {s t : State} (h : t.tables = s.tables) (hs : t.sources = s.sources) (r : Role) :
    t.roleRecord r = s.roleRecord r := by
  simp only [State.roleRecord, roleIndex_congr h, funext fun i => record_congr hs i]

theorem roleIn_congr {s t : State} (h : t.tables = s.tables) (hs : t.sources = s.sources) (r : Role) (x : SyncState) :
    t.roleIn r x = s.roleIn r x := by simp only [State.roleIn, roleRecord_congr h hs]

theorem consoleAddress_congr {s t : State} (h : t.tables = s.tables) : t.consoleAddress = s.consoleAddress := by
  simp only [State.consoleAddress, roleIndex_congr h, funext fun i => entry_congr h i]

theorem noticeAddress_congr {s t : State} (h : t.tables = s.tables) : t.noticeAddress = s.noticeAddress := by
  simp only [State.noticeAddress, consoleAddress_congr h]

theorem driveAddress_congr {s t : State} (h : t.tables = s.tables) : t.driveAddress = s.driveAddress := by
  simp only [State.driveAddress, roleIndex_congr h, funext fun i => entry_congr h i]

theorem consoleTimeout_congr {s t : State} (h : t.tables = s.tables) : t.consoleTimeout = s.consoleTimeout := by
  simp only [State.consoleTimeout, roleIndex_congr h, funext fun i => entry_congr h i]

theorem rUm_congr {s t : State} (h : t.tables = s.tables) (he : t.est = s.est) : t.rUm = s.rUm := by
  simp only [State.rUm, line_congr h, he]

theorem rMm_congr {s t : State} (h : t.tables = s.tables) (he : t.est = s.est) : t.rMm = s.rMm := by
  simp only [State.rMm, rUm_congr h he]

theorem aPos_congr {s t : State} (h : t.tables = s.tables) (he : t.est = s.est) : t.aPos = s.aPos := by
  simp only [State.aPos, line_congr h, rMm_congr h he, he]

theorem bPos_congr {s t : State} (h : t.tables = s.tables) (he : t.est = s.est) : t.bPos = s.bPos := by
  simp only [State.bPos, line_congr h, rMm_congr h he, he]

theorem carPos_congr {s t : State} (h : t.tables = s.tables) (he : t.est = s.est) (c : Car) : t.carPos c = s.carPos c := by
  cases c
  · exact aPos_congr h he
  · exact bPos_congr h he

theorem lastSays_congr {s t : State} (h : t.tables = s.tables) (hs : t.sources = s.sources) (r : Role) (f : List Byte → Bool) :
    lastSays t r f = lastSays s r f := by simp only [lastSays, roleRecord_congr h hs]

theorem doorsClosed_congr {s t : State} (h : t.tables = s.tables) (hs : t.sources = s.sources) (r : Role) :
    doorsClosed t r = doorsClosed s r := by simp only [doorsClosed, roleIn_congr h hs, lastSays_congr h hs]

theorem carLost_congr {s t : State} (h : t.tables = s.tables) (hs : t.sources = s.sources) : carLost t = carLost s := by
  simp only [carLost, roleIn_congr h hs]

theorem remaining_congr {s t : State} (h : t.tables = s.tables) (he : t.est = s.est) (hl : t.leg = s.leg) :
    t.remaining = s.remaining := by simp only [State.remaining, hl, rMm_congr h he]

theorem rampCeiling_congr {s t : State} (h : t.tables = s.tables) (hn : t.now = s.now) (hr : t.trip.ramp = s.trip.ramp) :
    t.rampCeiling = s.rampCeiling := by simp only [State.rampCeiling, line_congr h, hn, hr]

theorem carEnvelope_congr {s t : State} (h : t.tables = s.tables) (he : t.est = s.est) (ha : t.leg.active = s.leg.active)
    (hd : t.leg.dir = s.leg.dir) (hu : t.env.uphill = s.env.uphill) (hw : t.env.downhill = s.env.downhill) (c : Car) :
    carEnvelope t c = carEnvelope s c := by
  simp only [carEnvelope, h, carPos_congr h he, line_congr h, ha, hd, hu, hw]

/-- The envelope is formed from the tables, the estimator and, of the leg, its activity, direction and target. -/
theorem formEnvelope_congr {s t : State} (h : t.tables = s.tables) (he : t.est = s.est) (ha : t.leg.active = s.leg.active)
    (hd : t.leg.dir = s.leg.dir) (hr : t.leg.rStar = s.leg.rStar) (hv : t.env = s.env) :
    formEnvelope t = formEnvelope s := by
  have hc := fun c => carEnvelope_congr h he ha hd (congrArg _ hv) (congrArg _ hv) c
  have hm : t.remaining = s.remaining := by simp only [State.remaining, hd, hr, rMm_congr h he]
  simp only [formEnvelope, hc, hm, line_congr h, ha, he, hv]

end Sys2Proof.Machine
end

