-- ==== Sys2Proof/Laws/RunState.lean ====
section
/-! SUPPORT. What a demand, a change of the run state and the raise of a fault do to the parts they write. -/

namespace Sys2Proof.Machine

/-! ## Demands -/

@[simp] theorem sendDemand_trip (s : State) (d : Demand) : (sendDemand s d).trip = takeSetpoint s (sentSetpoint s d) := rfl
@[simp] theorem sendDemand_portB (s : State) (d : Demand) : (sendDemand s d).portB = demandOnLine s d := rfl

/-- An offered demand writes the last transmitted setpoint and the slip blanking timer of the Trip Unit at most. -/
theorem offerDemand_trip (s : State) (d : Demand) :
    ∃ x y, (offerDemand s d).trip = { s.trip with lastSetpoint := x, slipTimer := y } := by
  simp only [offerDemand]
  repeat' split
  all_goals first
    | exact ⟨s.trip.lastSetpoint, s.trip.slipTimer, rfl⟩
    | exact ⟨_, _, rfl⟩

/-- A demand generated at the ceiling does the same. -/
theorem generateAtCeiling_trip (s : State) :
    ∃ x y, (generateAtCeiling s).trip = { s.trip with lastSetpoint := x, slipTimer := y } :=
  offerDemand_trip s _

/-- An offered demand writes the line, the sequence counter, the queue and QUEUE_DROP of Port B at most. -/
theorem offerDemand_portB_rx (s : State) (d : Demand) : (offerDemand s d).portB.rx = s.portB.rx := by
  simp only [offerDemand]
  repeat' split
  all_goals rfl

@[simp] theorem generateAtCeiling_last (s : State) : (generateAtCeiling s).lim.last = s.lim.last := by
  simp [generateAtCeiling]

@[simp] theorem generateAtCeiling_genTimer (s : State) :
    (generateAtCeiling s).lim.genTimer = timerAfter s.now s.consoleTimeout := by
  simp [generateAtCeiling, State.consoleTimeout, State.roleIndex, State.entry]

/-! ## Changes of the run state -/

/-- The Leg Controller after a change of the run state. -/
@[simp] theorem changeState_leg (s : State) (new : RunState) (c : StateCause) (k : Nat) :
    (changeState s new c k).leg = legInState s new := by
  simp only [changeState]
  split <;> simp [enterState]

/-- The Trip Unit after a change of the run state, its setpoint and slip blanking timer apart. -/
theorem changeState_trip (s : State) (new : RunState) (c : StateCause) (k : Nat) :
    ∃ x y, (changeState s new c k).trip = { tripInState s new with lastSetpoint := x, slipTimer := y } := by
  simp only [changeState]
  split
  · obtain ⟨x, y, h⟩ := generateAtCeiling_trip (notify (enterState s new) (.stateChanged s.leg.run new c k s.leg.number))
    exact ⟨x, y, by rw [h]; simp [enterState]⟩
  · exact ⟨s.trip.lastSetpoint, s.trip.slipTimer, by simp [enterState, tripInState]⟩

@[simp] theorem changeState_last (s : State) (new : RunState) (c : StateCause) (k : Nat) :
    (changeState s new c k).lim.last = s.lim.last := by
  simp only [changeState]
  split <;> simp [enterState, limInState]

/-- The port of the notice of a change of the run state. -/
theorem changeState_portA (s : State) (new : RunState) (c : StateCause) (k : Nat) :
    (changeState s new c k).portA =
      s.portA.offer s.straps.own (.notice s.noticeAddress (.stateChanged s.leg.run new c k s.leg.number)) := by
  simp only [changeState]
  split <;> simp [notify, noticeAddress_congr (s := s) (t := enterState s new)]

/-- A change to a state other than SERVICE_STOP generates no demand. -/
theorem changeState_plain {new : RunState} (h : new ≠ .serviceStop) (s : State) (c : StateCause) (k : Nat) :
    changeState s new c k = notify (enterState s new) (.stateChanged s.leg.run new c k s.leg.number) := by
  simp [changeState, h]

/-! ## The Fault Set -/

/-- The kinds of a Fault Set with a record added are its kinds and the record's. -/
theorem addFault_kinds (new : FaultRecord) (l : List FaultRecord) (k : FaultKind) :
    (∃ r ∈ addFault new l, r.kind = k) ↔ k = new.kind ∨ ∃ r ∈ l, r.kind = k := by
  induction l with
  | nil => simp [addFault, eq_comm]
  | cons x xs ih =>
    simp only [addFault]
    split
    · rename_i h
      simp only [List.exists_mem_cons_iff, ← h]
      constructor
      · rintro (h | h)
        · exact Or.inl h.symm
        · exact Or.inr (Or.inr h)
      · rintro (h | h | h)
        · exact Or.inl h.symm
        · exact Or.inl h
        · exact Or.inr h
    · split
      · simp [List.exists_mem_cons_iff, eq_comm]
      · simp only [List.exists_mem_cons_iff, ih]
        tauto

/-- A record of the kind raised is held. -/
theorem addFault_holds (new : FaultRecord) (l : List FaultRecord) : ∃ r ∈ addFault new l, r.kind = new.kind :=
  (addFault_kinds new l new.kind).2 (Or.inl rfl)

/-- No record of another kind is added, dropped or changed. -/
theorem addFault_other (new : FaultRecord) (l : List FaultRecord) {k : FaultKind} (h : k ≠ new.kind) :
    faultOf (addFault new l) k = faultOf l k := by
  have hn : new.kind ≠ k := Ne.symm h
  induction l with
  | nil => simp [addFault, faultOf, hn]
  | cons x xs ih =>
    simp only [addFault]
    split
    · rename_i hx
      simp [faultOf, List.find?_cons, hx, hn]
    · split
      · simp [faultOf, List.find?_cons, hn]
      · simp only [faultOf, List.find?_cons] at ih ⊢
        rw [ih]

/-! ## The raise of a fault -/

@[simp] theorem recordFault_faults (s : State) (k : FaultKind) :
    (recordFault s k).trip.faults = addFault (newFault s k) s.trip.faults := rfl

/-- An action leaves the Fault Set, the inputs and the slip value. -/
@[simp] theorem applyAction_trip (s : State) (a : Action) (k : FaultKind) :
    (applyAction s a k).trip.faults = s.trip.faults ∧ (applyAction s a k).trip.inputs = s.trip.inputs ∧
    (applyAction s a k).trip.slipUnderlying = s.trip.slipUnderlying ∧
    (applyAction s a k).trip.sampleTimer = s.trip.sampleTimer := by
  simp only [applyAction]
  split
  · simp
  · rename_i new _
    obtain ⟨x, y, h⟩ := changeState_trip s new .fault k.num
    split <;> simp [h, tripInState]

/-- An action leaves the last console demand. -/
@[simp] theorem applyAction_last (s : State) (a : Action) (k : FaultKind) : (applyAction s a k).lim.last = s.lim.last := by
  simp only [applyAction]
  repeat' split
  all_goals simp

/-- The run state an action leads to. -/
@[simp] theorem applyAction_run (s : State) (a : Action) (k : FaultKind) :
    (applyAction s a k).leg.run = (actionTarget a s.leg.run).getD s.leg.run := by
  simp only [applyAction]
  split
  · rename_i h; simp [h]
  · rename_i new h
    split <;> simp [h, legInState, endLeg]

/-- A raise records its kind; the inputs and the slip value stay. -/
@[simp] theorem raiseFault_trip (s : State) (k : FaultKind) :
    (raiseFault s k).trip.faults = addFault (newFault s k) s.trip.faults ∧ (raiseFault s k).trip.inputs = s.trip.inputs ∧
    (raiseFault s k).trip.slipUnderlying = s.trip.slipUnderlying ∧
    (raiseFault s k).trip.sampleTimer = s.trip.sampleTimer := by
  simp only [raiseFault]
  split <;> simp [recordFault]

/-- A raise leaves the last console demand. -/
@[simp] theorem raiseFault_last (s : State) (k : FaultKind) : (raiseFault s k).lim.last = s.lim.last := by
  simp only [raiseFault]
  split <;> simp

/-- The run state a raise leads to. -/
@[simp] theorem raiseFault_run (s : State) (k : FaultKind) :
    (raiseFault s k).leg.run = (actionTarget (s.response k).action s.leg.run).getD s.leg.run := by
  simp only [raiseFault]
  split <;> simp

/-- A raise whose action moves nothing leaves the Leg Controller, the envelope, the Demand Limiter and Port B. -/
theorem raiseFault_of_no_target {s : State} {k : FaultKind} (h : actionTarget (s.response k).action s.leg.run = none) :
    (raiseFault s k).leg = s.leg ∧ (raiseFault s k).env = s.env ∧ (raiseFault s k).lim = s.lim ∧
    (raiseFault s k).portB = s.portB ∧ (raiseFault s k).trip = (recordFault s k).trip := by
  simp only [raiseFault]
  split <;> simp [applyAction, h]

/-- A raise that moves the run state from any state but ARMED changes the leg as a change of the run state does. -/
theorem raiseFault_leg {s : State} {k : FaultKind} {new : RunState} (h : actionTarget (s.response k).action s.leg.run = some new)
    (ha : s.leg.run ≠ .armed) : (raiseFault s k).leg = legInState s new := by
  simp only [raiseFault]
  split <;> simp [applyAction, h, ha, legInState, recordFault, State.line]

/-- A raise keeps the leg's number, direction, end place, target, freeze, split, mismatch flags and Stop Log. -/
theorem raiseFault_legKept (s : State) (k : FaultKind) :
    (raiseFault s k).leg.number = s.leg.number ∧ (raiseFault s k).leg.dir = s.leg.dir ∧
    (raiseFault s k).leg.endPlace = s.leg.endPlace ∧ (raiseFault s k).leg.rStar = s.leg.rStar ∧
    (raiseFault s k).leg.frozen = s.leg.frozen ∧ (raiseFault s k).leg.split = s.leg.split ∧
    (raiseFault s k).leg.mismatchA = s.leg.mismatchA ∧ (raiseFault s k).leg.mismatchB = s.leg.mismatchB ∧
    (raiseFault s k).leg.log = s.leg.log ∧ (raiseFault s k).leg.lastRecord = s.leg.lastRecord := by
  simp only [raiseFault, applyAction]
  repeat' split
  all_goals simp [endLeg, legInState]

end Sys2Proof.Machine
end

