-- ==== Sys2Proof/Laws/Lists.lean ====
section
/-! SUPPORT. The Restriction Lists change at a derivation alone: every operation in the wake of an update or a raise leaves them. -/

namespace Sys2Proof.Machine

/-- The Restriction Lists of two states are the same. -/
def sameLists (s t : State) : Prop := t.env.uphill = s.env.uphill ∧ t.env.downhill = s.env.downhill

theorem sameLists_refl (s : State) : sameLists s s := ⟨rfl, rfl⟩

theorem sameLists_trans {s t u : State} (h : sameLists s t) (k : sameLists t u) : sameLists s u :=
  ⟨k.1.trans h.1, k.2.trans h.2⟩

theorem sameLists_of_env {s t : State} (h : t.env = s.env) : sameLists s t := by simp [sameLists, h]

theorem recompute_lists (s : State) : sameLists s (recompute s) := ⟨rfl, rfl⟩

theorem endLeg_lists (s : State) : sameLists s (endLeg s) := ⟨rfl, rfl⟩

theorem changeState_lists (s : State) (new : RunState) (c : StateCause) (k : Nat) : sameLists s (changeState s new c k) :=
  sameLists_of_env (by simp)

theorem raiseFault_lists (s : State) (k : FaultKind) : sameLists s (raiseFault s k) := by
  simp only [raiseFault, applyAction]
  repeat' split
  all_goals simp [sameLists, endLeg, recompute, formEnvelope]

theorem raiseIf_lists (s : State) (b : Bool) (k : FaultKind) : sameLists s (raiseIf s b k) := by
  simp only [raiseIf]
  split
  · exact raiseFault_lists s k
  · exact sameLists_refl s

theorem speedTests_lists (s : State) : sameLists s (speedTests s) := by
  have h : ∀ (l : List FaultKind) (t : State), sameLists t (l.foldl raiseFault t) := by
    intro l
    induction l with
    | nil => exact sameLists_refl
    | cons k l ih => exact fun t => sameLists_trans (raiseFault_lists t k) (ih _)
  exact h _ s

theorem relatch_lists (s : State) : sameLists s (relatch s) := ⟨rfl, rfl⟩

theorem creepEntry_lists (s : State) : sameLists s (creepEntry s) := by
  have h : sameLists s (changeState (recompute (s.setLeg { computeTarget s with frozen := true })) .creep .creepDistance 0) :=
    sameLists_trans (t := recompute (s.setLeg { computeTarget s with frozen := true })) ⟨rfl, rfl⟩ (changeState_lists _ _ _ _)
  simp only [creepEntry]
  split
  · exact sameLists_trans h (raiseFault_lists _ _)
  · exact sameLists_trans h (raiseIf_lists _ _ _)

theorem testPassages_lists (s : State) : sameLists s (testPassages s) := by
  have h : ∀ t : State, sameLists t (testCreep t) := by
    intro t
    simp only [testCreep]
    split
    · exact creepEntry_lists t
    · exact sameLists_refl t
  simp only [testPassages]
  repeat' split
  · exact sameLists_trans (changeState_lists _ _ _ _) (h _)
  · exact sameLists_refl s
  · exact h s
  · exact sameLists_refl s

theorem setPermit_lists (s : State) (c : Car) (x : Bool) : sameLists s (setPermit s c x) := by cases c <;> exact ⟨rfl, rfl⟩

theorem evaluatePermits_lists (s : State) : sameLists s (evaluatePermits s) := by
  have h : ∀ (t : State) (c : Car), sameLists t (evaluatePermit t c) := by
    intro t c
    have hm : ∀ x : Bool, sameLists t (setMismatch t c x) := fun x => by cases c <;> exact ⟨rfl, rfl⟩
    simp only [evaluatePermit]
    split
    · split
      · exact setPermit_lists _ _ _
      · exact sameLists_trans (hm false) (setPermit_lists _ _ _)
      · split
        · exact setPermit_lists _ _ _
        · exact sameLists_trans (sameLists_trans (hm true) (raiseFault_lists _ _)) (setPermit_lists _ _ _)
      · exact setPermit_lists _ _ _
    · exact sameLists_refl t
  exact sameLists_trans (h s .a) (h _ .b)

theorem legUpdate_lists (s : State) (u : Update) : sameLists s (legUpdate s u) := by
  have h : ∀ t : State, sameLists t (if overruns t then raiseFault t .overrun else testPassages t) := by
    intro t
    split
    · exact raiseFault_lists _ _
    · exact testPassages_lists t
  have k : sameLists s (if s.leg.run = .approach && decide (u = .carReport) then relatch s else s) := by
    split
    · exact relatch_lists s
    · exact sameLists_refl s
  simp only [legUpdate]
  split
  · exact sameLists_trans k (h _)
  · exact sameLists_trans k (h _)
  · exact sameLists_trans k (h _)
  · exact evaluatePermits_lists s
  · exact sameLists_refl s

/-- A position update leaves both lists. -/
theorem positionUpdate_lists (s : State) (u : Update) : sameLists s (positionUpdate s u) := by
  simp only [positionUpdate]
  refine sameLists_trans ?_ (legUpdate_lists _ _)
  split
  · exact sameLists_trans (recompute_lists s) (speedTests_lists _)
  · exact recompute_lists s

/-- The Position Estimator's part of an activation leaves both lists. -/
theorem activateEstimator_lists (s : State) (old : LineConstants) : sameLists s (activateEstimator s old) := by
  have h : sameLists s (s.setEst (activatedEstimate s old)) := ⟨rfl, rfl⟩
  simp only [activateEstimator]
  exact sameLists_trans (sameLists_trans (sameLists_trans h (raiseIf_lists _ _ _)) (raiseIf_lists _ _ _))
    (positionUpdate_lists _ _)

end Sys2Proof.Machine
end

