-- ==== Sys2Proof/Laws/Outcome.lean ====
section
/-! SUPPORT. How a command's effect becomes an outcome: the end of every command but a reset, the queue's front, and the parts a port is. -/

namespace Sys2Proof.Machine

/-! ## The end of a command -/

/-- Without a pending restart nothing is settled. -/
theorem settle_of_no_restart {s : State} {x : Option StrapLevels} (h : s.resp.restartPending = false) : settle s x = s := by simp [settle, h]

/-- While a port holds the RESTART reply nothing is settled. -/
theorem settle_of_held {s : State} {x : Option StrapLevels} (h : s.portA.holdsRestart = true ∨ s.portB.holdsRestart = true) :
    settle s x = s := by
  rcases h with h | h <;> simp [settle, h]

/-- A pending restart whose reply no port holds is the RESTART reset. -/
theorem settle_of_due {s : State} {x : Option StrapLevels} (h : s.resp.restartPending = true) (ha : s.portA.holdsRestart = false)
    (hb : s.portB.holdsRestart = false) :
    settle s x = resetPart .restart (s.straps.reread x) s := by simp [settle, h, ha, hb]

/-- Settling is nothing or the RESTART reset. -/
theorem settle_cases (s : State) (x : Option StrapLevels) :
    settle s x = s ∨ s.resp.restartPending = true ∧ s.portA.holdsRestart = false ∧ s.portB.holdsRestart = false ∧
      settle s x = resetPart .restart (s.straps.reread x) s := by
  unfold settle
  split
  · rename_i h
    simp only [Bool.and_eq_true, Bool.not_eq_true'] at h
    exact Or.inr ⟨h.1.1, h.1.2, h.2, rfl⟩
  · exact Or.inl rfl

/-- A reset leaves the queue of commands. -/
@[simp] theorem resetPart_pending (k : ResetKind) (x : Straps) (s : State) : (resetPart k x s).pending = s.pending := by
  simp only [resetPart]
  split <;> simp [beginLoad, resetBlocks]

/-- Settling leaves the queue of commands. -/
@[simp] theorem settle_pending (s : State) (x : Option StrapLevels) : (settle s x).pending = s.pending := by
  rcases settle_cases s x with h | ⟨_, _, _, h⟩ <;> rw [h]
  simp

/-- While a reset waits for the block under way a command has no effect. -/
theorem taken_finishing {s : State} {x : Option StrapLevels} (f : State → State) (h : s.phase = .finishing) :
    taken s f x = .next s := by simp [taken, h]

/-- A command is taken and then settled. -/
theorem taken_settled {s : State} {x : Option StrapLevels} (f : State → State) (h : s.phase ≠ .finishing) :
    taken s f x = .next (settle (f s) x) := by
  simp [taken, h]

/-- Where no restart is pending after it a command's effect is the outcome. -/
theorem taken_next {s : State} {x : Option StrapLevels} (f : State → State) (h : s.phase ≠ .finishing)
    (hr : (f s).resp.restartPending = false) : taken s f x = .next (f s) := by rw [taken_settled f h, settle_of_no_restart hr]

/-- The same for an effect that leaves the Responder. -/
theorem taken_frame {s : State} {x : Option StrapLevels} (f : State → State) (h : s.phase ≠ .finishing)
    (hs : s.resp.restartPending = false) (hf : (f s).resp = s.resp) : taken s f x = .next (f s) := taken_next f h (by rw [hf, hs])

/-- Every command but a reset answers a next state and leaves the queue, its effect leaving it. -/
theorem taken_total {s : State} {x : Option StrapLevels} (f : State → State) (hf : (f s).pending = s.pending) :
    ∃ t, taken s f x = .next t ∧ t.pending = s.pending := by
  by_cases h : s.phase = .finishing
  · exact ⟨s, taken_finishing f h, rfl⟩
  · exact ⟨_, taken_settled f h, by simp [hf]⟩

/-! ## Resets -/

/-- A reset with no block being programmed, part by part. -/
theorem resetPart_free {s : State} (h : s.tables.programming = none) (k : ResetKind) (x : Straps) :
    resetPart k x s =
      { resetBlocks k x s with tables := { resetTables k s.tables with valid := false }, phase := .loading } := by
  have h' : (resetBlocks k x s).tables.programming = none := h
  simp only [resetPart, h']
  rfl

/-- A reset with a block being programmed waits for its end. -/
theorem resetPart_busy {s : State} {p : Programming} (h : s.tables.programming = some p) (k : ResetKind) (x : Straps) :
    resetPart k x s = { resetBlocks k x s with phase := .finishing } := by
  have h' : (resetBlocks k x s).tables.programming = some p := h
  simp only [resetPart, h']
  rfl

/-- Source Records after POR and RST. -/
theorem resetSources_cleared {k : ResetKind} (h : k ≠ .restart) (v : Vector SourceRecord 16) :
    resetSources k v = Vector.replicate 16 (SourceRecord.fresh SourceCounters.zero) := by
  apply Vector.ext
  intro i hi
  cases k <;> simp_all [resetSources, keptAtRestart]

/-- What a RESTART reset reads of the state: two states that agree there are reset alike. -/
theorem resetBlocks_restart_congr {s t : State} (x : Straps) (hq : t.pending = s.pending) (hp : t.phase = s.phase)
    (ht : t.tables = s.tables) (hs : t.sources = s.sources) (hu : t.env = s.env) (hl : t.leg = s.leg)
    (hf : t.trip.faults = s.trip.faults) (ha : t.portA.counters = s.portA.counters)
    (hb : t.portB.counters = s.portB.counters) : resetBlocks .restart x t = resetBlocks .restart x s := by
  simp only [resetBlocks, resetTables, resetSources, resetPort, clearedAtPor, keptAtRestart, hq, hp, ht, hs, hu, hl, hf, ha, hb]

/-! ## The step -/

/-- A step on a queue with a command at its front. -/
theorem step_front {s : State} {c : Instr} {rest : List Instr} (h : s.pending = c :: rest) :
    step s = exec c (s.setPending rest) := by simp [step, h]

/-- A step on an empty queue. -/
theorem step_empty {s : State} (h : s.pending = []) : step s = .next (s.setNow (s.now + 1)) := by simp [step, h]

/-! ## Offers -/

/-- The port offered to. -/
theorem offer_port (s : State) (p : PortId) (f : OutFrame) : (s.offer p f).port p = (s.port p).offer s.straps.own f := by
  simp [State.offer]

/-- The other port. -/
theorem offer_other (s : State) (p : PortId) (f : OutFrame) : (s.offer p f).port (otherPort p) = s.port (otherPort p) := by
  simp [State.offer]

@[simp] theorem offer_portA_of_a (s : State) (f : OutFrame) : (s.offer .a f).portA = s.portA.offer s.straps.own f := rfl
@[simp] theorem offer_portB_of_a (s : State) (f : OutFrame) : (s.offer .a f).portB = s.portB := rfl
@[simp] theorem offer_portA_of_b (s : State) (f : OutFrame) : (s.offer .b f).portA = s.portA := rfl
@[simp] theorem offer_portB_of_b (s : State) (f : OutFrame) : (s.offer .b f).portB = s.portB.offer s.straps.own f := rfl

/-- A notice goes to Port A. -/
theorem notify_portA (s : State) (n : Notice) : (notify s n).portA = s.portA.offer s.straps.own (.notice s.noticeAddress n) := rfl

/-- An offer keeps the receiver of the port. -/
@[simp] theorem port_offer_rx (p : Port) (own : Byte) (f : OutFrame) : (p.offer own f).rx = p.rx := by
  unfold Port.offer
  split
  · cases f <;> rfl
  · split <;> rfl

end Sys2Proof.Machine
end

