-- ==== Sys2Proof/WellFormed.lean ====
section
/-! DEFINITION. Which operands a command can carry: a request's source is a line address (R160), its payload is one frame's (R160, R162),
and what a faulty block holds is no longer than the longest block (R179). -/

namespace Sys2Proof

/-- A source address of a frame: 0..62 (R160). -/
def goodSource (src : Byte) : Bool := decide (src.toNat ≤ 62)

/-- A payload that fails the form step and fits a frame (R160, R162). -/
def goodUnknown (payload : List Byte) : Bool :=
  decide (payload.length ≤ Config.maxPayload) && (Machine.parseRequest payload).isNone

/-- The entry of a TABLE WRITE: of the length its table and index name, and within one frame (R162). -/
def goodEntry (table index : Byte) (entry : List Byte) : Bool :=
  Machine.entryFits table index entry && decide (entry.length + 3 ≤ Config.maxPayload)

/-- What a faulty block holds: no longer than the longest block, 515 bytes (R179). -/
def goodFault (fault : Option (List Byte)) : Bool := decide ((fault.getD []).length ≤ 515)

/-- The source address of a request, if the command is one. -/
def Instr.source? : Instr → Option Byte
  | .statusRead _ src | .faultsRead _ src _ _ | .resetTrip _ src | .makeReady _ src | .armLeg _ src _ _ | .disarm _ src
  | .stopLogRead _ src _ | .countersRead _ src _ _ | .tableRead _ src _ _ _ | .tableWrite _ src _ _ _ | .commit _ src
  | .verify _ src _ _ | .maintenanceRequest _ src | .maintenanceConfirm _ src _ | .leaveMaintenance _ src | .restart _ src
  | .unknownCommand _ src _ => some src
  | _ => none

/-- A command's operands beside its source are ones it can carry. -/
def Instr.operandsOk : Instr → Bool
  | .tableWrite _ _ table index entry => goodEntry table index entry
  | .unknownCommand _ _ payload => goodUnknown payload
  | .blockProgrammed fault | .resetBlockFinished fault => goodFault fault
  | _ => true

/-- A well-formed command. -/
def Instr.wellFormed (i : Instr) : Bool := goodSource (i.source?.getD 0) && i.operandsOk

end Sys2Proof
end

