-- ==== Sys2Proof/Laws/PerInstr.lean ====
section
/-! SUPPORT. What holds of each well-formed command as it is written: a request's source is a line address (R160). -/

namespace Sys2Proof.Laws.RequestSource

/-- A well-formed command that is a request comes from an address 0..62. -/
def Statement (i : Instr) : Prop := i.wellFormed = true → ∀ src, i.source? = some src → src.toNat ≤ 62

/-- The statement from the check of the source. -/
theorem of_wellFormed (i : Instr) : Statement i := by
  intro h src hs
  simp only [Instr.wellFormed, hs, Option.getD_some, goodSource, Bool.and_eq_true, decide_eq_true_eq] at h
  exact h.1

theorem powerOnReset (addrStraps : BitVec 6) (rateStraps : BitVec 2) :
    Statement (.powerOnReset addrStraps rateStraps) := of_wellFormed _
theorem rst (addrStraps : BitVec 6) (rateStraps : BitVec 2) : Statement (.rst addrStraps rateStraps) := of_wellFormed _
theorem startUpLoadComplete : Statement .startUpLoadComplete := of_wellFormed _
theorem receiveCharacter (event : PortEvent) (byte : Byte) (mark stopGood : Bool) :
    Statement (.receiveCharacter event byte mark stopGood) := of_wellFormed _
theorem lineBreak (port : PortId) : Statement (.lineBreak port) := of_wellFormed _
theorem statusRead (port : PortId) (src : Byte) : Statement (.statusRead port src) := of_wellFormed _
theorem faultsRead (port : PortId) (src firstKind form : Byte) :
    Statement (.faultsRead port src firstKind form) := of_wellFormed _
theorem resetTrip (port : PortId) (src : Byte) : Statement (.resetTrip port src) := of_wellFormed _
theorem makeReady (port : PortId) (src : Byte) : Statement (.makeReady port src) := of_wellFormed _
theorem armLeg (port : PortId) (src direction place : Byte) : Statement (.armLeg port src direction place) := of_wellFormed _
theorem disarm (port : PortId) (src : Byte) : Statement (.disarm port src) := of_wellFormed _
theorem stopLogRead (port : PortId) (src index : Byte) : Statement (.stopLogRead port src index) := of_wellFormed _
theorem countersRead (port : PortId) (src selector clear : Byte) :
    Statement (.countersRead port src selector clear) := of_wellFormed _
theorem tableRead (port : PortId) (src table index copy : Byte) :
    Statement (.tableRead port src table index copy) := of_wellFormed _
theorem tableWrite (port : PortId) (src table index : Byte) (entry : List Byte) :
    Statement (.tableWrite port src table index entry) := of_wellFormed _
theorem commit (port : PortId) (src : Byte) : Statement (.commit port src) := of_wellFormed _
theorem verify (port : PortId) (src first count : Byte) : Statement (.verify port src first count) := of_wellFormed _
theorem maintenanceRequest (port : PortId) (src : Byte) : Statement (.maintenanceRequest port src) := of_wellFormed _
theorem maintenanceConfirm (port : PortId) (src : Byte) (echo : BitVec 16) :
    Statement (.maintenanceConfirm port src echo) := of_wellFormed _
theorem leaveMaintenance (port : PortId) (src : Byte) : Statement (.leaveMaintenance port src) := of_wellFormed _
theorem restart (event : PortEvent) (src : Byte) : Statement (.restart event src) := of_wellFormed _
theorem unknownCommand (port : PortId) (src : Byte) (payload : List Byte) :
    Statement (.unknownCommand port src payload) := of_wellFormed _
theorem lateTimerExpiry (index : Fin 16) : Statement (.lateTimerExpiry index) := of_wellFormed _
theorem generationTimerExpiry : Statement .generationTimerExpiry := of_wellFormed _
theorem stationaryTimerExpiry : Statement .stationaryTimerExpiry := of_wellFormed _
theorem brakeReleaseTimerExpiry : Statement .brakeReleaseTimerExpiry := of_wellFormed _
theorem qualificationSample (raw : RawInputs) : Statement (.qualificationSample raw) := of_wellFormed _
theorem slipBlankingTimerExpiry : Statement .slipBlankingTimerExpiry := of_wellFormed _
theorem transmitEnd (event : PortEvent) : Statement (.transmitEnd event) := of_wellFormed _
theorem blockProgrammed (fault : Option (List Byte)) : Statement (.blockProgrammed fault) := of_wellFormed _
theorem verifyBlockRead : Statement .verifyBlockRead := of_wellFormed _
theorem resetBlockFinished (fault : Option (List Byte)) : Statement (.resetBlockFinished fault) := of_wellFormed _

end Sys2Proof.Laws.RequestSource
end

