-- ==== Sys2Proof/Laws/Requests.lean ====
section
/-! SUPPORT. How a request comes to its own step, and the relation between parts left alone and states. -/

namespace Sys2Proof.Machine

/-! ## The steps of a request (R165) -/

/-- A request that nothing answers before its own step is served there. -/
theorem takeRequest_of_servable {s : State} {src : Byte} {r : Request} (h : servable s src r) (p : PortId) :
    takeRequest s p src r = serve s p src r := by
  obtain ⟨⟨hp, hr⟩, hq, hc, hn⟩ := h
  have hb : startUpBusy s r = false := by simp [startUpBusy, hp, hr]
  have hf : takeRequest s p src r = serveFrom s p src r := by simp [takeRequest, hb, hq]
  rw [hf]
  have h1 : (r.stateChanging && !sourceAllowed s src) = false := by
    cases hs : r.stateChanging
    · rfl
    · have := hc hs
      rcases this with h | h <;> simp [sourceAllowed, h]
  have h2 : (r.needsStore && s.resp.op.inFlight) = false := by
    cases hs : r.needsStore
    · rfl
    · simp [hn hs]
  simp [serveFrom, h1, h2]

/-- A command that is the taking of a servable request. -/
theorem taken_of_servable {s : State} {x : Option StrapLevels} {src : Byte} {r : Request} (h : servable s src r) (p : PortId)
    (hr : (serve s p src r).resp.restartPending = false) :
    taken s (fun t => takeRequest t p src r) x = .next (serve s p src r) := by
  have hp : s.phase ≠ .finishing := by simp [h.1.1]
  rw [taken_next _ hp] <;> rw [takeRequest_of_servable h p]
  exact hr

/-- A reply is what `answered` says. -/
theorem answer_eq (s : State) (p : PortId) (src : Byte) (r : Request) (rc : ReplyCode) (bs : List Byte) :
    answer s p src r rc bs = answered s p src r.code rc bs := rfl

/-- A payload that spells a request takes that request. -/
theorem takePayload_of_parsed {payload : List Byte} {r : Request} (h : parseRequest payload = some r) (s : State) (p : PortId)
    (src : Byte) : takePayload s p src payload = takeRequest s p src r := by simp [takePayload, h]

/-! ## Parts left alone -/

theorem unchangedBut_refl (l : List Part) (s : State) : unchangedBut l s s := fun p _ => by cases p <;> rfl

theorem unchangedBut_trans {l m : List Part} {s t u : State} (h : unchangedBut l s t) (k : unchangedBut m t u) :
    unchangedBut (l ++ m) s u := by
  intro p hp
  simp only [List.mem_append, not_or] at hp
  have h1 := h p hp.1
  have h2 := k p hp.2
  cases p <;> simp_all [Part.same]

theorem unchangedBut_mono {l m : List Part} {s t : State} (h : unchangedBut l s t) (k : l ⊆ m) : unchangedBut m s t :=
  fun p hp => h p fun hl => hp (k hl)

/-- A raise writes the Leg Controller, the Trip Unit, the envelope, the Demand Limiter and the ports alone. -/
theorem raiseFault_unchangedBut (s : State) (k : FaultKind) :
    unchangedBut [.leg, .trip, .env, .lim, .portA, .portB] s (raiseFault s k) := by
  intro p hp
  cases p <;> simp at hp <;> simp [Part.same]

end Sys2Proof.Machine
end

