-- ==== Sys2Proof/Laws/Store.lean ====
section
/-! SUPPORT. What a block can hold at its end, the stores that no load accepts, and the strap levels a RESTART reset reads. -/

namespace Sys2Proof.Machine

/-- What was written can always be held. -/
@[simp] theorem canHold_written (t : Tables) (p : Programming) : canHold t p p.bytes = true := by simp [canHold]

/-- What was written can always be held at the end of a reset. -/
@[simp] theorem canFinish_written (t : Tables) (p : Programming) : canFinish t p p.bytes = true := by simp [canFinish]

/-- A block can hold what was written or what a failed write leaves. -/
theorem canHold_iff (t : Tables) (p : Programming) (held : List Byte) :
    canHold t p held = true ↔ held = p.bytes ∨ leftByFailedWrite t p held := by
  unfold canHold leftByFailedWrite allMatch
  by_cases h : held = p.bytes
  · simp [h]
  · by_cases hb : p.block = 0
    · cases hg : headerGood held <;> simp [h, hb]
    · simp [h, hb]

/-- A block that a reset lets finish carries the new generation. -/
theorem canFinish_iff (t : Tables) (p : Programming) (held : List Byte) :
    canFinish t p held = true ↔
      held = p.bytes ∨ (leftByFailedWrite t p held ∧ (p.block ≠ 0 → held.take 2 = p.bytes.take 2)) := by
  simp only [canFinish, Bool.and_eq_true, canHold_iff, Bool.or_eq_true, decide_eq_true_eq]
  by_cases hb : p.block = 0
  · simp [hb]
  · by_cases hh : held = p.bytes <;> simp [hb, hh]

/-- A load fails where the header fails its own check or some block does not match it. -/
theorem loadFails_of_mismatch {h : List Byte} {b : Vector (List Byte) 5} (k : Fin 5)
    (hm : headerGood h = true → blockMatches h (k.val + 1) b[k] = false) : loadFails h b := by
  intro s hp hr hh hb
  have hj : (judgeLoad s.straps.own s.tables.header s.tables.blocks).2 = none := by
    unfold judgeLoad
    rw [hh, hb]
    cases hg : headerGood h
    · simp
    · have : allMatch h b = false := by
        unfold allMatch
        rw [List.all_eq_false]
        exact ⟨k, List.mem_finRange k, by simpa using hm hg⟩
      simp [this]
  refine ⟨loadDecides s, ?_, ?_⟩
  · simp only [exec, execStartUpLoadComplete]
    rw [taken_next _ (by simp [hp])]
    · simp [hp]
    · simp only [hp, if_true]
      simp [hr]
  · unfold loadDecides
    simp only [hj]
    simp

/-- The pins as the last reset left them are read again. -/
@[simp] theorem reread_none (x : Straps) : x.reread none = Straps.read x.addrPins x.ratePins := rfl

/-- Levels changed since the last reset are read. -/
@[simp] theorem reread_some (x : Straps) (l : StrapLevels) : x.reread (some l) = Straps.read l.addr l.rate := rfl

end Sys2Proof.Machine
end

