-- ==== Sys2Proof/Laws/Tracker.lean ====
section
/-! SUPPORT. What the update of a Source Record and a speed update write, and the operations that leave the encoder baseline and the last console demand. -/

namespace Sys2Proof.Machine

/-- An update writes its record and no other. -/
theorem updateRecord_sources (s : State) (i : Fin 16) (r : SourceRecord) (c : SourceCause) :
    (updateRecord s i r c).sources = s.sources.set i r := by
  have key : ∀ (t : State) (r : Role) (x : SyncState), (syncChanged t r x).sources = t.sources := by intro t r x; simp
  simp only [updateRecord, setRecord]
  split
  · rfl
  · rw [key]; simp

/-- A position update leaves the estimator; so an update of a record leaves the encoder baseline. -/
theorem updateRecord_baseline (s : State) (i : Fin 16) (r : SourceRecord) (c : SourceCause) :
    (updateRecord s i r c).est.baseline = s.est.baseline := by
  simp only [updateRecord, setRecord]
  split
  · rfl
  · simp only [syncChanged]
    split <;> try simp
    · simp only [refreshDegraded]; split <;> split <;> simp [markAged]
    · simp only [refreshDegraded]; split <;> split <;> simp [markAged]
    · split <;> (try split) <;> simp

@[simp] theorem testPassages_last (s : State) : (testPassages s).lim.last = s.lim.last := by
  have h1 : ∀ s : State, (testCreep s).lim.last = s.lim.last := by
    intro s; simp only [testCreep, creepEntry, raiseIf]; repeat' split
    all_goals simp
  simp only [testPassages]; repeat' split
  all_goals simp [h1]

@[simp] theorem testBrakesOpen_last (s : State) : (testBrakesOpen s).lim.last = s.lim.last := by
  simp only [testBrakesOpen]; split <;> simp

@[simp] theorem evaluatePermits_last (s : State) : (evaluatePermits s).lim.last = s.lim.last := by
  have h1 : ∀ (s : State) (c : Car), (evaluatePermit s c).lim.last = s.lim.last := by
    intro s c; simp only [evaluatePermit]; repeat' split
    all_goals simp
  simp [evaluatePermits, h1]

@[simp] theorem positionUpdate_last (s : State) (u : Update) : (positionUpdate s u).lim.last = s.lim.last := by
  have sp : ∀ (l : List FaultKind) (s : State), (l.foldl raiseFault s).lim.last = s.lim.last := by
    intro l; induction l <;> intro s <;> simp_all
  have lu : ∀ s : State, (legUpdate s u).lim.last = s.lim.last := by
    intro s; simp only [legUpdate]
    split <;> try (split <;> split <;> simp [relatch])
    · simp
    · rfl
  simp only [positionUpdate, lu, speedTests]; split <;> simp [sp]

/-- An update of a record leaves the last console demand. -/
@[simp] theorem updateRecord_last (s : State) (i : Fin 16) (r : SourceRecord) (c : SourceCause) :
    (updateRecord s i r c).lim.last = s.lim.last := by
  simp only [updateRecord, setRecord]
  split
  · rfl
  · simp only [syncChanged]
    split <;> try simp
    · simp only [refreshDegraded]; split <;> split <;> simp [markAged]
    · simp only [refreshDegraded]; split <;> split <;> simp [markAged]
    · split <;> (try split) <;> simp

/-- A speed update judges the timer with the speed it leaves, takes the stationary time in force and leaves the rest of the estimator. -/
theorem judgeStationary_eq (s : State) (e : Estimator) :
    judgeStationary s e = { e with statTimer := stationaryTimer s e.v, statTime := s.line.stationaryTime } := rfl

@[simp] theorem judgeStationary_real (s : State) (e : Estimator) : (judgeStationary s e).real = e.real := rfl
@[simp] theorem judgeStationary_coast (s : State) (e : Estimator) : (judgeStationary s e).coast = e.coast := rfl
@[simp] theorem judgeStationary_v (s : State) (e : Estimator) : (judgeStationary s e).v = e.v := rfl
@[simp] theorem judgeStationary_dir (s : State) (e : Estimator) : (judgeStationary s e).dir = e.dir := rfl
@[simp] theorem judgeStationary_baseline (s : State) (e : Estimator) : (judgeStationary s e).baseline = e.baseline := rfl
@[simp] theorem judgeStationary_offA (s : State) (e : Estimator) : (judgeStationary s e).offA = e.offA := rfl
@[simp] theorem judgeStationary_offB (s : State) (e : Estimator) : (judgeStationary s e).offB = e.offB := rfl
@[simp] theorem judgeStationary_degraded (s : State) (e : Estimator) : (judgeStationary s e).degraded = e.degraded := rfl
@[simp] theorem judgeStationary_statTimer (s : State) (e : Estimator) : (judgeStationary s e).statTimer = stationaryTimer s e.v := rfl
@[simp] theorem judgeStationary_statTime (s : State) (e : Estimator) : (judgeStationary s e).statTime = s.line.stationaryTime := rfl

end Sys2Proof.Machine
end

