-- ==== Sys2Proof/Tests/Slice0.lean ====
section
/-! SUPPORT. Tests on fixed values: the checks of WellFormed, the manual's worked figures, commands on a small line, and for every statement with
hypotheses a state and operands that meet them. -/

namespace Sys2Proof.Tests

open Sys2Proof.Machine

-- One theorem after another: many kernel evaluations at once need a stack each.
set_option Elab.async false

/-! ## A line: the set of the Worked Runs -/

/-- The Line Constants of the Worked Runs. -/
def lineSet : LineConstants :=
  { blankLine with
    lineLength := 2600000, ropeSum := 2500000, encoderScale := 250, vMax := 9000, vTrip := 11000, vDegraded := 4000
    brakingMargin := 2000, aStop := 500, serviceDecel := 800, warnMargin := 300, serviceMargin := 500, emergencyMargin := 800
    approachDistance := 150000, creepDistance := 5000, creepSpeed := 300, overrunTolerance := 100, stationaryThreshold := 50
    stationaryTime := 500, brakeReleaseTimeout := 3000, offsetSlew := 200, disagreementLimit := 1000, stretchLimit := 3000
    tensionMin := 10, tensionMax := 40000, slipStep := 1000, slipTime := 300 }

/-- Nine sources, CONSOLE at index 8. -/
def sourceList : List SourceEntry :=
  [⟨5, .encoder, 20, 3⟩, ⟨21, .carAPosition, 100, 2⟩, ⟨22, .carBPosition, 100, 2⟩, ⟨23, .carADoors, 500, 0⟩,
   ⟨24, .carBDoors, 500, 0⟩, ⟨25, .tension, 800, 0⟩, ⟨26, .loopDetector, 800, 0⟩, ⟨30, .drive, 800, 0⟩, ⟨2, .console, 100, 2⟩]

/-- Five segments. -/
def segmentList : List Segment :=
  [⟨0, 8000, 1000, .terminal⟩, ⟨60000, 8000, 1000, .plain⟩, ⟨1200000, 8000, 1000, .platform⟩, ⟨1300000, 8000, 1000, .plain⟩,
   ⟨2450000, 8000, 1000, .terminal⟩]

/-- The table set of the line. -/
def exampleSet : TableSet :=
  { blankSet with
    line := lineSet
    sources := { entries := Vector.ofFn fun i => sourceList.getD i.val blankSource, count := 9 }
    profile := { segs := Vector.ofFn fun i => segmentList.getD i.val blankSegment, count := 5 }
    places :=
      { bottom := ⟨⟨20000, 20300, 20600⟩, ⟨2479400, 2479700, 2480000⟩, .a⟩
        loop := ⟨⟨1250000, 1250300, 1250600⟩, ⟨1249700, 1250000, 1250300⟩, .a⟩
        top := ⟨⟨2479000, 2479300, 2479600⟩, ⟨20000, 20300, 20600⟩, .a⟩ } }

/-- The last payloads that let the line depart: doors closed and locked, drive ready, both tracks present. -/
def payloadList : List (List Byte) :=
  [[0, 0, 0, 0, 0, 1], [0, 0, 0, 1], [0, 0, 0, 1], [0], [0], [0, 100], [3], [1], [0, 0, 0]]

/-- A record in SYNC. -/
def synced (payload : List Byte) : SourceRecord :=
  { sync := .sync, baselineHeld := false, expected := 7, subs := 0, timer := some 0, counters := SourceCounters.zero
    lastPayload := some payload }

/-- The part in SAFE on the line, position established at BOTTOM, every source in SYNC, inputs qualified inactive. -/
def base : State :=
  { State.reset with
    phase := .running
    tables := { State.reset.tables with working := exampleSet, valid := true, commitCount := 17 }
    sources := Vector.ofFn fun i =>
      if i.val < 9 then synced (payloadList.getD i.val []) else SourceRecord.fresh SourceCounters.zero
    est := { State.reset.est with real := 20160000, offA := 140, offB := -260, ropeEst := true, offBSet := true }
    trip := { State.reset.trip with
      inputs := { estop := ⟨[], false⟩, otTop := ⟨[], false⟩, otBottom := ⟨[], false⟩, slip := ⟨[], false⟩, brkS := ⟨[], false⟩
                  brkE := ⟨[], false⟩ } } }

/-- The part in another run state. -/
def inRun (r : RunState) : State := { base with leg := { base.leg with run := r, active := r.energized } }

/-- A command's next state; a stop, which no command makes, would leave the state. -/
def after (c : Instr) (s : State) : State :=
  match exec c s with
  | .next t => t
  | _ => s

/-- The counter of a port. -/
def counter (s : State) (p : PortId) (k : PortCounter) : BitVec 16 := (s.port p).counters.get k

/-- The payload on a port's line, past its header and without its check. -/
def linePayload (s : State) (p : PortId) : List Byte :=
  match (s.port p).line with
  | some x => (parseFrame x.bytes).payload
  | none => []

/-- A state with both lines held by a frame under way. -/
def linesHeld (s : State) : State :=
  { s with
    portA := { s.portA with line := some ⟨[0], false⟩ }
    portB := { s.portB with line := some ⟨[0], false⟩ } }

/-- A queue of eight forwarded frames. -/
def fullQueue : List OutFrame := List.replicate 8 (.forwarded [1])

/-- A state with both lines held and both queues full. -/
def queuesFull (s : State) : State :=
  { s with
    portA := { s.portA with line := some ⟨[0], false⟩, queue := fullQueue }
    portB := { s.portB with line := some ⟨[0], false⟩, queue := fullQueue } }

/-- A state with the record at an index replaced. -/
def withRecord (s : State) (i : Fin 16) (r : SourceRecord) : State := { s with sources := s.sources.set i r }

/-- The staged copy in MAINTENANCE. -/
def maintained : State :=
  { inRun .maintenance with resp := { base.resp with staged := some exampleSet } }

/-- A store whose header passes its own check and matches no block: count 0 and checks 0. -/
def stored : Tables := { base.tables with header := withCheck (List.replicate 12 0) }

/-- A COMMIT under way: block `k` being programmed. -/
def committing (k : Fin 6) : State :=
  { maintained with
    tables := { base.tables with programming := some ⟨k, writtenBytes base exampleSet k⟩ }
    resp := { maintained.resp with op := .commit 2 .a exampleSet } }

/-- All six inputs quiet. -/
def quiet : RawInputs := ⟨false, false, false, false, false, false⟩

/-- All six inputs asserted: four active, both brakes open. -/
def asserted : RawInputs := ⟨true, true, true, true, true, true⟩

/-- A fault record. -/
def faultRecord (k : FaultKind) (count : Nat) : FaultRecord :=
  { kind := k, firstTime := 0, stateAtRaise := .run, rMm := 0, aPos := 0, bPos := 0, count := count }

/-- A Stop Record. -/
def aStop : StopRecord :=
  { number := 56, leg := 6, dir := .up, place := .loop, rStar := 0, finalR := 0, error := -5, aPos := 0, bPos := 0
    aInside := true, bInside := true, split := false, degraded := false, outcome := .completed }

/-- A demand of 6,000 mm/s as it waits. -/
def aDemand : Demand :=
  { dst := 30, src := 2, seq := 60, offered := 6000, received := 6000, enable := true, dir := .up, generated := false }

/-- A good frame of the console, of the encoder and of other senders. -/
def frameOf (dst src kind seq : Byte) (payload : List Byte) : RxFrame := parseFrame (frameBytes dst src kind seq payload)

/-! ## WellFormed -/

theorem test_wellFormed_request : (Instr.armLeg .a 2 1 1).wellFormed = true := by decide
theorem test_illFormed_source : (Instr.statusRead .a 63).wellFormed = false := by decide
theorem test_illFormed_entry : (Instr.tableWrite .a 2 1 25 [0, 5]).wellFormed = false := by decide
theorem test_illFormed_longEntry : (Instr.tableWrite .a 2 9 0 (List.replicate 30 0)).wellFormed = false := by decide
theorem test_illFormed_unknown : (Instr.unknownCommand .a 2 [0x04]).wellFormed = false := by decide
theorem test_illFormed_longUnknown : (Instr.unknownCommand .a 2 (List.replicate 33 0xFF)).wellFormed = false := by decide
theorem test_illFormed_programmed : (Instr.blockProgrammed (some (List.replicate 516 0))).wellFormed = false := by
  decide +kernel
theorem test_illFormed_finished : (Instr.resetBlockFinished (some (List.replicate 516 0))).wellFormed = false := by
  decide +kernel

/-! ## The manual's figures -/

/-- The check over the nine bytes 31h to 39h (R151). -/
theorem test_check : crc16 [0x31, 0x32, 0x33, 0x34, 0x35, 0x36, 0x37, 0x38, 0x39] = 0x29B1 := by decide +kernel

/-- isqrt(2 × 500 × 4,960) is 2,227 (Worked Run 1). -/
theorem test_isqrt : isqrt (2 * 500 * 4960) = 2227 := by decide

/-- The set passes the commit checks for a part at address 0. -/
theorem test_checkSet : checkSet 0 exampleSet = none := by decide +kernel

/-- The stop target at LOOP with Off_A 140 and Off_B −260 is 1,249,950 (Worked Run 1). -/
theorem test_stopTarget : stopTarget exampleSet.places.loop 2500000 2600000 140 (-260) = (1249950, false) := by decide

/-! ## One step of each command -/

theorem test_powerOnReset : (after (.powerOnReset 63 2) (inRun .run)).straps.own = 62 ∧
    (after (.powerOnReset 63 2) (inRun .run)).leg.run = .safe ∧ (after (.powerOnReset 63 2) (inRun .run)).phase = .loading := by
  decide +kernel
theorem test_rst : (after (.rst 5 0) base).tables.working = exampleSet ∧ (after (.rst 5 0) base).tables.valid = false := by
  decide +kernel
theorem test_startUpLoadComplete : (after .startUpLoadComplete State.reset).phase = .running ∧
    (after .startUpLoadComplete State.reset).tables.valid = false := by decide +kernel
theorem test_receiveCharacter : (after (.receiveCharacter ⟨.a, none⟩ 63 true true) base).portA.rx = some [63] := by decide +kernel
theorem test_lineBreak :
    counter (after (.lineBreak .a) { base with portA := { base.portA with rx := some [1] } }) .a .aborted = 1 := by decide +kernel
theorem test_statusRead : linePayload (after (.statusRead .b 9) base) .b =
    [0x01, 0, 0, 1, 0, 0x55, 0x55, 0x40, 0x00] ++ toBytes 2 0 ++ toBytes 2 0 ++ toBytes 3 20160 ++ toBytes 3 20300 ++
      toBytes 3 2479580 ++ toBytes 3 0 := by decide +kernel
theorem test_faultsRead : linePayload (after (.faultsRead .a 9 1 0)
    { base with trip := { base.trip with faults := [faultRecord .estop 2] } }) .a = [0x02, 0, 1, 21, 2, 4] := by decide +kernel
theorem test_resetTrip : (after (.resetTrip .a 2)
    { base with trip := { base.trip with faults := [faultRecord .estop 2] } }).trip.faults = [] := by decide +kernel
theorem test_makeReady : (after (.makeReady .a 2) base).leg.run = .ready := by decide +kernel
theorem test_armLeg : (after (.armLeg .a 2 1 1) (inRun .ready)).leg.run = .armed ∧
    (after (.armLeg .a 2 1 1) (inRun .ready)).leg.rStar = 1249950 := by decide +kernel
theorem test_disarm : (after (.disarm .a 2) (inRun .armed)).leg.run = .ready := by decide +kernel
theorem test_stopLogRead : linePayload (after (.stopLogRead .a 9 0) { base with leg := { base.leg with log := [aStop] } }) .a =
    [0x07, 0] ++ stopRecordBytes aStop := by decide +kernel
theorem test_countersRead : linePayload (after (.countersRead .a 9 0x41 1) base) .a = [0x08, 0] ++ List.replicate 19 0 := by
  decide +kernel
theorem test_tableRead : linePayload (after (.tableRead .a 9 1 25 0) base) .a = [0x09, 0, 1, 25, 0, 0, 3] := by decide +kernel
theorem test_tableWrite : (after (.tableWrite .a 2 1 25 [0, 0, 5]) maintained).resp.staged.map (·.line.qualWindow) = some 6 := by
  decide +kernel
theorem test_commit : (after (.commit .a 2) maintained).tables.programming.map (·.block) = some 1 := by decide +kernel
theorem test_verify : (after (.verify .a 9 3 9) { base with tables := stored }).resp.op = .verify 9 .a 3 5 [] := by
  decide +kernel
theorem test_maintenanceRequest : (after (.maintenanceRequest .a 2) base).resp.seq = .pending ∧
    (after (.maintenanceRequest .a 2) base).resp.echo = some 17 := by decide +kernel
theorem test_maintenanceConfirm : (after (.maintenanceConfirm .a 2 17) { base with
    resp := { base.resp with seq := .pending, requester := some 2, echo := some 17 } }).leg.run = .maintenance := by decide +kernel
theorem test_leaveMaintenance : (after (.leaveMaintenance .a 2) maintained).leg.run = .safe := by decide +kernel
theorem test_restart : (after (.restart ⟨.a, none⟩ 2) base).resp.restartPending = true := by decide +kernel
theorem test_unknownCommand : linePayload (after (.unknownCommand .a 9 [0x7F]) base) .a = [0x7F, 13] := by decide +kernel
theorem test_lateTimerExpiry : ((after (.lateTimerExpiry 8) base).record 8).sync = .coast ∧
    ((after (.lateTimerExpiry 8) base).record 8).expected = 8 := by decide +kernel
/-- At an encoder substitute the notice of COAST stands before the notices of what the substitute raises (log 38). -/
theorem test_substituteNoticeFirst :
    (after (.lateTimerExpiry 0) (linesHeld { inRun .run with est := { base.est with v := 12000, dir := .down } })).portA.queue.take 2 =
      [.notice 2 (.sourceState 0 (base.entry 0) .sync .coast .expiry 1),
       .notice 2 (.faultRaised .absoluteOverspeed .emergency .run 1 19920 20060 2479820)] := by decide +kernel
theorem test_generationTimerExpiry : (after .generationTimerExpiry { inRun .serviceStop with
    lim := { base.lim with genTimer := some 0 } }).lim.genTimer = some 100 := by decide +kernel
theorem test_stationaryTimerExpiry : (after .stationaryTimerExpiry { inRun .serviceStop with
    est := { base.est with statTimer := some 0 } }).leg.run = .safe := by decide +kernel
theorem test_brakeReleaseTimerExpiry : (after .brakeReleaseTimerExpiry { inRun .depart with
    leg := { (inRun .depart).leg with brakeTimer := some 0 } }).leg.run = .serviceStop := by decide +kernel
theorem test_qualificationSample : (after (.qualificationSample asserted) { base with
    trip := { base.trip with inputs := { base.trip.inputs with estop := ⟨[true, true], false⟩ } } }).trip.faults.map (·.kind) =
      [.estop] := by decide +kernel
theorem test_slipBlankingTimerExpiry : (after .slipBlankingTimerExpiry { inRun .run with
    trip := { base.trip with slipTimer := some 0, slipUnderlying := true } }).leg.run = .emergencyStop := by decide +kernel
theorem test_transmitEnd : counter (after (.transmitEnd ⟨.b, none⟩) (linesHeld base)) .b .transmitted = 1 := by decide +kernel
theorem test_blockProgrammed : (after (.blockProgrammed none) (committing 5)).tables.programming.map (·.block) = some 0 := by
  decide +kernel
theorem test_verifyBlockRead : (after .verifyBlockRead { base with
    tables := stored, resp := { base.resp with op := .verify 9 .a 4 5 [] } }).resp.op = .verify 9 .a 5 5 [4] := by decide +kernel
theorem test_resetBlockFinished : (after (.resetBlockFinished none) { committing 3 with
    phase := .finishing, resp := Responder.fresh }).phase = .loading := by decide +kernel

/-! ## Strap levels, the stationary time and what a block can hold -/

/-- The RESTART reply on the line of a port, the other port without it. -/
def restarting (p : PortId) : State :=
  { base with resp := { base.resp with restartPending := true } }.setPort p { base.portA with line := some ⟨[0], true⟩ }

/-- A strap changed before a RESTART takes effect at its reset (R148, R149). -/
theorem test_restartReadsTheStraps :
    (after (.transmitEnd ⟨.a, some ⟨63, 2⟩⟩) (restarting .a)).straps = Straps.read 63 2 ∧
    (after (.transmitEnd ⟨.a, none⟩) (restarting .a)).straps = Straps.read 0 0 := by decide +kernel

/-- An expiry after a COMMIT and before the next speed update re-arms by the time of the last update (R62). -/
theorem test_stationaryTimeWaits : (after .stationaryTimerExpiry { base with
    est := { base.est with statTimer := some 0, statTime := 700 } }).est.statTimer = some 700 := by decide +kernel

/-- The next speed update takes the stationary time in force (R62). -/
theorem test_stationaryTimeTaken : (encoderSubstitute { base with est := { base.est with statTime := 700 } } 20).est.statTime = 500 := by
  decide +kernel

/-- A store whose five blocks, all empty, match a header of count 0. -/
def matched : Tables :=
  { base.tables with header := headerBytes 0 (Vector.replicate 5 []), blocks := Vector.replicate 5 [] }

/-- A failed block that would match the old header is no outcome of a write (R182): nothing changes. -/
theorem test_failedBlockMatches : let s := { committing 3 with tables := { matched with programming := some ⟨3, [0]⟩ } }
    after (.blockProgrammed (some [])) s = s ∧ (after (.blockProgrammed (some [1])) s).resp.op = .none := by decide +kernel

/-- A block that a reset lets finish carries the new generation (R184). -/
theorem test_finishedBlockGeneration : let s := { committing 3 with phase := .finishing }
    after (.resetBlockFinished (some [0, 17])) s = s ∧ (after (.resetBlockFinished (some [0, 18])) s).phase = .loading := by
  decide +kernel

/-! ## States that meet the hypotheses: step, resets, load and bytes -/

theorem witness_stepFront :
    ({ base with pending := [.disarm .a 2, .restart ⟨.a, none⟩ 2] } : State).pending = .disarm .a 2 :: [.restart ⟨.a, none⟩ 2] ∧
    base.pending = [] := ⟨rfl, rfl⟩

theorem witness_resetFree : base.tables.programming = none := rfl

/-- A block of another generation than the header's does not match it. -/
theorem mismatch_of_generation {h block : List Byte} (k : Nat) (hg : field block 0 2 ≠ field h 0 2) :
    blockMatches h k block = false := by simp [blockMatches, hg]

theorem witness_resetBusy : (committing 3).tables.programming = some ⟨3, writtenBytes base exampleSet 3⟩ ∧
    ({ committing 3 with phase := .finishing } : State).phase = .finishing ∧
    (committing 0).tables.programming = some ⟨0, writtenBytes base exampleSet 0⟩ := ⟨rfl, rfl, rfl⟩

/-- What a failed write of block 3 can leave, with and without the new generation, and a header that names no block held. -/
theorem witness_failedWrite : let p : Programming := ⟨3, writtenBytes base exampleSet 3⟩
    (leftByFailedWrite base.tables p [0, 18] ∧ ([0, 18] : List Byte).take 2 = p.bytes.take 2 ∧
      field p.bytes 0 2 ≠ field base.tables.header 0 2) ∧
    (([] : List Byte) ≠ p.bytes ∧ ([] : List Byte).take 2 ≠ p.bytes.take 2) ∧
    leftByFailedWrite base.tables ⟨0, [0]⟩ [] := by
  refine ⟨⟨⟨fun _ => mismatch_of_generation 3 (by decide +kernel), fun h => absurd h (by decide)⟩, by decide +kernel,
    by decide +kernel⟩, by decide +kernel, fun h => absurd rfl h, fun _ => .inl (by decide +kernel)⟩

/-- A header that a failed write of block 0 cannot leave: it is good and names the blocks held. -/
theorem witness_impossibleHeader : ¬leftByFailedWrite matched ⟨0, [0]⟩ matched.header := by
  rintro ⟨_, h⟩
  exact absurd (h rfl) (by decide +kernel)

theorem witness_restartReset : ∀ p ∈ [PortId.a, .b], (restarting p).phase ≠ .finishing ∧ (restarting p).resp.restartPending = true ∧
    ((restarting p).port p).line = some ⟨[0], true⟩ ∧ ((restarting p).port p).queue.any OutFrame.isRestart = false ∧
    noRestartReply ((restarting p).port (otherPort p)) ∧ (restarting p).tables.programming = none := by decide +kernel

theorem exampleSet_fits : setFits exampleSet := by
  refine ⟨fun n => ?_, by decide +kernel, by decide, by decide +kernel, by decide, fun p c => ?_⟩
  · by_cases h : n < 29
    · have : ∀ m : Fin 29, exampleSet.line.get m.val < 16777216 := by decide +kernel
      exact this ⟨n, h⟩
    · have : exampleSet.line.get n = 0 := by
        unfold LineConstants.get
        split <;> first | rfl | omega
      omega
  · cases p <;> cases c <;> decide

/-- The start-up load over a store written whole. -/
def loadable : State :=
  { State.reset with
    tables := { State.reset.tables with
      header := headerBytes 17 (writtenBlocks 17 exampleSet), blocks := writtenBlocks 17 exampleSet } }

theorem witness_load : loadable.phase = .loading ∧ loadable.resp.restartPending = false ∧ setFits exampleSet ∧
    checkSet loadable.straps.own exampleSet = none ∧ loadable.tables.blocks = writtenBlocks 17 exampleSet ∧
    loadable.tables.header = headerBytes 17 (writtenBlocks 17 exampleSet) :=
  ⟨rfl, rfl, exampleSet_fits, by decide +kernel, rfl, rfl⟩

theorem witness_failedLoad : State.reset.phase = .loading ∧ State.reset.resp.restartPending = false ∧
    headerGood State.reset.tables.header = false ∧ headerGood stored.header = true ∧
    blockMatches stored.header 1 State.reset.tables.blocks[0] = false ∧
    checkSet State.reset.straps.own (tableSetOf State.reset.tables.blocks) ≠ none :=
  ⟨rfl, rfl, by decide +kernel, by decide +kernel, mismatch_of_generation 1 (by decide +kernel), by decide +kernel⟩

theorem witness_tablesReadBack : setFits exampleSet := exampleSet_fits

theorem witness_requestPayload : ∀ t i e, Request.tableWrite 1 25 [0, 0, 5] = .tableWrite t i e → entryFits t i e = true := by
  intro t i e h
  injection h with h1 h2 h3
  subst h1 h2 h3
  decide

theorem witness_frame : (List.replicate 32 (0 : Byte)).length ≤ 32 ∧ 2 ≤ ([0, 0] : List Byte).length := by decide

/-! ## Receiver, sorter, queues -/

/-- The receiver of Port A holding a partial frame. -/
def receiving (bs : List Byte) : State := { base with portA := { base.portA with rx := some bs } }

theorem witness_receiver : base.phase ≠ .finishing ∧ base.resp.restartPending = false ∧ (base.port .a).rx = none ∧
    ((receiving [0]).port .a).rx = some [0] := by decide +kernel

/-- A whole good frame of seven bytes, and the same with its last byte wrong. -/
theorem witness_append :
    (([0, 2, 3, 9] ++ [33] : List Byte).length = 5 ∧ 32 < (33 : Byte).toNat) ∧
    (¬(([0, 2, 3, 9] ++ [32] : List Byte).length = 5 ∧ 32 < (32 : Byte).toNat) ∧
      ¬(5 ≤ ([0, 2, 3, 9] ++ [32] : List Byte).length ∧
        ([0, 2, 3, 9] ++ [32] : List Byte).length = 7 + field ([0, 2, 3, 9] ++ [32]) 4 1)) ∧
    (let whole := (frameBytes 0 2 3 9 []).take 6 ++ [(frameBytes 0 2 3 9 []).getD 6 0]
     5 ≤ whole.length ∧ whole.length = 7 + field whole 4 1 ∧ ¬(whole.length = 5) ∧ frameGood whole = true) ∧
    (let wrong := (frameBytes 0 2 3 9 []).take 6 ++ [(frameBytes 0 2 3 9 []).getD 6 0 + 1]
     5 ≤ wrong.length ∧ wrong.length = 7 + field wrong 4 1 ∧ ¬(wrong.length = 5) ∧ frameGood wrong = false) ∧
    ((receiving ((frameBytes 0 2 3 9 []).take 6)).port .a).rx = some ((frameBytes 0 2 3 9 []).take 6) := by decide +kernel

theorem witness_sorter : base.straps.own = 0 ∧ base.consoleAddress = some 2 ∧
    ((frameOf 0 2 3 9 [1]).dst = 0 ∧ (frameOf 0 2 3 9 [1]).kind = kindRequest) ∧
    ((frameOf 0 2 1 9 [1]).dst = 0 ∧ (frameOf 0 2 1 9 [1]).kind ≠ kindRequest) ∧
    ((frameOf 30 2 2 9 [0, 0, 0]).dst ≠ 0 ∧ (frameOf 30 2 2 9 [0, 0, 0]).kind = kindDemand ∧
      base.consoleAddress = some (frameOf 30 2 2 9 [0, 0, 0]).src) ∧
    ((frameOf 30 3 2 9 []).dst ≠ 0 ∧ (frameOf 30 3 2 9 []).kind = kindDemand ∧
      base.consoleAddress ≠ some (frameOf 30 3 2 9 []).src) ∧
    ((frameOf 63 40 1 9 [0]).kind = kindSample ∧
      ∀ i : Fin 16, ¬(i.val < base.tables.working.sources.count ∧ (base.entry i).address = (frameOf 63 40 1 9 [0]).src.toNat)) ∧
    ((frameOf 63 2 1 9 [0]).kind = kindSample ∧ (base.entry 8).address = (frameOf 63 2 1 9 [0]).src.toNat ∧
      (base.entry 8).role = .console) ∧
    (base.tables.valid = true ∧ (3 : Fin 16).val < base.tables.working.sources.count ∧
      (base.entry 3).address = (frameOf 63 23 1 9 [0]).src.toNat ∧ (base.entry 3).role ≠ .console ∧
      ∀ j < (3 : Fin 16), (base.entry j).address ≠ (frameOf 63 23 1 9 [0]).src.toNat) ∧
    ((frameOf 63 40 5 9 []).dst ≠ 0 ∧ (frameOf 63 40 5 9 []).kind ≠ kindDemand ∧ (frameOf 63 40 5 9 []).kind ≠ kindSample) := by
  decide +kernel

/-- Port B held by a frame, with a queue. -/
def waitingAtB (q : List OutFrame) : State := { base with portB := { base.portB with line := some ⟨[0], false⟩, queue := q } }

theorem witness_transmitEnd :
    ((linesHeld base).port .a).line = some ⟨[0], false⟩ ∧ ((linesHeld base).port .a).queue = [] ∧
    ((queuesFull base).port .a).queue = .forwarded [1] :: List.replicate 7 (.forwarded [1]) ∧
    ((queuesFull base).port .b).queue.any OutFrame.isDemand = false ∧
    (waitingAtB [.forwarded [1], .demand aDemand, .forwarded [2]]).portB.queue =
      [.forwarded [1]] ++ .demand aDemand :: [.forwarded [2]] ∧
    ([.forwarded [1]] : List OutFrame).any OutFrame.isDemand = false := by decide +kernel

theorem witness_offer :
    (base.portA.queue = [] ∧ base.portA.line = none) ∧
    (¬((linesHeld base).portA.queue = [] ∧ (linesHeld base).portA.line = none) ∧ (linesHeld base).portA.queue.length < 8) ∧
    8 ≤ (queuesFull base).portA.queue.length ∧
    ([.forwarded [1]] : List OutFrame).any OutFrame.isDemand = false ∧
    (base.portB.queue = [] ∧ base.portB.line = none) ∧
    ((linesHeld base).portB.queue.any OutFrame.isDemand = false ∧
      ¬((linesHeld base).portB.queue = [] ∧ (linesHeld base).portB.line = none) ∧ (linesHeld base).portB.queue.length < 8) ∧
    ((queuesFull base).portB.queue.any OutFrame.isDemand = false ∧ 8 ≤ (queuesFull base).portB.queue.length) := by decide +kernel

/-! ## Tracking and console demands -/

/-- The doors of car A (index 3) expecting sequence 7: the differences at which the clauses meet. -/
theorem witness_presented :
    wellFormedPayload (base.entry 3).role (frameOf 63 23 1 7 [2]).payload = false ∧
    (wellFormedPayload (base.entry 3).role (frameOf 63 23 1 7 [0]).payload = true ∧ (base.record 3).sync = .sync ∧
      (base.entry 3).role ≠ .encoder) ∧
    ((frameOf 63 23 1 135 [0]).seq - (base.record 3).expected).toNat = 128 ∧
    ((frameOf 63 23 1 134 [0]).seq - (base.record 3).expected).toNat = 127 ∧
    ((frameOf 63 23 1 15 [0]).seq - (base.record 3).expected).toNat = 8 ∧
    ((frameOf 63 23 1 14 [0]).seq - (base.record 3).expected).toNat = 7 ∧
    ((frameOf 63 23 1 7 [0]).seq - (base.record 3).expected).toNat = 0 ∧
    (let hunting := withRecord base 3 { synced [0] with sync := .hunt, baselineHeld := true }
     (hunting.record 3).sync = .hunt ∧ (hunting.record 3).baselineHeld = true) ∧
    (let fresh := withRecord base 3 (SourceRecord.fresh SourceCounters.zero)
     (fresh.record 3).sync = .hunt ∧ (fresh.record 3).baselineHeld = false) ∧
    (let gone := withRecord base 3 { synced [0] with sync := .lost }
     (gone.record 3).sync = .lost) := by decide +kernel

/-- The part with an encoder baseline of count 1,000 and timestamp 100, moving UP at 2,000 mm/s. -/
def sampled : State := { base with est := { base.est with baseline := some ⟨1000, 100⟩, v := 2000 } }

/-- Encoder frames in order: with the baseline's timestamp, and with another. -/
theorem witness_presentedEncoder : (sampled.entry 0).role = .encoder ∧ (sampled.record 0).sync = .sync ∧
    wellFormedPayload .encoder (frameOf 63 5 1 7 [0, 4, 0, 0, 100, 1]).payload = true ∧
    ((frameOf 63 5 1 7 [0, 4, 0, 0, 100, 1]).seq - (sampled.record 0).expected).toNat = 0 ∧
    (100 : BitVec 16) = BitVec.ofNat 16 (field (frameOf 63 5 1 7 [0, 4, 0, 0, 100, 1]).payload 3 2) ∧
    (100 : BitVec 16) ≠ BitVec.ofNat 16 (field (frameOf 63 5 1 7 [0, 4, 0, 0, 200, 1]).payload 3 2) ∧
    (let hunting := withRecord sampled 0 { synced [0] with sync := .hunt, baselineHeld := true }
     (hunting.record 0).sync = .hunt ∧ (hunting.record 0).baselineHeld = true ∧
       ((frameOf 63 5 1 9 []).seq - (hunting.record 0).expected).toNat ≠ 0) ∧
    (let gone := withRecord sampled 0 { synced [0] with sync := .lost }
     (gone.record 0).sync = .lost) := by decide +kernel

/-- 24 counts of 250 µm in 100 units of 100 µs: 6,000 µm and 600 mm/s; a frame not healthy reckons 20,000 µm at 2,000 mm/s. -/
theorem test_encoderSample : sampled.est.baseline = some ⟨1000, 100⟩ ∧
    (let t := deliver sampled .encoder (frameOf 63 5 1 7 [0, 4, 0, 0, 200, 1])
     t.est.real = 20166000 ∧ t.est.v = 600 ∧ t.est.dir = .up ∧ t.est.statTimer = none ∧ t.est.baseline = some ⟨1024, 200⟩) ∧
    (let t := deliver sampled .encoder (frameOf 63 5 1 7 [0, 4, 0, 0, 200, 0])
     t.est.real = 20180000 ∧ t.est.v = 2000) := by decide +kernel

/-- Car reports by quality, before and after the rope is established and Off_B set, on both sides of the disagreement limit. -/
theorem witness_carReports :
    field [0, 0x4F, 0x4C, 0] 3 1 = 0 ∧ field [0, 0x4F, 0x4C, 1] 3 1 ≠ 0 ∧ State.reset.est.ropeEst = false ∧
    (base.est.ropeEst = true ∧ base.est.offBSet = true) ∧
    ({ base.est with offBSet := false } : Estimator).ropeEst = true ∧
    ((min (field [0, 0x4F, 0x4C, 1] 0 3) base.line.lineLength : Nat) - ((base.rMm : Int) + base.est.offA)).natAbs ≤
      base.line.disagreementLimit ∧
    base.line.disagreementLimit <
      ((min (field [0, 0x5F, 0x4C, 1] 0 3) base.line.lineLength : Nat) - ((base.rMm : Int) + base.est.offA)).natAbs ∧
    ((min (field [0x25, 0xD5, 0x9C, 1] 0 3) base.line.lineLength : Nat) -
      ((base.line.ropeSum : Int) - base.rMm + base.est.offB)).natAbs ≤ base.line.disagreementLimit ∧
    base.line.disagreementLimit < ((min (field [0, 0, 0, 1] 0 3) base.line.lineLength : Nat) -
      ((base.line.ropeSum : Int) - base.rMm + base.est.offB)).natAbs := by decide +kernel

theorem witness_consoleDemand :
    ((inRun .armed).leg.run = .armed ∧ demandEnable [0x05, 0xDC, 3] = true ∧ 0 < demandSetpoint [0x05, 0xDC, 3] ∧
      demandDir [0x05, 0xDC, 3] = (inRun .armed).leg.dir ∧ (inRun .armed).trip.inputs.brkS.qualified = false) ∧
    (demandEnable [0x05, 0xDC, 2] = false ∧ demandSetpoint [0, 0, 3] = 0 ∧ demandDir [0x05, 0xDC, 1] ≠ (inRun .armed).leg.dir) ∧
    ((inRun .run).leg.run.motion = true ∧ demandDir [0x05, 0xDC, 1] ≠ (inRun .run).leg.dir ∧
      demandDir [0x05, 0xDC, 3] = (inRun .run).leg.dir) ∧
    ((inRun .armed).leg.run.motion = false ∧ (inRun .armed).roleIn .console .lost = false) ∧
    (base.leg.run.motion = false ∧ base.leg.run ≠ .armed) := by decide +kernel

/-! ## Requests -/

theorem witness_unknown : base.phase ≠ .finishing ∧ base.resp.restartPending = false ∧ parseRequest [0x7F] = none ∧
    parseRequest [] = none := by decide +kernel

theorem witness_statusRead : State.reset.phase ≠ .finishing ∧
    (State.reset.resp.restartPending = true → State.reset.portA.holdsRestart = true ∨ State.reset.portB.holdsRestart = true) ∧
    ((restarting .a).resp.restartPending = true ∧ (restarting .a).portA.holdsRestart = true) := by decide +kernel

/-- Two faults and a Stop Record on record. -/
def recorded : State :=
  { base with
    trip := { base.trip with faults := [faultRecord .estop 2, faultRecord .storeMismatch 1] }
    leg := { base.leg with log := [aStop], lastRecord := 56 } }

theorem witness_faultsRead : servable recorded 9 (.faultsRead 1 0) ∧ servable recorded 9 (.faultsRead 31 1) ∧
    servable recorded 9 (.faultsRead 0 0) ∧ servable recorded 9 (.faultsRead 32 0) ∧ servable recorded 9 (.faultsRead 1 2) ∧
    servable base 9 (.faultsRead 1 1) ∧ base.trip.faults = [] ∧
    recorded.trip.faults.filter (fun r => decide ((31 : Byte).toNat ≤ r.kind.num)) = faultRecord .storeMismatch 1 :: [] := by
  decide +kernel

theorem witness_stopLogRead :
    servable recorded 9 (.stopLogRead 0) ∧ recorded.leg.log[(0 : Byte).toNat]? = some aStop ∧
    servable recorded 9 (.stopLogRead 1) ∧ recorded.leg.log.length ≤ (1 : Byte).toNat := by decide +kernel

theorem witness_countersRead : servable base 9 (.countersRead 15 1) ∧ servable base 9 (.countersRead 15 0) ∧
    servable base 9 (.countersRead 16 0) ∧ servable base 9 (.countersRead 0 2) ∧ servable base 9 (.countersRead 0x40 1) ∧
    servable base 9 (.countersRead 0x41 0) ∧ (15 : Byte).toNat = (15 : Fin 16).val := by decide +kernel

theorem witness_tableRead : servable base 9 (.tableRead 1 28 0) ∧ (entryLength 1 28).isSome = true ∧
    servable base 9 (.tableRead 1 29 0) ∧ ¬(entryLength 1 29).isSome = true ∧ servable base 9 (.tableRead 1 28 2) ∧
    servable base 9 (.tableRead 1 28 1) ∧ base.leg.run ≠ .maintenance ∧ servable maintained 9 (.tableRead 5 31 1) ∧
    maintained.leg.run = .maintenance ∧ maintained.resp.staged = some exampleSet := by decide +kernel

theorem base_ready : readyConditions base := by
  refine ⟨rfl, by decide +kernel, by decide +kernel, by decide +kernel, fun c => ?_, by decide +kernel, by decide +kernel,
    by decide +kernel⟩
  cases c <;> decide +kernel

theorem witness_makeReady : servable base 2 .makeReady ∧ base.leg.run = .safe ∧ readyConditions base ∧
    (let bare := { base with tables := { base.tables with valid := false } }
     servable bare 2 .makeReady ∧ bare.leg.run = .safe ∧ bare.tables.valid = false ∧ ¬readyConditions bare) ∧
    (servable recorded 2 .makeReady ∧ recorded.leg.run = .safe ∧ recorded.tables.valid = true ∧
      recorded.trip.faults = [] ++ faultRecord .estop 2 :: [faultRecord .storeMismatch 1] ∧
      (recorded.response FaultKind.estop).action ≠ .notice) ∧
    (servable (inRun .ready) 2 .makeReady ∧ (inRun .ready).leg.run ≠ .safe) := by
  refine ⟨by decide +kernel, rfl, base_ready, ⟨by decide +kernel, rfl, rfl, fun h => ?_⟩, by decide +kernel, by decide +kernel⟩
  exact absurd h.1 (by decide)

/-- A record gone LOST. -/
def goneLost : SourceRecord := { synced [0] with sync := .lost }

/-- Base with the qualified values of ESTOP, OT_TOP and OT_BOTTOM. -/
def withInputs (x y z : Bool) : State :=
  { base with trip := { base.trip with inputs := { base.trip.inputs with estop := ⟨[], x⟩, otTop := ⟨[], y⟩, otBottom := ⟨[], z⟩ } } }

/-- MAKE READY on a state that fails one condition of R85: the line's reply says which. -/
def notReadyLine (s : State) : List Byte := linePayload (after (.makeReady .a 2) s) .a

/-- The reasons 2 to 8 of R85 with their details, a state for each. -/
theorem witness_notReady :
    notReadyLine recorded = [4, 8, 2, 21] ∧
    notReadyLine (withRecord base 0 goneLost) = [4, 8, 3, 0] ∧ notReadyLine (withRecord base 8 goneLost) = [4, 8, 3, 8] ∧
    notReadyLine (withRecord base 7 goneLost) = [4, 8, 3, 7] ∧
    notReadyLine { base with est := { base.est with offBSet := false } } = [4, 8, 4, 0] ∧
    notReadyLine (withRecord base 1 { goneLost with sync := .hunt }) = [4, 8, 5, 1] ∧
    notReadyLine (withRecord base 2 { goneLost with sync := .hunt }) = [4, 8, 5, 2] ∧
    notReadyLine (withRecord base 3 (synced [1])) = [4, 8, 6, 3] ∧ notReadyLine (withRecord base 4 (synced [1])) = [4, 8, 6, 4] ∧
    notReadyLine (withInputs true true true) = [4, 8, 7, 1] ∧ notReadyLine (withInputs false true true) = [4, 8, 7, 2] ∧
    notReadyLine (withInputs false false true) = [4, 8, 7, 3] ∧ notReadyLine (withRecord base 7 (synced [0])) = [4, 8, 8, 0] := by
  decide +kernel

/-- READY with the doors of car A reported open. -/
def doorsOpen : State := withRecord (inRun .ready) 3 (synced [1])

theorem witness_armLegTaken :
    (servable (inRun .ready) 2 (.armLeg 1 1) ∧ (inRun .ready).leg.run = .ready ∧
      (inRun .ready).aPos < (inRun .ready).tables.working.places.loop.a.lo ∧ doorsClosed (inRun .ready) .carADoors = true ∧
      doorsClosed (inRun .ready) .carBDoors = true) ∧
    (servable (inRun .halted) 2 (.armLeg 0 1) ∧ (inRun .halted).leg.run = .halted ∧
      ¬((inRun .halted).tables.working.places.loop.a.hi < (inRun .halted).aPos)) := by decide +kernel

theorem witness_armLegRefused :
    (servable doorsOpen 2 (.armLeg 1 1) ∧ doorsOpen.leg.run = .ready ∧
      doorsOpen.aPos < doorsOpen.tables.working.places.loop.a.lo ∧ doorsClosed doorsOpen .carADoors = false) ∧
    (servable (inRun .ready) 2 (.armLeg 2 1) ∧ 1 < (2 : Byte).toNat ∧ servable (inRun .ready) 2 (.armLeg 1 3) ∧
      2 < (3 : Byte).toNat) ∧
    (servable base 2 (.armLeg 1 1) ∧ ¬(base.leg.run = .ready ∨ base.leg.run = .halted)) := by decide +kernel

theorem witness_disarm : servable (inRun .armed) 2 .disarm ∧ (inRun .armed).leg.run = .armed ∧ servable base 2 .disarm ∧
    base.leg.run ≠ .armed := by decide +kernel

theorem witness_resetTrip : servable recorded 2 .resetTrip ∧ recorded.leg.run = .safe ∧ servable (inRun .run) 2 .resetTrip ∧
    (inRun .run).leg.run ≠ .safe := by decide +kernel

/-- The maintenance sequence FROZEN, and PENDING for the console with echo 17. -/
def frozen : State := { base with resp := { base.resp with seq := .frozen } }
def entryPending : State := { base with resp := { base.resp with seq := .pending, requester := some 2, echo := some 17 } }

theorem witness_maintenanceRequest : servable frozen 2 .maintenanceRequest ∧ frozen.resp.seq = .frozen ∧
    servable (inRun .run) 2 .maintenanceRequest ∧ (inRun .run).resp.seq = .idle ∧ (inRun .run).leg.run ≠ .safe ∧
    servable base 2 .maintenanceRequest ∧ base.resp.seq = .idle ∧ base.leg.run = .safe := by decide +kernel

theorem witness_maintenanceConfirm : ordinary entryPending ∧ entryPending.resp.seq = .pending ∧
    entryPending.resp.requester = some 2 ∧ entryPending.resp.echo = some 17 ∧ entryPending.leg.run = .safe ∧
    servable base 2 (.maintenanceConfirm 17) ∧ servable frozen 2 (.maintenanceConfirm 17) := by decide +kernel

theorem witness_freeze : ordinary entryPending ∧ entryPending.resp.seq = .pending ∧
    (∀ echo, Request.maintenanceConfirm 18 = .maintenanceConfirm echo →
      ¬(entryPending.resp.requester = some 2 ∧ entryPending.resp.echo = some echo)) := by
  refine ⟨by decide +kernel, rfl, fun echo h => ?_⟩
  injection h with h
  subst h
  decide

theorem witness_refused : State.reset.phase = .loading ∧ Request.disarm ≠ .statusRead ∧ ordinary base ∧ base.resp.seq ≠ .pending ∧
    Request.disarm.stateChanging = true ∧ ¬mayChangeState base 9 ∧ Request.commit.needsStore = true ∧
    mayChangeState (committing 1) 2 ∧ (committing 1).resp.op ≠ .none ∧ (restarting .a).resp.restartPending = true := by
  decide +kernel

theorem witness_tableWrite : servable maintained 2 (.tableWrite 1 25 [0, 0, 5]) ∧ entryFits 1 25 [0, 0, 5] = true ∧
    maintained.leg.run = .maintenance ∧ maintained.resp.staged = some exampleSet ∧ (entryLength 1 25).isSome = true ∧
    servable maintained 2 (.tableWrite 6 0 []) ∧ entryFits 6 0 [] = true ∧ entryLength 6 0 = none ∧
    servable base 2 (.tableWrite 1 25 [0, 0, 5]) ∧ base.leg.run ≠ .maintenance := by decide +kernel

theorem witness_tableWrites : 200 ≤ exampleSet.line.vMax ∧ 200 ≤ blankSet.line.vMax ∧
    (1 ≤ 1 ∧ 28 ≤ 28 ∧ lineLo 1 ≤ field [0, 0x27, 0x10] 0 3 ∧ field [0, 0x27, 0x10] 0 3 ≤ lineHi exampleSet.line.vMax 1) := by
  decide +kernel

/-- Writes out of bounds in tables 2 to 5: each field at its bound, an action at its kind's floor. -/
theorem test_writesClamped :
    (let w := writeEntry exampleSet 2 15 [63, 9, 0xFF, 0xFF, 8]
     w.2 = true ∧ w.1.sources.entries[15] = ⟨62, .console, 800, 7⟩) ∧
    (let w := writeEntry exampleSet 3 63 [0xFF, 0, 0, 0, 99, 0xFF, 0, 3]
     w.2 = true ∧ w.1.profile.segs[63] = ⟨4000000, 100, 2000, .terminal⟩) ∧
    (let w := writeEntry exampleSet 4 2 (List.replicate 19 0xFF)
     w.2 = true ∧ w.1.places.top = ⟨⟨4000000, 4000000, 4000000⟩, ⟨4000000, 4000000, 4000000⟩, .b⟩) ∧
    (let w := writeEntry exampleSet 5 21 [0, 1]
     w.2 = true ∧ (w.1.responseOf .estop).action = .emergency) := by decide +kernel

/-- MAINTENANCE with the blank set staged, which fails the commit checks, and with a worn store. -/
def maintainedBlank : State := { maintained with resp := { maintained.resp with staged := some blankSet } }
def maintainedWorn : State := { maintained with tables := { maintained.tables with commitCount := 65535 } }

theorem witness_commit : servable base 2 .commit ∧ base.leg.run ≠ .maintenance ∧ servable maintained 2 .commit ∧
    maintained.leg.run = .maintenance ∧ maintained.resp.staged = some exampleSet ∧
    checkSet maintained.straps.own (forceSubs exampleSet) = none ∧ maintained.tables.commitCount ≠ 65535 ∧
    servable maintainedBlank 2 .commit ∧ maintainedBlank.resp.staged = some blankSet ∧
    checkSet maintainedBlank.straps.own (forceSubs blankSet) = some (2, 16) ∧
    servable maintainedWorn 2 .commit ∧ maintainedWorn.tables.commitCount = 65535 := by decide +kernel

theorem witness_verify : servable { base with tables := stored } 9 (.verify 1 0) ∧ headerGood stored.header = true ∧
    servable base 9 (.verify 5 255) ∧ headerGood base.tables.header = false ∧ servable base 9 (.verify 0 1) ∧
    servable base 9 (.verify 6 1) := by decide +kernel

theorem witness_leave : ordinary maintained ∧ maintained.resp.seq ≠ .pending ∧ mayChangeState maintained 2 ∧
    maintained.resp.op = .none ∧ maintained.leg.run = .maintenance ∧ ordinary (committing 1) ∧
    (committing 1).resp.op ≠ .none ∧ mayChangeState (committing 1) 2 ∧ mayChangeState base 2 ∧ base.resp.op = .none ∧
    base.leg.run ≠ .maintenance := by decide +kernel

theorem witness_restart : servable base 2 .restart ∧ base.leg.run = .safe ∧ (base.port .a).queue.length < 8 ∧
    servable (queuesFull maintained) 2 .restart ∧ (queuesFull maintained).leg.run = .maintenance ∧
    8 ≤ ((queuesFull maintained).port .b).queue.length ∧ noRestartReply (queuesFull maintained).portA ∧
    noRestartReply (queuesFull maintained).portB ∧ (queuesFull maintained).tables.programming = none ∧
    servable (inRun .run) 2 .restart ∧ (inRun .run).leg.run ≠ .safe ∧ (inRun .run).leg.run ≠ .maintenance := by decide +kernel

/-! ## COMMIT and VERIFY under way -/

theorem witness_blockProgrammed : ∀ k ∈ ([0, 1, 4, 5] : List (Fin 6)), ordinary (committing k) ∧
    (committing k).tables.programming = some ⟨k, writtenBytes base exampleSet k⟩ ∧
    (committing k).resp.op = .commit 2 .a exampleSet ∧ (some []).getD (writtenBytes base exampleSet k) ≠ writtenBytes base exampleSet k := by
  intro k hk
  refine ⟨⟨rfl, rfl⟩, rfl, rfl, fun h => ?_⟩
  have hl := congrArg List.length h
  simp only [List.mem_cons, List.not_mem_nil, or_false] at hk
  rcases hk with rfl | rfl | rfl | rfl <;> simp [writtenBytes, blockBytes, headerBytes, withCheck, toBytes] at hl

/-- The bytes [0, 17], and for block 0 none, are what a failed write can leave; the store's own header is not. -/
theorem witness_blockFailed : ([0, 17] : List Byte) ≠ writtenBytes base exampleSet 1 ∧
    leftByFailedWrite (committing 1).tables ⟨1, writtenBytes base exampleSet 1⟩ [0, 17] ∧
    leftByFailedWrite matched ⟨0, [0]⟩ [] ∧ matched.header ≠ [0] ∧ ¬leftByFailedWrite matched ⟨0, [0]⟩ matched.header :=
  ⟨by decide +kernel, ⟨fun _ => mismatch_of_generation 1 (by decide +kernel), fun h => absurd h (by decide)⟩,
    ⟨fun h => absurd rfl h, fun _ => .inl (by decide +kernel)⟩, by decide +kernel, witness_impossibleHeader⟩

/-- A set that drops index 8, changes index 0 and the rope sum. -/
def otherSet : TableSet :=
  { exampleSet with
    line := { exampleSet.line with ropeSum := 2400000 }
    sources := { entries := exampleSet.sources.entries.set 0 ⟨6, .encoder, 20, 3⟩, count := 8 } }

/-- The header of a COMMIT of that set being programmed. -/
def completing : State := { committing 0 with resp := { maintained.resp with op := .commit 2 .a otherSet } }

theorem witness_commitCompletion : ordinary completing ∧
    completing.tables.programming = some ⟨0, writtenBytes base exampleSet 0⟩ ∧ completing.resp.op = .commit 2 .a otherSet ∧
    completing.tables.valid = true ∧ completing.tables.working.line.ropeSum ≠ otherSet.line.ropeSum :=
  ⟨⟨rfl, rfl⟩, rfl, rfl, rfl, by decide⟩

/-- A set of the same rope with a stretch limit below both offsets, and the COMMIT of it at its header. -/
def tightSet : TableSet := { exampleSet with line := { exampleSet.line with stretchLimit := 100 } }
def tightening : State :=
  { committing 0 with
    tables := { base.tables with programming := some ⟨0, [0]⟩ }, resp := { maintained.resp with op := .commit 2 .a tightSet } }

/-- Both offsets are cut to the new limit, and STRETCH_LIMIT is raised once for each (R60). -/
theorem witness_commitStretch : tightening.tables.working.line.ropeSum = tightSet.line.ropeSum ∧
    tightSet.line.stretchLimit < tightening.est.offA.natAbs ∧ tightSet.line.stretchLimit < tightening.est.offB.natAbs ∧
    tightening.leg.run = .maintenance ∧
    (let t := after (.blockProgrammed none) tightening
     t.est.offA = 100 ∧ t.est.offB = -100 ∧ t.est.offBSet = true ∧ t.trip.faults.map (·.count) = [2]) := by decide +kernel

theorem witness_commitRecords : (let i : Fin 16 := 1
    i.val < otherSet.sources.count ∧ i.val < exampleSet.sources.count ∧
      exampleSet.sources.entries[i] = otherSet.sources.entries[i]) ∧
    (let i : Fin 16 := 0
     i.val < otherSet.sources.count ∧ exampleSet.sources.entries[i] ≠ otherSet.sources.entries[i]) ∧
    (¬(8 : Fin 16).val < otherSet.sources.count ∧ (8 : Fin 16).val < exampleSet.sources.count) ∧
    (¬(9 : Fin 16).val < otherSet.sources.count ∧ ¬(9 : Fin 16).val < exampleSet.sources.count) := by decide +kernel

/-- A VERIFY at block `k` of a range. -/
def verifying (k last : Nat) : State :=
  { base with tables := stored, resp := { base.resp with op := .verify 9 .a k last [] } }

theorem witness_verifyMismatch : (!blockMatches stored.header 1 stored.blocks[0]) = true := by
  rw [mismatch_of_generation 1 (by decide +kernel)]
  rfl

theorem witness_verifyBlock : ordinary (verifying 1 5) ∧ (verifying 1 5).resp.op = .verify 9 .a ((0 : Fin 5).val + 1) 5 [] ∧
    (0 : Fin 5).val + 1 < 5 ∧ (verifying 5 5).resp.op = .verify 9 .a ((4 : Fin 5).val + 1) 5 [] ∧ 5 ≤ (4 : Fin 5).val + 1 := by
  decide +kernel

/-! ## Timers and inputs -/

/-- The encoder at its last allowed substitute, and past it. -/
def encoderAt (n : Nat) : State := withRecord base 0 { synced [0, 0, 0, 0, 0, 1] with sync := .coast, subs := n }

theorem witness_lateExpiry : ordinary base ∧ lateDue base 0 = true ∧ (base.record 0).sync = .sync ∧
    lateDue (encoderAt 2) 0 = true ∧ ((encoderAt 2).record 0).sync = .coast ∧
    ((encoderAt 2).record 0).subs < ((encoderAt 2).entry 0).maxSubs ∧ (base.entry 0).role = .encoder ∧
    lateDue (encoderAt 3) 0 = true ∧ ((encoderAt 3).entry 0).maxSubs ≤ ((encoderAt 3).record 0).subs ∧
    (base.entry 1).role = .carAPosition ∧ lateDue base 1 = true ∧ (base.entry 2).role = .carBPosition ∧ lateDue base 2 = true ∧
    (base.entry 7).role = .drive ∧ lateDue base 7 = true ∧ (base.entry 7).maxSubs ≤ (base.record 7).subs := by decide +kernel

/-- A car source with no substitute left, and one whose loss has made the estimator degraded. -/
theorem witness_lateExpiryCars : base.est.degraded = carLost base ∧ (base.record 1).subs < (base.entry 1).maxSubs ∧
    (let s := withRecord base 2 { synced [0] with sync := .coast, subs := 2 }
     lateDue s 2 = true ∧ (s.entry 2).maxSubs ≤ (s.record 2).subs) ∧
    (let s := { withRecord base 2 goneLost with est := { base.est with degraded := true } }
     ordinary s ∧ lateDue s 1 = true ∧ s.est.degraded = carLost s ∧ carLost s = true) := by decide +kernel

/-- A tension source with substitutes, as a set keeps it that no COMMIT has forced. -/
theorem witness_lateExpiryUnforced :
    let set : TableSet := { exampleSet with
      sources := { exampleSet.sources with entries := exampleSet.sources.entries.set 5 ⟨25, .tension, 800, 1⟩ } }
    let s : State := { base with tables := { base.tables with working := set } }
    ordinary s ∧ lateDue s 5 = true ∧ (s.record 5).sync = .sync ∧ (s.record 5).subs < (s.entry 5).maxSubs ∧
      (s.entry 5).role = .tension := by decide +kernel

theorem witness_huntExpiry : let s := withRecord base 4 { synced [0] with sync := .hunt, baselineHeld := true }
    ordinary s ∧ lateDue s 4 = true ∧ (s.record 4).sync = .hunt := by decide +kernel

/-- SERVICE_STOP with a ramp of 6,000 mm/s and the generation timer due. -/
def stopping : State :=
  { inRun .serviceStop with lim := { base.lim with genTimer := some 0 }, trip := { base.trip with ramp := some ⟨6000, 0⟩ } }

theorem witness_silentConsole : ordinary stopping ∧ stopping.roleIndex .console = some 8 ∧ stopping.roleIndex .drive = some 7 ∧
    (timerDue stopping.now stopping.lim.genTimer = true ∧ stopping.trip.ramp = some ⟨6000, 0⟩) ∧
    (∀ s ∈ [stopping, inRun .run, base], lateDue s 8 = true ∧ (s.record 8).sync = .sync ∧ (s.record 8).subs < (s.entry 8).maxSubs) ∧
    stopping.leg.run.energized = true ∧ (inRun .run).leg.run.energized = true ∧ base.leg.run.energized = false ∧
    (stopping.response .consoleLost).action ≠ .emergency ∧
    (∀ s ∈ [stopping, inRun .run], let gone := withRecord s 8 { synced [0, 0, 0] with sync := .coast, subs := 2 }
      ordinary gone ∧ lateDue gone 8 = true ∧ (gone.record 8).sync = .coast ∧ (gone.entry 8).maxSubs ≤ (gone.record 8).subs) ∧
    ((inRun .run).leg.run.motion = true ∧ ((inRun .run).response .consoleLost).action = .service) := by decide +kernel

/-- A state whose stationary timer is due. -/
def stationaryIn (r : RunState) : State := { inRun r with est := { base.est with statTimer := some 0 } }

theorem witness_stationary : ∀ r ∈ [RunState.creep, .serviceStop, .emergencyStop, .run],
    ordinary (stationaryIn r) ∧ timerDue (stationaryIn r).now (stationaryIn r).est.statTimer = true ∧
    (stationaryIn r).leg.run = r ∧ ((stationaryIn r).response .stopOutsideWindow).action = .notice ∧
    ((stationaryIn r).response .loopDetectorMismatch).action = .notice := by decide +kernel

theorem witness_brakeRelease : let s : State := { inRun .depart with leg := { (inRun .depart).leg with brakeTimer := some 0 } }
    ordinary s ∧ timerDue s.now s.leg.brakeTimer = true ∧ s.leg.run = .depart ∧
      (s.response .brakeReleaseTimeout).action = .service := by decide +kernel

/-- The same with BRAKE_RELEASE_TIMEOUT at EMERGENCY. -/
theorem witness_brakeReleaseEmergency :
    let set : TableSet := { exampleSet with response := exampleSet.response.set 23 ⟨.emergency, true⟩ }
    (({ base with tables := { base.tables with working := set } } : State).response .brakeReleaseTimeout).action = .emergency := by
  decide +kernel

/-- Inputs that have read two samples of a level, from qualified values. -/
def inputsAt (level four brakes : Bool) : Inputs :=
  let x : Input := ⟨[level, level], four⟩
  { estop := x, otTop := x, otBottom := x, slip := x, brkS := ⟨[level, level], brakes⟩, brkE := ⟨[level, level], brakes⟩ }

/-- A run state with those inputs. -/
def qualifying (r : RunState) (x : Inputs) : State := { inRun r with trip := { base.trip with inputs := x } }

theorem witness_sample : ordinary base ∧ sampleDue base = true ∧ base.leg.run = .safe ∧
    agreed base.line.qualWindow (rawLevel asserted .estop :: [true, true]) = some true ∧
    base.trip.inputs.estop.qualified = false ∧ ordinary (inRun .run) ∧ sampleDue (inRun .run) = true := by decide +kernel

/-- A sample that qualifies SLIP alone, the brake inputs shut, and both open: what each clause takes. -/
theorem witness_sampleTurns :
    (let s := qualifying .run (inputsAt true false true)
     (s.trip.inputs.get .estop).qualified ≠ true ∧ (s.trip.inputs.get .otTop).qualified ≠ true ∧ s.trip.slipTimer = none) ∧
    (let s := { qualifying .run (inputsAt true true true) with trip := { base.trip with
        inputs := { inputsAt true true true with slip := ⟨[true, true], false⟩ } } }
     s.leg.run.motion = true ∧ (after (.qualificationSample asserted) s).trip.faults.map (·.kind) = [.ropeSlip]) ∧
    (let s := qualifying .creep (inputsAt false false true)
     (after (.qualificationSample quiet) s).trip.faults.map (·.kind) = [.brakeFeedbackLost]) ∧
    (let s := { qualifying .depart { inputsAt true true false with slip := ⟨[], true⟩ } with
        leg := { (inRun .depart).leg with rStar := 1249950 } }
     (s.line.approachDistance : Int) < s.remaining ∧ (after (.qualificationSample asserted) s).leg.run = .run ∧
       (after (.qualificationSample asserted) s).trip.faults = []) := by decide +kernel

theorem witness_slip : ∀ x ∈ [true, false], let s : State := { inRun .run with
      trip := { base.trip with slipTimer := some 0, slipUnderlying := x } }
    ordinary s ∧ timerDue s.now s.trip.slipTimer = true ∧ (s.trip.inputs.slip.qualified = s.trip.slipUnderlying ↔ x = false) ∧
      s.leg.run.motion = true := by decide +kernel

/-! ## Arithmetic, raises and targets -/

theorem witness_isqrt : 2227 * 2227 ≤ 4960000 := by decide

/-- A leg to LOOP in RUN, at a distance from its target. -/
def legAt (r : RunState) (rStar : Nat) : State := { inRun r with leg := { (inRun r).leg with endPlace := .loop, rStar := rStar } }

/-- The three zones of E_T, and a point of its list ahead of car A. -/
theorem witness_envelope :
    ((legAt .run 1249950).leg.active = true ∧ ((legAt .run 1249950).line.creepDistance : Int) < (legAt .run 1249950).remaining) ∧
    ((legAt .run 25160).remaining = 5000 ∧ ((legAt .run 25160).line.creepDistance : Int) = 5000) ∧
    ((legAt .run 20161).remaining = 1 ∧ (legAt .run 20160).remaining = 0) ∧ base.leg.active = false ∧
    (let s := { legAt .run 1249950 with env := { base.env with uphill := [⟨20300, 8000, 1000⟩, ⟨20299, 100, 1000⟩] } }
     s.aPos = 20300 ∧ (recompute s).env.eA = 8000) := by decide +kernel

theorem witness_raise :
    (faultSetOrdered recorded ∧ faultOf recorded.trip.faults .estop = some (faultRecord .estop 2)) ∧
    faultOf recorded.trip.faults .overrun = none ∧ FaultKind.estop ≠ .overrun ∧
    ((base.response .overspeedService).action = .service ∧ (inRun .depart).leg.run = .depart) ∧
    ((base.response .overrun).action = .emergency ∧ (inRun .serviceStop).leg.run = .serviceStop) ∧
    ((base.response .overrun).action ≠ .notice ∧ (inRun .halted).leg.run = .halted) ∧
    ((base.response .splitStop).action = .notice ∧ base.leg.run = .safe) := by decide +kernel

/-- A raise in RUN offers its notice and the change after it. -/
theorem test_raiseNotices : (raiseFault (linesHeld (inRun .run)) .overrun).portA.queue =
    [.notice 2 (.faultRaised .overrun .emergency .run 1 20160 20300 2479580),
     .notice 2 (.stateChanged .run .emergencyStop .fault FaultKind.overrun.num 0)] := by decide +kernel

/-- One update in RUN that meets the absolute, the envelope and the wrong-way test; one in SAFE; and samples that raise. -/
theorem witness_speedTests :
    (let s := { inRun .run with est := { base.est with v := 12000, dir := .down } }
     speedFindings s = [.absoluteOverspeed, .overspeedEmergency, .wrongWay] ∧ s.leg.run.energized = true ∧
       (s.response .absoluteOverspeed).action = .emergency) ∧
    (let s := { base with est := { base.est with v := 51 } }
     speedFindings s = [.uncommandedMotion]) ∧
    speedFindings { base with est := { base.est with v := 50 } } = [] ∧
    (field [1] 0 1 = 1 ∧ field [0] 0 1 ≠ 1 ∧ (inRun .serviceStop).leg.run.energized = true ∧ base.leg.run.energized = false) ∧
    (field [0, 9] 0 2 < base.line.tensionMin ∧ base.line.tensionMax < field [0x9C, 0x41] 0 2 ∧ field [0x9C, 0x40] 0 2 ≤ base.line.tensionMax) ∧
    (inRun .run).leg.run.motion = true := by decide +kernel

/-- The windows of the LOOP place meet with the offsets 0; shifted apart by Off_B they do not, in either order. -/
theorem witness_stopTarget :
    (stopTarget exampleSet.places.loop 2500000 2600000 0 0).2 = false ∧
    (stopTarget exampleSet.places.loop 2500000 2600000 0 2000).2 = true ∧
    (stopTarget exampleSet.places.loop 2500000 2600000 0 (-2000)).2 = true ∧
    (2500000 : Int) + -2000 - 1249700 < 1250000 - 0 ∧ (1250600 : Int) - 0 < 2500000 + 2000 - 1250300 := by decide +kernel

/-! ## The leg under way and the door permits -/

/-- The distances at which the clauses meet, from R = 20,160: beyond the tolerance, at it, at the creep and the approach distance. -/
theorem witness_leg :
    ((legAt .run 20059).remaining = -101 ∧ (legAt .run 20060).remaining = -100 ∧ base.line.overrunTolerance = 100) ∧
    ((legAt .run 25160).remaining = 5000 ∧ (legAt .run 25161).remaining = 5001 ∧ base.line.creepDistance = 5000) ∧
    ((legAt .run 170160).remaining = 150000 ∧ (legAt .run 170161).remaining = 150001 ∧ base.line.approachDistance = 150000) ∧
    (legAt .approach 25160).leg.frozen = false ∧
    (testPassages (legAt .run 170161)).leg.run = .run ∧ (testPassages (legAt .run 170160)).leg.run = .approach ∧
    (testPassages (legAt .approach 25161)).leg.run = .approach ∧
    (let t := testPassages (legAt .approach 25160)
     t.leg.run = .creep ∧ t.leg.frozen = true ∧ t.leg.rStar = 1249950) ∧
    (legUpdate (legAt .creep 20059) .speed).leg.run = .emergencyStop ∧
    (legUpdate (legAt .approach 25161) .carReport).leg.rStar = 1249950 ∧
    (let s := { legAt .depart 170161 with trip := { base.trip with inputs := { base.trip.inputs with brkS := ⟨[], true⟩, brkE := ⟨[], true⟩ } } }
     s.trip.inputs.brkS.qualified = true ∧ s.trip.inputs.brkE.qualified = true ∧ (testBrakesOpen s).leg.run = .run) := by decide +kernel

/-- Halted at a place, with the cars where a rope coordinate stands them and the detector's last payload. -/
def haltedAt (pl : Place) (rope : Nat) (payload : List Byte) : State :=
  withRecord { inRun .halted with
    leg := { (inRun .halted).leg with haltPlace := some pl }, est := { base.est with real := rope * 1000 } } 6 (synced payload)

/-- At BOTTOM, where no loop condition stands; at LOOP with presence on both tracks, on one, and on none; and with no detector. -/
theorem witness_permits :
    (let t := evaluatePermits (haltedAt .bottom 20160 [0])
     t.leg.dra = true ∧ t.leg.drb = true) ∧
    ((haltedAt .loop 1249950 [3]).roleIndex .loopDetector = some 6 ∧ ((haltedAt .loop 1249950 [3]).record 6).sync = .sync ∧
      ((haltedAt .loop 1249950 [3]).response .loopDetectorMismatch).action = .notice) ∧
    (let t := evaluatePermits (haltedAt .loop 1249950 [3])
     t.leg.dra = true ∧ t.leg.drb = true ∧ t.leg.mismatchA = false) ∧
    (let t := evaluatePermits (haltedAt .loop 1249950 [1])
     t.leg.dra = true ∧ t.leg.drb = false ∧ t.leg.mismatchB = true ∧ t.trip.faults.map (·.kind) = [.loopDetectorMismatch]) ∧
    (let t := evaluatePermits (evaluatePermits (haltedAt .loop 1249950 [0]))
     t.leg.mismatchA = true ∧ t.trip.faults.map (·.count) = [2]) ∧
    (let s := withRecord (haltedAt .loop 1249950 [0]) 6 goneLost
     (evaluatePermits s).leg = s.leg) ∧
    (let set : TableSet := { exampleSet with sources := { exampleSet.sources with
        entries := exampleSet.sources.entries.set 6 ⟨26, .tension, 800, 0⟩ } }
     let s := { haltedAt .loop 1249950 [0] with tables := { base.tables with working := set } }
     s.tables.working.sources.detector .a = none ∧ (evaluatePermits s).leg.dra = true) := by decide +kernel

/-- LOOP_DETECTOR_MISMATCH at SERVICE takes the part out of HALTED. -/
theorem witness_permitsService :
    let set : TableSet := { exampleSet with response := exampleSet.response.set FaultKind.loopDetectorMismatch.idx ⟨.service, true⟩ }
    let s := { haltedAt .loop 1249950 [2] with tables := { base.tables with working := set } }
    (s.response .loopDetectorMismatch).action ≠ .notice ∧ (evaluatePermits s).leg.run = .safe := by decide +kernel

/-! ## Invariants -/

theorem witness_invariants : queuesWithin (queuesFull base) ∧ tablesChangeAtRest State.reset ∧ departureFaultFree State.reset ∧
    faultSetOrdered recorded ∧ envelopeWithin base := by
  refine ⟨by decide +kernel, ⟨fun _ => ⟨rfl, rfl⟩, ?_⟩, ?_, by decide +kernel, by decide +kernel⟩
  · intro dst p set h
    cases h
  · intro h
    exact absurd h (by decide)

/-- On an empty queue the reset state steps, and keeps what its invariants say. -/
theorem witness_invariantStep : step State.reset = .next (State.reset.setNow 1) ∧ outputsFollow State.reset ∧
    permitsInsideWindows State.reset ∧ maintenanceConsistent State.reset := by
  refine ⟨rfl, by unfold outputsFollow; decide, ?_, by unfold maintenanceConsistent; decide⟩
  intro c h
  cases c <;> exact absurd h (by decide)

theorem witness_recordInvariants : stopLogOrdered State.reset ∧ speedsWithin State.reset ∧ inputsConsistent State.reset := by
  refine ⟨⟨by decide, fun r h => by cases h⟩, ⟨by decide, by decide, ?_, ?_, ?_⟩, ?_, fun _ => rfl⟩
  · intro d h
    cases h
  · intro o h
    cases h
  · intro d h
    cases h
  · intro i
    cases i <;> decide

theorem witness_sourceInvariants : substitutesWithin State.reset ∧ degradedFollows State.reset ∧ positionWithin State.reset ∧
    storeConsistent State.reset := by
  refine ⟨⟨by decide +kernel, by decide +kernel, by decide +kernel⟩, ?_, ?_, ?_⟩
  · unfold degradedFollows
    decide +kernel
  · unfold positionWithin
    decide +kernel
  · unfold storeConsistent
    decide +kernel

end Sys2Proof.Tests
end

