-- ==== Sys2Proof/Proofs/CountersRead.lean ====
section
/-! PROOF. COUNTERS READ: its service by selector and clear flag, and the command that takes it (R42, R152, R171). -/

namespace Sys2Proof.Machine

/-- A servable COUNTERS READ is its own service: no step before it answers, and the Responder is left, so no RESTART reset falls due. -/
theorem exec_countersRead_of_servable {s : State} {src x clear : Byte} (h : servable s src (.countersRead x clear)) (p : PortId) :
    exec (.countersRead p src x clear) s = .next (serveCountersRead s p src x clear) := by
  have hr : (serve s p src (.countersRead x clear)).resp.restartPending = false := by
    obtain ⟨⟨-, hrestart⟩, -⟩ := h
    simp [serve, hrestart]
  exact taken_of_servable h p hr

/-- The refusals of R171: the clear flag out of range, or a selector that names neither a source nor a port. -/
theorem serveCountersRead_badIndex {x clear : Byte} (h : 1 < clear.toNat ∨ (16 ≤ x.toNat ∧ x ≠ 0x40 ∧ x ≠ 0x41))
    (s : State) (p : PortId) (src : Byte) :
    serveCountersRead s p src x clear = answered s p src 0x08 .badIndex [] := by
  by_cases hc : 1 < clear.toNat
  · simp only [serveCountersRead, if_pos hc]
    rfl
  · obtain ⟨hx, hA, hB⟩ := h.resolve_left hc
    simp only [serveCountersRead, if_neg hc, dif_neg (Nat.not_lt.mpr hx), if_neg hA, if_neg hB]
    rfl

/-- A source index: the reply carries the counters as they stood, whether they are cleared or not (R42). -/
theorem serveCountersRead_source {x clear : Byte} {i : Fin 16} (hx : x.toNat = i.val) (hc : clear.toNat ≤ 1)
    (s : State) (p : PortId) (src : Byte) :
    serveCountersRead s p src x clear =
      answered (if clear = 1 then clearSourceCounters s i else s) p src 0x08 .done (s.record i).counters.bytes := by
  have hlt : x.toNat < 16 := hx ▸ i.isLt
  have hi : (⟨x.toNat, hlt⟩ : Fin 16) = i := Fin.ext hx
  simp only [serveCountersRead, if_neg (Nat.not_lt.mpr hc), dif_pos hlt, hi]
  rfl

/-- A port's selector: the reply carries that port's counters as they stood, whether they are cleared or not (R152). -/
theorem serveCountersRead_port {x clear : Byte} {q : PortId} (hx : (q = .a ∧ x = 0x40) ∨ (q = .b ∧ x = 0x41))
    (hc : clear.toNat ≤ 1) (s : State) (p : PortId) (src : Byte) :
    serveCountersRead s p src x clear =
      answered (if clear = 1 then clearPortCounters s q else s) p src 0x08 .done (s.port q).counters.bytes := by
  have hc' : ¬ 1 < clear.toNat := Nat.not_lt.mpr hc
  obtain ⟨rfl, rfl⟩ | ⟨rfl, rfl⟩ := hx <;>
    simp [serveCountersRead, servePortCounters, hc', answer_eq, Request.code]

/-- Settles O23: a servable COUNTERS READ is its own service, which the three lemmas on `serveCountersRead` give by selector. -/
theorem countersReadReturnsThenClears : Obligations.CountersReadReturnsThenClears := by
  intro p src x clear s h
  rw [exec_countersRead_of_servable h p]
  refine ⟨fun hbad => ?badIndex, fun i hx => ?source, fun q hx => ?port⟩
  case badIndex => exact congrArg _ (serveCountersRead_badIndex hbad s p src)
  case source =>
    constructor <;> rintro rfl <;>
      exact congrArg _ (serveCountersRead_source hx (by decide) s p src)
  case port =>
    constructor <;> rintro rfl <;>
      exact congrArg _ (serveCountersRead_port hx (by decide) s p src)

end Sys2Proof.Machine
end

