-- ==== Sys2Proof/Proofs/SquareRoot.lean ====
section
/-! PROOF. The integer square root: each bit halves the interval that holds the root, from one wide enough for every argument (R67). -/

namespace Sys2Proof.Machine

/-- From a root in `r ≤ √n < r + 2 ^ k`, the `k` remaining bits close the interval to width 1: a bit is kept or dropped according to the
half of the interval the root lies in. -/
theorem isqrtBits_eq_sqrt {n k r : Nat} (hlow : r * r ≤ n) (hhigh : n < (r + 2 ^ k) * (r + 2 ^ k)) : isqrtBits n k r = n.sqrt := by
  induction k generalizing r with
  | zero => exact Nat.eq_sqrt.mpr ⟨hlow, hhigh⟩
  | succ k ih =>
    have hhalves : r + 2 ^ (k + 1) = r + 2 ^ k + 2 ^ k := by omega
    rw [hhalves] at hhigh
    rw [isqrtBits]
    split
    case isTrue hkept => exact ih hkept hhigh
    case isFalse hdropped => exact ih hlow (Nat.lt_of_not_le hdropped)

/-- The first bit tried lies high enough: twice it, squared, is above the argument. -/
theorem lt_sq_two_pow_half_log2 (n : Nat) : n < 2 ^ (n.log2 / 2 + 1) * 2 ^ (n.log2 / 2 + 1) :=
  calc
    n < 2 ^ (n.log2 + 1) := Nat.lt_log2_self
    _ ≤ 2 ^ (n.log2 / 2 + 1 + (n.log2 / 2 + 1)) := Nat.pow_le_pow_right (by decide) (by omega)
    _ = 2 ^ (n.log2 / 2 + 1) * 2 ^ (n.log2 / 2 + 1) := Nat.pow_add ..

/-- The model's root is the library's, whose order laws then hold of it. -/
theorem isqrt_eq_sqrt (n : Nat) : isqrt n = n.sqrt :=
  isqrtBits_eq_sqrt (Nat.zero_le n) (by simpa only [Nat.zero_add] using lt_sq_two_pow_half_log2 n)

/-- Settles O47: the root is the library's, which is exact. -/
theorem integerSquareRootIsExact : Obligations.IntegerSquareRootIsExact := by
  intro n
  rw [isqrt_eq_sqrt]
  exact ⟨Nat.sqrt_le n, fun r hr => Nat.le_sqrt.mpr hr⟩

end Sys2Proof.Machine
end

