-- ==== Sys2Proof/Proofs/StopTarget.lean ====
section
/-! PROOF. The stop target: on the rope, both cars' windows are two ranges; where they meet the target is the preferred point drawn into their
meeting, where they do not it is an end of the priority car's range (R90, R91). -/

namespace Sys2Proof.Machine

/-! ## The two ranges on the rope -/

/-- The lowest rope coordinate at which neither car stands short of its range (R90). -/
def meetLow (p : PlaceEntry) (k : Nat) (offA offB : Int) : Int := max (p.a.lo - offA) (k + offB - p.b.hi)

/-- The highest rope coordinate at which neither car stands past its range (R90). -/
def meetHigh (p : PlaceEntry) (k : Nat) (offA offB : Int) : Int := min (p.a.hi - offA) (k + offB - p.b.lo)

/-- The mean of the two nominals on the rope, rounded down (R90). -/
def preferredPoint (p : PlaceEntry) (k : Nat) (offA offB : Int) : Int := ((p.a.nom - offA) + (k + offB - p.b.nom)) / 2

/-- The end of the priority car's range that lies nearest the other car's range (R91). -/
def splitPoint (p : PlaceEntry) (k : Nat) (offA offB : Int) : Int :=
  match p.priority with
  | .a => if (k : Int) + offB - p.b.lo < p.a.lo - offA then p.a.lo - offA else p.a.hi - offA
  | .b => if (p.a.hi : Int) - offA < k + offB - p.b.hi then k + offB - p.b.hi else k + offB - p.b.lo

/-- Both cars stand inside their windows exactly where the ranges meet. -/
theorem bothInside_iff (p : PlaceEntry) (k : Nat) (offA offB x : Int) :
    (((p.a.lo : Int) ≤ x + offA ∧ x + offA ≤ p.a.hi) ∧ ((p.b.lo : Int) ≤ k - x + offB ∧ k - x + offB ≤ p.b.hi)) ↔
      meetLow p k offA offB ≤ x ∧ x ≤ meetHigh p k offA offB := by
  unfold meetLow meetHigh
  omega

/-- The preferred point is the one whole number within half a unit below the mean. -/
theorem eq_preferredPoint {p : PlaceEntry} {k : Nat} {offA offB y : Int}
    (hlow : 2 * y ≤ ((p.a.nom : Int) - offA) + (k + offB - p.b.nom))
    (hhigh : ((p.a.nom : Int) - offA) + (k + offB - p.b.nom) ≤ 2 * y + 1) : y = preferredPoint p k offA offB := by
  unfold preferredPoint
  omega

/-! ## The target in the two cases -/

theorem stopTarget_of_meet {p : PlaceEntry} {k : Nat} {offA offB : Int} (h : meetLow p k offA offB ≤ meetHigh p k offA offB)
    (lineLength : Nat) :
    stopTarget p k lineLength offA offB =
      (clampTo lineLength (max (meetLow p k offA offB) (min (meetHigh p k offA offB) (preferredPoint p k offA offB))), false) :=
  if_pos h

theorem stopTarget_of_apart {p : PlaceEntry} {k : Nat} {offA offB : Int} (h : ¬meetLow p k offA offB ≤ meetHigh p k offA offB)
    (lineLength : Nat) : stopTarget p k lineLength offA offB = (clampTo lineLength (splitPoint p k offA offB), true) :=
  if_neg h

/-- No split is reported exactly where the ranges meet. -/
theorem stopTarget_split_eq_false_iff (p : PlaceEntry) (k lineLength : Nat) (offA offB : Int) :
    (stopTarget p k lineLength offA offB).2 = false ↔ meetLow p k offA offB ≤ meetHigh p k offA offB := by
  by_cases h : meetLow p k offA offB ≤ meetHigh p k offA offB
  · simp [stopTarget_of_meet h, h]
  · simp [stopTarget_of_apart h, h]

/-- In either case the target lies on the line. -/
theorem stopTarget_le_lineLength (p : PlaceEntry) (k lineLength : Nat) (offA offB : Int) :
    (stopTarget p k lineLength offA offB).1 ≤ lineLength := by
  by_cases h : meetLow p k offA offB ≤ meetHigh p k offA offB
  · rw [stopTarget_of_meet h]
    exact Nat.min_le_right ..
  · rw [stopTarget_of_apart h]
    exact Nat.min_le_right ..

/-! ## The point chosen -/

/-- A point drawn into an interval stays nearer to where it was than any other point of the interval. -/
theorem natAbs_drawn_sub_le {lo hi y z : Int} (hlo : lo ≤ z) (hhi : z ≤ hi) :
    (max lo (min hi y) - y).natAbs ≤ (z - y).natAbs := by
  omega

/-- Car A has priority and car B's range ends below: the low end of car A's range. -/
theorem splitPoint_a_above {p : PlaceEntry} {k : Nat} {offA offB : Int} (hp : p.priority = .a)
    (h : (k : Int) + offB - p.b.lo < p.a.lo - offA) : splitPoint p k offA offB = p.a.lo - offA := by
  simp only [splitPoint, hp, if_pos h]

/-- Car A has priority and car B's range begins above: the high end of car A's range. -/
theorem splitPoint_a_below {p : PlaceEntry} {k : Nat} {offA offB : Int} (hp : p.priority = .a)
    (h : ¬(k : Int) + offB - p.b.lo < p.a.lo - offA) : splitPoint p k offA offB = p.a.hi - offA := by
  simp only [splitPoint, hp, if_neg h]

/-- Car B has priority and car A's range ends below: the low end of car B's range. -/
theorem splitPoint_b_above {p : PlaceEntry} {k : Nat} {offA offB : Int} (hp : p.priority = .b)
    (h : (p.a.hi : Int) - offA < k + offB - p.b.hi) : splitPoint p k offA offB = k + offB - p.b.hi := by
  simp only [splitPoint, hp, if_pos h]

/-- Car B has priority and car A's range begins above: the high end of car B's range. -/
theorem splitPoint_b_below {p : PlaceEntry} {k : Nat} {offA offB : Int} (hp : p.priority = .b)
    (h : ¬(p.a.hi : Int) - offA < k + offB - p.b.hi) : splitPoint p k offA offB = k + offB - p.b.lo := by
  simp only [splitPoint, hp, if_neg h]

/-- Settles O51: the two cases of the target, by whether the two ranges meet. Windows in order make the two sides of a split exclude each other. -/
theorem stopTargetKeepsTheCarsInside : Obligations.StopTargetKeepsTheCarsInside := by
  intro p k lineLength offA offB t inA inB held preferred
  have hsplit : t.2 = false ↔ meetLow p k offA offB ≤ meetHigh p k offA offB := stopTarget_split_eq_false_iff ..
  have hinside (x : Int) : inA x ∧ inB x ↔ meetLow p k offA offB ≤ x ∧ x ≤ meetHigh p k offA offB := bothInside_iff ..
  refine ⟨stopTarget_le_lineLength .., fun _ _ => ?splitOrMeet, fun hmeet => ?nearest, fun hA hB hapart => ?priorityEnd⟩
  case splitOrMeet =>
    rw [hsplit]
    constructor
    · intro h
      exact ⟨_, (hinside _).mpr ⟨le_refl _, h⟩⟩
    · rintro ⟨x, hx⟩
      obtain ⟨hlo, hhi⟩ := (hinside x).mp hx
      exact hlo.trans hhi
  case nearest =>
    have hle := hsplit.mp hmeet
    obtain ⟨hxA, hxB⟩ := (hinside (max (meetLow p k offA offB) (min (meetHigh p k offA offB) (preferredPoint p k offA offB)))).mpr
      ⟨le_max_left .., max_le hle (min_le_left ..)⟩
    refine ⟨_, hxA, hxB, congrArg Prod.fst (stopTarget_of_meet hle lineLength), fun y hy z hzA hzB => ?_⟩
    obtain ⟨hlo, hhi⟩ := (hinside z).mp ⟨hzA, hzB⟩
    rw [eq_preferredPoint hy.1 hy.2]
    exact natAbs_drawn_sub_le hlo hhi
  case priorityEnd =>
    have hle : ¬meetLow p k offA offB ≤ meetHigh p k offA offB := by simp [← hsplit, hapart]
    have ht : t.1 = held (splitPoint p k offA offB) := congrArg Prod.fst (stopTarget_of_apart hle lineLength)
    rw [ht]
    refine ⟨fun hp h => ?_, fun hp h => ?_, fun hp h => ?_, fun hp h => ?_⟩
    · rw [splitPoint_a_above hp h]
    · rw [splitPoint_a_below hp (by omega)]
    · rw [splitPoint_b_above hp h]
    · rw [splitPoint_b_below hp (by omega)]

end Sys2Proof.Machine
end

