-- ==== Sys2Proof/Proofs/ArmAndDisarm.lean ====
section
/-! PROOF. ARM LEG and DISARM: the change of the run state to one at rest, the envelope formed for the leg that begins or ends, the refusals in
order (R87 to R89). -/

namespace Sys2Proof.Machine

/-! ## A change to a run state at rest -/

/-- In a state other than DEPART and HALTED there is no brake-release timer, no halt place and no permit (R94, R102, R104). -/
theorem legInState_eq_legAtRest {new : RunState} (hd : new ≠ .depart) (hh : new ≠ .halted) (s : State) :
    legInState s new = legAtRest s.leg new := by
  simp only [legInState, legAtRest, if_neg hd, if_neg hh]

/-- In a state with the outputs off there is no ramp origin (R112, R134). -/
theorem tripInState_eq_tripAtRest {new : RunState} (he : new.energized = false) (s : State) :
    tripInState s new = tripAtRest s.trip := by
  have hs : new ≠ .serviceStop := by rintro rfl; contradiction
  simp only [tripInState, tripAtRest, he, if_neg hs]

/-- Outside SERVICE_STOP the generation timer is stopped (R147). -/
theorem limInState_eq_limAtRest {new : RunState} (hs : new ≠ .serviceStop) (s : State) :
    limInState s new = limAtRest s.lim := by
  simp only [limInState, limAtRest, if_neg hs]

/-- A change to a state with the outputs off, HALTED apart, is its fields at rest and one notice (R84). -/
theorem changeState_atRest {new : RunState} (he : new.energized = false) (hh : new ≠ .halted) (s : State) (c : StateCause) (k : Nat) :
    changeState s new c k =
      { s with
        leg := legAtRest s.leg new, trip := tripAtRest s.trip, lim := limAtRest s.lim
        portA := offered s .a (stateNotice s new c k s.leg.number) } := by
  have hd : new ≠ .depart := by rintro rfl; contradiction
  have hs : new ≠ .serviceStop := by rintro rfl; contradiction
  rw [changeState_plain hs, enterState, legInState_eq_legAtRest hd hh, tripInState_eq_tripAtRest he, limInState_eq_limAtRest hs]
  rfl

/-- The recomputation at a target change, from any state that agrees on what the envelope is formed from (R70, R77). -/
theorem recompute_eq {s t : State} (h : t.tables = s.tables) (he : t.est = s.est) (ha : t.leg.active = s.leg.active)
    (hd : t.leg.dir = s.leg.dir) (hr : t.leg.rStar = s.leg.rStar) (hv : t.env = s.env) :
    recompute t = { t with env := formEnvelope s } := by
  rw [recompute, formEnvelope_congr h he ha hd hr hv]
  rfl

/-- A servable request whose service leaves the Responder is its own service: no RESTART reset falls due. -/
theorem taken_of_servable_of_resp {s : State} {src : Byte} {r : Request} (h : servable s src r) (p : PortId)
    (hf : (serve s p src r).resp = s.resp) : taken s (fun t => takeRequest t p src r) = .next (serve s p src r) := by
  have ⟨⟨_, hrestart⟩, _⟩ := h
  exact taken_of_servable h p (by rw [hf, hrestart])

/-! ## DISARM (R89) -/

/-- The leg as DISARM leaves it: READY, no longer active, all else kept. -/
def disarmedLeg (s : State) : Leg := { legAtRest s.leg .ready with active := false }

/-- The whole effect of an accepted DISARM before its reply. -/
theorem endLeg_changeState_ready (s : State) :
    endLeg (changeState s .ready .disarm 0) =
      { s with
        leg := disarmedLeg s, trip := tripAtRest s.trip, lim := limAtRest s.lim
        env := formEnvelope { s with leg := disarmedLeg s }
        portA := offered s .a (stateNotice s .ready .disarm 0 s.leg.number) } := by
  rw [changeState_atRest rfl (by decide)]
  exact recompute_eq (s := { s with leg := disarmedLeg s }) rfl rfl rfl rfl rfl rfl

/-- A servable DISARM is its own service. -/
theorem exec_disarm_of_servable {s : State} {src : Byte} (h : servable s src .disarm) (p : PortId) :
    exec (.disarm p src) s = .next (serveDisarm s p src) :=
  taken_of_servable_of_resp h p (by simp [serve])

/-- Settles O27: a servable DISARM is its own service, refused outside ARMED. -/
theorem disarmEndsTheLeg : Obligations.DisarmEndsTheLeg := by
  intro p src s h
  rw [exec_disarm_of_servable h p, serveDisarm]
  constructor
  · intro harmed
    rw [if_neg (not_not.mpr harmed), endLeg_changeState_ready]
    rfl
  · intro hother
    rw [if_pos hother, answer_eq]
    rfl

/-! ## ARM LEG: what it tests (R87) -/

/-- The run states in which a leg can be armed. -/
def standsForLeg (s : State) : Prop := s.leg.run = .ready ∨ s.leg.run = .halted

theorem dir_ofByte_eq_none {b : Byte} (h : 1 < b.toNat) : Dir.ofByte? b = none := by
  have h0 : b ≠ 0 := by rintro rfl; contradiction
  have h1 : b ≠ 1 := by rintro rfl; contradiction
  simp only [Dir.ofByte?, if_neg h0, if_neg h1]

theorem place_ofByte_eq_none {b : Byte} (h : 2 < b.toNat) : Place.ofByte? b = none := by
  have h0 : b ≠ 0 := by rintro rfl; contradiction
  have h1 : b ≠ 1 := by rintro rfl; contradiction
  have h2 : b ≠ 2 := by rintro rfl; contradiction
  simp only [Place.ofByte?, if_neg h0, if_neg h1, if_neg h2]

/-- A place lies ahead: above car A on an UP leg, below it on a DOWN leg. -/
theorem placeAhead_iff (s : State) (d : Dir) (pl : Place) :
    placeAhead s d pl = true ↔
      (d = .up ∧ s.aPos < ((s.tables.working.places.get pl).window .a).lo) ∨
      (d = .down ∧ ((s.tables.working.places.get pl).window .a).hi < s.aPos) := by
  cases d <;> simp [placeAhead, PlaceEntry.window]

/-! ## ARM LEG: what it does (R88) -/

/-- The stop target of a place as the tables and the estimator have it now (R90, R91). -/
def targetNow (s : State) (pl : Place) : Nat × Bool :=
  stopTarget (s.tables.working.places.get pl) s.line.ropeSum s.line.lineLength s.est.offA s.est.offB

/-- The leg as ARM LEG leaves it. -/
def armedLeg (s : State) (d : Dir) (pl : Place) : Leg :=
  { legAtRest s.leg .armed with
    number := s.leg.number + 1, dir := d, endPlace := pl, frozen := false
    rStar := (targetNow s pl).1, split := (targetNow s pl).2
    active := true, mismatchA := false, mismatchB := false }

/-- While the target is not frozen it is computed afresh (R92). -/
theorem computeTarget_of_not_frozen {s : State} (h : s.leg.frozen = false) :
    computeTarget s = { s.leg with rStar := (targetNow s s.leg.endPlace).1, split := (targetNow s s.leg.endPlace).2 } := by
  rw [computeTarget, if_neg (by simp [h])]
  rfl

/-- The whole effect of an accepted ARM LEG before its reply. -/
theorem armLeg_eq (s : State) (d : Dir) (pl : Place) :
    armLeg s d pl =
      { s with
        leg := armedLeg s d pl, trip := tripAtRest s.trip, lim := limAtRest s.lim
        env := formEnvelope { s with leg := armedLeg s d pl }
        portA := offered s .a (stateNotice s .armed .armLeg 0 (s.leg.number + 1)) } := by
  rw [armLeg, computeTarget_of_not_frozen rfl, changeState_atRest rfl (by decide)]
  exact recompute_eq (s := { s with leg := armedLeg s d pl }) rfl rfl rfl rfl rfl rfl

/-- Out of READY and HALTED the request is refused before its bytes are looked at. -/
theorem serveArmLeg_of_not_standing {s : State} (h : ¬standsForLeg s) (p : PortId) (src db pb : Byte) :
    serveArmLeg s p src db pb = answered s p src 0x05 .refusedState [] := by
  rw [serveArmLeg, if_pos (not_or.mp h)]
  rfl

/-- A byte that names no direction or no place. -/
theorem serveArmLeg_of_unnamed {s : State} (h : standsForLeg s) {db pb : Byte} (hb : 1 < db.toNat ∨ 2 < pb.toNat) (p : PortId)
    (src : Byte) : serveArmLeg s p src db pb = answered s p src 0x05 .badLeg [] := by
  simp only [serveArmLeg, if_neg (not_and_or.mpr (h.imp not_not.mpr not_not.mpr))]
  obtain hd | hp := hb
  · rw [dir_ofByte_eq_none hd]
    rfl
  · rw [place_ofByte_eq_none hp]
    cases Dir.ofByte? db <;> rfl

/-- Bytes that name a direction and a place: the place is judged first, then the doors. -/
theorem serveArmLeg_of_named {s : State} (h : standsForLeg s) (p : PortId) (src : Byte) (d : Dir) (pl : Place) :
    serveArmLeg s p src (byteOf d.num) (byteOf pl.num) =
      if placeAhead s d pl = true then
        if doorsClosed s .carADoors = true ∧ doorsClosed s .carBDoors = true then
          answered (armLeg s d pl) p src 0x05 .done (armBytes (armLeg s d pl))
        else answered s p src 0x05 .doorsOpen []
      else answered s p src 0x05 .badLeg [] := by
  simp only [serveArmLeg, if_neg (not_and_or.mpr (h.imp not_not.mpr not_not.mpr)), dir_ofByte_num, place_ofByte_num]
  by_cases hahead : placeAhead s d pl = true
  · by_cases hdoors : doorsClosed s .carADoors = true ∧ doorsClosed s .carBDoors = true
    · simp [hahead, hdoors, answer_eq, Request.code]
    · simp [hahead, hdoors, answer_eq, Request.code]
  · simp [hahead, answer_eq, Request.code]

/-- A servable ARM LEG is its own service. -/
theorem exec_armLeg_of_servable {s : State} {src db pb : Byte} (h : servable s src (.armLeg db pb)) (p : PortId) :
    exec (.armLeg p src db pb) s = .next (serveArmLeg s p src db pb) :=
  taken_of_servable_of_resp h p (by simp [serve])

/-- Settles O26: a servable ARM LEG is its own service, whose outcome the run state, the two bytes, the place and the doors decide in this order. -/
theorem armLegArmsTheLeg : Obligations.ArmLegArmsTheLeg := by
  intro p src db pb s h standing doors
  rw [exec_armLeg_of_servable h p]
  refine ⟨?named, fun hst hb => ?unnamed, fun hst => ?notStanding⟩
  case named =>
    rintro d pl hst rfl rfl w ahead
    rw [serveArmLeg_of_named hst]
    have hiff : placeAhead s d pl = true ↔ ahead := placeAhead_iff s d pl
    refine ⟨fun hahead hdoors => ?_, fun hahead => ?_, fun hahead hdoors => ?_⟩
    · rw [if_pos (hiff.mpr hahead), if_pos hdoors, armLeg_eq]
      rfl
    · rw [if_neg (hahead ∘ hiff.mp)]
    · rw [if_pos (hiff.mpr hahead), if_neg hdoors]
  case unnamed => exact congrArg _ (serveArmLeg_of_unnamed hst hb p src)
  case notStanding => exact congrArg _ (serveArmLeg_of_not_standing hst p src db pb)

end Sys2Proof.Machine
end

