-- ==== Sys2Proof/Proofs/ResetTrip.lean ====
section
/-! PROOF. RESET TRIP: what its service does to the Fault Set in SAFE, its refusal elsewhere, and the command that takes it (R115, R130). -/

namespace Sys2Proof.Machine

/-- A servable RESET TRIP is its own service. -/
theorem exec_resetTrip_of_servable {s : State} {src : Byte} (h : servable s src .resetTrip) (p : PortId) :
    exec (.resetTrip p src) s = .next (serveResetTrip s p src) :=
  taken_of_servable_of_resp h p (by simp [serve])

/-- In SAFE the reply is offered from the state with the Fault Set cleared, and carries the number of records left (R130). -/
theorem serveResetTrip_of_safe {s : State} (h : s.leg.run = .safe) (p : PortId) (src : Byte) :
    serveResetTrip s p src =
      answered (tripCleared s) p src 0x03 .done [byteOf (s.trip.faults.filter (keptAtReset s)).length] := by
  rw [serveResetTrip, if_neg (not_not.mpr h), answer_eq]
  rfl

/-- Out of SAFE the request is refused and the Fault Set is unchanged (R130). -/
theorem serveResetTrip_of_not_safe {s : State} (h : s.leg.run ≠ .safe) (p : PortId) (src : Byte) :
    serveResetTrip s p src = answered s p src 0x03 .refusedState [] := by
  rw [serveResetTrip, if_pos h, answer_eq]
  rfl

/-- Settles O28: a servable RESET TRIP is its own service. What it keeps in SAFE is the statement's filter, record by record, since
`keptAtReset` is the test written there. -/
theorem resetTripClearsTheFaultSet : Obligations.ResetTripClearsTheFaultSet := by
  intro p src s h
  rw [exec_resetTrip_of_servable h p]
  constructor
  · intro hsafe kept
    have hkept : s.trip.faults.filter (keptAtReset s) = kept := rfl
    have hcleared : tripCleared s = { s with trip := { s.trip with faults := kept } } := rfl
    rw [serveResetTrip_of_safe hsafe, hkept, hcleared]
  · intro hother
    rw [serveResetTrip_of_not_safe hother]

end Sys2Proof.Machine
end

