-- ==== Sys2Proof/Proofs/DemandClamp.lean ====
section
/-! PROOF. The start of a demand's transmission: what the run state lets it carry, the slip step it can be, and the parts it leaves alone
(R133, R140, R141). -/

namespace Sys2Proof.Machine

/-! ## What a demand carries, by run state (R140) -/

/-- The setpoint, ENABLE_REQUEST and direction a demand leaves with. -/
def sentFields (s : State) (d : Demand) : Nat × Bool × Dir := (sentSetpoint s d, sentEnable s d, sentDir s d)

/-- With the outputs off no motion is asked for, and the direction is the demand's own. -/
theorem sentFields_of_not_energized {s : State} (h : s.leg.run.energized = false) (d : Demand) :
    sentFields s d = (0, false, d.dir) := by
  cases hr : s.leg.run with
  | safe | ready | armed | halted | maintenance | emergencyStop =>
    simp [sentFields, sentSetpoint, sentEnable, sentDir, RunState.energized, hr]
  | depart | run | approach | creep | serviceStop => simp [RunState.energized, hr] at h

/-- In DEPART the drive is enabled and held at 0. -/
theorem sentFields_of_depart {s : State} (h : s.leg.run = .depart) (d : Demand) :
    sentFields s d = (0, true, s.leg.dir) := by
  simp [sentFields, sentSetpoint, sentEnable, sentDir, RunState.energized, h]

/-- On a leg under way the setpoint is lowered to the system envelope. -/
theorem sentFields_of_travelling {s : State} (h : s.leg.run = .run ∨ s.leg.run = .approach ∨ s.leg.run = .creep) (d : Demand) :
    sentFields s d = (min d.offered s.env.e, d.enable, s.leg.dir) := by
  obtain h | h | h := h <;> simp [sentFields, sentSetpoint, sentEnable, sentDir, RunState.energized, h]

/-- In SERVICE_STOP the setpoint is lowered to the ramp ceiling as well. -/
theorem sentFields_of_serviceStop {s : State} (h : s.leg.run = .serviceStop) (d : Demand) :
    sentFields s d = (min (min d.offered s.env.e) (s.rampCeiling.getD 0), true, s.leg.dir) := by
  simp [sentFields, sentSetpoint, sentEnable, sentDir, RunState.energized, h]

/-! ## What its start writes -/

/-- A slip step is a difference, either way, of more than a step that is not 0 (R133). -/
theorem isSlipStep_iff (step old new : Nat) :
    isSlipStep step old new = true ↔ step ≠ 0 ∧ (old + step < new ∨ new + step < old) := by
  simp [isSlipStep]

/-- The Trip Unit takes the setpoint sent, and a slip step arms slip blanking (R133, R143). -/
theorem takeSetpoint_eq (s : State) (x : Nat) :
    takeSetpoint s x = { s.trip with
      lastSetpoint := x
      slipTimer := if s.line.slipStep ≠ 0 ∧ (s.trip.lastSetpoint + s.line.slipStep < x ∨ x + s.line.slipStep < s.trip.lastSetpoint)
        then some (s.now + BitVec.ofNat 32 s.line.slipTime) else s.trip.slipTimer } := by
  simp only [takeSetpoint, isSlipStep_iff, timerAfter]

/-- The start of a transmission writes Port B and the Trip Unit alone. -/
theorem sendDemand_unchangedBut (s : State) (d : Demand) : unchangedBut [.portB, .trip] s (sendDemand s d) := by
  intro p hp
  cases p <;> simp at hp <;> simp [Part.same]

/-- Settles O16: the run state decides what is sent; the line, the last transmitted setpoint and slip blanking follow from it. -/
theorem demandIsClampedAsItsTransmissionBegins : Obligations.DemandIsClampedAsItsTransmissionBegins := by
  intro s d ceiling sent flags seq
  have hsent : sentFields s d = sent := by
    cases hr : s.leg.run with
    | safe | ready | armed | halted | maintenance | emergencyStop =>
      simpa only [sent, hr] using sentFields_of_not_energized (by rw [hr]; rfl) d
    | depart => simpa only [sent, hr] using sentFields_of_depart hr d
    | run | approach | creep => simpa only [sent, hr] using sentFields_of_travelling (by simp [hr]) d
    | serviceStop =>
      simp only [sent, hr]
      exact sentFields_of_serviceStop hr d
  have hpoint : sentSetpoint s d = sent.1 := congrArg Prod.fst hsent
  have hpayload : sentPayload s d = toBytes 2 sent.1 ++ toBytes 1 flags := by
    simp only [flags, ← hsent]
    rfl
  have htrip : (sendDemand s d).trip = takeSetpoint s sent.1 := by rw [sendDemand_trip, hpoint]
  refine ⟨?onLine, ?lastSetpoint, sendDemand_unchangedBut s d, ?slipBlanking⟩
  case onLine =>
    rw [sendDemand_portB, demandOnLine, hpayload]
    rfl
  case lastSetpoint => rw [htrip, takeSetpoint]
  case slipBlanking => rw [htrip, takeSetpoint_eq]

end Sys2Proof.Machine
end

