-- ==== Sys2Proof/Proofs/LeaveMaintenance.lean ====
section
/-! PROOF. LEAVE MAINTENANCE: BUSY while a store operation is in flight, else its own service by run state (R86, R165, R176). -/

namespace Sys2Proof.Machine

/-- A store operation is in flight exactly where there is one (R164). -/
theorem inFlight_eq_true_iff (op : StoreOp) : op.inFlight = true ↔ op ≠ .none := by
  cases op <;> simp [StoreOp.inFlight]

/-- A request that passes the source step and needs the store is answered BUSY while an operation is in flight (R165, step 5). -/
theorem takeRequest_of_inFlight {s : State} {src : Byte} {r : Request} (ho : ordinary s) (hseq : s.resp.seq ≠ .pending)
    (hsrc : mayChangeState s src) (hneeds : r.needsStore = true) (hop : s.resp.op ≠ .none) (p : PortId) :
    takeRequest s p src r = answered s p src r.code .busy [] := by
  obtain ⟨hphase, hrestart⟩ := ho
  have hbusy : startUpBusy s r = false := by simp [startUpBusy, hphase, hrestart]
  have hallowed : sourceAllowed s src = true := by simpa [sourceAllowed] using hsrc
  have hflight : s.resp.op.inFlight = true := (inFlight_eq_true_iff _).mpr hop
  simp [takeRequest, serveFrom, hbusy, hseq, hallowed, hneeds, hflight, answer_eq]

/-- A command that is the taking of a request answered BUSY at the store step. -/
theorem taken_of_inFlight {s : State} {src : Byte} {r : Request} (ho : ordinary s) (hseq : s.resp.seq ≠ .pending)
    (hsrc : mayChangeState s src) (hneeds : r.needsStore = true) (hop : s.resp.op ≠ .none) (p : PortId) :
    taken s (fun t => takeRequest t p src r) = .next (answered s p src r.code .busy []) := by
  have htake := takeRequest_of_inFlight ho hseq hsrc hneeds hop p
  obtain ⟨hphase, hrestart⟩ := ho
  rw [taken_frame _ (by simp [hphase]) hrestart] <;> rw [htake]
  simp [answered]

/-- In MAINTENANCE the staged copy is discarded and the run state changes to SAFE before the reply (R176). -/
theorem serveLeaveMaintenance_of_maintenance {s : State} (h : s.leg.run = .maintenance) (p : PortId) (src : Byte) :
    serveLeaveMaintenance s p src = answered
      { s with
        leg := legAtRest s.leg .safe, trip := tripAtRest s.trip, lim := limAtRest s.lim
        resp := { s.resp with staged := none }
        portA := offered s .a (stateNotice s .safe .leaveMaintenance 0 s.leg.number) } p src 0x0F .done [] := by
  rw [serveLeaveMaintenance, if_neg (not_not.mpr h), changeState_atRest rfl (by decide), answer_eq]
  rfl

/-- In any other state the request is refused (R176). -/
theorem serveLeaveMaintenance_of_not_maintenance {s : State} (h : s.leg.run ≠ .maintenance) (p : PortId) (src : Byte) :
    serveLeaveMaintenance s p src = answered s p src 0x0F .refusedState [] := by
  rw [serveLeaveMaintenance, if_pos h, answer_eq]
  rfl

/-- LEAVE MAINTENANCE discards the staged copy or leaves the Responder; neither makes a restart pending. -/
@[simp] theorem serveLeaveMaintenance_restartPending (s : State) (p : PortId) (src : Byte) :
    (serveLeaveMaintenance s p src).resp.restartPending = s.resp.restartPending := by
  unfold serveLeaveMaintenance
  split <;> simp

/-- A servable LEAVE MAINTENANCE is its own service. -/
theorem exec_leaveMaintenance_of_servable {s : State} {src : Byte} (h : servable s src .leaveMaintenance) (p : PortId) :
    exec (.leaveMaintenance p src) s = .next (serveLeaveMaintenance s p src) := by
  have ⟨⟨_, hrestart⟩, _⟩ := h
  exact taken_of_servable h p (by simp [serve, hrestart])

/-- Settles O36: with a store operation in flight the request ends at step 5; without one it is servable, and the run state decides. -/
theorem leaveMaintenanceReturnsToSafe : Obligations.LeaveMaintenanceReturnsToSafe := by
  intro p src s ho hseq hsrc
  have hservable (hop : s.resp.op = .none) : servable s src .leaveMaintenance :=
    ⟨ho, hseq, fun _ => hsrc, fun _ => by rw [hop]; rfl⟩
  refine ⟨fun hop => ?busy, fun hop hrun => ?left, fun hop hrun => ?refused⟩
  case busy =>
    exact taken_of_inFlight ho hseq hsrc (r := .leaveMaintenance) rfl hop p
  case left => rw [exec_leaveMaintenance_of_servable (hservable hop), serveLeaveMaintenance_of_maintenance hrun]
  case refused => rw [exec_leaveMaintenance_of_servable (hservable hop), serveLeaveMaintenance_of_not_maintenance hrun]

end Sys2Proof.Machine
end

