-- ==== Sys2Proof/Proofs/TableRead.lean ====
section
/-! PROOF. TABLE READ: its service by the entry named, the copy asked for and the run state (R173). -/

namespace Sys2Proof.Machine

/-- A servable TABLE READ is its own service. -/
theorem exec_tableRead_of_servable {s : State} {src table index copy : Byte} (h : servable s src (.tableRead table index copy))
    (p : PortId) : exec (.tableRead p src table index copy) s = .next (serveTableRead s p src table index copy) :=
  taken_of_servable_of_resp h p (by simp [serve])

/-- A table and an index that name no entry, or a copy that is neither 0 nor 1. -/
theorem serveTableRead_badIndex {table index copy : Byte}
    (h : ¬(entryLength table.toNat index.toNat).isSome = true ∨ 1 < copy.toNat) (s : State) (p : PortId) (src : Byte) :
    serveTableRead s p src table index copy = answered s p src 0x09 .badIndex [] := by
  rw [Option.not_isSome_iff_eq_none] at h
  simp only [serveTableRead, if_pos h]
  rfl

/-- There is no staged copy to read out of MAINTENANCE. -/
theorem serveTableRead_staged_refused {table index : Byte} {s : State} (hn : (entryLength table.toNat index.toNat).isSome = true)
    (hrun : s.leg.run ≠ .maintenance) (p : PortId) (src : Byte) :
    serveTableRead s p src table index 1 = answered s p src 0x09 .refusedState [] := by
  rw [Option.isSome_iff_ne_none] at hn
  simp [serveTableRead, hn, hrun, answer_eq, Request.code]

/-- An entry named is read from the copy asked for, the staged one in MAINTENANCE alone. -/
theorem serveTableRead_entry {table index copy : Byte} {s : State} (hn : (entryLength table.toNat index.toNat).isSome = true)
    (hcopy : copy = 0 ∨ copy = 1 ∧ s.leg.run = .maintenance) (p : PortId) (src : Byte) :
    serveTableRead s p src table index copy = answered s p src 0x09 .done
      (table :: index :: entryBytes (copyRead s (decide (copy = 1))) table.toNat index.toNat) := by
  rw [Option.isSome_iff_ne_none] at hn
  obtain rfl | ⟨rfl, hrun⟩ := hcopy
  · simp [serveTableRead, hn, answer_eq, Request.code]
  · simp [serveTableRead, hn, hrun, answer_eq, Request.code]

/-- The staged copy read is the one that stands. -/
theorem copyRead_staged {s : State} {t : TableSet} (h : s.resp.staged = some t) : copyRead s true = t := by
  simp [copyRead, h]

/-- Settles O24: a servable TABLE READ is its own service, whose answer the entry named, the copy and the run state decide in this order. -/
theorem tableReadReturnsTheEntry : Obligations.TableReadReturnsTheEntry := by
  intro p src table index copy s h entryOf named
  rw [exec_tableRead_of_servable h p]
  refine ⟨fun hbad => ?badIndex, fun hn hc => ?active, fun hn hc hrun => ?refused, fun t hn hc hrun hstaged => ?staged⟩
  case badIndex => exact congrArg _ (serveTableRead_badIndex hbad s p src)
  case active =>
    subst hc
    exact congrArg _ (serveTableRead_entry hn (.inl rfl) p src)
  case refused =>
    subst hc
    exact congrArg _ (serveTableRead_staged_refused hn hrun p src)
  case staged =>
    subst hc
    rw [serveTableRead_entry hn (.inr ⟨rfl, hrun⟩), decide_eq_true rfl, copyRead_staged hstaged]

end Sys2Proof.Machine
end

