-- ==== Sys2Proof/Proofs/StatusRead.lean ====
section
/-! PROOF. STATUS READ: served at its own step whatever stands in a request's way, its sync bits read back, and the RESTART reply that its own
reply leaves where it is (R165, R167, R169, R170, R177). -/

namespace Sys2Proof.Machine

/-! ## The four sync states of a byte (R162) -/

theorem syncState_num_lt (x : SyncState) : x.num < 4 := by cases x <;> decide

/-- Four numbers of two bits in one byte, the first in bits 7 and 6, are read back each from its own bits. -/
theorem packedPairs_read {a b c d : Nat} (ha : a < 4) (hb : b < 4) (hc : c < 4) (hd : d < 4) :
    let n := (byteOf (64 * a + 16 * b + 4 * c + d)).toNat
    n / 64 % 4 = a ∧ n / 16 % 4 = b ∧ n / 4 % 4 = c ∧ n % 4 = d := by
  simp only [byteOf, BitVec.toNat_ofNat]
  omega

/-- The four bytes of sync states in the results of STATUS READ. -/
def syncBytes (s : State) : List Byte :=
  [syncByte s 0 1 2 3, syncByte s 4 5 6 7, syncByte s 8 9 10 11, syncByte s 12 13 14 15]

/-- Each record's sync state stands at its two bits. -/
theorem syncBytes_read (s : State) (i : Fin 16) :
    ((syncBytes s).getD (i.val / 4) 0).toNat / 4 ^ (3 - i.val % 4) % 4 = (s.record i).sync.num := by
  have hbyte (a b c d : Fin 16) := packedPairs_read (syncState_num_lt (s.record a).sync) (syncState_num_lt (s.record b).sync)
    (syncState_num_lt (s.record c).sync) (syncState_num_lt (s.record d).sync)
  obtain ⟨h0, h1, h2, h3⟩ := hbyte 0 1 2 3
  obtain ⟨h4, h5, h6, h7⟩ := hbyte 4 5 6 7
  obtain ⟨h8, h9, h10, h11⟩ := hbyte 8 9 10 11
  obtain ⟨h12, h13, h14, h15⟩ := hbyte 12 13 14 15
  fin_cases i <;> simpa [syncBytes, syncByte]

/-! ## A reply beside the RESTART reply -/

/-- A port that holds the RESTART reply still holds it after an offer, placed or dropped. -/
theorem port_offer_holdsRestart {p : Port} (h : p.holdsRestart = true) (own : Byte) (f : OutFrame) :
    (p.offer own f).holdsRestart = true := by
  unfold Port.offer
  split
  next hidle =>
    obtain ⟨hqueue, hline⟩ := hidle
    simp [Port.holdsRestart, hqueue, hline] at h
  next =>
    split
    next =>
      simp only [Port.holdsRestart, Bool.or_eq_true, List.any_append] at h ⊢
      exact h.imp_left .inl
    next => exact h

/-- An offer to either port leaves the RESTART reply where a port holds it. -/
theorem offer_holdsRestart {s : State} (h : s.portA.holdsRestart = true ∨ s.portB.holdsRestart = true) (p : PortId) (f : OutFrame) :
    (s.offer p f).portA.holdsRestart = true ∨ (s.offer p f).portB.holdsRestart = true := by
  cases p
  · exact h.imp_left fun ha => port_offer_holdsRestart ha s.straps.own f
  · exact h.imp_right fun hb => port_offer_holdsRestart hb s.straps.own f

/-- Where a pending restart has its reply at a port, an answer brings about no RESTART reset. -/
theorem settle_answered {s : State} (h : s.resp.restartPending = true → s.portA.holdsRestart = true ∨ s.portB.holdsRestart = true)
    (p : PortId) (src code : Byte) (rc : ReplyCode) (bs : List Byte) :
    settle (answered s p src code rc bs) = answered s p src code rc bs := by
  by_cases hr : s.resp.restartPending = true
  · exact settle_of_held (offer_holdsRestart (h hr) p _)
  · exact settle_of_no_restart (by simpa [answered] using hr)

/-! ## The request -/

/-- The state a request other than the matching confirm is served from: in PENDING the sequence is frozen first (R169). -/
def frozenIfPending (s : State) : State := if s.resp.seq = .pending then freeze s else s

/-- No step before its own answers STATUS READ (R165 to R167). -/
theorem takeRequest_statusRead (s : State) (p : PortId) (src : Byte) :
    takeRequest s p src .statusRead = serveStatusRead (frozenIfPending s) p src := by
  have hserved (t : State) : serveFrom t p src .statusRead = serveStatusRead t p src := rfl
  by_cases hseq : s.resp.seq = .pending <;>
    simp [takeRequest, startUpBusy, confirmMatches, frozenIfPending, hseq, hserved]

/-- A freeze leaves the RESTART that is pending and the ports. -/
theorem frozenIfPending_restart {s : State}
    (h : s.resp.restartPending = true → s.portA.holdsRestart = true ∨ s.portB.holdsRestart = true) :
    (frozenIfPending s).resp.restartPending = true →
      (frozenIfPending s).portA.holdsRestart = true ∨ (frozenIfPending s).portB.holdsRestart = true := by
  unfold frozenIfPending
  split <;> exact h

/-- The results hold what stood before the freeze, the sequence apart. -/
theorem statusBytes_frozenIfPending (s : State) :
    statusBytes (frozenIfPending s) =
      [byteOf s.leg.run.num, byteOf (flagNum s.tables.valid), byteOf (frozenIfPending s).resp.seq.num] ++ syncBytes s ++
        toBytes 2 s.env.e ++ toBytes 2 s.est.v ++ toBytes 3 s.rMm ++ toBytes 3 s.aPos ++ toBytes 3 s.bPos ++
        toBytes 3 s.leg.rStar := by
  unfold frozenIfPending
  split <;> rfl

/-- Settles O21: STATUS READ reaches its own step in every state that takes commands, and its reply makes no RESTART reset due. -/
theorem statusReadReportsTheState : Obligations.StatusReadReportsTheState := by
  intro p src s hphase hrestart u
  have hu : u = frozenIfPending s := rfl
  refine ⟨syncBytes s, rfl, syncBytes_read s, ?_⟩
  calc exec (.statusRead p src) s
      = .next (settle (takeRequest s p src .statusRead)) :=
        taken_settled (fun t => takeRequest t p src .statusRead) hphase
    _ = .next (settle (answered u p src 0x01 .done (statusBytes u))) := by rw [takeRequest_statusRead, hu]; rfl
    _ = .next (answered u p src 0x01 .done (statusBytes u)) := by rw [hu, settle_answered (frozenIfPending_restart hrestart)]
    _ = _ := by rw [hu, statusBytes_frozenIfPending]

end Sys2Proof.Machine
end

