-- ==== Sys2Proof/Proofs/Verify.lean ====
section
/-! PROOF. VERIFY at its acceptance: the range, the blocks of a range whose header fails its own check, and the service by first block and header
(R175, R185). -/

namespace Sys2Proof.Machine

/-! ## The range -/

/-- The range is not empty and ends by block 5. -/
theorem verifyLast_bounds {first : Nat} (hfirst : first ≤ 5) (count : Nat) :
    first ≤ verifyLast first count ∧ verifyLast first count ≤ 5 := by
  unfold verifyLast
  omega

/-- The blocks of a range, counted, and as the reply carries them: one bit each, from the first block's to the last one's. -/
theorem blockRange_length_and_mask : ∀ first last : Fin 6, first ≤ last →
    (blockRange first last).length = last + 1 - first ∧ verifyMask (blockRange first last) = 2 ^ (last + 1 : Nat) - 2 ^ first.val := by
  decide

/-! ## A header that fails its own check -/

/-- One raise per block: how many blocks there are decides the state, not which they are. -/
theorem storeRaises_congr {l m : List Nat} (h : l.length = m.length) (s : State) :
    l.foldl (fun t _ => raiseFault t .storeMismatch) s = m.foldl (fun t _ => raiseFault t .storeMismatch) s := by
  rw [List.foldl_const (raiseFault · .storeMismatch), List.foldl_const (raiseFault · .storeMismatch), h]

/-- The raises leave the Responder. -/
theorem storeRaises_resp (s : State) (l : List Nat) : (l.foldl (fun t _ => raiseFault t .storeMismatch) s).resp = s.resp := by
  obtain ⟨-, -, -, -, -, hresp, -⟩ := storeRaises_frame s l
  exact hresp

/-- The end of a store operation, from a state that has the Responder of another. -/
theorem clearOp_of_resp {s t : State} (h : t.resp = s.resp) : clearOp t = { t with resp := { s.resp with op := .none } } := by
  rw [clearOp, h]
  rfl

/-- The end of a VERIFY is its reply, with no store operation left. -/
theorem verifyDone_eq (s : State) (p : PortId) (dst : Byte) (bad : List Nat) :
    verifyDone s p dst bad =
      { answered s p dst 0x0C .done [byteOf (verifyMask bad)] with resp := { s.resp with op := .none } } :=
  clearOp_of_resp (by simp)

/-! ## The service -/

/-- With a good header the operation begins over the range. -/
theorem startVerify_of_headerGood {s : State} (h : headerGood s.tables.header = true) (p : PortId) (dst : Byte) (first count : Nat) :
    startVerify s p dst first count =
      { s with resp := { s.resp with op := .verify dst p first (verifyLast first count) [] } } :=
  if_pos h

/-- With a header that fails its own check every block of the range is raised and replied, and the VERIFY ends (log 19). -/
theorem startVerify_of_headerBad {s : State} {first : Nat} (h : headerGood s.tables.header = false) (hfirst : first ≤ 5)
    (p : PortId) (dst : Byte) (count : Nat) :
    let last := verifyLast first count
    let raised := (List.range (last + 1 - first)).foldl (fun u _ => raiseFault u .storeMismatch) s
    startVerify s p dst first count =
      { answered raised p dst 0x0C .done [byteOf (2 ^ (last + 1) - 2 ^ first)] with resp := { s.resp with op := .none } } := by
  intro last raised
  obtain ⟨hle, hlast⟩ : first ≤ last ∧ last ≤ 5 := verifyLast_bounds hfirst count
  obtain ⟨hlength, hmask⟩ := blockRange_length_and_mask ⟨first, by omega⟩ ⟨last, by omega⟩ hle
  have hraised : (blockRange first last).foldl (fun t _ => raiseFault t .storeMismatch) s = raised :=
    storeRaises_congr (by rw [hlength, List.length_range]) s
  calc startVerify s p dst first count
      = verifyDone ((blockRange first last).foldl (fun t _ => raiseFault t .storeMismatch) s) p dst (blockRange first last) := by
        rw [startVerify, if_neg (by simp [h])]
    _ = { answered raised p dst 0x0C .done [byteOf (verifyMask (blockRange first last))] with
          resp := { raised.resp with op := .none } } := by rw [hraised, verifyDone_eq]
    _ = _ := by rw [hmask, storeRaises_resp]

/-- Of the Responder a VERIFY writes the store operation alone: it makes no restart pending. -/
@[simp] theorem serveVerify_restartPending (s : State) (p : PortId) (src first count : Byte) :
    (serveVerify s p src first count).resp.restartPending = s.resp.restartPending := by
  unfold serveVerify
  split
  case isTrue => simp
  case isFalse =>
    unfold startVerify
    split
    case isTrue => rfl
    case isFalse => simp only [verifyDone_eq, storeRaises_resp]

/-- A servable VERIFY is its own service. -/
theorem exec_verify_of_servable {s : State} {src first count : Byte} (h : servable s src (.verify first count)) (p : PortId) :
    exec (.verify p src first count) s = .next (serveVerify s p src first count) := by
  have ⟨⟨_, hrestart⟩, _⟩ := h
  exact taken_of_servable h p (by simp [serve, hrestart])

/-- A first block outside 1..5 is answered at once (R175). -/
theorem serveVerify_badIndex {first : Byte} (h : first.toNat < 1 ∨ 5 < first.toNat) (s : State) (p : PortId) (src count : Byte) :
    serveVerify s p src first count = answered s p src 0x0C .badIndex [] := by
  rw [serveVerify, if_pos h, answer_eq]
  rfl

/-- A first block of 1..5 starts the VERIFY. -/
theorem serveVerify_of_block {first : Byte} (hlow : 1 ≤ first.toNat) (hhigh : first.toNat ≤ 5) (s : State) (p : PortId)
    (src count : Byte) : serveVerify s p src first count = startVerify s p src first.toNat count.toNat :=
  if_neg (by omega)

/-- Settles O35: a servable VERIFY is its own service, whose outcome the first block and the header's own check decide in this order. -/
theorem verifyTakesItsRange : Obligations.VerifyTakesItsRange := by
  intro p src first count s h last
  rw [exec_verify_of_servable h p]
  refine ⟨fun hbad => ?badIndex, fun hlow hhigh hgood => ?begun, fun hlow hhigh hheader => ?ended⟩
  case badIndex => rw [serveVerify_badIndex hbad]
  case begun =>
    rw [serveVerify_of_block hlow hhigh, startVerify_of_headerGood hgood]
    rfl
  case ended =>
    rw [serveVerify_of_block hlow hhigh, startVerify_of_headerBad hheader hhigh]
    rfl

end Sys2Proof.Machine
end

