-- ==== Sys2Proof/Proofs/Reactions.lean ====
section
/-! PROOF. What the blocks do in the wake of an event, said once: the relation of two states that the Envelope Unit, the Leg Controller, the Trip
Unit, the Demand Limiter and the ports can bring about without a write of the tables, the records, the estimator or the Responder. -/

namespace Sys2Proof.Machine

/-! ## The relation -/

/-- A write of the Leg Controller that leaves the run state, the halt place, the permits and the Stop Log, and starts no brake-release timer. -/
structure Leg.SameStanding (l m : Leg) : Prop where
  run : m.run = l.run
  haltPlace : m.haltPlace = l.haltPlace
  brakeTimer : m.brakeTimer = l.brakeTimer ∨ m.brakeTimer = none
  log : m.log = l.log
  lastRecord : m.lastRecord = l.lastRecord
  dra : m.dra = l.dra
  drb : m.drb = l.drb

/-- A write of the Trip Unit that leaves the Fault Set, the setpoint, the ramp origin and the outputs. -/
structure Trip.SameOutputs (x y : Trip) : Prop where
  faults : y.faults = x.faults
  lastSetpoint : y.lastSetpoint = x.lastSetpoint
  ramp : y.ramp = x.ramp
  den : y.den = x.den
  sbr : y.sbr = x.sbr
  ebr : y.ebr = x.ebr

/-- What a permit needs besides the run state: a halt place, and the car inside its window there (R102). -/
def standsInside (s : State) (c : Car) : Prop :=
  s.leg.run = .halted ∧ ∃ place, s.leg.haltPlace = some place ∧ ((s.tables.working.places.get place).window c).holds (s.carPos c) = true

/-- A change of the run state in the course of operation: not out of SAFE or MAINTENANCE, not into MAINTENANCE or HALTED, and into a state that
holds no stopping fault only from such a state (R86, R125). -/
structure RunState.Passes (old new : RunState) : Prop where
  notSafe : old ≠ .safe
  notMaintenance : old ≠ .maintenance
  newNotMaintenance : new ≠ .maintenance
  newNotHalted : new ≠ .halted
  faultFree : new.faultFree = true → old.faultFree = true

/-- The Leg Controller with a halt place taken and the mismatch flags cleared (R101). -/
def haltLeg (l : Leg) (p : Place) : Leg := { l with haltPlace := some p, mismatchA := false, mismatchB := false }

/-- `Reacts s t`: the blocks in the wake of an event bring `s` to `t`. -/
inductive Reacts : State → State → Prop
  | refl (s : State) : Reacts s s
  | trans {s t u : State} : Reacts s t → Reacts t u → Reacts s u
  | recomputes (s : State) : Reacts s (recompute s)
  | legs {s : State} {l : Leg} (h : s.leg.SameStanding l) : Reacts s (s.setLeg l)
  | permits {s : State} {c : Car} {x : Bool} (h : x = true → standsInside s c) : Reacts s (setPermit s c x)
  | logs (s : State) (r : StopRecord) : Reacts s (writeStop s r)
  | offers (s : State) (p : PortId) {f : OutFrame} (h : f.isDemand = false) : Reacts s (s.offer p f)
  | ports {s : State} {p : PortId} {x : Port} (h : x.queue = (s.port p).queue) : Reacts s (s.setPort p x)
  | demands {s : State} {d : Demand} (h : speedsWithin s → d.offered ≤ 20000) : Reacts s (offerDemand s d)
  | starts (s : State) (p : PortId) : Reacts s (startNext s p)
  | limits {s : State} {l : Limiter} (hl : speedsWithin s → ∀ d, l.last = some d → d.setpoint ≤ 20000)
      (hg : l.genTimer.isSome = true → s.leg.run = .serviceStop ∨ s.lim.genTimer.isSome = true) : Reacts s (s.setLim l)
  | inputs {s : State} {x : Trip} (h : s.trip.SameOutputs x) (hi : inputsConsistent s → inputsConsistent (s.setTrip x)) :
      Reacts s (s.setTrip x)
  | clears (s : State) (keep : FaultRecord → Bool) : Reacts s (s.setTrip { s.trip with faults := s.trip.faults.filter keep })
  | raises (s : State) (k : FaultKind) : Reacts s (raiseFault s k)
  | changes {s : State} {new : RunState} (h : s.leg.run.Passes new) (c : StateCause) (k : Nat) : Reacts s (changeState s new c k)
  | halts {s : State} (h : s.leg.run = .creep) (p : Place) (c : StateCause) (k : Nat) :
      Reacts s (changeState (s.setLeg (haltLeg s.leg p)) .halted c k)

/-- What the blocks leave in the wake of an event. -/
theorem Reacts.frame {s t : State} (h : Reacts s t) :
    t.pending = s.pending ∧ t.phase = s.phase ∧ t.now = s.now ∧ t.straps = s.straps ∧ t.tables = s.tables ∧ t.resp = s.resp ∧
    t.sources = s.sources ∧ t.est = s.est := by
  induction h with
  | trans _ _ h k =>
    obtain ⟨h1, h2, h3, h4, h5, h6, h7, h8⟩ := h
    simpa only [h1, h2, h3, h4, h5, h6, h7, h8] using k
  | _ => simp

theorem Reacts.tables {s t : State} (h : Reacts s t) : t.tables = s.tables := by
  obtain ⟨-, -, -, -, h, -⟩ := h.frame
  exact h

theorem Reacts.resp {s t : State} (h : Reacts s t) : t.resp = s.resp := by
  obtain ⟨-, -, -, -, -, h, -⟩ := h.frame
  exact h

theorem Reacts.phase {s t : State} (h : Reacts s t) : t.phase = s.phase := by
  obtain ⟨-, h, -⟩ := h.frame
  exact h

theorem Reacts.est {s t : State} (h : Reacts s t) : t.est = s.est := by
  obtain ⟨-, -, -, -, -, -, -, h⟩ := h.frame
  exact h

/-! ## The Envelope Unit and the ports -/

theorem notify_reacts (s : State) (n : Notice) : Reacts s (notify s n) := .offers s .a rfl

theorem answer_reacts (s : State) (p : PortId) (d : Byte) (r : Request) (rc : ReplyCode) (bs : List Byte) :
    Reacts s (answer s p d r rc bs) := .offers s p rfl

theorem endLeg_reacts (s : State) : Reacts s (endLeg s) :=
  .trans (.legs (l := { s.leg with active := false }) ⟨rfl, rfl, .inl rfl, rfl, rfl, rfl, rfl⟩) (.recomputes _)

theorem transmitEnd_reacts (s : State) (p : PortId) : Reacts s (transmitEnd s p) := by
  unfold transmitEnd
  split
  · exact .refl s
  · exact .trans (.ports (x := { s.port p with line := none }.bump .transmitted) rfl) (.starts _ p)

theorem countAt_reacts (s : State) (p : PortId) (k : PortCounter) : Reacts s (countAt s p k) := .ports rfl

theorem setRx_reacts (s : State) (p : PortId) (x : Option (List Byte)) : Reacts s (setRx s p x) := .ports rfl

theorem forward_reacts (s : State) (p : PortId) (f : RxFrame) : Reacts s (forward s p f) := .offers s _ rfl

/-! ## Generated demands -/

/-- The ramp ceiling lies within the speed recorded at its origin (R121). -/
theorem rampCeiling_le {s : State} (h : ∀ o, s.trip.ramp = some o → o.speed ≤ 20000) : s.rampCeiling.getD 0 ≤ 20000 := by
  cases hr : s.trip.ramp with
  | none => simp [State.rampCeiling, hr]
  | some o =>
    have := h o hr
    simp only [State.rampCeiling, hr, Option.map_some, Option.getD_some]
    omega

theorem generateAtCeiling_reacts {s : State} (h : s.leg.run = .serviceStop) : Reacts s (generateAtCeiling s) := by
  refine .trans (.demands fun hs => ?_) (.limits (fun hs d hd => ?_) fun _ => .inl ?_)
  · obtain ⟨-, -, -, hramp, -⟩ := hs
    exact rampCeiling_le hramp
  · obtain ⟨-, -, hlast, -⟩ := hs
    exact hlast d hd
  · simpa using h

theorem consoleSubstitute_reacts (s : State) : Reacts s (consoleSubstitute s) := by
  unfold consoleSubstitute
  split
  · refine .demands fun hs => ?_
    obtain ⟨-, -, hlast, -⟩ := hs
    cases h : s.lim.last with
    | none => simp
    | some d => simpa using hlast d h
  · exact .refl s

/-! ## The Trip Unit -/

theorem raiseIf_reacts (s : State) (b : Bool) (k : FaultKind) : Reacts s (raiseIf s b k) := by
  unfold raiseIf
  split
  · exact .raises s k
  · exact .refl s

theorem raises_reacts (s : State) (l : List FaultKind) : Reacts s (l.foldl raiseFault s) := by
  induction l generalizing s with
  | nil => exact .refl s
  | cons k l ih => exact .trans (.raises s k) (ih _)

theorem speedTests_reacts (s : State) : Reacts s (speedTests s) := raises_reacts s _

theorem judgeDoors_reacts (s : State) (p : List Byte) : Reacts s (judgeDoors s p) := raiseIf_reacts s _ _

theorem judgeTension_reacts (s : State) (p : List Byte) : Reacts s (judgeTension s p) :=
  .trans (raiseIf_reacts s _ _) (raiseIf_reacts _ _ _)

theorem judgeDrive_reacts (s : State) (p : List Byte) : Reacts s (judgeDrive s p) := raiseIf_reacts s _ _

theorem raiseInput_reacts (s : State) (i : InputId) (x : Bool) : Reacts s (raiseInput s i x) := by
  unfold raiseInput
  split
  · exact .raises s _
  · exact .refl s

/-! ## The Leg Controller -/

/-- A computation of the target leaves the standing of the leg. -/
theorem computeTarget_standing (s : State) : s.leg.SameStanding (computeTarget s) := by
  unfold computeTarget
  split <;> exact ⟨rfl, rfl, .inl rfl, rfl, rfl, rfl, rfl⟩

theorem relatch_reacts (s : State) : Reacts s (relatch s) := .trans (.legs (computeTarget_standing s)) (.recomputes _)

theorem creepEntry_reacts {s : State} (h : s.leg.run = .approach) : Reacts s (creepEntry s) := by
  have hst := computeTarget_standing s
  have hset : Reacts s (recompute (s.setLeg { computeTarget s with frozen := true })) :=
    .trans (.legs (l := { computeTarget s with frozen := true }) ⟨hst.run, hst.haltPlace, hst.brakeTimer, hst.log, hst.lastRecord, hst.dra, hst.drb⟩) (.recomputes _)
  have hrun : (recompute (s.setLeg { computeTarget s with frozen := true })).leg.run = .approach := by
    rw [← h, ← hst.run]
    simp
  have hcreep : Reacts s (changeState (recompute (s.setLeg { computeTarget s with frozen := true })) .creep .creepDistance 0) :=
    hset.trans (.changes (by rw [hrun]; constructor <;> decide) _ _)
  unfold creepEntry
  dsimp only
  split
  · exact hcreep.trans (.raises _ _)
  · exact hcreep.trans (raiseIf_reacts _ _ _)

theorem testCreep_reacts {s : State} (h : s.leg.run = .approach) : Reacts s (testCreep s) := by
  unfold testCreep
  split
  · exact creepEntry_reacts h
  · exact .refl s

theorem testPassages_reacts (s : State) : Reacts s (testPassages s) := by
  unfold testPassages
  split
  next hrun =>
    split
    · refine .trans (.changes (by rw [hrun]; constructor <;> decide) _ _) (testCreep_reacts ?_)
      simp [legInState]
    · exact .refl s
  next =>
    split
    next hrun => exact testCreep_reacts hrun
    next => exact .refl s

theorem testBrakesOpen_reacts (s : State) : Reacts s (testBrakesOpen s) := by
  unfold testBrakesOpen
  split
  next h =>
    simp only [Bool.and_eq_true, decide_eq_true_eq] at h
    exact .trans (.changes (by rw [h.1.1]; constructor <;> decide) _ _) (testPassages_reacts _)
  next => exact .refl s

theorem departureReport_reacts (s : State) (d : LastDemand) : Reacts s (departureReport s d) := by
  unfold departureReport
  split
  next h =>
    simp only [Bool.and_eq_true, decide_eq_true_eq] at h
    exact .trans (.changes (by rw [h.1.1.1]; constructor <;> decide) _ _) (testBrakesOpen_reacts _)
  next => exact .refl s

theorem setMismatch_reacts (s : State) (c : Car) (x : Bool) : Reacts s (setMismatch s c x) := by
  cases c <;> exact .legs ⟨rfl, rfl, .inl rfl, rfl, rfl, rfl, rfl⟩

/-- A mismatch flag is no part of what a permit needs. -/
theorem standsInside_setMismatch (s : State) (c c' : Car) (x : Bool) :
    standsInside (setMismatch s c x) c' ↔ standsInside s c' := by
  cases c <;> cases c' <;> rfl

theorem evaluatePermit_reacts (s : State) (c : Car) : Reacts s (evaluatePermit s c) := by
  unfold evaluatePermit
  split
  next place hrun hplace =>
    have hinside : ∀ x, x = true → x = ((s.tables.working.places.get place).window c).holds (s.carPos c) → standsInside s c :=
      fun x hx he => ⟨hrun, place, hplace, he ▸ hx⟩
    dsimp only
    split
    · exact .permits fun hx => hinside _ hx rfl
    · exact .trans (setMismatch_reacts s c false) (.permits fun hx => (standsInside_setMismatch s c c false).mpr (hinside _ hx rfl))
    · split
      · exact .permits (by simp)
      · exact .trans (.trans (setMismatch_reacts s c true) (.raises _ _)) (.permits (by simp))
    · exact .permits (by simp)
  next => exact .refl s

theorem evaluatePermits_reacts (s : State) : Reacts s (evaluatePermits s) :=
  .trans (evaluatePermit_reacts s .a) (evaluatePermit_reacts _ .b)

theorem halt_reacts {s : State} (h : s.leg.run = .creep) : Reacts s (halt s) := by
  refine .trans (.logs s (stopRecord s .completed)) 
    (.trans (.halts (s := writeStop s (stopRecord s .completed)) h s.leg.endPlace .stationary 0) ?_)
  exact .trans (notify_reacts _ _) (.trans (endLeg_reacts _) (.trans (raiseIf_reacts _ _ _) (evaluatePermits_reacts _)))

theorem endStop_reacts {s : State} (h : s.leg.run = .serviceStop ∨ s.leg.run = .emergencyStop) (o : StopOutcome) :
    Reacts s (endStop s o) := by
  refine .trans (.logs s (stopRecord s o)) (.trans (.changes (new := .safe) ?_ .stationary 0) (.trans (notify_reacts _ _) (endLeg_reacts _)))
  have hrun : (writeStop s (stopRecord s o)).leg.run = s.leg.run := rfl
  rcases h with h | h <;> rw [hrun, h] <;> constructor <;> decide

theorem takeStationary_reacts (s : State) : Reacts s (takeStationary s) := by
  unfold takeStationary
  split
  next h => exact halt_reacts h
  next h => exact endStop_reacts (.inl h) _
  next h => exact endStop_reacts (.inr h) _
  all_goals exact .refl s

theorem legUpdate_reacts (s : State) (u : Update) : Reacts s (legUpdate s u) := by
  have hlatch : Reacts s (if s.leg.run = .approach && decide (u = .carReport) then relatch s else s) := by
    split
    · exact relatch_reacts s
    · exact .refl s
  have htests (t : State) : Reacts t (if overruns t then raiseFault t .overrun else testPassages t) := by
    split
    · exact .raises t _
    · exact testPassages_reacts t
  unfold legUpdate
  split
  · exact hlatch.trans (htests _)
  · exact hlatch.trans (htests _)
  · exact hlatch.trans (htests _)
  · exact evaluatePermits_reacts s
  · exact .refl s

theorem positionUpdate_reacts (s : State) (u : Update) : Reacts s (positionUpdate s u) := by
  refine .trans (.recomputes s) (.trans ?_ (legUpdate_reacts _ u))
  split
  · exact speedTests_reacts _
  · exact .refl _

/-- ARM LEG from READY or HALTED (R88). -/
theorem armLeg_reacts {s : State} (h : s.leg.run = .ready ∨ s.leg.run = .halted) (d : Dir) (p : Place) : Reacts s (armLeg s d p) := by
  have hst (t : State) : t.leg.SameStanding { computeTarget t with active := true, mismatchA := false, mismatchB := false } := by
    have := computeTarget_standing t
    exact ⟨this.run, this.haltPlace, this.brakeTimer, this.log, this.lastRecord, this.dra, this.drb⟩
  refine .trans (.legs (l := { s.leg with number := s.leg.number + 1, dir := d, endPlace := p, frozen := false })
    ⟨rfl, rfl, .inl rfl, rfl, rfl, rfl, rfl⟩) (.trans (.legs (hst _)) (.trans (.changes ?_ _ _) (.recomputes _)))
  rw [setLeg_leg, (hst _).run]
  rcases h with h | h <;> simp only [setLeg_leg, h] <;> constructor <;> decide

/-! ## The Demand Limiter -/

theorem consoleDemand_reacts (s : State) (f : RxFrame) : Reacts s (consoleDemand s f) := by
  refine .trans (.limits (l := { s.lim with last := some _ }) (fun _ d hd => ?_) .inr)
    (.trans (raiseIf_reacts _ _ _) (.trans (departureReport_reacts _ _) (.demands fun _ => ?_)))
  · injection hd with hd
    subst hd
    exact Nat.min_le_right _ _
  · exact Nat.min_le_right _ _

/-! ## The inputs -/

/-- A write of one input alone leaves the outputs. -/
theorem inputs_sameOutputs (x : Trip) (i : Inputs) (u : Bool) (t r : Timer) :
    x.SameOutputs { x with inputs := i, slipUnderlying := u, slipTimer := t, sampleTimer := r } := ⟨rfl, rfl, rfl, rfl, rfl, rfl⟩

theorem inputs_get_set (t : Inputs) (i j : InputId) (x : Input) : (t.set i x).get j = if j = i then x else t.get j := by
  cases i <;> cases j <;> rfl

theorem inputs_get_sampled (t : Inputs) (raw : RawInputs) (i : InputId) :
    (t.sampled raw).get i = (t.get i).sampled (rawLevel raw i) := by
  cases i <;> rfl

@[simp] theorem input_sampled_qualified (x : Input) (b : Bool) : (x.sampled b).qualified = x.qualified := rfl

theorem takeSample_reacts (s : State) (raw : RawInputs) : Reacts s (takeSample s raw) := by
  refine .inputs (inputs_sameOutputs _ _ _ _ _) fun hi => ?_
  obtain ⟨-, hslip⟩ := hi
  refine ⟨fun i => ?_, hslip⟩
  rw [setTrip_trip, inputs_get_sampled]
  exact List.length_take_le _ _

/-- The qualified value of an input other than SLIP, or a write of SLIP that agrees with the underlying value left beside it. -/
theorem setQualified_consistent {s : State} {i : InputId} {x u : Bool} {t : Timer}
    (h : if i = .slip then x = u else t = none → s.trip.inputs.slip.qualified = u) (hi : inputsConsistent s) :
    inputsConsistent (s.setTrip { s.trip with
      inputs := s.trip.inputs.set i { s.trip.inputs.get i with qualified := x }, slipUnderlying := u, slipTimer := t }) := by
  obtain ⟨hhist, -⟩ := hi
  refine ⟨fun j => ?_, fun ht => ?_⟩
  · rw [setTrip_trip, inputs_get_set]
    split
    · exact hhist i
    · exact hhist j
  · cases i <;> simp_all [Inputs.set, Inputs.get]

theorem transition_reacts_of {s t : State} {i : InputId} {x : Bool} (h : Reacts s (setQualified t i x)) : Reacts s (transition t i x) := by
  unfold transition
  dsimp only
  split
  · exact h.trans (.trans (raiseInput_reacts _ i x) (testBrakesOpen_reacts _))
  · exact h.trans (raiseInput_reacts _ i x)

theorem qualify_reacts {s : State} {i : InputId} (hne : i ≠ .slip) (x : Bool) : Reacts s (qualify s i x) := by
  unfold qualify
  split
  · exact .refl s
  · refine transition_reacts_of (.inputs (inputs_sameOutputs _ _ _ _ _) fun hi => ?_)
    exact setQualified_consistent (by rw [if_neg hne]; exact hi.2) hi

/-- The qualified SLIP value taken together with an underlying value and a stopped blanking timer. -/
theorem qualifySlip_reacts (s : State) (x : Bool) : Reacts s (qualify (s.setTrip { s.trip with slipUnderlying := x, slipTimer := none }) .slip x) := by
  unfold qualify
  split
  next heq =>
    refine .inputs (inputs_sameOutputs _ s.trip.inputs x none s.trip.sampleTimer) fun hi => ?_
    exact ⟨hi.1, fun _ => heq⟩
  next =>
    refine transition_reacts_of ?_
    unfold setQualified
    rw [setTrip_twice]
    exact .inputs (inputs_sameOutputs _ _ _ _ _) fun hi => setQualified_consistent (by simp) hi

theorem judgeSlip_reacts (s : State) (x : Bool) : Reacts s (judgeSlip s x) := by
  unfold judgeSlip
  dsimp only
  split
  next h =>
    rw [setTrip_trip] at h
    have hsame : s.setTrip { s.trip with slipUnderlying := x } = s.setTrip { s.trip with slipUnderlying := x, slipTimer := none } := by
      rw [← h]
    rw [hsame]
    exact qualifySlip_reacts s x
  next h =>
    refine .inputs (inputs_sameOutputs _ s.trip.inputs x s.trip.slipTimer s.trip.sampleTimer) fun hi => ?_
    exact ⟨hi.1, fun ht => absurd ht h⟩

theorem judgeInput_reacts (s : State) (i : InputId) : Reacts s (judgeInput s i) := by
  unfold judgeInput
  split
  · exact .refl s
  · split
    · exact judgeSlip_reacts s _
    all_goals exact qualify_reacts (by decide) _

theorem judgeInputs_reacts (s : State) (l : List InputId) : Reacts s (l.foldl judgeInput s) := by
  induction l generalizing s with
  | nil => exact .refl s
  | cons i l ih => exact .trans (judgeInput_reacts s i) (ih _)

theorem sampleInputs_reacts (s : State) (raw : RawInputs) : Reacts s (sampleInputs s raw) :=
  .trans (takeSample_reacts s raw) (judgeInputs_reacts _ _)

theorem releaseSlip_reacts (s : State) : Reacts s (releaseSlip s) := qualifySlip_reacts s s.trip.slipUnderlying

/-! ## Timers -/

theorem brakeReleaseExpiry_reacts (s : State) : Reacts s (brakeReleaseExpiry s) :=
  .trans (.legs (l := { s.leg with brakeTimer := none }) ⟨rfl, rfl, .inr rfl, rfl, rfl, rfl, rfl⟩) (raiseIf_reacts _ _ _)

/-- The generation timer re-armed where it runs. -/
theorem generateAtCeiling_reacts_of_running {s : State} (h : s.lim.genTimer.isSome = true) : Reacts s (generateAtCeiling s) := by
  refine .trans (.demands fun hs => ?_) (.limits (fun hs d hd => ?_) fun _ => .inr ?_)
  · obtain ⟨-, -, -, hramp, -⟩ := hs
    exact rampCeiling_le hramp
  · obtain ⟨-, -, hlast, -⟩ := hs
    exact hlast d hd
  · simpa using h

end Sys2Proof.Machine
end

