-- ==== Sys2Proof/Proofs/Effects.lean ====
section
/-! PROOF. What a command can do, said once: reactions, writes beside them, position updates, the activation of a set and the turns of the run state
at rest; and the cases of a step. -/

namespace Sys2Proof.Machine

/-! ## The relation -/

/-- A write of nothing that reacts: the Envelope Unit, the Leg Controller, the Trip Unit, the Demand Limiter and the ports are left, the working
copy, the cars' positions and the order of table changes too. -/
structure Beside (s t : State) : Prop where
  env : t.env = s.env
  leg : t.leg = s.leg
  trip : t.trip = s.trip
  lim : t.lim = s.lim
  portA : t.portA = s.portA
  portB : t.portB = s.portB
  v : t.est.v = s.est.v
  working : t.tables.working = s.tables.working
  carPos : ∀ c, t.carPos c = s.carPos c
  atRest : tablesChangeAtRest s → tablesChangeAtRest t

/-- A set comes into force, with the notices of the records it restarts (R44, R183). -/
structure Installed (s t : State) : Prop where
  leg : t.leg = s.leg
  trip : t.trip = s.trip
  lim : t.lim = s.lim
  portA : Reacts s (s.setPortA t.portA)
  portB : t.portB = s.portB
  est : t.est = s.est
  atRest : tablesChangeAtRest s → tablesChangeAtRest t

/-- The turns of the run state at rest: into READY where MAKE READY finds every condition, into MAINTENANCE and out of it (R85, R86). -/
inductive Turns (s : State) : RunState → Prop
  | ready (hp : s.phase = .running) (hr : s.leg.run = .safe) (hn : notReady s = none) : Turns s .ready
  | enter (hp : s.phase = .running) (hr : s.leg.run = .safe) : Turns s .maintenance
  | leave (hp : s.phase = .running) (hr : s.leg.run = .maintenance) (ho : s.resp.op.inFlight = false) : Turns s .safe

/-- `Effects s t`: a command, before a RESTART reset it may make due, can bring `s` to `t`. -/
inductive Effects : State → State → Prop
  | reacts {s t : State} (h : Reacts s t) : Effects s t
  | trans {s t u : State} : Effects s t → Effects t u → Effects s u
  | beside {s t : State} (h : Beside s t) : Effects s t
  | moves {s t : State} {e : Estimator} (hv : s.est.v ≤ 20000 → e.v ≤ 20000) (h : Reacts (s.setEst e) t) (u : Update) :
      Effects s (positionUpdate t u)
  | activates {s x t : State} {e : Estimator} (hrest : tablesChangeAtRest s → s.leg.run = .safe ∨ s.leg.run = .maintenance)
      (hx : Installed s x) (hv : e.v = s.est.v) (h : Reacts (x.setEst e) t) (u : Update) : Effects s (positionUpdate t u)
  | turns {s : State} {new : RunState} (h : Turns s new) (c : StateCause) (k : Nat) : Effects s (changeState s new c k)

theorem Effects.refl (s : State) : Effects s s := .reacts (.refl s)

/-! ## Writes beside -/

/-- A write that leaves the tables, the phase and the store operation besides. -/
theorem Beside.of_sources (s : State) (v : Vector SourceRecord 16) : Beside s (s.setSources v) :=
  ⟨rfl, rfl, rfl, rfl, rfl, rfl, rfl, rfl, fun c => by cases c <;> rfl, id⟩

theorem setRecord_effects (s : State) (i : Fin 16) (r : SourceRecord) : Effects s (setRecord s i r) := .beside (.of_sources s _)

/-- A write of the estimator that leaves the cars where they are and the speed held. -/
theorem Beside.of_est {s : State} {e : Estimator} (hv : e.v = s.est.v) (hp : ∀ c, (s.setEst e).carPos c = s.carPos c) :
    Beside s (s.setEst e) := ⟨rfl, rfl, rfl, rfl, rfl, rfl, hv, rfl, hp, id⟩

/-- The rope coordinate computed from what is folded of it is the same (R48, R53). -/
theorem rUm_encoderBaseline (s : State) (count : BitVec 24) (stamp : BitVec 16) : (encoderBaseline s count stamp).rUm = s.rUm := by
  simp only [encoderBaseline, State.rUm, State.line, clampTo, setEst_est, setEst_tables]
  omega

theorem carPos_of_rUm {s : State} {e : Estimator} (hr : (s.setEst e).rUm = s.rUm) (ha : e.offA = s.est.offA) (hb : e.offB = s.est.offB)
    (c : Car) : (s.setEst e).carPos c = s.carPos c := by
  cases c <;> simp [State.carPos, State.aPos, State.bPos, State.rMm, hr, ha, hb, State.line]

theorem encoderBaseline_effects (s : State) (count : BitVec 24) (stamp : BitVec 16) : Effects s (encoderBaseline s count stamp) :=
  .beside (.of_est rfl (carPos_of_rUm (rUm_encoderBaseline s count stamp) rfl rfl))

theorem markAged_effects (s : State) (c : Car) : Effects s (markAged s c) := by
  cases c <;> exact .beside (.of_est rfl fun c => by cases c <;> rfl)

/-- A write of the Responder that starts no store operation. -/
theorem Beside.of_resp {s : State} {r : Responder} (h : r.op = s.resp.op ∨ r.op = .none) : Beside s (s.setResp r) := by
  refine ⟨rfl, rfl, rfl, rfl, rfl, rfl, rfl, rfl, fun c => by cases c <;> rfl, fun hs => ⟨fun hp => ?_, fun d p x ho => ?_⟩⟩
  · obtain ⟨hrun, hop⟩ := hs.1 hp
    rcases h with h | h
    · exact ⟨hrun, by rw [setResp_resp, h, hop]⟩
    · exact ⟨hrun, by rw [setResp_resp, h]; rfl⟩
  · rw [setResp_resp] at ho
    rcases h with h | h
    · exact hs.2 d p x (h ▸ ho)
    · exact absurd (h.symm.trans ho) (by simp)

/-- A store operation begins: in a running part, a COMMIT in MAINTENANCE alone. -/
theorem Beside.of_op {s : State} (op : StoreOp) (hp : s.phase = .running) (hc : op.isCommit = true → s.leg.run = .maintenance) :
    Beside s (s.setResp { s.resp with op := op }) := by
  refine ⟨rfl, rfl, rfl, rfl, rfl, rfl, rfl, rfl, fun c => by cases c <;> rfl, fun _ => ⟨fun h => absurd hp h, fun d p x ho => ?_⟩⟩
  rw [setResp_resp] at ho
  exact hc (by rw [show op = _ from ho]; rfl)

/-- A write of the Table Store that leaves the working copy. -/
theorem Beside.of_tables {s : State} {x : Tables} (h : x.working = s.tables.working) : Beside s (s.setTables x) := by
  refine ⟨rfl, rfl, rfl, rfl, rfl, rfl, rfl, h, fun c => ?_, id⟩
  cases c <;> simp [State.carPos, State.aPos, State.bPos, State.rMm, State.rUm, State.line, h]

theorem clearOp_effects (s : State) : Effects s (clearOp s) := .beside (.of_resp (.inr rfl))

theorem freeze_effects (s : State) : Effects s (freeze s) := .beside (.of_resp (.inl rfl))

/-! ## The Position Estimator -/

theorem speedOver_le (travel : Int) (dt : Nat) : speedOver travel dt ≤ 20000 := Nat.min_le_left _ _

/-- A position update with the speed as it was. -/
theorem positionUpdate_effects {s : State} {e : Estimator} (hv : e.v = s.est.v) (u : Update) : Effects s (positionUpdate (s.setEst e) u) :=
  .moves (fun h => hv ▸ h) (.refl _) u

theorem encoderSample_effects (s : State) (p : List Byte) : Effects s (encoderSample s p) := by
  unfold encoderSample
  split
  · exact encoderBaseline_effects s _ _
  · split
    · exact .moves (fun _ => speedOver_le _ _) (.refl _) _
    · exact positionUpdate_effects (e := unhealthyEstimate s _ _ _) rfl _

theorem encoderSubstitute_effects (s : State) (n : Nat) : Effects s (encoderSubstitute s n) :=
  positionUpdate_effects (e := judgeStationary s { s.est with coast := _ }) rfl _

theorem carAReport_effects (s : State) (c : Nat) : Effects s (carAReport s c) := by
  unfold carAReport
  dsimp only
  split
  · exact positionUpdate_effects (e := { s.est with real := _, coast := 0, offA := 0, agedA := false, ropeEst := true }) rfl _
  · split
    · exact .reacts (.raises s _)
    · exact .moves (e := { s.est with offA := _, agedA := false }) id (raiseIf_reacts _ _ _) _

theorem carBReport_effects (s : State) (c : Nat) : Effects s (carBReport s c) := by
  unfold carBReport
  dsimp only
  split
  · exact .refl s
  · split
    · exact .moves (e := { s.est with offB := _, offBSet := true, agedB := false }) id (raiseIf_reacts _ _ _) _
    · split
      · exact .reacts (.raises s _)
      · exact .moves (e := { s.est with offB := _, agedB := false }) id (raiseIf_reacts _ _ _) _

theorem carSample_effects (s : State) (car : Car) (p : List Byte) : Effects s (carSample s car p) := by
  unfold carSample
  split
  · exact .refl s
  · cases car
    · exact carAReport_effects s _
    · exact carBReport_effects s _

theorem refreshDegraded_effects (s : State) : Effects s (refreshDegraded s) := by
  unfold refreshDegraded
  split
  · exact .refl s
  · exact positionUpdate_effects (e := { s.est with degraded := carLost s }) rfl _

theorem stationaryExpiry_effects (s : State) : Effects s (stationaryExpiry s) :=
  .trans (.beside (.of_est (e := { s.est with statTimer := timerAfter s.now s.est.statTime }) rfl fun c => by cases c <;> rfl))
    (.reacts (takeStationary_reacts _))

/-! ## The Source Tracker -/

theorem deliver_effects (s : State) (r : Role) (f : RxFrame) : Effects s (deliver s r f) := by
  cases r with
  | encoder => exact encoderSample_effects s _
  | carAPosition => exact carSample_effects s .a _
  | carBPosition => exact carSample_effects s .b _
  | carADoors => exact .reacts (judgeDoors_reacts s _)
  | carBDoors => exact .reacts (judgeDoors_reacts s _)
  | tension => exact .reacts (judgeTension_reacts s _)
  | loopDetector => exact .reacts (evaluatePermits_reacts s)
  | drive => exact .reacts (judgeDrive_reacts s _)
  | console => exact .reacts (consoleDemand_reacts s f)

theorem syncChanged_effects (s : State) (r : Role) (new : SyncState) : Effects s (syncChanged s r new) := by
  have hcar (c : Car) : Effects s (refreshDegraded (if new = .lost then markAged s c else s)) := by
    refine .trans ?_ (refreshDegraded_effects _)
    split
    · exact markAged_effects s c
    · exact .refl s
  cases r with
  | carAPosition => exact hcar .a
  | carBPosition => exact hcar .b
  | loopDetector => exact .reacts (evaluatePermits_reacts s)
  | console =>
    simp only [syncChanged]
    split
    · exact .reacts (.limits (fun hs d hd => hs.2.2.1 d hd) (by simp))
    · split
      next h => exact .reacts (generateAtCeiling_reacts h.2)
      next => exact .refl s
  | encoder | carADoors | carBDoors | tension | drive => exact .refl s

theorem updateRecord_effects (s : State) (i : Fin 16) (r : SourceRecord) (c : SourceCause) : Effects s (updateRecord s i r c) := by
  unfold updateRecord
  dsimp only
  split
  · exact setRecord_effects s i r
  · exact .trans (setRecord_effects s i r) (.trans (.reacts (notify_reacts _ _)) (syncChanged_effects _ _ _))

theorem takeBaseline_effects (s : State) (i : Fin 16) (f : RxFrame) (c : SourceCounters) : Effects s (takeBaseline s i f c) := by
  unfold takeBaseline
  dsimp only
  split
  · exact .trans (updateRecord_effects s i _ _) (encoderBaseline_effects _ _ _)
  · exact updateRecord_effects s i _ _

theorem accept_effects (s : State) (i : Fin 16) (f : RxFrame) (d : Nat) : Effects s (accept s i f d) := by
  unfold accept
  split
  · exact setRecord_effects s i _
  · exact .trans (updateRecord_effects s i _ _) (deliver_effects _ _ f)

theorem present_effects (s : State) (i : Fin 16) (f : RxFrame) : Effects s (present s i f) := by
  unfold present
  dsimp only
  split
  · exact setRecord_effects s i _
  · split
    · exact takeBaseline_effects s i f _
    · split
      · exact takeBaseline_effects s i f _
      · split
        · exact accept_effects s i f _
        · exact takeBaseline_effects s i f _
    all_goals
      split
      · exact accept_effects s i f _
      · split
        · exact updateRecord_effects s i _ _
        · exact setRecord_effects s i _

theorem takeSubstitute_effects (s : State) (i : Fin 16) : Effects s (takeSubstitute s i) := by
  unfold takeSubstitute
  split
  · exact encoderSubstitute_effects s _
  · exact markAged_effects s .a
  · exact markAged_effects s .b
  · exact .reacts (consoleSubstitute_reacts s)
  all_goals exact .refl s

theorem lateExpiry_effects (s : State) (i : Fin 16) : Effects s (lateExpiry s i) := by
  have htracked : Effects s (if (s.record i).subs < (s.entry i).maxSubs then takeSubstitute (updateRecord s i (substituteRecord s i) .expiry) i
      else raiseFault (updateRecord s i (lostRecord (s.record i)) .expiry) (s.entry i).role.lostKind) := by
    split
    · exact .trans (updateRecord_effects s i _ _) (takeSubstitute_effects _ i)
    · exact .trans (updateRecord_effects s i _ _) (.reacts (.raises _ _))
  unfold lateExpiry
  dsimp only
  split
  · exact htracked
  · exact htracked
  · exact setRecord_effects s i _
  · exact setRecord_effects s i _

/-! ## The Table Store -/

/-- The comparison of the records with their entries writes the records and offers notices to Port A (R44). -/
theorem compareRecord_portA (old : SourceTable) (v : Bool) (s : State) (i : Fin 16) :
    (compareRecord old v s i).portA = s.portA ∨ ∃ n, (compareRecord old v s i).portA = (notify s n).portA := by
  unfold compareRecord
  dsimp only
  split
  · split
    · exact .inl rfl
    · split
      · exact .inl rfl
      · exact .inr ⟨_, rfl⟩
  · split
    · exact .inl rfl
    · exact .inl rfl

theorem activateSources_portA (old : SourceTable) (v : Bool) (s t : State) (h : Reacts s (s.setPortA t.portA)) (hs : t.straps = s.straps) :
    Reacts s (s.setPortA (activateSources t old v).portA) := by
  unfold activateSources
  generalize List.finRange 16 = l
  induction l generalizing t with
  | nil => exact h
  | cons i l ih =>
    refine ih (compareRecord old v t i) ?_ (by simpa using hs)
    obtain hp | ⟨n, hp⟩ := compareRecord_portA old v t i
    · rw [hp]
      exact h
    · have hoffer : s.setPortA (notify t n).portA = (s.setPortA t.portA).offer .a (.notice t.noticeAddress n) := by
        rw [notify_portA, hs]
        rfl
      rw [hp, hoffer]
      exact h.trans (.offers _ .a rfl)

/-- The activation of a set from a state whose part at rest lets tables change. -/
theorem activate_effects {s x : State} (hrest : tablesChangeAtRest s → s.leg.run = .safe ∨ s.leg.run = .maintenance) (hx : Installed s x)
    (old : LineConstants) : Effects s (activateEstimator x old) :=
  .activates (e := activatedEstimate x old) hrest hx (by rw [← hx.est]; rfl) (.trans (raiseIf_reacts _ _ _) (raiseIf_reacts _ _ _)) _

theorem Installed.of_takeSet (s : State) (x : TableSet) : Installed s (takeSet s x) :=
  ⟨rfl, rfl, rfl, .ports (p := .a) rfl, rfl, rfl, id⟩

theorem Installed.sources {s t : State} (h : Installed s t) (hs : t.straps = s.straps) (old : SourceTable) (v : Bool) :
    Installed s (activateSources t old v) := by
  obtain ⟨-, hphase, -, -, -, hresp, hest, -, hleg, htrip, hlim, hportB⟩ := activateSources_frame t old v
  refine ⟨hleg.trans h.leg, htrip.trans h.trip, hlim.trans h.lim, activateSources_portA old v s t h.portA hs, hportB.trans h.portB,
    hest.trans h.est, fun hr => ?_⟩
  rw [tablesChangeAtRest, hphase, hresp, hleg]
  exact h.atRest hr

theorem commitActivate_effects {s : State} (h : tablesChangeAtRest s → s.leg.run = .maintenance) (x : TableSet) :
    Effects s (commitActivate s x) := by
  unfold commitActivate
  dsimp only
  generalize hs' : s.setTables { s.tables with commitCount := s.tables.commitCount + 1 } = s'
  have hcount : Beside s s' := hs' ▸ .of_tables rfl
  have hrest : tablesChangeAtRest s' → s'.leg.run = .maintenance := hs' ▸ h
  have hset : Installed s' (activateSources (takeSet s' x) s.tables.working.sources s.tables.valid) :=
    (Installed.of_takeSet s' x).sources (by simp) _ _
  exact .trans (.beside hcount) (activate_effects (fun hr => .inr (hrest hr)) hset _)

theorem blockProgrammed_effects (s : State) (fault : Option (List Byte)) : Effects s (blockProgrammed s fault) := by
  have hhold (k : Fin 6) (held : List Byte) : Effects s (s.setTables (holdBlock s.tables k held)) := by
    refine .beside (.of_tables ?_)
    unfold holdBlock
    split <;> rfl
  unfold blockProgrammed
  split
  next p dst port set hprog hop =>
    dsimp only
    split
    · exact .refl s
    · refine .trans (hhold p.block (fault.getD p.bytes)) ?_
      split
      · exact .trans (.reacts (.offers _ _ rfl)) (clearOp_effects _)
      · split
        · refine .trans (commitActivate_effects (fun hr => ?_) set) (.trans (.reacts (.offers _ _ rfl)) (clearOp_effects _))
          exact hr.2 dst port set hop
        · exact .beside (.of_tables rfl)
  next => exact .refl s

theorem loadDecides_effects {s : State} (h : s.phase = .loading) : Effects s (loadDecides s) := by
  have hcount : Effects s (s.setTables { s.tables with commitCount := (judgeLoad s.straps.own s.tables.header s.tables.blocks).1 }) :=
    .beside (.of_tables rfl)
  unfold loadDecides
  dsimp only
  split
  · refine hcount.trans (.beside ⟨rfl, rfl, rfl, rfl, rfl, rfl, rfl, rfl, fun c => by cases c <;> rfl, fun hr => ?_⟩)
    exact ⟨fun hp => absurd rfl hp, hr.2⟩
  next set _ =>
    have hset : Installed s (takeSet ((s.setTables
        { s.tables with commitCount := (judgeLoad s.straps.own s.tables.header s.tables.blocks).1 }).setPhase .running) set) :=
      ⟨rfl, rfl, rfl, .ports (p := .a) rfl, rfl, rfl, fun hr => ⟨fun hp => absurd rfl hp, hr.2⟩⟩
    refine activate_effects (fun hr => .inl ?_) hset _
    obtain ⟨hrun, -⟩ := hr.1 (by simp [h])
    exact hrun

theorem verifyDone_effects (s : State) (p : PortId) (d : Byte) (bad : List Nat) : Effects s (verifyDone s p d bad) :=
  .trans (.reacts (.offers _ _ rfl)) (clearOp_effects _)

theorem storeRaises_reacts (s : State) (l : List Nat) : Reacts s (l.foldl (fun t _ => raiseFault t .storeMismatch) s) := by
  induction l generalizing s with
  | nil => exact .refl s
  | cons k l ih => exact .trans (.raises s _) (ih _)

theorem startVerify_effects {s : State} (h : s.phase = .running) (p : PortId) (d : Byte) (first count : Nat) :
    Effects s (startVerify s p d first count) := by
  unfold startVerify
  dsimp only
  split
  · exact .beside (.of_op _ h (by simp [StoreOp.isCommit]))
  · exact .trans (.reacts (storeRaises_reacts s _)) (verifyDone_effects _ _ _ _)

/-- A VERIFY under way goes on to its next block. -/
theorem Beside.of_verify {s : State} (hop : s.resp.op.inFlight = true) (d : Byte) (p : PortId) (next last : Nat) (bad : List Nat) :
    Beside s (s.setResp { s.resp with op := .verify d p next last bad }) := by
  refine ⟨rfl, rfl, rfl, rfl, rfl, rfl, rfl, rfl, fun c => by cases c <;> rfl, fun hr => ⟨fun hp => ?_, by simp⟩⟩
  obtain ⟨-, hnone⟩ := hr.1 hp
  exact absurd hop (by simp [hnone])

theorem verifyRead_effects (s : State) : Effects s (verifyRead s) := by
  unfold verifyRead
  split
  next dst port next last bad hop =>
    dsimp only
    refine .trans (.reacts (raiseIf_reacts s (!storeMatches s next) .storeMismatch)) ?_
    split
    · exact .beside (.of_verify (by simp [hop, StoreOp.inFlight]) _ _ _ _ _)
    · exact verifyDone_effects _ _ _ _
  next => exact .refl s

/-! ## The Management Responder -/

theorem acceptCommit_effects {s : State} (hp : s.phase = .running) (hr : s.leg.run = .maintenance) (p : PortId) (d : Byte)
    (staged : TableSet) : Effects s (acceptCommit s p d staged) := by
  unfold acceptCommit
  dsimp only
  split
  · exact .reacts (.offers _ _ rfl)
  · split
    · exact .reacts (.offers _ _ rfl)
    · exact .trans (.beside (.of_op _ hp fun _ => hr)) (.beside (.of_tables rfl))

theorem enterMaintenance_effects {s : State} (hp : s.phase = .running) (hr : s.leg.run = .safe) : Effects s (enterMaintenance s) :=
  .trans (.turns (.enter hp hr) _ _) (.beside (.of_resp (.inl rfl)))

theorem completeEntry_effects {s : State} (hp : s.phase = .running) (p : PortId) (src : Byte) (r : Request) :
    Effects s (completeEntry s p src r) := by
  unfold completeEntry
  split
  next hr => exact .trans (enterMaintenance_effects hp hr) (.reacts (answer_reacts _ _ _ _ _ _))
  next => exact .trans (freeze_effects s) (.reacts (answer_reacts _ _ _ _ _ _))

theorem servePortCounters_effects (s : State) (p : PortId) (src : Byte) (r : Request) (which : PortId) (clear : Bool) :
    Effects s (servePortCounters s p src r which clear) := by
  unfold servePortCounters
  dsimp only
  refine .trans ?_ (.reacts (answer_reacts _ _ _ _ _ _))
  split
  · exact .reacts (.ports rfl)
  · exact .refl s

theorem serveCountersRead_effects (s : State) (p : PortId) (src x clear : Byte) : Effects s (serveCountersRead s p src x clear) := by
  unfold serveCountersRead
  dsimp only
  split
  · exact .reacts (answer_reacts _ _ _ _ _ _)
  · split
    · refine .trans ?_ (.reacts (answer_reacts _ _ _ _ _ _))
      split
      · exact .beside (.of_sources s _)
      · exact .refl s
    · split
      · exact servePortCounters_effects s p src _ _ _
      · split
        · exact servePortCounters_effects s p src _ _ _
        · exact .reacts (answer_reacts _ _ _ _ _ _)

/-- A request at its own step, in a running part; one that needs the store finds no operation in flight (R165). -/
theorem serve_effects {s : State} (hp : s.phase = .running) (p : PortId) (src : Byte) {r : Request}
    (hn : r.needsStore = true → s.resp.op.inFlight = false) : Effects s (serve s p src r) := by
  have hanswer (t : State) (q : Request) (rc : ReplyCode) (bs : List Byte) : Effects t (answer t p src q rc bs) :=
    .reacts (answer_reacts _ _ _ _ _ _)
  cases r with
  | statusRead => exact hanswer s _ _ _
  | faultsRead k f =>
    simp only [serve, serveFaultsRead]
    split <;> exact hanswer s _ _ _
  | resetTrip =>
    simp only [serve, serveResetTrip]
    split
    · exact hanswer s _ _ _
    · exact .trans (.reacts (.clears s _)) (hanswer _ _ _ _)
  | makeReady =>
    simp only [serve, serveMakeReady]
    split
    · exact hanswer s _ _ _
    · next hr =>
      split
      · exact hanswer s _ _ _
      · next hnone => exact .trans (.turns (.ready hp (not_not.mp hr) hnone) _ _) (hanswer _ _ _ _)
  | armLeg d pl =>
    simp only [serve, serveArmLeg]
    split
    · exact hanswer s _ _ _
    · next hr =>
      split
      · split
        · exact hanswer s _ _ _
        · split
          · exact hanswer s _ _ _
          · refine .trans (.reacts (armLeg_reacts ?_ _ _)) (hanswer _ _ _ _)
            tauto
      · exact hanswer s _ _ _
  | disarm =>
    simp only [serve, serveDisarm]
    split
    · exact hanswer s _ _ _
    · next hr =>
      refine .trans (.reacts (.trans (.changes ?_ _ _) (endLeg_reacts _))) (hanswer _ _ _ _)
      rw [not_not.mp hr]
      constructor <;> decide
  | stopLogRead i =>
    simp only [serve, serveStopLogRead]
    split <;> exact hanswer s _ _ _
  | countersRead x c => exact serveCountersRead_effects s p src x c
  | tableRead t i c =>
    simp only [serve, serveTableRead]
    split
    · exact hanswer s _ _ _
    · split <;> exact hanswer s _ _ _
  | tableWrite t i e =>
    simp only [serve, serveTableWrite]
    split
    · exact hanswer s _ _ _
    · split
      · exact hanswer s _ _ _
      · exact .trans (.beside (.of_resp (r := { s.resp with staged := some (writeEntry (copyRead s true) t.toNat i.toNat e).1 })
          (.inl rfl))) (hanswer _ _ _ _)
  | commit =>
    simp only [serve, serveCommit]
    split
    · exact hanswer s _ _ _
    · next hr => exact acceptCommit_effects hp (not_not.mp hr) p src _
  | verify f n =>
    simp only [serve, serveVerify]
    split
    · exact hanswer s _ _ _
    · exact startVerify_effects hp p src _ _
  | maintenanceRequest =>
    simp only [serve, serveMaintenanceRequest]
    split
    · exact hanswer s _ _ _
    · split
      · exact hanswer s _ _ _
      · exact .trans (.beside (.of_resp (r := { s.resp with seq := .pending, requester := some src, echo := some s.tables.commitCount })
          (.inl rfl))) (hanswer _ _ _ _)
  | maintenanceConfirm e => exact hanswer s _ _ _
  | leaveMaintenance =>
    simp only [serve, serveLeaveMaintenance]
    split
    · exact hanswer s _ _ _
    · next hr =>
      have hturn : Turns (s.setResp { s.resp with staged := none }) .safe := .leave hp (not_not.mp hr) (hn rfl)
      have hleft : Beside s (s.setResp { s.resp with staged := none }) := .of_resp (.inl rfl)
      exact .trans (.beside hleft) (.trans (.turns hturn _ _) (hanswer _ _ _ _))
  | restart =>
    simp only [serve, serveRestart]
    split
    · exact hanswer s _ _ _
    · exact .trans (.beside (.of_resp (r := { s.resp with restartPending := true }) (.inl rfl))) (.reacts (.offers _ _ rfl))

theorem serveFrom_effects {s : State} (hp : s.phase = .running) (p : PortId) (src : Byte) (r : Request) : Effects s (serveFrom s p src r) := by
  unfold serveFrom
  split
  · exact .reacts (answer_reacts _ _ _ _ _ _)
  · split
    · exact .reacts (answer_reacts _ _ _ _ _ _)
    · next hbusy => exact serve_effects hp p src (fun hn => by simpa [hn] using hbusy)

theorem takeRequest_effects {s : State} (hf : s.phase ≠ .finishing) (p : PortId) (src : Byte) (r : Request) :
    Effects s (takeRequest s p src r) := by
  unfold takeRequest
  split
  · exact .reacts (answer_reacts _ _ _ _ _ _)
  · next hbusy =>
    by_cases hp : s.phase = .running
    · split
      · split
        · exact completeEntry_effects hp p src r
        · exact .trans (freeze_effects s) (serveFrom_effects (by simpa using hp) p src r)
      · exact serveFrom_effects hp p src r
    · have hload : s.phase = .loading := by cases h : s.phase <;> simp_all
      have hstatus : r = .statusRead := by simpa [startUpBusy, hload] using hbusy
      subst hstatus
      split
      · exact .trans (freeze_effects s) (.reacts (answer_reacts _ _ _ _ _ _))
      · exact .reacts (answer_reacts _ _ _ _ _ _)

theorem takePayload_effects {s : State} (hf : s.phase ≠ .finishing) (p : PortId) (src : Byte) (payload : List Byte) :
    Effects s (takePayload s p src payload) := by
  unfold takePayload
  split
  · exact .reacts (.offers _ _ rfl)
  · exact takeRequest_effects hf p src _

/-! ## The line ports -/

theorem sortFrame_effects {s : State} (hf : s.phase ≠ .finishing) (p : PortId) (f : RxFrame) : Effects s (sortFrame s p f) := by
  unfold sortFrame
  split
  · split
    · exact takePayload_effects hf p _ _
    · exact .reacts (countAt_reacts s p _)
  · split
    · split
      · exact .reacts (forward_reacts s _ f)
      · unfold consoleFrame
        split
        · split
          · exact present_effects s _ f
          · exact .reacts (countAt_reacts s _ _)
        · exact .reacts (countAt_reacts s _ _)
    · split
      · unfold sampleFrame
        dsimp only
        split
        · exact .trans (.reacts (forward_reacts s p f)) (present_effects _ _ f)
        · exact .reacts (forward_reacts s p f)
      · exact .reacts (forward_reacts s p f)

theorem completeFrame_effects {s : State} (hf : s.phase ≠ .finishing) (p : PortId) (bs : List Byte) : Effects s (completeFrame s p bs) := by
  unfold completeFrame
  split
  · exact .trans (.reacts (countAt_reacts s p _)) (sortFrame_effects (by simpa using hf) p _)
  · exact .reacts (countAt_reacts s p _)

theorem receiveCharacter_effects {s : State} (hf : s.phase ≠ .finishing) (p : PortId) (b : Byte) (m g : Bool) :
    Effects s (receiveCharacter s p b m g) := by
  unfold receiveCharacter
  split
  · exact .reacts (setRx_reacts s p _)
  · exact .reacts (countAt_reacts s p _)
  · exact .refl s
  · exact .reacts (.trans (countAt_reacts s p _) (setRx_reacts _ p _))
  · unfold appendCharacter
    dsimp only
    split
    · exact .reacts (.trans (countAt_reacts s p _) (setRx_reacts _ p _))
    · split
      · exact .trans (.reacts (setRx_reacts s p _)) (completeFrame_effects (by simpa using hf) p _)
      · exact .reacts (setRx_reacts s p _)
  · exact .reacts (.trans (countAt_reacts s p _) (setRx_reacts _ p _))

theorem lineBreak_effects (s : State) (p : PortId) : Effects s (lineBreak s p) := by
  unfold lineBreak
  split
  · exact .refl s
  · exact .reacts (.trans (countAt_reacts s p _) (setRx_reacts _ p _))

/-! ## The command -/

/-- The effect of a command other than a reset, before a RESTART reset it may make due. -/
def effect (c : Instr) (s : State) : State :=
  match c with
  | .powerOnReset _ _ | .rst _ _ | .resetBlockFinished _ => s
  | .startUpLoadComplete => if s.phase = .loading then loadDecides s else s
  | .receiveCharacter e b m g => receiveCharacter s e.port b m g
  | .lineBreak p => lineBreak s p
  | .statusRead p src => takeRequest s p src .statusRead
  | .faultsRead p src k f => takeRequest s p src (.faultsRead k f)
  | .resetTrip p src => takeRequest s p src .resetTrip
  | .makeReady p src => takeRequest s p src .makeReady
  | .armLeg p src d pl => takeRequest s p src (.armLeg d pl)
  | .disarm p src => takeRequest s p src .disarm
  | .stopLogRead p src i => takeRequest s p src (.stopLogRead i)
  | .countersRead p src x k => takeRequest s p src (.countersRead x k)
  | .tableRead p src t i x => takeRequest s p src (.tableRead t i x)
  | .tableWrite p src t i e => takePayload s p src (requestPayload (.tableWrite t i e))
  | .commit p src => takeRequest s p src .commit
  | .verify p src f n => takeRequest s p src (.verify f n)
  | .maintenanceRequest p src => takeRequest s p src .maintenanceRequest
  | .maintenanceConfirm p src e => takeRequest s p src (.maintenanceConfirm e)
  | .leaveMaintenance p src => takeRequest s p src .leaveMaintenance
  | .restart e src => takeRequest s e.port src .restart
  | .unknownCommand p src payload => if parseRequest payload = none then answerUnknown s p src payload else s
  | .lateTimerExpiry i => if lateDue s i then lateExpiry s i else s
  | .generationTimerExpiry => if timerDue s.now s.lim.genTimer then generateAtCeiling s else s
  | .stationaryTimerExpiry => if timerDue s.now s.est.statTimer then stationaryExpiry s else s
  | .brakeReleaseTimerExpiry => if timerDue s.now s.leg.brakeTimer then brakeReleaseExpiry s else s
  | .qualificationSample raw => if sampleDue s then sampleInputs s raw else s
  | .slipBlankingTimerExpiry => if timerDue s.now s.trip.slipTimer then releaseSlip s else s
  | .transmitEnd e => transmitEnd s e.port
  | .blockProgrammed fault => blockProgrammed s fault
  | .verifyBlockRead => verifyRead s

/-- A timer that is due runs. -/
theorem timerDue_isSome {now : Time} {t : Timer} (h : timerDue now t = true) : t.isSome = true := by
  cases t
  · simp [timerDue] at h
  · rfl

/-- An effect taken under a test. -/
theorem Effects.ite {s t : State} {p : Prop} [Decidable p] (h : p → Effects s t) : Effects s (if p then t else s) := by
  split
  next hp => exact h hp
  next => exact .refl s

/-- Every command's effect is one of those. -/
theorem effect_effects {s : State} (hf : s.phase ≠ .finishing) (c : Instr) : Effects s (effect c s) := by
  cases c with
  | powerOnReset | rst | resetBlockFinished => exact .refl s
  | startUpLoadComplete => exact .ite loadDecides_effects
  | receiveCharacter e b m g => exact receiveCharacter_effects hf _ b m g
  | lineBreak p => exact lineBreak_effects s p
  | tableWrite p src t i e => exact takePayload_effects hf p src _
  | unknownCommand p src payload => exact .ite fun _ => .reacts (.offers _ _ rfl)
  | lateTimerExpiry i => exact .ite fun _ => lateExpiry_effects s i
  | generationTimerExpiry => exact .ite fun h => .reacts (generateAtCeiling_reacts_of_running (timerDue_isSome h))
  | stationaryTimerExpiry => exact .ite fun _ => stationaryExpiry_effects s
  | brakeReleaseTimerExpiry => exact .ite fun _ => .reacts (brakeReleaseExpiry_reacts s)
  | qualificationSample raw => exact .ite fun _ => .reacts (sampleInputs_reacts s raw)
  | slipBlankingTimerExpiry => exact .ite fun _ => .reacts (releaseSlip_reacts s)
  | transmitEnd e => exact .reacts (transmitEnd_reacts s e.port)
  | blockProgrammed fault => exact blockProgrammed_effects s fault
  | verifyBlockRead => exact verifyRead_effects s
  | statusRead | faultsRead | resetTrip | makeReady | armLeg | disarm | stopLogRead | countersRead | tableRead | commit | verify
  | maintenanceRequest | maintenanceConfirm | leaveMaintenance | restart => exact takeRequest_effects hf _ _ _

/-- The strap levels a command's event carries (log 25). -/
def levelsOf : Instr → Option StrapLevels
  | .receiveCharacter e _ _ _ => e.straps
  | .restart e _ => e.straps
  | .transmitEnd e => e.straps
  | _ => none

/-- A command that is a reset or ends one. -/
def isReset : Instr → Bool
  | .powerOnReset _ _ | .rst _ _ | .resetBlockFinished _ => true
  | _ => false

/-- Every other command is its effect, then settled. -/
theorem exec_eq_taken {c : Instr} (h : isReset c = false) (s : State) : exec c s = taken s (effect c) (levelsOf c) := by
  cases c with
  | powerOnReset | rst | resetBlockFinished => simp [isReset] at h
  | _ => rfl

/-! ## The step -/

/-- The end of a block that a reset waited for (R178). -/
def blockHeld (s : State) (p : Programming) (held : List Byte) : State := beginLoad (s.setTables (holdBlock s.tables p.block held))

theorem taken_cases {s t : State} {f : State → State} {x : Option StrapLevels} (h : taken s f x = .next t) :
    t = s ∨ s.phase ≠ .finishing ∧ t = settle (f s) x := by
  by_cases hf : s.phase = .finishing
  · rw [taken_finishing f hf] at h
    exact .inl (by injection h with h; exact h.symm)
  · rw [taken_settled f hf] at h
    exact .inr ⟨hf, by injection h with h; exact h.symm⟩

/-- What a command brings about: a reset, the end of the block a reset waited for, nothing, or its effect and what falls due after it. -/
theorem exec_cases {c : Instr} {s t : State} (h : exec c s = .next t) :
    (∃ k x, t = resetPart k x s) ∨
    (s.phase = .finishing ∧ ∃ p held, s.tables.programming = some p ∧ t = blockHeld s p held) ∨
    t = s ∨ s.phase ≠ .finishing ∧ ∃ x, t = settle (effect c s) x := by
  by_cases hc : isReset c = false
  · rw [exec_eq_taken hc] at h
    obtain h | ⟨hf, h⟩ := taken_cases h
    · exact .inr (.inr (.inl h))
    · exact .inr (.inr (.inr ⟨hf, _, h⟩))
  cases c with
  | powerOnReset a r =>
    injection h with h
    exact .inl ⟨_, _, h.symm⟩
  | rst a r =>
    injection h with h
    exact .inl ⟨_, _, h.symm⟩
  | resetBlockFinished fault =>
    injection h with h
    by_cases hf : s.phase = .finishing
    · rw [if_pos hf, finishReset] at h
      split at h
      next p hp =>
        dsimp only at h
        split at h
        · exact .inr (.inl ⟨hf, p, _, hp, h.symm⟩)
        · exact .inr (.inr (.inl h.symm))
      next => exact .inr (.inr (.inl h.symm))
    · rw [if_neg hf] at h
      exact .inr (.inr (.inl h.symm))
  | _ => exact absurd rfl hc

/-- What every step keeps: what the queue and the timebase leave, every reset keeps, the end of a block keeps and every effect keeps. -/
theorem step_keeps {P : State → Prop} (hqueue : ∀ s q, P s → P (s.setPending q)) (hnow : ∀ s n, P s → P (s.setNow n))
    (hreset : ∀ k x s, P s → P (resetPart k x s))
    (hheld : ∀ s p held, s.phase = .finishing → s.tables.programming = some p → P s → P (blockHeld s p held))
    (heffect : ∀ c s, s.phase ≠ .finishing → P s → P (effect c s)) {s t : State} (h : step s = .next t) (hs : P s) : P t := by
  cases hq : s.pending with
  | nil =>
    rw [step_empty hq] at h
    injection h with h
    exact h ▸ hnow s _ hs
  | cons c rest =>
    rw [step_front hq] at h
    have hs' := hqueue s rest hs
    obtain ⟨k, x, rfl⟩ | ⟨hf, p, held, hp, rfl⟩ | rfl | ⟨hf, x, rfl⟩ := exec_cases h
    · exact hreset k x _ hs'
    · exact hheld _ p held hf hp hs'
    · exact hs'
    · have he := heffect c _ hf hs'
      obtain h | ⟨-, -, -, h⟩ := settle_cases (effect c (s.setPending rest)) x <;> rw [h]
      · exact he
      · exact hreset _ _ _ he

end Sys2Proof.Machine
end

