-- ==== Sys2Proof/Proofs/Keeps.lean ====
section
/-! PROOF. The conditions under which every step keeps a predicate on the Leg Controller, the Trip Unit, the Demand Limiter and the ports: one for
each kind of write a reaction is made of. -/

namespace Sys2Proof.Machine

/-- Nothing but the envelope and what lies beside the reactions differs, and the speed held stays in its bound. -/
structure SameParts (s t : State) : Prop where
  leg : t.leg = s.leg
  trip : t.trip = s.trip
  lim : t.lim = s.lim
  portA : t.portA = s.portA
  portB : t.portB = s.portB
  v : s.est.v ≤ 20000 → t.est.v ≤ 20000

/-- The writes of the reactions that a predicate is kept by. -/
structure Keeps (P : State → Prop) : Prop where
  same {s t : State} (h : SameParts s t) : P s → P t
  offers {s : State} (p : PortId) {f : OutFrame} (h : f.isDemand = false) : P s → P (s.offer p f)
  ports {s : State} {p : PortId} {x : Port} (h : x.queue = (s.port p).queue) : P s → P (s.setPort p x)
  demands {s : State} {d : Demand} (h : speedsWithin s → d.offered ≤ 20000) : P s → P (offerDemand s d)
  starts {s : State} (p : PortId) : P s → P (startNext s p)
  legs {s : State} {l : Leg} (h : s.leg.SameStanding l) : P s → P (s.setLeg l)
  permits {s : State} {c : Car} {x : Bool} : P s → P (setPermit s c x)
  logs {s : State} (r : StopRecord) : P s → P (writeStop s r)
  limits {s : State} {l : Limiter} (hl : speedsWithin s → ∀ d, l.last = some d → d.setpoint ≤ 20000)
    (hg : l.genTimer.isSome = true → s.leg.run = .serviceStop ∨ s.lim.genTimer.isSome = true) : P s → P (s.setLim l)
  inputs {s : State} {x : Trip} (h : s.trip.SameOutputs x) (hi : inputsConsistent s → inputsConsistent (s.setTrip x)) :
    P s → P (s.setTrip x)
  clears {s : State} (keep : FaultRecord → Bool) : P s → P (s.setTrip { s.trip with faults := s.trip.faults.filter keep })
  records {s : State} (k : FaultKind) : P s → P (recordFault s k)
  enters {s : State} {new : RunState} (h : new ≠ .halted) : P s → P (enterState s new)
  halts {s : State} (p : Place) : P s → P (enterState (s.setLeg (haltLeg s.leg p)) .halted)

variable {P : State → Prop}

theorem Keeps.notify (hP : Keeps P) {s : State} (n : Notice) (h : P s) : P (notify s n) := hP.offers .a rfl h

theorem Keeps.recompute (hP : Keeps P) {s : State} (h : P s) : P (recompute s) :=
  hP.same (s := s) (t := Machine.recompute s) ⟨rfl, rfl, rfl, rfl, rfl, id⟩ h

theorem Keeps.endLeg (hP : Keeps P) {s : State} (h : P s) : P (endLeg s) :=
  hP.recompute (hP.legs (l := { s.leg with active := false }) ⟨rfl, rfl, .inl rfl, rfl, rfl, rfl, rfl⟩ h)

theorem Keeps.generateAtCeiling (hP : Keeps P) {s : State} (hrun : s.leg.run = .serviceStop) (h : P s) : P (generateAtCeiling s) := by
  refine hP.limits (fun hs d hd => hs.2.2.1 d hd) (fun _ => .inl ?_) (hP.demands (fun hs => rampCeiling_le hs.2.2.2.1) h)
  simpa using hrun

/-- What follows the writes of a change of the run state: its notice, and a generated demand in SERVICE_STOP. -/
theorem Keeps.changeState_of_enter (hP : Keeps P) {s : State} {new : RunState} (h : P (enterState s new)) (c : StateCause) (k : Nat) :
    P (changeState s new c k) := by
  have hn := hP.notify (.stateChanged s.leg.run new c k s.leg.number) h
  unfold changeState
  dsimp only
  split
  next hnew =>
    simp only [Bool.and_eq_true, decide_eq_true_eq] at hnew
    exact hP.generateAtCeiling (by simp [enterState, legInState, hnew.1]) hn
  next => exact hn

theorem Keeps.changeState (hP : Keeps P) {s : State} {new : RunState} (hnew : new ≠ .halted) (c : StateCause) (k : Nat) (h : P s) :
    P (changeState s new c k) := hP.changeState_of_enter (hP.enters hnew h) c k

/-- No action leads to HALTED. -/
theorem actionTarget_ne_halted {a : Action} {r new : RunState} (h : actionTarget a r = some new) : new ≠ .halted := by
  rintro rfl
  cases a <;> cases r <;> simp [actionTarget] at h

theorem Keeps.applyAction (hP : Keeps P) {s : State} (a : Action) (k : FaultKind) (h : P s) : P (applyAction s a k) := by
  unfold Machine.applyAction
  split
  · exact h
  next new hnew =>
    have ht := hP.changeState (actionTarget_ne_halted hnew) .fault k.num h
    dsimp only
    split
    · exact hP.endLeg ht
    · exact ht

theorem Keeps.raiseFault (hP : Keeps P) {s : State} (k : FaultKind) (h : P s) : P (raiseFault s k) := by
  have hr := hP.records k h
  unfold Machine.raiseFault
  dsimp only
  split
  · exact hP.applyAction _ k (hP.notify _ hr)
  · exact hP.applyAction _ k hr

theorem Keeps.reacts (hP : Keeps P) {s t : State} (h : Reacts s t) : P s → P t := by
  induction h with
  | refl => exact id
  | trans _ _ h k => exact k ∘ h
  | recomputes => exact hP.recompute
  | legs h => exact hP.legs h
  | permits => exact hP.permits
  | logs s r => exact hP.logs r
  | offers s p h => exact hP.offers p h
  | ports h => exact hP.ports h
  | demands h => exact hP.demands h
  | starts s p => exact hP.starts p
  | limits hl hg => exact hP.limits hl hg
  | inputs h hi => exact hP.inputs h hi
  | clears s keep => exact hP.clears keep
  | raises s k => exact hP.raiseFault k
  | changes h c k => exact hP.changeState h.newNotHalted c k
  | halts _ p c k => exact fun hs => hP.changeState_of_enter (hP.halts p hs) c k

theorem Turns.ne_halted {s : State} {new : RunState} (h : Turns s new) : new ≠ .halted := by cases h <;> decide

theorem Keeps.effects (hP : Keeps P) {s t : State} (h : Effects s t) : P s → P t := by
  induction h with
  | reacts h => exact hP.reacts h
  | trans _ _ h k => exact k ∘ h
  | beside h => exact hP.same ⟨h.leg, h.trip, h.lim, h.portA, h.portB, fun hv => h.v ▸ hv⟩
  | @moves s t e hv h u =>
    intro hs
    exact hP.reacts (h.trans (positionUpdate_reacts _ u)) (hP.same (s := s) ⟨rfl, rfl, rfl, rfl, rfl, hv⟩ hs)
  | activates _ hx hv h u =>
    intro hs
    refine hP.reacts (h.trans (positionUpdate_reacts _ u)) (hP.same ?_ (hP.reacts hx.portA hs))
    exact ⟨hx.leg, hx.trip, hx.lim, rfl, hx.portB, fun h => by simpa [hv] using h⟩
  | turns h c k => exact hP.changeState h.ne_halted c k

/-- A kept predicate that every reset brings about is kept by every step. -/
theorem Keeps.step (hP : Keeps P) (hreset : ∀ k x s, P s → P (resetPart k x s)) {s t : State} (h : step s = .next t) : P s → P t :=
  step_keeps (fun s q => hP.same (s := s) (t := s.setPending q) ⟨rfl, rfl, rfl, rfl, rfl, id⟩)
    (fun s n => hP.same (s := s) (t := s.setNow n) ⟨rfl, rfl, rfl, rfl, rfl, id⟩) hreset
    (fun s p held _ _ => hP.same (s := s) (t := blockHeld s p held) ⟨rfl, rfl, rfl, rfl, rfl, id⟩)
    (fun c _ hf => hP.effects (effect_effects hf c)) h

end Sys2Proof.Machine
end

