-- ==== Sys2Proof/Proofs/Queues.lean ====
section
/-! PROOF. The transmit queues: each within 8 frames, Port A's without a demand and Port B's with at most one, at every step (R155, R156). -/

namespace Sys2Proof.Machine

/-! ## What a reset leaves -/

/-- The parts a reset writes afresh. -/
theorem resetPart_parts (k : ResetKind) (x : Straps) (s : State) :
    (resetPart k x s).resp = Responder.fresh ∧ (resetPart k x s).est = Estimator.fresh ∧
    (resetPart k x s).sources = resetSources k s.sources ∧
    (resetPart k x s).env = Envelope.fresh (clearedAtPor k s.env.uphill []) (clearedAtPor k s.env.downhill []) ∧
    (resetPart k x s).leg = Leg.fresh (keptAtRestart k s.leg.number 0) (keptAtRestart k s.leg.log []) (keptAtRestart k s.leg.lastRecord 0) ∧
    (resetPart k x s).trip = Trip.fresh (keptAtRestart k s.trip.faults []) ∧ (resetPart k x s).lim = Limiter.fresh ∧
    (resetPart k x s).portA = resetPort k s.portA ∧ (resetPart k x s).portB = resetPort k s.portB := by
  unfold resetPart
  dsimp only
  split <;> exact ⟨rfl, rfl, rfl, rfl, rfl, rfl, rfl, rfl, rfl⟩

/-! ## One queue -/

/-- A queue of at most 8 frames, `n` of them demands at most. -/
def queueWithin (n : Nat) (q : List OutFrame) : Prop := q.length ≤ 8 ∧ (q.filter OutFrame.isDemand).length ≤ n

theorem queuesWithin_iff (s : State) : queuesWithin s ↔ queueWithin 0 s.portA.queue ∧ queueWithin 1 s.portB.queue := by
  simp only [queuesWithin, queueWithin, Nat.le_zero]
  tauto

theorem queueWithin_of_sublist {n : Nat} {q r : List OutFrame} (h : r.Sublist q) (hq : queueWithin n q) : queueWithin n r :=
  ⟨h.length_le.trans hq.1, (h.filter _).length_le.trans hq.2⟩

theorem queueWithin_append {n : Nat} {q : List OutFrame} {f : OutFrame} (hf : f.isDemand = false) (hl : q.length < 8)
    (hq : queueWithin n q) : queueWithin n (q ++ [f]) := by
  refine ⟨by simpa using hl, ?_⟩
  rw [List.filter_append, List.filter_cons_of_neg (by simp [hf]), List.filter_nil, List.append_nil]
  exact hq.2

/-- A demand joins a queue that holds none. -/
theorem queueWithin_append_demand {q : List OutFrame} {d : Demand} (hd : q.any OutFrame.isDemand = false) (hl : q.length < 8) :
    queueWithin 1 (q ++ [.demand d]) := by
  refine ⟨by simpa using hl, ?_⟩
  rw [List.filter_append, List.filter_eq_nil_iff.mpr (by simpa using hd)]
  exact Nat.le_refl 1

@[simp] theorem replaceDemand_length (d : Demand) (q : List OutFrame) : (replaceDemand d q).length = q.length := by
  induction q with
  | nil => rfl
  | cons f rest ih =>
    unfold replaceDemand
    split <;> simp [ih]

/-- A demand that takes another's place leaves the number of demands. -/
theorem replaceDemand_demands (d : Demand) (q : List OutFrame) :
    ((replaceDemand d q).filter OutFrame.isDemand).length = (q.filter OutFrame.isDemand).length := by
  induction q with
  | nil => rfl
  | cons f rest ih =>
    unfold replaceDemand
    split
    next h => rw [List.filter_cons_of_pos (by rfl), List.filter_cons_of_pos h, List.length_cons, List.length_cons]
    next h => rw [List.filter_cons_of_neg h, List.filter_cons_of_neg h, ih]

/-! ## One port -/

@[simp] theorem port_send_queue (p : Port) (own : Byte) (f : OutFrame) : (p.send own f).queue = p.queue := by cases f <;> rfl

/-- An offered frame leaves the queue or joins it at the tail where there is room. -/
theorem port_offer_queue (p : Port) (own : Byte) (f : OutFrame) :
    (p.offer own f).queue = p.queue ∨ p.queue.length < 8 ∧ (p.offer own f).queue = p.queue ++ [f] := by
  unfold Port.offer
  split
  · exact .inl (port_send_queue p own f)
  · split
    next h => exact .inr ⟨h, rfl⟩
    next => exact .inl rfl

theorem port_offer_within {n : Nat} {p : Port} {own : Byte} {f : OutFrame} (hf : f.isDemand = false) (h : queueWithin n p.queue) :
    queueWithin n (p.offer own f).queue := by
  obtain hq | ⟨hl, hq⟩ := port_offer_queue p own f <;> rw [hq]
  · exact h
  · exact queueWithin_append hf hl h

/-- The oldest frame taken leaves the rest. -/
theorem port_sendOldest_queue (p : Port) (own : Byte) : (p.sendOldest own).queue = p.queue.tail := by
  unfold Port.sendOldest
  split
  next h => simp [h]
  next h => simp [h]

/-- An offered demand leaves Port B's queue, takes the place of the one waiting, or joins where none waits, the oldest of 8 dropped. -/
theorem offerDemand_queue (s : State) (d : Demand) :
    (offerDemand s d).portB.queue = s.portB.queue ∨ (offerDemand s d).portB.queue = replaceDemand d s.portB.queue ∨
    s.portB.queue.any OutFrame.isDemand = false ∧ ∃ q, q.Sublist s.portB.queue ∧ (s.portB.queue.length ≤ 8 → q.length < 8) ∧
      (offerDemand s d).portB.queue = q ++ [.demand d] := by
  unfold offerDemand
  dsimp only
  split
  · exact .inr (.inl rfl)
  next hany =>
    rw [Bool.not_eq_true] at hany
    split
    · exact .inl rfl
    next hfull =>
      split
      next hl => exact .inr (.inr ⟨hany, _, .refl _, fun _ => hl, rfl⟩)
      next hl =>
        refine .inr (.inr ⟨hany, _, List.tail_sublist _, fun h => ?_, rfl⟩)
        simp only [Config.queueDepth] at hl
        rw [List.length_tail]
        omega

/-- An arbiter takes a frame out of its queue or leaves it. -/
theorem startNext_queue (s : State) (p q : PortId) : ((startNext s p).port q).queue.Sublist (s.port q).queue := by
  cases p with
  | a => cases q with
    | a => exact port_sendOldest_queue s.portA _ ▸ List.tail_sublist _
    | b => exact .refl _
  | b =>
    unfold startNext
    dsimp only
    split
    · cases q with
      | a => exact .refl _
      | b => exact List.eraseP_sublist
    · cases q with
      | a => exact .refl _
      | b => exact port_sendOldest_queue s.portB _ ▸ List.tail_sublist _

/-! ## Every step -/

/-- The bounds of the queues depend on the queues. -/
theorem queuesWithin_congr {s t : State} (ha : t.portA.queue = s.portA.queue) (hb : t.portB.queue = s.portB.queue) (h : queuesWithin s) :
    queuesWithin t := by rwa [queuesWithin_iff, ha, hb, ← queuesWithin_iff]

theorem queuesWithin_keeps : Keeps queuesWithin where
  same h := queuesWithin_congr (by rw [h.portA]) (by rw [h.portB])
  offers p f hf hs := by
    rw [queuesWithin_iff] at hs ⊢
    cases p
    · exact ⟨port_offer_within hf hs.1, hs.2⟩
    · exact ⟨hs.1, port_offer_within hf hs.2⟩
  ports {s p x} h := by
    cases p
    · exact queuesWithin_congr h rfl
    · exact queuesWithin_congr rfl h
  demands {s d} _ hs := by
    rw [queuesWithin_iff] at hs ⊢
    refine ⟨by simpa using hs.1, ?_⟩
    obtain h | h | ⟨hany, q, hq, hl, h⟩ := offerDemand_queue s d <;> rw [h]
    · exact hs.2
    · exact ⟨by simpa using hs.2.1, (replaceDemand_demands d _).trans_le hs.2.2⟩
    · refine queueWithin_append_demand ?_ (hl hs.2.1)
      rw [List.any_eq_false] at hany ⊢
      exact fun f hf => hany f (hq.subset hf)
  starts {s} p hs := by
    rw [queuesWithin_iff] at hs ⊢
    exact ⟨queueWithin_of_sublist (startNext_queue s p .a) hs.1, queueWithin_of_sublist (startNext_queue s p .b) hs.2⟩
  legs _ := id
  permits {s c x} := by cases c <;> exact id
  logs _ := id
  limits _ _ := id
  inputs _ _ := id
  clears _ := id
  records _ := id
  enters _ := id
  halts _ := id

/-- Settles O55: the queues are written by offers, by offered demands and by the arbiters alone, each of which keeps the bounds, and a reset
empties them. -/
theorem stepKeepsTheQueuesWithin : Obligations.StepKeepsTheQueuesWithin := by
  intro s t hs h
  refine queuesWithin_keeps.step (fun k x u _ => ?_) h hs
  obtain ⟨-, -, -, -, -, -, -, ha, hb⟩ := resetPart_parts k x u
  rw [queuesWithin, ha, hb]
  simp [resetPort, Port.fresh]

end Sys2Proof.Machine
end

