-- ==== Sys2Proof/Proofs/Outputs.lean ====
section
/-! PROOF. Outputs, ramp origin, halt place and timers follow the run state at every step (R83, R94, R112, R134, R147). -/

namespace Sys2Proof.Machine

/-- The start of a transmission writes the last transmitted setpoint and the slip blanking timer of the Trip Unit at most. -/
theorem startNext_trip (s : State) (p : PortId) : ∃ x y, (startNext s p).trip = { s.trip with lastSetpoint := x, slipTimer := y } := by
  unfold startNext
  split
  · exact ⟨s.trip.lastSetpoint, s.trip.slipTimer, rfl⟩
  · split
    · exact ⟨_, _, rfl⟩
    · exact ⟨s.trip.lastSetpoint, s.trip.slipTimer, rfl⟩

/-- Outputs and timers depend on what they are named for. -/
theorem outputsFollow_congr {s t : State} (hl : t.leg = s.leg) (hg : t.lim.genTimer = s.lim.genTimer) (hd : t.trip.den = s.trip.den)
    (hs : t.trip.sbr = s.trip.sbr) (he : t.trip.ebr = s.trip.ebr) (hr : t.trip.ramp = s.trip.ramp) (h : outputsFollow s) :
    outputsFollow t := by
  unfold outputsFollow
  rw [hl, hg, hd, hs, he, hr]
  exact h

/-- A write of the setpoint and the slip blanking timer alone. -/
theorem outputsFollow_of_trip {s t : State} (hl : t.leg = s.leg) (hm : t.lim = s.lim)
    (ht : ∃ x y, t.trip = { s.trip with lastSetpoint := x, slipTimer := y }) : outputsFollow s → outputsFollow t := by
  obtain ⟨x, y, ht⟩ := ht
  exact outputsFollow_congr hl (by rw [hm]) (by rw [ht]) (by rw [ht]) (by rw [ht]) (by rw [ht])

/-- A new run state takes outputs and timers with it. -/
theorem outputsFollow_enterState {s : State} {new : RunState} (hh : new = .halted → s.leg.haltPlace.isSome = true) :
    outputsFollow (enterState s new) := by
  refine ⟨rfl, rfl, rfl, ?ramp, ?haltPlace, ?brakeTimer, ?genTimer⟩
  case ramp => cases new <;> simp [enterState, tripInState, legInState]
  case haltPlace =>
    by_cases hn : new = .halted
    · simp [enterState, legInState, hn, hh hn]
    · simp [enterState, legInState, hn]
  case brakeTimer => by_cases hn : new = .depart <;> simp [enterState, legInState, hn]
  case genTimer => by_cases hn : new = .serviceStop <;> simp [enterState, legInState, limInState, hn]

theorem outputsFollow_keeps : Keeps outputsFollow where
  same h := outputsFollow_congr h.leg (by rw [h.lim]) (by rw [h.trip]) (by rw [h.trip]) (by rw [h.trip]) (by rw [h.trip])
  offers p f _ := outputsFollow_congr (by simp) (by simp) (by simp) (by simp) (by simp) (by simp)
  ports _ := outputsFollow_congr (by simp) (by simp) (by simp) (by simp) (by simp) (by simp)
  demands {s d} _ := outputsFollow_of_trip (by simp) (by simp) (offerDemand_trip s d)
  starts {s} p := outputsFollow_of_trip (by simp) (by simp) (startNext_trip s p)
  legs {s l} h hs := by
    obtain ⟨hden, hsbr, hebr, hramp, hhalt, hbrake, hgen⟩ := hs
    unfold outputsFollow
    simp only [setLeg_leg, setLeg_trip, setLeg_lim, h.run, h.haltPlace]
    refine ⟨hden, hsbr, hebr, hramp, hhalt, fun ht => ?_, hgen⟩
    obtain hb | hb := h.brakeTimer
    · exact hbrake (hb ▸ ht)
    · simp [hb] at ht
  permits {s c x} := by cases c <;> exact id
  logs _ := id
  limits {s l} _ hg hs := by
    obtain ⟨hden, hsbr, hebr, hramp, hhalt, hbrake, hgen⟩ := hs
    exact ⟨hden, hsbr, hebr, hramp, hhalt, hbrake, fun h => (hg h).elim id hgen⟩
  inputs h _ := outputsFollow_congr rfl rfl h.den h.sbr h.ebr h.ramp
  clears _ := id
  records _ := id
  enters h _ := outputsFollow_enterState fun hn => absurd hn h
  halts p _ := outputsFollow_enterState fun _ => rfl

/-- Settles O56: every change of the run state writes outputs, ramp origin, halt place and timers together, and no other write of a reaction
touches them but to stop a timer. -/
theorem stepKeepsTheOutputsWithTheRunState : Obligations.StepKeepsTheOutputsWithTheRunState := by
  intro s t hs h
  refine outputsFollow_keeps.step (fun k x u _ => ?_) h hs
  obtain ⟨-, -, -, -, hleg, htrip, hlim, -, -⟩ := resetPart_parts k x u
  rw [outputsFollow, hleg, htrip, hlim]
  simp [Leg.fresh, Trip.fresh, Limiter.fresh, RunState.energized]

end Sys2Proof.Machine
end

