-- ==== Sys2Proof/Proofs/Records.lean ====
section
/-! PROOF. Fault Set, Stop Log, speeds, envelope and inputs stay within their bounds at every step (R75, R110, R112, R122, R133). -/

namespace Sys2Proof.Machine

/-! ## The Fault Set (R122) -/

/-- A record added or counted keeps its place in kind order. -/
theorem addFault_pairwise (new : FaultRecord) (l : List FaultRecord) (h : (l.map fun r => r.kind.num).Pairwise (· < ·)) :
    ((addFault new l).map fun r => r.kind.num).Pairwise (· < ·) := by
  induction l with
  | nil => simp [addFault]
  | cons x xs ih =>
    simp only [List.map_cons, List.pairwise_cons, List.forall_mem_map] at h
    obtain ⟨hx, hxs⟩ := h
    simp only [addFault]
    split
    · simpa using ⟨hx, hxs⟩
    next hne =>
      split
      next hlt =>
        simp only [List.map_cons, List.pairwise_cons, List.forall_mem_map, List.mem_cons, forall_eq_or_imp]
        exact ⟨⟨hlt, fun r hr => hlt.trans (hx r hr)⟩, hx, hxs⟩
      next hge =>
        have hlt : x.kind.num < new.kind.num := by
          have : x.kind.num ≠ new.kind.num := fun h => hne (faultKind_num_inj h)
          omega
        simp only [List.map_cons, List.pairwise_cons, List.forall_mem_map]
        refine ⟨fun r hr => ?_, ih hxs⟩
        obtain hk | ⟨y, hy, hyk⟩ := (addFault_kinds new xs r.kind).mp ⟨r, hr, rfl⟩
        · exact hk ▸ hlt
        · exact hyk ▸ hx y hy

/-- Counts stay within 1..255. -/
theorem addFault_counts {new : FaultRecord} {l : List FaultRecord} (hn : new.count = 1) (h : ∀ r ∈ l, 1 ≤ r.count ∧ r.count ≤ 255) :
    ∀ r ∈ addFault new l, 1 ≤ r.count ∧ r.count ≤ 255 := by
  induction l with
  | nil => simp [addFault, hn]
  | cons x xs ih =>
    rw [List.forall_mem_cons] at h
    obtain ⟨hx, hxs⟩ := h
    simp only [addFault]
    split
    · rw [List.forall_mem_cons]
      exact ⟨by dsimp only; omega, hxs⟩
    · split
      · simp only [List.forall_mem_cons]
        exact ⟨by omega, hx, hxs⟩
      · rw [List.forall_mem_cons]
        exact ⟨hx, ih hxs⟩

theorem faultSetOrdered_congr {s t : State} (h : t.trip.faults = s.trip.faults) : faultSetOrdered s → faultSetOrdered t := by
  unfold faultSetOrdered
  rw [h]
  exact id

theorem faultSetOrdered_keeps : Keeps faultSetOrdered where
  same h := faultSetOrdered_congr (by rw [h.trip])
  offers p f _ := faultSetOrdered_congr (by simp)
  ports _ := faultSetOrdered_congr (by simp)
  demands {s d} _ := by
    obtain ⟨x, y, h⟩ := offerDemand_trip s d
    exact faultSetOrdered_congr (by rw [h])
  starts {s} p := by
    obtain ⟨x, y, h⟩ := startNext_trip s p
    exact faultSetOrdered_congr (by rw [h])
  legs _ := id
  permits {s c x} := by cases c <;> exact id
  logs _ := id
  limits _ _ := id
  inputs h _ := faultSetOrdered_congr h.faults
  clears {s} keep hs :=
    ⟨hs.1.sublist (List.filter_sublist.map _), fun r hr => hs.2 r (List.mem_of_mem_filter hr)⟩
  records {s} k hs := ⟨addFault_pairwise _ _ hs.1, addFault_counts rfl hs.2⟩
  enters _ := id
  halts _ := id

theorem faultSetOrdered_reset (k : ResetKind) (x : Straps) (s : State) (h : faultSetOrdered s) : faultSetOrdered (resetPart k x s) := by
  obtain ⟨-, -, -, -, -, htrip, -, -, -⟩ := resetPart_parts k x s
  unfold faultSetOrdered
  rw [htrip]
  cases k with
  | por => exact ⟨List.Pairwise.nil, by simp [Trip.fresh, keptAtRestart]⟩
  | rst => exact ⟨List.Pairwise.nil, by simp [Trip.fresh, keptAtRestart]⟩
  | restart => exact h

/-! ## The Stop Log (R110) -/

theorem stopLogOrdered_congr {s t : State} (hl : t.leg.log = s.leg.log) (hr : t.leg.lastRecord = s.leg.lastRecord) :
    stopLogOrdered s → stopLogOrdered t := by
  unfold stopLogOrdered
  rw [hl, hr]
  exact id

theorem stopLogOrdered_keeps : Keeps stopLogOrdered where
  same h := stopLogOrdered_congr (by rw [h.leg]) (by rw [h.leg])
  offers p f _ := stopLogOrdered_congr (by simp) (by simp)
  ports _ := stopLogOrdered_congr (by simp) (by simp)
  demands _ := stopLogOrdered_congr (by simp) (by simp)
  starts p := stopLogOrdered_congr (by simp) (by simp)
  legs h := stopLogOrdered_congr h.log h.lastRecord
  permits {s c x} := by cases c <;> exact id
  logs {s} r _ := by
    refine ⟨List.length_take_le _ _, fun x hx => ?_⟩
    have hx : some r = some x := hx
    injection hx with hx
    rw [← hx]
    rfl
  limits _ _ := id
  inputs _ _ := id
  clears _ := id
  records _ := id
  enters _ := id
  halts _ := id

theorem stopLogOrdered_reset (k : ResetKind) (x : Straps) (s : State) (h : stopLogOrdered s) : stopLogOrdered (resetPart k x s) := by
  obtain ⟨-, -, -, -, hleg, -⟩ := resetPart_parts k x s
  unfold stopLogOrdered
  rw [hleg]
  cases k with
  | por => simp [Leg.fresh, keptAtRestart]
  | rst => simp [Leg.fresh, keptAtRestart]
  | restart => exact h

/-! ## Speeds and setpoints (R46, R112, R135) -/

/-- A setpoint leaves within the one offered (R140). -/
theorem sentSetpoint_le (s : State) (d : Demand) : sentSetpoint s d ≤ d.offered := by
  unfold sentSetpoint
  split <;> omega

theorem speedsWithin_congr {s t : State} (hv : s.est.v ≤ 20000 → t.est.v ≤ 20000)
    (hset : s.trip.lastSetpoint ≤ 20000 → t.trip.lastSetpoint ≤ 20000) (hlast : t.lim.last = s.lim.last) (hr : t.trip.ramp = s.trip.ramp)
    (hq : ∀ d, .demand d ∈ t.portB.queue → .demand d ∈ s.portB.queue) : speedsWithin s → speedsWithin t := by
  rintro ⟨h1, h2, h3, h4, h5⟩
  exact ⟨hv h1, hset h2, hlast ▸ h3, hr ▸ h4, fun d hd => h5 d (hq d hd)⟩

theorem mem_replaceDemand {d e : Demand} {q : List OutFrame} (h : .demand e ∈ replaceDemand d q) : e = d ∨ .demand e ∈ q := by
  induction q with
  | nil => exact .inr h
  | cons f rest ih =>
    unfold replaceDemand at h
    split at h
    · obtain h | h := List.mem_cons.mp h
      · exact .inl (by injection h)
      · exact .inr (List.mem_cons_of_mem _ h)
    · obtain h | h := List.mem_cons.mp h
      · exact .inr (h ▸ List.mem_cons_self)
      · exact (ih h).imp_right (List.mem_cons_of_mem _)

/-- A demand that waits after an offer waited before or is the one offered. -/
theorem mem_offerDemand_queue {s : State} {d e : Demand} (h : .demand e ∈ (offerDemand s d).portB.queue) :
    e = d ∨ .demand e ∈ s.portB.queue := by
  obtain hq | hq | ⟨-, q, hsub, -, hq⟩ := offerDemand_queue s d <;> rw [hq] at h
  · exact .inr h
  · exact mem_replaceDemand h
  · obtain h | h := List.mem_append.mp h
    · exact .inr (hsub.subset h)
    · exact .inl (by simpa using h)

/-- An offered demand leaves the last transmitted setpoint or replaces it by one within its own. -/
theorem offerDemand_lastSetpoint (s : State) (d : Demand) :
    (offerDemand s d).trip.lastSetpoint = s.trip.lastSetpoint ∨ (offerDemand s d).trip.lastSetpoint = sentSetpoint s d := by
  unfold offerDemand
  dsimp only
  split
  · exact .inl rfl
  · split
    · exact .inr rfl
    · split <;> exact .inl rfl

theorem waitingDemand_mem {q : List OutFrame} {d : Demand} (h : waitingDemand q = some d) : .demand d ∈ q := by
  unfold waitingDemand at h
  split at h
  next x hx =>
    injection h with h
    exact h ▸ List.mem_of_find?_eq_some hx
  next => simp at h

theorem startNext_lastSetpoint (s : State) (p : PortId) :
    (startNext s p).trip.lastSetpoint = s.trip.lastSetpoint ∨
    ∃ u d, .demand d ∈ s.portB.queue ∧ (startNext s p).trip.lastSetpoint = sentSetpoint u d := by
  unfold startNext
  split
  · exact .inl rfl
  · split
    next d hd => exact .inr ⟨_, d, waitingDemand_mem hd, rfl⟩
    next => exact .inl rfl

theorem speedsWithin_enterState {s : State} (new : RunState) (h : speedsWithin s) : speedsWithin (enterState s new) := by
  obtain ⟨hv, hset, hlast, -, hq⟩ := h
  refine ⟨hv, hset, hlast, fun o ho => ?_, hq⟩
  by_cases hn : new = .serviceStop
  · simp only [enterState, tripInState, hn, if_true, setLim_trip, setTrip_trip, Option.some.injEq] at ho
    exact ho ▸ hv
  · simp [enterState, tripInState, hn] at ho

theorem speedsWithin_keeps : Keeps speedsWithin where
  same h := speedsWithin_congr h.v (by rw [h.trip]; exact id) (by rw [h.lim]) (by rw [h.trip]) (by rw [h.portB]; exact fun _ => id)
  offers {s} p f hf := by
    refine speedsWithin_congr (by simp) (by simp) (by simp) (by simp) fun d hd => ?_
    cases p with
    | a => exact hd
    | b =>
      rw [offer_portB_of_b] at hd
      obtain hq | ⟨-, hq⟩ := port_offer_queue s.portB s.straps.own f <;> rw [hq] at hd
      · exact hd
      · obtain hd | hd := List.mem_append.mp hd
        · exact hd
        · rw [← List.mem_singleton.mp hd] at hf
          simp [OutFrame.isDemand] at hf
  ports {s p x} h := by
    refine speedsWithin_congr (by simp) (by simp) (by simp) (by simp) fun d hd => ?_
    cases p with
    | a => exact hd
    | b => exact h ▸ hd
  demands {s d} hd hs := by
    obtain ⟨x, y, htrip⟩ := offerDemand_trip s d
    have hoffered := hd hs
    obtain ⟨hv, hset, hlast, hramp, hq⟩ := hs
    refine ⟨by simpa using hv, ?_, by simpa using hlast, by simpa [htrip] using hramp, fun e he => ?_⟩
    · obtain h | h := offerDemand_lastSetpoint s d <;> rw [h]
      · exact hset
      · exact (sentSetpoint_le s d).trans hoffered
    · obtain rfl | he := mem_offerDemand_queue he
      · exact hoffered
      · exact hq e he
  starts {s} p hs := by
    obtain ⟨x, y, htrip⟩ := startNext_trip s p
    obtain ⟨hv, hset, hlast, hramp, hq⟩ := hs
    refine ⟨by simpa using hv, ?_, by simpa using hlast, by simpa [htrip] using hramp, fun e he => ?_⟩
    · obtain h | ⟨u, d, hd, h⟩ := startNext_lastSetpoint s p <;> rw [h]
      · exact hset
      · exact (sentSetpoint_le u d).trans (hq d hd)
    · exact hq e ((startNext_queue s p .b).subset he)
  legs _ := id
  permits {s c x} := by cases c <;> exact id
  logs _ := id
  limits hl _ hs := by
    have hlast := hl hs
    obtain ⟨hv, hset, -, hramp, hq⟩ := hs
    exact ⟨hv, hset, hlast, hramp, hq⟩
  inputs h _ := speedsWithin_congr id (by rw [setTrip_trip, h.lastSetpoint]; exact id) rfl h.ramp fun _ => id
  clears _ := id
  records _ := id
  enters _ := speedsWithin_enterState _
  halts _ := speedsWithin_enterState _

theorem speedsWithin_reset (k : ResetKind) (x : Straps) (s : State) : speedsWithin (resetPart k x s) := by
  obtain ⟨-, hest, -, -, -, htrip, hlim, -, hportB⟩ := resetPart_parts k x s
  unfold speedsWithin
  rw [hest, htrip, hlim, hportB]
  simp [Estimator.fresh, Trip.fresh, Limiter.fresh, resetPort, Port.fresh]

/-! ## The inputs (R112, R133) -/

/-- The slip blanking timer may be started, but not stopped, where the inputs are left. -/
theorem inputsConsistent_congr {s t : State} (hi : t.trip.inputs = s.trip.inputs) (hu : t.trip.slipUnderlying = s.trip.slipUnderlying)
    (ht : t.trip.slipTimer = none → s.trip.slipTimer = none) : inputsConsistent s → inputsConsistent t := by
  rintro ⟨hhist, hslip⟩
  exact ⟨by rwa [hi], fun h => by rw [hi, hu]; exact hslip (ht h)⟩

/-- A transmission starts the slip blanking timer or leaves it. -/
theorem takeSetpoint_slipTimer (s : State) (x : Nat) : (takeSetpoint s x).slipTimer = none → s.trip.slipTimer = none := by
  unfold takeSetpoint timerAfter
  dsimp only
  split
  · simp
  · exact id

theorem inputsConsistent_sendDemand {s : State} (d : Demand) : inputsConsistent s → inputsConsistent (sendDemand s d) :=
  inputsConsistent_congr rfl rfl (takeSetpoint_slipTimer s _)

theorem inputsConsistent_keeps : Keeps inputsConsistent where
  same h := inputsConsistent_congr (by rw [h.trip]) (by rw [h.trip]) (by rw [h.trip]; exact id)
  offers p f _ := inputsConsistent_congr (by simp) (by simp) (by simp)
  ports _ := inputsConsistent_congr (by simp) (by simp) (by simp)
  demands {s d} _ hs := by
    unfold offerDemand
    dsimp only
    split
    · exact hs
    · split
      · exact inputsConsistent_sendDemand d hs
      · split <;> exact hs
  starts {s} p hs := by
    unfold startNext
    split
    · exact hs
    · split
      · exact inputsConsistent_sendDemand (s := s.setPortB _) _ hs
      · exact hs
  legs _ := id
  permits {s c x} := by cases c <;> exact id
  logs _ := id
  limits _ _ := id
  inputs _ hi := hi
  clears _ := id
  records _ := id
  enters _ := id
  halts _ := id

theorem inputsConsistent_reset (k : ResetKind) (x : Straps) (s : State) : inputsConsistent (resetPart k x s) := by
  obtain ⟨-, -, -, -, -, htrip, -⟩ := resetPart_parts k x s
  unfold inputsConsistent
  rw [htrip]
  exact ⟨fun i => by cases i <;> exact Nat.zero_le _, fun _ => rfl⟩

/-! ## The envelope (R75) -/

/-- A recomputation forms E within V_max. -/
theorem recompute_within (s : State) : envelopeWithin (recompute s) := by
  unfold envelopeWithin
  simp only [recompute, setEnv_env, formEnvelope, State.line, setEnv_tables]
  split <;> omega

theorem envelopeWithin_congr {s t : State} (he : t.env.e = s.env.e) (hw : t.tables.working = s.tables.working) :
    envelopeWithin s → envelopeWithin t := by
  unfold envelopeWithin State.line
  rw [he, hw]
  exact id

/-- A raise recomputes the envelope or leaves it. -/
theorem raiseFault_within {s : State} (k : FaultKind) (h : envelopeWithin s) : envelopeWithin (raiseFault s k) := by
  have hact (t : State) (a : Action) (ht : envelopeWithin t) : envelopeWithin (applyAction t a k) := by
    unfold applyAction
    split
    · exact ht
    · dsimp only
      split
      · exact recompute_within _
      · exact envelopeWithin_congr (by simp) (by simp) ht
  unfold raiseFault
  dsimp only
  split
  · exact hact _ _ (envelopeWithin_congr (by simp) (by simp) h)
  · exact hact _ _ (envelopeWithin_congr (by simp) (by simp) h)

theorem Reacts.within {s t : State} (h : Reacts s t) : envelopeWithin s → envelopeWithin t := by
  induction h with
  | trans _ _ h k => exact k ∘ h
  | recomputes s => exact fun _ => recompute_within s
  | raises s k => exact raiseFault_within k
  | _ => exact envelopeWithin_congr (by simp) (by simp)

/-- A position update forms the envelope afresh, whatever stood before. -/
theorem positionUpdate_within (s : State) (u : Update) : envelopeWithin (positionUpdate s u) := by
  refine Reacts.within (.trans ?_ (legUpdate_reacts _ u)) (recompute_within s)
  split
  · exact speedTests_reacts _
  · exact .refl _

theorem Effects.within {s t : State} (h : Effects s t) : envelopeWithin s → envelopeWithin t := by
  induction h with
  | reacts h => exact h.within
  | trans _ _ h k => exact k ∘ h
  | beside h => exact envelopeWithin_congr (by rw [h.env]) h.working
  | moves _ _ u => exact fun _ => positionUpdate_within _ u
  | activates _ _ _ _ u => exact fun _ => positionUpdate_within _ u
  | turns _ c k => exact envelopeWithin_congr (by simp) (by simp)

theorem holdBlock_working (t : Tables) (k : Fin 6) (held : List Byte) : (holdBlock t k held).working = t.working := by
  unfold holdBlock
  split <;> rfl

theorem envelopeWithin_reset (k : ResetKind) (x : Straps) (s : State) : envelopeWithin (resetPart k x s) := by
  obtain ⟨-, -, -, henv, -⟩ := resetPart_parts k x s
  unfold envelopeWithin
  rw [henv]
  exact Nat.zero_le _

theorem step_envelopeWithin {s t : State} (h : step s = .next t) : envelopeWithin s → envelopeWithin t :=
  step_keeps (fun _ _ => id) (fun _ _ => id) (fun k x s _ => envelopeWithin_reset k x s)
    (fun _ _ _ _ _ => envelopeWithin_congr rfl (holdBlock_working _ _ _)) (fun c _ hf => (effect_effects hf c).within) h

/-- Settles O59: the five bounds side by side, each kept by every write of a reaction and brought about by every reset. -/
theorem stepKeepsTheRecordsOrdered : Obligations.StepKeepsTheRecordsOrdered := fun _ _ h =>
  ⟨faultSetOrdered_keeps.step faultSetOrdered_reset h, stopLogOrdered_keeps.step stopLogOrdered_reset h,
    speedsWithin_keeps.step (fun k x s _ => speedsWithin_reset k x s) h, step_envelopeWithin h,
    inputsConsistent_keeps.step (fun k x s _ => inputsConsistent_reset k x s) h⟩

end Sys2Proof.Machine
end

