-- ==== Sys2Proof/Proofs/Rest.lean ====
section
/-! PROOF. The tables change at rest alone, and no state on the way to a departure holds a record that stops (R125). -/

namespace Sys2Proof.Machine

/-! ## The run states at rest -/

/-- No action leads into MAINTENANCE. -/
theorem actionTarget_ne_maintenance {a : Action} {r new : RunState} (h : actionTarget a r = some new) : new ≠ .maintenance := by
  rintro rfl
  cases a <;> cases r <;> simp [actionTarget] at h

@[simp] theorem actionTarget_safe (a : Action) : actionTarget a .safe = none := by cases a <;> rfl
@[simp] theorem actionTarget_maintenance (a : Action) : actionTarget a .maintenance = none := by cases a <;> rfl

/-- A raise leaves SAFE and MAINTENANCE, and enters MAINTENANCE from nowhere. -/
theorem raiseFault_rest (s : State) (k : FaultKind) :
    (s.leg.run = .safe → (raiseFault s k).leg.run = .safe) ∧
    ((raiseFault s k).leg.run = .maintenance ↔ s.leg.run = .maintenance) := by
  rw [raiseFault_run]
  refine ⟨fun h => by simp [h], fun h => ?_, fun h => by simp [h]⟩
  cases ht : actionTarget (s.response k).action s.leg.run with
  | none => simpa [ht] using h
  | some new => exact absurd (by simpa [ht] using h) (actionTarget_ne_maintenance ht)

/-- A reaction leaves SAFE and MAINTENANCE, and enters MAINTENANCE from nowhere. -/
theorem Reacts.rest {s t : State} (h : Reacts s t) :
    (s.leg.run = .safe → t.leg.run = .safe) ∧ (t.leg.run = .maintenance ↔ s.leg.run = .maintenance) := by
  induction h with
  | refl => exact ⟨id, .rfl⟩
  | trans _ _ h k => exact ⟨k.1 ∘ h.1, k.2.trans h.2⟩
  | raises s k => exact raiseFault_rest s k
  | legs h => simp [h.run]
  | permits => rename_i s c x _; cases c <;> exact ⟨id, .rfl⟩
  | logs => exact ⟨id, .rfl⟩
  | changes h c k =>
    rw [changeState_leg]
    exact ⟨fun hs => absurd hs h.notSafe, fun hm => absurd hm h.newNotMaintenance, fun hm => absurd hm h.notMaintenance⟩
  | halts h p c k => simp [legInState, h]
  | recomputes | offers | ports | demands | starts | limits | inputs | clears => simp

/-- SAFE and MAINTENANCE together. -/
def atRest (s : State) : Prop := s.leg.run = .safe ∨ s.leg.run = .maintenance

theorem Reacts.atRest {s t : State} (h : Reacts s t) : atRest s → atRest t := Or.imp h.rest.1 h.rest.2.mpr

/-! ## The order of table changes -/

theorem Reacts.tablesChangeAtRest {s t : State} (h : Reacts s t) : tablesChangeAtRest s → tablesChangeAtRest t := by
  rintro ⟨hphase, hcommit⟩
  unfold Machine.tablesChangeAtRest
  rw [h.phase, h.resp]
  exact ⟨fun hp => ⟨h.rest.1 (hphase hp).1, (hphase hp).2⟩, fun d p x ho => h.rest.2.mpr (hcommit d p x ho)⟩

theorem Turns.tablesChangeAtRest {s : State} {new : RunState} (h : Turns s new) (c : StateCause) (k : Nat) (hs : tablesChangeAtRest s) :
    tablesChangeAtRest (changeState s new c k) := by
  have hrunning (hp : s.phase = .running) : (changeState s new c k).phase ≠ .running → (changeState s new c k).leg.run = .safe ∧
      (changeState s new c k).resp.op.inFlight = false := fun hn => absurd (by simpa using hp) hn
  have hop (d : Byte) (p : PortId) (x : TableSet) (ho : (changeState s new c k).resp.op = .commit d p x) : s.resp.op = .commit d p x := by
    simpa using ho
  cases h with
  | ready hp hr _ => exact ⟨hrunning hp, fun d p x ho => absurd (hr.symm.trans (hs.2 d p x (hop d p x ho))) (by decide)⟩
  | enter hp hr => exact ⟨hrunning hp, fun d p x ho => absurd (hr.symm.trans (hs.2 d p x (hop d p x ho))) (by decide)⟩
  | leave hp hr ho' => exact ⟨hrunning hp, fun d p x ho => absurd ho' (by simp [hop d p x ho, StoreOp.inFlight])⟩

theorem Effects.tablesChangeAtRest {s t : State} (h : Effects s t) : tablesChangeAtRest s → tablesChangeAtRest t := by
  induction h with
  | reacts h => exact h.tablesChangeAtRest
  | trans _ _ h k => exact k ∘ h
  | beside h => exact h.atRest
  | moves _ h u => exact fun hs => (h.trans (positionUpdate_reacts _ u)).tablesChangeAtRest hs
  | activates _ hx _ h u => exact fun hs => (h.trans (positionUpdate_reacts _ u)).tablesChangeAtRest (hx.atRest hs)
  | turns h c k => exact h.tablesChangeAtRest c k

/-! ## The Fault Set on the way to a departure -/

/-- A stopping action moves every run state that must hold no stopping record. -/
theorem actionTarget_of_faultFree {a : Action} {r : RunState} (ha : a ≠ .notice) (hr : r.faultFree = true) :
    ∃ new, actionTarget a r = some new ∧ new.faultFree = false := by
  cases a <;> cases r <;> first | exact absurd rfl ha | exact ⟨_, rfl, rfl⟩ | simp [RunState.faultFree] at hr

/-- Where the kinds held are the same, so is the freedom from stopping records. -/
theorem departureFaultFree_of {s t : State} (hrun : t.leg.run.faultFree = true → s.leg.run.faultFree = true)
    (hw : t.tables.working = s.tables.working) (hf : ∀ r ∈ t.trip.faults, ∃ x ∈ s.trip.faults, x.kind = r.kind)
    (h : departureFaultFree s) : departureFaultFree t := by
  intro ht r hr
  obtain ⟨x, hx, hk⟩ := hf r hr
  have hresp : t.response r.kind = s.response x.kind := by rw [State.response, hw, hk]; rfl
  rw [hresp]
  exact h (hrun ht) x hx

/-- A raise in a state on the way to a departure either leaves it there, its action a NOTICE, or takes it away from there. -/
theorem raiseFault_departure {s : State} (k : FaultKind) (h : departureFaultFree s) : departureFaultFree (raiseFault s k) := by
  intro ht r hr
  rw [response_congr (s := s) (by simp)]
  rw [raiseFault_run] at ht
  have hs : s.leg.run.faultFree = true ∧ (s.response k).action = .notice := by
    cases hact : actionTarget (s.response k).action s.leg.run with
    | none =>
      rw [hact] at ht
      refine ⟨ht, by_contra fun ha => ?_⟩
      obtain ⟨new, hnew, -⟩ := actionTarget_of_faultFree ha ht
      simp [hact] at hnew
    | some new =>
      rw [hact, Option.getD_some] at ht
      exfalso
      cases ha : (s.response k).action <;> cases hrun : s.leg.run <;> rw [ha, hrun] at hact <;>
        simp [actionTarget] at hact <;> subst hact <;> simp [RunState.faultFree] at ht
  obtain ⟨hrun, hnotice⟩ := hs
  rw [(raiseFault_trip s k).1] at hr
  obtain hk | ⟨x, hx, hk⟩ := (addFault_kinds _ _ r.kind).mp ⟨r, hr, rfl⟩
  · rw [hk]
    exact hnotice
  · rw [← hk]
    exact h hrun x hx

theorem faults_of_trip {s t : State} (h : t.trip.faults = s.trip.faults) :
    ∀ r ∈ t.trip.faults, ∃ x ∈ s.trip.faults, x.kind = r.kind := fun r hr => ⟨r, h ▸ hr, rfl⟩

theorem changeState_faults (s : State) (new : RunState) (c : StateCause) (k : Nat) :
    (changeState s new c k).trip.faults = s.trip.faults := by
  obtain ⟨x, y, h⟩ := changeState_trip s new c k
  rw [h]
  rfl

theorem Reacts.departure {s t : State} (h : Reacts s t) : departureFaultFree s → departureFaultFree t := by
  induction h with
  | refl => exact id
  | trans _ _ h k => exact k ∘ h
  | raises s k => exact raiseFault_departure k
  | legs h => exact departureFaultFree_of (by simp [h.run]) rfl (faults_of_trip rfl)
  | permits => rename_i s c x _; cases c <;> exact id
  | logs => exact id
  | demands =>
    rename_i s d _
    obtain ⟨x, y, h⟩ := offerDemand_trip s d
    exact departureFaultFree_of (by simp) (by simp) (faults_of_trip (by rw [h]))
  | starts s p =>
    obtain ⟨x, y, h⟩ := startNext_trip s p
    exact departureFaultFree_of (by simp) (by simp) (faults_of_trip (by rw [h]))
  | inputs h => exact departureFaultFree_of id rfl (faults_of_trip h.faults)
  | clears s keep => exact departureFaultFree_of id rfl fun r hr => ⟨r, List.mem_of_mem_filter hr, rfl⟩
  | changes h c k =>
    refine departureFaultFree_of (fun ht => h.faultFree ?_) (by simp) (faults_of_trip (changeState_faults _ _ _ _))
    simpa [legInState] using ht
  | halts h p c k =>
    refine departureFaultFree_of (fun _ => by rw [h]; rfl) (by simp) (faults_of_trip ?_)
    rw [changeState_faults]
    rfl
  | recomputes | offers | ports | limits => exact departureFaultFree_of (by simp) (by simp) (faults_of_trip (by simp))

/-- At rest there is nothing to hold. -/
theorem departureFaultFree_atRest {s : State} (h : atRest s) : departureFaultFree s := by
  intro hf
  rcases h with h | h <;> simp [h, RunState.faultFree] at hf

/-- MAKE READY finds no stopping record (R85). -/
theorem faults_of_notReady {s : State} (h : notReady s = none) : ∀ r ∈ s.trip.faults, (s.response r.kind).action = .notice := by
  intro r hr
  unfold notReady at h
  split at h
  · simp at h
  · split at h
    · simp at h
    next hnone =>
      have := List.find?_eq_none.mp hnone r hr
      simpa [stopsDeparture] using this

theorem Effects.departure {s t : State} (h : Effects s t) : Machine.tablesChangeAtRest s → departureFaultFree s → departureFaultFree t := by
  induction h with
  | reacts h => exact fun _ => h.departure
  | trans h _ ih ik => exact fun hr hs => ik (h.tablesChangeAtRest hr) (ih hr hs)
  | beside h => exact fun _ => departureFaultFree_of (by simp [h.leg]) h.working (faults_of_trip (by rw [h.trip]))
  | moves _ h u => exact fun _ hs => (h.trans (positionUpdate_reacts _ u)).departure hs
  | @activates s x t e hrest hx _ h u =>
    intro hr _
    have hx' : atRest (x.setEst e) := by
      rw [atRest, setEst_leg, hx.leg]
      exact hrest hr
    exact departureFaultFree_atRest ((h.trans (positionUpdate_reacts _ u)).atRest hx')
  | @turns s new h c k =>
    intro _ _
    cases h with
    | ready _ _ hn =>
      intro _ r hr
      rw [response_congr (s := s) (by simp)]
      exact faults_of_notReady hn r (by rwa [changeState_faults] at hr)
    | enter => exact departureFaultFree_atRest (.inr (by simp [legInState]))
    | leave => exact departureFaultFree_atRest (.inl (by simp [legInState]))

/-! ## Every step -/

theorem tablesChangeAtRest_reset (k : ResetKind) (x : Straps) (s : State) : tablesChangeAtRest (resetPart k x s) := by
  obtain ⟨hresp, -, -, -, hleg, -⟩ := resetPart_parts k x s
  unfold tablesChangeAtRest
  rw [hresp, hleg]
  exact ⟨fun _ => ⟨rfl, rfl⟩, by simp [Responder.fresh]⟩

/-- A reset leaves the part at rest. -/
theorem atRest_reset (k : ResetKind) (x : Straps) (s : State) : atRest (resetPart k x s) := by
  obtain ⟨-, -, -, -, hleg, -⟩ := resetPart_parts k x s
  exact .inl (by rw [hleg]; rfl)

theorem tablesChangeAtRest_blockHeld {s : State} (hf : s.phase = .finishing) (p : Programming) (held : List Byte)
    (h : tablesChangeAtRest s) : tablesChangeAtRest (blockHeld s p held) := ⟨fun _ => h.1 (by simp [hf]), h.2⟩

/-- Settles O57: both invariants together; the second needs the first where a set comes into force, which finds the part at rest. -/
theorem stepKeepsTheDepartureFaultFree : Obligations.StepKeepsTheDepartureFaultFree := by
  intro s t hr hd h
  refine step_keeps (P := fun s => tablesChangeAtRest s ∧ departureFaultFree s) (fun _ _ => id) (fun _ _ => id) (fun k x u _ => ?_)
    (fun u p held hf _ hu => ?_) (fun c u hf hu => ?_) h ⟨hr, hd⟩
  · exact ⟨tablesChangeAtRest_reset k x u, departureFaultFree_atRest (atRest_reset k x u)⟩
  · exact ⟨tablesChangeAtRest_blockHeld hf p held hu.1, departureFaultFree_of (s := u) id (holdBlock_working _ _ _) (faults_of_trip rfl) hu.2⟩
  · have he := effect_effects hf c
    exact ⟨he.tablesChangeAtRest hu.1, he.departure hu.1 hu.2⟩

end Sys2Proof.Machine
end

