-- ==== Sys2Proof/Proofs/Permits.lean ====
section
/-! PROOF. A door release is energized in HALTED alone and only inside the window of the halt place, at every step (R102). -/

namespace Sys2Proof.Machine

/-! ## What a reaction does to a permit -/

/-- A permit at a halt place in HALTED; where `g` holds, with the car inside its window there. -/
def permitStands (g : Prop) (s : State) (c : Car) : Prop :=
  permit s c = true → s.leg.run = .halted ∧
    ∃ place, s.leg.haltPlace = some place ∧ (g → ((s.tables.working.places.get place).window c).holds (s.carPos c) = true)

theorem permitsInsideWindows_iff (s : State) : permitsInsideWindows s ↔ ∀ c, permitStands True s c := by
  simp [permitsInsideWindows, permitStands]

theorem permitStands_of_standsInside {s : State} {c : Car} (g : Prop) (h : standsInside s c) : permitStands g s c := by
  obtain ⟨hrun, place, hplace, hin⟩ := h
  exact fun _ => ⟨hrun, place, hplace, fun _ => hin⟩

theorem permitStands_of_none {s : State} {c : Car} (g : Prop) (h : permit s c = false) : permitStands g s c := by
  simp [permitStands, h]

/-- Away from the window the weaker claim is left. -/
theorem permitStands_weak {s : State} {c : Car} (h : permitStands True s c) : permitStands False s c := by
  intro hp
  obtain ⟨hrun, place, hplace, -⟩ := h hp
  exact ⟨hrun, place, hplace, False.elim⟩

/-- A standing permit stays where the permit, the halt and, as far as the window counts, the working copy and the car's position do. -/
theorem permitStands_of_same {g : Prop} {s t : State} {c : Car} (hp : permit t c = true → permit s c = true) (hr : t.leg.run = s.leg.run)
    (hh : t.leg.haltPlace = s.leg.haltPlace) (hw : g → t.tables.working = s.tables.working ∧ t.carPos c = s.carPos c)
    (h : permitStands g s c) : permitStands g t c := by
  intro ht
  obtain ⟨hrun, place, hplace, hin⟩ := h (hp ht)
  refine ⟨hr.trans hrun, place, hh.trans hplace, fun hg => ?_⟩
  obtain ⟨hwork, hpos⟩ := hw hg
  rw [hwork, hpos]
  exact hin hg

theorem permit_congr {s t : State} (h : t.leg = s.leg) (c : Car) : permit t c = permit s c := by
  cases c <;> simp [permit, h]

theorem permit_setPermit (s : State) (c : Car) (x : Bool) : permit (setPermit s c x) c = x := by cases c <;> rfl

theorem permit_setPermit_of_ne {c d : Car} (h : c ≠ d) (s : State) (x : Bool) : permit (setPermit s d x) c = permit s c := by
  cases c <;> cases d <;> simp [permit, setPermit] at h ⊢

/-- With the Leg Controller as it was. -/
theorem permitStands_of_leg {g : Prop} {s t : State} {c : Car} (hl : t.leg = s.leg)
    (hw : g → t.tables.working = s.tables.working ∧ t.carPos c = s.carPos c) : permitStands g s c → permitStands g t c :=
  permitStands_of_same (fun ht => permit_congr hl c ▸ ht) (by rw [hl]) (by rw [hl]) hw

/-- A new run state other than HALTED takes every permit away. -/
theorem permit_legInState {s t : State} {new : RunState} (h : new ≠ .halted) (ht : t.leg = legInState s new) (c : Car) :
    permit t c = false := by
  cases c <;> simp [permit, ht, legInState, h]

/-- A raise whose action moves the run state takes every permit away. -/
theorem raiseFault_permit {s : State} {k : FaultKind} {new : RunState} (h : actionTarget (s.response k).action s.leg.run = some new)
    (c : Car) : permit (raiseFault s k) c = false := by
  have hnew := actionTarget_ne_halted h
  unfold raiseFault
  dsimp only
  split
  all_goals
    simp only [applyAction, notify_frame, recordFault_frame, h]
    split
    · cases c <;> simp [permit, endLeg, legInState, hnew]
    · exact permit_legInState hnew (changeState_leg _ _ _ _) c

/-- A permit set is a permit that stands, where the car is inside its window. -/
theorem setPermit_stands {s : State} {c : Car} {x : Bool} (g : Prop) (h : x = true → standsInside s c) :
    permitStands g (setPermit s c x) c := by
  intro hp
  rw [permit_setPermit] at hp
  obtain ⟨hrun, place, hplace, hin⟩ := h hp
  exact permitStands_of_standsInside g (s := setPermit s c x) (by cases c <;> exact ⟨hrun, place, hplace, hin⟩) (by rw [permit_setPermit, hp])

theorem Reacts.permitStands {s t : State} (h : Reacts s t) (g : Prop) (c : Car) : Machine.permitStands g s c → Machine.permitStands g t c := by
  induction h with
  | refl => exact id
  | trans _ _ h k => exact k ∘ h
  | @legs s l h =>
    have hp : permit (s.setLeg l) c = permit s c := by
      cases c
      · exact h.dra
      · exact h.drb
    exact permitStands_of_same (fun ht => hp ▸ ht) h.run h.haltPlace fun _ => ⟨rfl, by cases c <;> rfl⟩
  | @permits s d x hx =>
    by_cases hcd : c = d
    · subst hcd
      exact fun _ => setPermit_stands g hx
    · exact permitStands_of_same (fun ht => permit_setPermit_of_ne hcd s x ▸ ht) (by cases d <;> rfl) (by cases d <;> rfl)
        fun _ => ⟨by simp, carPos_congr (by simp) (by simp) c⟩
  | logs s r => exact permitStands_of_same id rfl rfl fun _ => ⟨rfl, by cases c <;> rfl⟩
  | raises s k =>
    cases hact : actionTarget (s.response k).action s.leg.run with
    | none =>
      exact permitStands_of_leg (raiseFault_of_no_target hact).1 fun _ => ⟨by simp, carPos_congr (by simp) (by simp) c⟩
    | some new => exact fun _ => permitStands_of_none g (raiseFault_permit hact c)
  | changes h r k => exact fun _ => permitStands_of_none g (permit_legInState h.newNotHalted (changeState_leg _ _ _ _) c)
  | @halts s h p r k =>
    intro hs
    refine permitStands_of_none g (Bool.eq_false_iff.mpr fun ht => ?_)
    have hp : permit s c = true := by cases c <;> simpa [permit, legInState, haltLeg] using ht
    exact absurd (hs hp).1 (by simp [h])
  | recomputes | offers | ports | demands | starts | limits | inputs | clears =>
    exact permitStands_of_leg (by simp) fun _ => ⟨by simp, carPos_congr (by simp) (by simp) c⟩

/-! ## The evaluation of the permits -/

/-- The evaluation leaves a permit only to a car inside its window of the halt place. -/
theorem evaluatePermit_stands {s : State} {c : Car} (h : permitStands False s c) : permitStands True (evaluatePermit s c) c := by
  unfold evaluatePermit
  split
  next place hrun hplace =>
    have hinside (hx : ((s.tables.working.places.get place).window c).holds (s.carPos c) = true) : standsInside s c :=
      ⟨hrun, place, hplace, hx⟩
    dsimp only
    split
    · exact setPermit_stands True hinside
    · exact setPermit_stands True fun hx => (standsInside_setMismatch s c c false).mpr (hinside hx)
    · exact setPermit_stands True (by simp)
    · exact setPermit_stands True (by simp)
  next hnot =>
    refine permitStands_of_none True (Bool.eq_false_iff.mpr fun hp => ?_)
    obtain ⟨hrun, place, hplace, -⟩ := h hp
    exact hnot place hrun hplace

theorem evaluatePermits_stands {s : State} (h : ∀ c, permitStands False s c) (c : Car) : permitStands True (evaluatePermits s) c := by
  cases c with
  | a => exact (evaluatePermit_reacts _ .b).permitStands True .a (evaluatePermit_stands (h .a))
  | b => exact evaluatePermit_stands ((evaluatePermit_reacts s .a).permitStands False .b (h .b))

/-- Whatever moved the cars, a position update takes the permits of those outside (R61, R102). -/
theorem legUpdate_stands {s : State} (h : ∀ c, permitStands False s c) (u : Update) (c : Car) : permitStands True (legUpdate s u) c := by
  by_cases hrun : s.leg.run = .halted
  · have : legUpdate s u = evaluatePermits s := by simp only [legUpdate, hrun]
    rw [this]
    exact evaluatePermits_stands h c
  · refine (legUpdate_reacts s u).permitStands True c (permitStands_of_none True (Bool.eq_false_iff.mpr fun hp => ?_))
    exact hrun (h c hp).1

theorem positionUpdate_stands {s : State} (h : ∀ c, permitStands False s c) (u : Update) (c : Car) :
    permitStands True (positionUpdate s u) c := by
  refine legUpdate_stands (fun c => Reacts.permitStands ?_ False c (h c)) u c
  refine .trans (.recomputes s) ?_
  split
  · exact speedTests_reacts _
  · exact .refl _

/-! ## Every command and every step -/

theorem Effects.permitStands {s t : State} (h : Effects s t) :
    (∀ c, Machine.permitStands True s c) → ∀ c, Machine.permitStands True t c := by
  induction h with
  | reacts h => exact fun hs c => h.permitStands True c (hs c)
  | trans _ _ h k => exact k ∘ h
  | beside h =>
    exact fun hs c => permitStands_of_leg h.leg (fun _ => ⟨h.working, h.carPos c⟩) (hs c)
  | @moves s t e _ h u =>
    refine fun hs => positionUpdate_stands (fun c => h.permitStands False c ?_) u
    exact permitStands_of_leg (s := s) rfl False.elim (permitStands_weak (hs c))
  | @activates s x t e _ hx _ h u =>
    refine fun hs => positionUpdate_stands (fun c => h.permitStands False c ?_) u
    exact permitStands_of_leg (t := x.setEst e) hx.leg False.elim (permitStands_weak (hs c))
  | turns h c k => exact fun _ d => permitStands_of_none True (permit_legInState h.ne_halted (changeState_leg _ _ _ _) d)

/-- Settles O58: a command that moves a car or changes the tables ends in an evaluation of the permits, and no other touches what they
rest on. -/
theorem stepKeepsThePermitsInsideTheWindows : Obligations.StepKeepsThePermitsInsideTheWindows := by
  intro s t _ hs h
  rw [permitsInsideWindows_iff] at hs ⊢
  refine step_keeps (P := fun s => ∀ c, permitStands True s c) (fun _ _ => ?_) (fun _ _ => ?_) (fun k x u _ c => ?_)
    (fun u p held hf _ hu c => ?_) (fun c u hf => (effect_effects hf c).permitStands) h hs
  · exact fun hu c => permitStands_of_leg rfl (fun _ => ⟨rfl, by cases c <;> rfl⟩) (hu c)
  · exact fun hu c => permitStands_of_leg rfl (fun _ => ⟨rfl, by cases c <;> rfl⟩) (hu c)
  · obtain ⟨-, -, -, -, hleg, -⟩ := resetPart_parts k x u
    exact permitStands_of_none True (by cases c <;> simp [permit, hleg, Leg.fresh])
  · have hb := Beside.of_tables (s := u) (x := holdBlock u.tables p.block held) (holdBlock_working _ _ _)
    exact permitStands_of_leg (s := u) (t := blockHeld u p held) rfl (fun _ => ⟨hb.working, hb.carPos c⟩) (hu c)

end Sys2Proof.Machine
end

