-- ==== Sys2Proof/Proofs/Steady.lean ====
section
/-! PROOF. The records with their sources at every step: substitutes, degraded mode, the position on the line, the maintenance sequence and the
store's progress (R6, R35, R46, R59, R164, R169, R177, R182). -/

namespace Sys2Proof.Machine

/-! ## What the position, the maintenance sequence and the store's progress rest on -/

/-- A block is being programmed exactly while a COMMIT is in flight (R182). -/
def storeAgrees (s : State) : Prop := s.tables.programming.isSome = true ↔ s.resp.op.isCommit = true

/-- Outside a reset that waits, what the Source Tracker's records leave aside stays in order. -/
structure Steady (s t : State) : Prop where
  phase : s.phase ≠ .finishing → t.phase ≠ .finishing
  position : positionWithin s → positionWithin t
  maintenance : maintenanceConsistent s → maintenanceConsistent t
  store : storeAgrees s → storeAgrees t

theorem Steady.refl (s : State) : Steady s s := ⟨id, id, id, id⟩

theorem Steady.trans {s t u : State} (h : Steady s t) (k : Steady t u) : Steady s u :=
  ⟨k.phase ∘ h.phase, k.position ∘ h.position, k.maintenance ∘ h.maintenance, k.store ∘ h.store⟩

/-- The position on the line rests on the Line Constants and on three numbers. -/
theorem positionWithin_congr {s t : State} (hl : t.line = s.line) (hr : t.est.real = s.est.real) (ha : t.est.offA = s.est.offA)
    (hb : t.est.offB = s.est.offB) : positionWithin s → positionWithin t := by
  unfold positionWithin
  rw [hl, hr, ha, hb]
  exact id

/-- The maintenance sequence rests on the Responder, on SAFE and on MAINTENANCE. -/
theorem maintenanceConsistent_congr {s t : State} (hr : t.resp.requester = s.resp.requester) (he : t.resp.echo = s.resp.echo)
    (hq : t.resp.seq = s.resp.seq) (hs : t.resp.staged = s.resp.staged) (hsafe : s.leg.run = .safe → t.leg.run = .safe)
    (hrun : t.leg.run = .maintenance ↔ s.leg.run = .maintenance) : maintenanceConsistent s → maintenanceConsistent t := by
  unfold maintenanceConsistent
  rw [hr, he, hq, hs, hrun]
  exact fun ⟨h1, h2, h3, h4⟩ => ⟨h1, h2, hsafe ∘ h3, h4⟩

theorem storeAgrees_congr {s t : State} (ht : t.tables.programming = s.tables.programming) (hop : t.resp.op.isCommit = s.resp.op.isCommit) :
    storeAgrees s → storeAgrees t := by
  unfold storeAgrees
  rw [ht, hop]
  exact id

theorem Reacts.steady {s t : State} (h : Reacts s t) : Steady s t where
  phase := by rw [h.phase]; exact id
  position := positionWithin_congr (by rw [State.line, State.line, h.tables]) (by rw [h.est]) (by rw [h.est]) (by rw [h.est])
  maintenance := maintenanceConsistent_congr (by rw [h.resp]) (by rw [h.resp]) (by rw [h.resp]) (by rw [h.resp]) h.rest.1 h.rest.2
  store := storeAgrees_congr (by rw [h.tables]) (by rw [h.resp])

/-- The records are no part of it. -/
theorem steady_setSources (s : State) (v : Vector SourceRecord 16) : Steady s (s.setSources v) := ⟨id, id, id, id⟩

/-- A write of the estimator that keeps the car on the line. -/
theorem steady_setEst {s : State} {e : Estimator} (h : positionWithin s → positionWithin (s.setEst e)) : Steady s (s.setEst e) := ⟨id, h, id, id⟩

/-! ## What the substitutes and degraded mode rest on -/

/-- The substitutes within their maximum, while no reset waits. -/
def subsHeld (s : State) : Prop :=
  (∀ i : Fin 16, s.live i = true → (s.record i).subs ≤ (s.entry i).maxSubs ∧ ((s.record i).sync = .sync → (s.record i).subs = 0)) ∧
  (s.phase = .loading → s.tables.valid = false) ∧ (s.tables.valid = false → ∀ i : Fin 16, (s.record i).subs = 0)

/-- Degraded as the records have it. -/
def degradedHeld (s : State) : Prop := s.est.degraded = carLost s

/-- A command keeps the five in order; the substitutes where `g` holds. -/
structure Upholds (g : Prop) (s t : State) : Prop extends Steady s t where
  subs : g → subsHeld s → subsHeld t
  degraded : degradedHeld s → degradedHeld t

variable {g : Prop}

theorem Upholds.refl (s : State) : Upholds g s s := ⟨.refl s, fun _ => id, id⟩

theorem Upholds.trans {s t u : State} (h : Upholds g s t) (k : Upholds g t u) : Upholds g s u :=
  ⟨h.toSteady.trans k.toSteady, fun hg => k.subs hg ∘ h.subs hg, k.degraded ∘ h.degraded⟩

/-- The tables in force and the judgement of every record are the same. -/
structure SameTracking (s t : State) : Prop where
  phase : t.phase = s.phase
  valid : t.tables.valid = s.tables.valid
  working : t.tables.working = s.tables.working
  sync (i : Fin 16) : (t.record i).sync = (s.record i).sync
  subs (i : Fin 16) : (t.record i).subs = (s.record i).subs

/-- Whether a role's record stands in a sync state depends on the records' sync states. -/
theorem roleIn_of_syncs {s t : State} {r : Role} (hv : t.tables.valid = s.tables.valid)
    (hw : t.tables.working = s.tables.working) (h : ∀ i, s.roleIndex r = some i → (t.record i).sync = (s.record i).sync) (x : SyncState) : t.roleIn r x = s.roleIn r x := by
  have hi : t.roleIndex r = s.roleIndex r := by rw [State.roleIndex, hv, hw]; rfl
  unfold State.roleIn State.roleRecord
  rw [hi]
  cases hx : s.roleIndex r with
  | none => rfl
  | some i => simp [h i hx]

theorem carLost_of_syncs {s t : State} (hv : t.tables.valid = s.tables.valid) (hw : t.tables.working = s.tables.working)
    (h : ∀ i, (t.record i).sync = (s.record i).sync) : carLost t = carLost s := by
  unfold carLost
  rw [roleIn_of_syncs hv hw fun i _ => h i, roleIn_of_syncs hv hw fun i _ => h i]

theorem SameTracking.carLost {s t : State} (h : SameTracking s t) : carLost t = carLost s := carLost_of_syncs h.valid h.working h.sync

theorem SameTracking.subsHeld {s t : State} (h : SameTracking s t) : subsHeld s → subsHeld t := by
  unfold Machine.subsHeld State.live State.entry
  rw [h.phase, h.valid, h.working]
  simp only [h.sync, h.subs]
  exact id

theorem SameTracking.upholds {s t : State} (h : SameTracking s t) (hd : t.est.degraded = s.est.degraded) (hs : Steady s t) : Upholds g s t :=
  ⟨hs, fun _ => h.subsHeld, fun he => by rw [degradedHeld, hd, h.carLost]; exact he⟩

theorem Reacts.upholds {s t : State} (h : Reacts s t) : Upholds g s t := by
  obtain ⟨-, hphase, -, -, htables, -, hsources, hest⟩ := h.frame
  exact SameTracking.upholds ⟨hphase, by rw [htables], by rw [htables], fun i => by rw [State.record, hsources]; rfl,
    fun i => by rw [State.record, hsources]; rfl⟩ (by rw [hest]) h.steady

/-! ## Source Records -/

@[simp] theorem record_setRecord (s : State) (i : Fin 16) (r : SourceRecord) : (setRecord s i r).record i = r := by
  simp [setRecord, State.record]

theorem record_setRecord_of_ne {i j : Fin 16} (h : i ≠ j) (s : State) (r : SourceRecord) : (setRecord s i r).record j = s.record j := by
  simp [setRecord, State.record, Vector.getElem_set_ne _ _ (Fin.val_ne_of_ne h)]

/-- A record rewritten with its sync state and its substitutes. -/
theorem setRecord_upholds {s : State} {i : Fin 16} {r : SourceRecord} (hs : r.sync = (s.record i).sync)
    (hn : r.subs = (s.record i).subs) : Upholds g s (setRecord s i r) := by
  refine SameTracking.upholds ⟨rfl, rfl, rfl, fun j => ?_, fun j => ?_⟩ rfl (steady_setSources s _)
  all_goals
    by_cases h : i = j
    · subst h
      simpa using ‹_›
    · rw [record_setRecord_of_ne h]

/-- The index of a role is in use and holds the role. -/
theorem roleIndex_some {s : State} {r : Role} {i : Fin 16} (h : s.roleIndex r = some i) : s.live i = true ∧ (s.entry i).role = r := by
  unfold State.roleIndex at h
  split at h
  next hv =>
    have := List.find?_some h
    simp only [Bool.and_eq_true, decide_eq_true_eq] at this
    exact ⟨by simp [State.live, hv, this.1], this.2⟩
  next => simp at h

/-- A record of another role is no car's. -/
theorem carLost_setRecord {s : State} {i : Fin 16} (ha : (s.entry i).role ≠ .carAPosition) (hb : (s.entry i).role ≠ .carBPosition)
    (r : SourceRecord) : carLost (setRecord s i r) = carLost s := by
  have other {q : Role} (hq : (s.entry i).role ≠ q) (x : SyncState) : (setRecord s i r).roleIn q x = s.roleIn q x := by
    refine roleIn_of_syncs (s := s) (t := setRecord s i r) rfl rfl (fun j hj => ?_) x
    rw [record_setRecord_of_ne]
    rintro rfl
    exact hq (roleIndex_some hj).2
  unfold carLost
  rw [other ha, other hb]

/-! ## Degraded mode and the change of a sync state -/

theorem refreshDegraded_steady (s : State) : Steady s (refreshDegraded s) := by
  unfold refreshDegraded
  split
  · exact .refl s
  · exact .trans (steady_setEst (e := { s.est with degraded := carLost s }) id) (positionUpdate_reacts _ _).steady

/-- Degraded follows the records as they stand (R59). -/
theorem refreshDegraded_held (s : State) : degradedHeld (refreshDegraded s) := by
  unfold refreshDegraded
  split
  next h => exact h
  next =>
    have h := positionUpdate_reacts (s.setEst { s.est with degraded := carLost s }) .degradedChange
    exact (h.upholds (g := True)).degraded (show carLost s = carLost _ from rfl)

theorem markAged_upholds (s : State) (c : Car) : Upholds g s (markAged s c) := by
  cases c <;> exact SameTracking.upholds ⟨rfl, rfl, rfl, fun _ => rfl, fun _ => rfl⟩ rfl (steady_setEst id)

/-- At a change of sync state the car roles refresh degraded mode; the others react. -/
theorem syncChanged_cases (s : State) (r : Role) (new : SyncState) :
    (∃ t, syncChanged s r new = refreshDegraded t ∧ Steady s t) ∨
    (r ≠ .carAPosition ∧ r ≠ .carBPosition ∧ Reacts s (syncChanged s r new)) := by
  have hcar (c : Car) : Steady s (if new = .lost then markAged s c else s) := by
    split
    · exact (markAged_upholds (g := True) s c).toSteady
    · exact .refl s
  cases r with
  | carAPosition => exact .inl ⟨_, rfl, hcar .a⟩
  | carBPosition => exact .inl ⟨_, rfl, hcar .b⟩
  | loopDetector => exact .inr ⟨by simp, by simp, evaluatePermits_reacts s⟩
  | console =>
    refine .inr ⟨by simp, by simp, ?_⟩
    simp only [syncChanged]
    split
    · exact .limits (fun hs d hd => hs.2.2.1 d hd) (by simp)
    · split
      next h => exact generateAtCeiling_reacts h.2
      next => exact .refl s
  | encoder | carADoors | carBDoors | tension | drive => exact .inr ⟨by simp, by simp, .refl s⟩

/-- An update of a record writes it; a new sync state is noticed and seen by the other blocks. -/
theorem updateRecord_cases (s : State) (i : Fin 16) (r : SourceRecord) (c : SourceCause) :
    (r.sync = (s.record i).sync ∧ updateRecord s i r c = setRecord s i r) ∨
    ∃ n, updateRecord s i r c = syncChanged (notify (setRecord s i r) n) (s.entry i).role r.sync := by
  unfold updateRecord
  dsimp only
  split
  next h => exact .inl ⟨h, rfl⟩
  next => exact .inr ⟨_, rfl⟩

theorem updateRecord_steady (s : State) (i : Fin 16) (r : SourceRecord) (c : SourceCause) : Steady s (updateRecord s i r c) := by
  obtain ⟨-, h⟩ | ⟨n, h⟩ := updateRecord_cases s i r c <;> rw [h]
  · exact steady_setSources s _
  · refine .trans (steady_setSources s (s.sources.set i r)) (.trans (notify_reacts _ n).steady ?_)
    obtain ⟨t, ht, hs⟩ | ⟨-, -, h⟩ := syncChanged_cases (notify (setRecord s i r) n) (s.entry i).role r.sync
    · exact ht ▸ hs.trans (refreshDegraded_steady t)
    · exact h.steady

theorem updateRecord_degraded (s : State) (i : Fin 16) (r : SourceRecord) (c : SourceCause) (h : degradedHeld s) :
    degradedHeld (updateRecord s i r c) := by
  obtain ⟨hsync, hu⟩ | ⟨n, hu⟩ := updateRecord_cases s i r c <;> rw [hu]
  · refine h.trans (carLost_of_syncs (s := s) (t := setRecord s i r) rfl rfl fun j => ?_).symm
    by_cases hij : i = j
    · subst hij
      simpa using hsync
    · rw [record_setRecord_of_ne hij]
  · obtain ⟨t, ht, -⟩ | ⟨ha, hb, hr⟩ := syncChanged_cases (notify (setRecord s i r) n) (s.entry i).role r.sync
    · exact ht ▸ refreshDegraded_held t
    · exact ((notify_reacts _ n).trans hr).upholds (g := True).degraded (h.trans (carLost_setRecord ha hb r).symm)

/-- A live record judged anew: none or fewer substitutes than the maximum, or those it had. -/
theorem updateRecord_upholds {s : State} {i : Fin 16} {r : SourceRecord} (hlive : s.live i = true) (hzero : r.sync = .sync → r.subs = 0)
    (hmax : r.subs ≤ (s.entry i).maxSubs ∨ r.subs = (s.record i).subs) (c : SourceCause) : Upholds g s (updateRecord s i r c) := by
  refine ⟨updateRecord_steady s i r c, fun _ hs => ?_, updateRecord_degraded s i r c⟩
  obtain ⟨hrecords, hload, -⟩ := hs
  have htables : (updateRecord s i r c).tables = s.tables := by simp
  have hrec (j : Fin 16) : (updateRecord s i r c).record j = (setRecord s i r).record j := by
    rw [State.record, updateRecord_sources]
    rfl
  have hvalid : s.tables.valid = true := by
    simp only [State.live, Bool.and_eq_true] at hlive
    exact hlive.1
  refine ⟨fun j hj => ?_, by simpa using hload, by simp [hvalid]⟩
  rw [live_congr htables] at hj
  rw [hrec, State.entry, htables]
  by_cases hij : i = j
  · subst hij
    rw [record_setRecord]
    exact ⟨hmax.elim id fun h => h ▸ (hrecords i hlive).1, hzero⟩
  · rw [record_setRecord_of_ne hij]
    exact hrecords j hj

end Sys2Proof.Machine
end

