-- ==== Sys2Proof/Proofs/Tracked.lean ====
section
/-! PROOF. The Position Estimator, the Source Tracker and an activation keep the records in order with their sources (R35, R44, R46, R56, R59). -/

namespace Sys2Proof.Machine

variable {g : Prop}

/-! ## The Position Estimator -/

theorem clampMag_natAbs_le (m : Nat) (x : Int) : (clampMag m x).natAbs ≤ m := by
  unfold clampMag
  split
  · omega
  · split <;> omega

theorem clampTo_le (hi : Nat) (x : Int) : clampTo hi x ≤ hi := Nat.min_le_right _ _

theorem setEst_upholds {s : State} {e : Estimator} (hd : e.degraded = s.est.degraded) (hp : positionWithin s → positionWithin (s.setEst e)) :
    Upholds g s (s.setEst e) := SameTracking.upholds ⟨rfl, rfl, rfl, fun _ => rfl, fun _ => rfl⟩ hd (steady_setEst hp)

/-- A write of the estimator handed on as a position update. -/
theorem positionUpdate_upholds {s : State} {e : Estimator} (hd : e.degraded = s.est.degraded)
    (hp : positionWithin s → positionWithin (s.setEst e)) (u : Update) : Upholds g s (positionUpdate (s.setEst e) u) :=
  (setEst_upholds hd hp).trans (positionUpdate_reacts _ u).upholds

/-- The same with a raise in between. -/
theorem positionUpdate_raiseIf_upholds {s : State} {e : Estimator} (hd : e.degraded = s.est.degraded)
    (hp : positionWithin s → positionWithin (s.setEst e)) (b : Bool) (k : FaultKind) (u : Update) :
    Upholds g s (positionUpdate (raiseIf (s.setEst e) b k) u) :=
  (setEst_upholds hd hp).trans ((raiseIf_reacts _ b k).trans (positionUpdate_reacts _ u)).upholds

theorem encoderBaseline_upholds (s : State) (count : BitVec 24) (stamp : BitVec 16) : Upholds g s (encoderBaseline s count stamp) :=
  setEst_upholds (e := { s.est with real := s.rUm, coast := 0, baseline := some ⟨count, stamp⟩ }) rfl
    fun ⟨_, ha, hb⟩ => ⟨clampTo_le _ _, ha, hb⟩

theorem encoderSample_upholds (s : State) (p : List Byte) : Upholds g s (encoderSample s p) := by
  unfold encoderSample
  split
  · exact encoderBaseline_upholds s _ _
  · split
    · exact positionUpdate_upholds (e := healthyEstimate s _ _ _) rfl (fun ⟨_, ha, hb⟩ => ⟨clampTo_le _ _, ha, hb⟩) _
    · exact positionUpdate_upholds (e := unhealthyEstimate s _ _ _) rfl (fun ⟨_, ha, hb⟩ => ⟨clampTo_le _ _, ha, hb⟩) _

theorem carAReport_upholds {s : State} {c : Nat} (hc : c ≤ s.line.lineLength) : Upholds g s (carAReport s c) := by
  unfold carAReport
  dsimp only
  split
  · refine positionUpdate_upholds (e := { s.est with real := c * 1000, coast := 0, offA := 0, agedA := false, ropeEst := true }) rfl
      (fun ⟨_, _, hb⟩ => ⟨?_, Nat.zero_le _, hb⟩) _
    exact Nat.mul_le_mul_right 1000 hc
  · split
    · exact (Reacts.raises s _).upholds
    · exact positionUpdate_raiseIf_upholds (e := { s.est with offA := _, agedA := false }) rfl
        (fun ⟨hr, _, hb⟩ => ⟨hr, clampMag_natAbs_le _ _, hb⟩) _ _ _

theorem carBReport_upholds (s : State) (c : Nat) : Upholds g s (carBReport s c) := by
  unfold carBReport
  dsimp only
  split
  · exact .refl s
  · split
    · exact positionUpdate_raiseIf_upholds (e := { s.est with offB := _, offBSet := true, agedB := false }) rfl
        (fun ⟨hr, ha, _⟩ => ⟨hr, ha, clampMag_natAbs_le _ _⟩) _ _ _
    · split
      · exact (Reacts.raises s _).upholds
      · exact positionUpdate_raiseIf_upholds (e := { s.est with offB := _, agedB := false }) rfl
          (fun ⟨hr, ha, _⟩ => ⟨hr, ha, clampMag_natAbs_le _ _⟩) _ _ _

theorem carSample_upholds (s : State) (c : Car) (p : List Byte) : Upholds g s (carSample s c p) := by
  unfold carSample
  split
  · exact .refl s
  · cases c
    · exact carAReport_upholds (Nat.min_le_right _ _)
    · exact carBReport_upholds s _

theorem stationaryExpiry_upholds (s : State) : Upholds g s (stationaryExpiry s) :=
  (setEst_upholds (e := { s.est with statTimer := timerAfter s.now s.est.statTime }) rfl id).trans (takeStationary_reacts _).upholds

/-! ## The Source Tracker -/

theorem deliver_upholds (s : State) (r : Role) (f : RxFrame) : Upholds g s (deliver s r f) := by
  cases r with
  | encoder => exact encoderSample_upholds s _
  | carAPosition => exact carSample_upholds s .a _
  | carBPosition => exact carSample_upholds s .b _
  | carADoors => exact (judgeDoors_reacts s _).upholds
  | carBDoors => exact (judgeDoors_reacts s _).upholds
  | tension => exact (judgeTension_reacts s _).upholds
  | loopDetector => exact (evaluatePermits_reacts s).upholds
  | drive => exact (judgeDrive_reacts s _).upholds
  | console => exact (consoleDemand_reacts s f).upholds

theorem takeBaseline_upholds {s : State} {i : Fin 16} (h : s.live i = true) (f : RxFrame) (c : SourceCounters) :
    Upholds g s (takeBaseline s i f c) := by
  have hu : Upholds g s (updateRecord s i (baselineRecord s i f.seq c) .arrival) :=
    updateRecord_upholds h (fun _ => rfl) (.inl (Nat.zero_le _)) _
  unfold takeBaseline
  dsimp only
  split
  · exact hu.trans (encoderBaseline_upholds _ _ _)
  · exact hu

theorem accept_upholds {s : State} {i : Fin 16} (h : s.live i = true) (f : RxFrame) (d : Nat) : Upholds g s (accept s i f d) := by
  unfold accept
  split
  · exact setRecord_upholds rfl rfl
  · exact (updateRecord_upholds (r := acceptedRecord s i f d) h (fun _ => rfl) (.inl (Nat.zero_le _)) _).trans (deliver_upholds _ _ f)

theorem present_upholds {s : State} {i : Fin 16} (h : s.live i = true) (f : RxFrame) : Upholds g s (present s i f) := by
  unfold present
  dsimp only
  split
  · exact setRecord_upholds rfl rfl
  · split
    · exact takeBaseline_upholds h f _
    · split
      · exact takeBaseline_upholds h f _
      · split
        · exact accept_upholds h f _
        · exact takeBaseline_upholds h f _
    all_goals
      split
      · exact accept_upholds h f _
      · split
        · exact updateRecord_upholds (r := jumpRecord (s.record i)) h (fun _ => rfl) (.inl (Nat.zero_le _)) _
        · exact setRecord_upholds rfl rfl

theorem takeSubstitute_upholds (s : State) (i : Fin 16) : Upholds g s (takeSubstitute s i) := by
  unfold takeSubstitute
  split
  · exact positionUpdate_upholds (e := judgeStationary s { s.est with coast := _ }) rfl id _
  · exact markAged_upholds s .a
  · exact markAged_upholds s .b
  · exact (consoleSubstitute_reacts s).upholds
  all_goals exact .refl s

theorem lateExpiry_upholds {s : State} {i : Fin 16} (h : s.live i = true) : Upholds g s (lateExpiry s i) := by
  have htracked : Upholds g s (if (s.record i).subs < (s.entry i).maxSubs
      then takeSubstitute (updateRecord s i (substituteRecord s i) .expiry) i
      else raiseFault (updateRecord s i (lostRecord (s.record i)) .expiry) (s.entry i).role.lostKind) := by
    split
    next hsubs =>
      have hr : (substituteRecord s i).sync = .sync → (substituteRecord s i).subs = 0 := fun hc => SyncState.noConfusion hc
      exact (updateRecord_upholds h hr (.inl hsubs) _).trans (takeSubstitute_upholds _ i)
    next =>
      have hr : (lostRecord (s.record i)).sync = .sync → (lostRecord (s.record i)).subs = 0 := fun hc => SyncState.noConfusion hc
      exact (updateRecord_upholds h hr (.inr rfl) _).trans (Reacts.raises _ _).upholds
  unfold lateExpiry
  dsimp only
  split
  · exact htracked
  · exact htracked
  · exact setRecord_upholds rfl rfl
  · exact setRecord_upholds rfl rfl

/-! ## The comparison of the records (R44) -/

/-- A record after its comparison with its old and new entries (R44). -/
def comparedRecord (old : SourceTable) (v : Bool) (new : SourceTable) (i : Fin 16) (r : SourceRecord) : SourceRecord :=
  let wasIn := v && decide (i.val < old.count)
  if i.val < new.count then (if wasIn && decide (old.entries[i] = new.entries[i]) then r else restartedRecord)
  else if wasIn then { r with timer := none }
  else r

theorem compareRecord_record (old : SourceTable) (v : Bool) (s : State) (i j : Fin 16) :
    (compareRecord old v s i).record j =
      if i = j then comparedRecord old v s.tables.working.sources i (s.record i) else s.record j := by
  have hset (r : SourceRecord) : (setRecord s i r).record j = if i = j then r else s.record j := by
    split
    next h => rw [← h, record_setRecord]
    next h => rw [record_setRecord_of_ne h]
  have hsame : s.record j = if i = j then s.record i else s.record j := by
    split
    next h => rw [h]
    next => rfl
  unfold compareRecord comparedRecord
  dsimp only
  split
  · split
    · exact hsame
    · split
      · exact hset _
      · exact hset _
  · split
    · exact hset _
    · exact hsame

theorem foldl_compareRecord_record (old : SourceTable) (v : Bool) {l : List (Fin 16)} (hl : l.Nodup) (s : State) (j : Fin 16) :
    (l.foldl (compareRecord old v) s).record j =
      if j ∈ l then comparedRecord old v s.tables.working.sources j (s.record j) else s.record j := by
  induction l generalizing s with
  | nil => rfl
  | cons i l ih =>
    obtain ⟨hi, hl⟩ := List.nodup_cons.mp hl
    rw [List.foldl_cons, ih hl, compareRecord_record, compareRecord_frame s old v i |>.2.2.2.2.1]
    by_cases hij : i = j
    · subst hij
      simp [hi]
    · simp [hij, Ne.symm hij]

/-- Each record is compared, and no other write is made to it. -/
theorem activateSources_record (s : State) (old : SourceTable) (v : Bool) (j : Fin 16) :
    (activateSources s old v).record j = comparedRecord old v s.tables.working.sources j (s.record j) := by
  unfold activateSources
  rw [foldl_compareRecord_record old v (List.nodup_finRange 16), if_pos (List.mem_finRange j)]

/-! ## The activation of a set (R60) -/

/-- The Position Estimator's part of an activation brings the position onto the new line and degraded mode to the records. -/
theorem activateEstimator_upholds {s x : State} (old : LineConstants) (hphase : s.phase ≠ .finishing → x.phase ≠ .finishing)
    (hresp : x.resp = s.resp) (hleg : x.leg = s.leg) (hprog : x.tables.programming = s.tables.programming)
    (hsubs : g → subsHeld s → subsHeld x) : Upholds g s (activateEstimator x old) := by
  have hest : Reacts (x.setEst (activatedEstimate x old)) (activateEstimator x old) :=
    (raiseIf_reacts _ _ _).trans ((raiseIf_reacts _ _ _).trans (positionUpdate_reacts _ _))
  have hset : Upholds g s (x.setEst (activatedEstimate x old)) := by
    refine ⟨⟨hphase, fun _ => ?_, ?_, ?_⟩, hsubs, fun _ => rfl⟩
    · exact ⟨Nat.min_le_right _ _, clampMag_natAbs_le _ _, clampMag_natAbs_le _ _⟩
    · exact maintenanceConsistent_congr (t := x.setEst _) (by simp [hresp]) (by simp [hresp]) (by simp [hresp]) (by simp [hresp])
        (by simp [hleg]) (by simp [hleg])
    · exact storeAgrees_congr (t := x.setEst _) (by simp [hprog]) (by simp [hresp])
  exact hset.trans hest.upholds

/-- Under the working copy of a set each live record has no substitutes, or is the record of a live entry that stays. -/
theorem subsHeld_of_records {s t : State} (hphase : t.phase = .running) (hvalid : t.tables.valid = true)
    (h : ∀ i, t.live i = true → (t.record i).subs = 0 ∨ t.record i = s.record i ∧ s.live i = true ∧ t.entry i = s.entry i)
    (hs : subsHeld s) : subsHeld t := by
  obtain ⟨hrecords, -, -⟩ := hs
  refine ⟨fun i hi => ?_, by simp [hphase], by simp [hvalid]⟩
  obtain h0 | ⟨hr, hl, he⟩ := h i hi
  · simp [h0]
  · rw [hr, he]
    exact hrecords i hl

/-- An index in use keeps its record where its entry stays, and otherwise has it restarted. -/
theorem comparedRecord_of_lt {old new : SourceTable} {v : Bool} {i : Fin 16} (h : i.val < new.count) (r : SourceRecord) :
    (comparedRecord old v new i r).subs = 0 ∨
    comparedRecord old v new i r = r ∧ (v && decide (i.val < old.count)) = true ∧ new.entries[i] = old.entries[i] := by
  unfold comparedRecord
  dsimp only
  rw [if_pos h]
  split
  next hsame =>
    rw [Bool.and_eq_true, decide_eq_true_eq] at hsame
    exact .inr ⟨rfl, hsame.1, hsame.2.symm⟩
  next => exact .inl rfl

/-- The completion of a COMMIT restarts the records whose entries changed, and keeps those that stay (R44, R183). -/
theorem commitActivate_upholds {s : State} (hp : g → s.phase = .running) (set : TableSet) : Upholds g s (commitActivate s set) := by
  unfold commitActivate
  dsimp only
  refine activateEstimator_upholds _ (by simp) (by simp) (by simp) (by simp [takeSet]) fun hg => ?_
  refine subsHeld_of_records (by simpa using hp hg) (by simp [takeSet]) fun i hi => ?_
  have hcount : i.val < set.sources.count := by simpa [State.live, takeSet] using hi
  rw [activateSources_record]
  have := comparedRecord_of_lt (old := s.tables.working.sources) (v := s.tables.valid) hcount (s.record i)
  simpa [takeSet, State.entry, State.live, State.record] using this

/-- The load takes its set with every record as the reset left it (R44, R180). -/
theorem loadDecides_upholds {s : State} (h : s.phase = .loading) : Upholds g s (loadDecides s) := by
  unfold loadDecides
  dsimp only
  split
  · refine ⟨⟨by simp, id, id, id⟩, fun _ hs => ?_, id⟩
    obtain ⟨hrecords, hload, hnone⟩ := hs
    exact ⟨hrecords, by simp, hnone⟩
  next set _ =>
    refine activateEstimator_upholds _ (by simp [takeSet]) (by simp [takeSet]) (by simp [takeSet]) (by simp [takeSet]) fun _ hs => ?_
    refine subsHeld_of_records (s := s) (by simp [takeSet]) (by simp [takeSet]) (fun i _ => .inl ?_) hs
    obtain ⟨-, hload, hnone⟩ := hs
    exact hnone (hload h) i

end Sys2Proof.Machine
end

