-- ==== Sys2Proof/Proofs/Upheld.lean ====
section
/-! PROOF. Every command keeps the records with their sources, the position, the maintenance sequence and the store's progress; settles O60. -/

namespace Sys2Proof.Machine

variable {g : Prop}

/-! ## Writes of the Table Store and the Responder -/

/-- A write of the store's progress, with what follows it: the store and its operation agree at the end. -/
theorem Upholds.of_tables {s t : State} {x : Tables} (hv : x.valid = s.tables.valid) (hw : x.working = s.tables.working)
    (hst : storeAgrees t) (h : Upholds g (s.setTables x) t) : Upholds g s t := by
  have hsame : SameTracking s (s.setTables x) := ⟨rfl, hv, hw, fun _ => rfl, fun _ => rfl⟩
  have hplace : positionWithin s → positionWithin (s.setTables x) := positionWithin_congr (by simp [State.line, hw]) rfl rfl rfl
  exact ⟨⟨h.phase, h.position ∘ hplace, h.maintenance, fun _ => hst⟩, fun hg => h.subs hg ∘ hsame.subsHeld,
    fun hd => h.degraded (Eq.trans hd hsame.carLost.symm)⟩

theorem setResp_upholds {s : State} {r : Responder} (hm : maintenanceConsistent s → maintenanceConsistent (s.setResp r))
    (hst : storeAgrees s → storeAgrees (s.setResp r)) : Upholds g s (s.setResp r) :=
  SameTracking.upholds ⟨rfl, rfl, rfl, fun _ => rfl, fun _ => rfl⟩ rfl ⟨id, id, hm, hst⟩

/-- A write of the store operation alone. -/
theorem setOp_upholds {s : State} {op : StoreOp} (h : storeAgrees s → storeAgrees (s.setResp { s.resp with op := op })) :
    Upholds g s (s.setResp { s.resp with op := op }) := setResp_upholds id h

/-- A store operation other than a COMMIT begins, goes on or ends. -/
theorem setOp_upholds_of_not_commit {s : State} {op : StoreOp} (hold : s.resp.op.isCommit = false) (hnew : op.isCommit = false) :
    Upholds g s (s.setResp { s.resp with op := op }) := setOp_upholds (storeAgrees_congr rfl (hnew.trans hold.symm))

theorem isCommit_of_idle {op : StoreOp} (h : op.inFlight = false) : op.isCommit = false := by cases op <;> simp_all [StoreOp.inFlight, StoreOp.isCommit]

/-! ## The Table Store -/

theorem verifyDone_upholds {s : State} (h : s.resp.op.isCommit = false) (p : PortId) (d : Byte) (bad : List Nat) :
    Upholds g s (verifyDone s p d bad) :=
  .trans (Reacts.offers _ _ rfl).upholds (setOp_upholds_of_not_commit (s := reply s p d _ _ _) (by simpa using h) rfl)

theorem startVerify_upholds {s : State} (h : s.resp.op.isCommit = false) (p : PortId) (d : Byte) (first count : Nat) :
    Upholds g s (startVerify s p d first count) := by
  unfold startVerify
  dsimp only
  split
  · exact setOp_upholds_of_not_commit h rfl
  · have hr := storeRaises_reacts s (blockRange first (verifyLast first count))
    exact hr.upholds.trans (verifyDone_upholds (by rw [hr.resp]; exact h) _ _ _)

theorem verifyRead_upholds (s : State) : Upholds g s (verifyRead s) := by
  unfold verifyRead
  split
  next dst port next last bad hop =>
    have hr := raiseIf_reacts s (!storeMatches s next) .storeMismatch
    have hnot : (raiseIf s (!storeMatches s next) .storeMismatch).resp.op.isCommit = false := by rw [hr.resp, hop]; rfl
    dsimp only
    refine hr.upholds.trans ?_
    split
    · exact setOp_upholds_of_not_commit hnot rfl
    · exact verifyDone_upholds hnot _ _ _
  next => exact .refl s

@[simp] theorem holdBlock_valid (t : Tables) (k : Fin 6) (held : List Byte) : (holdBlock t k held).valid = t.valid := by
  unfold holdBlock
  split <;> rfl

@[simp] theorem holdBlock_programming (t : Tables) (k : Fin 6) (held : List Byte) : (holdBlock t k held).programming = none := by
  unfold holdBlock
  split <;> rfl

/-- With no block under way and no operation the store and its operation agree. -/
theorem storeAgrees_of_none {s : State} (hp : s.tables.programming = none) (ho : s.resp.op = .none) : storeAgrees s := by
  simp [storeAgrees, hp, ho, StoreOp.isCommit]

theorem storeAgrees_of_commit {s : State} {p : Programming} (hp : s.tables.programming = some p) (ho : s.resp.op.isCommit = true) :
    storeAgrees s := by simp [storeAgrees, hp, ho]

/-- A reply that ends a COMMIT whose last block is held. -/
theorem commitReply_upholds {s : State} (h : s.tables.programming = none) (p : PortId) (d : Byte) (rc : ReplyCode) (bs : List Byte) :
    Upholds g s (clearOp (reply s p d Request.commit.code rc bs)) :=
  .trans (Reacts.offers _ _ rfl).upholds (setOp_upholds (s := reply s p d _ _ _) fun _ => storeAgrees_of_none (by simpa using h) rfl)

theorem commitComplete_upholds {s : State} (hp : g → s.phase = .running) (hnone : s.tables.programming = none) (d : Byte) (p : PortId)
    (set : TableSet) : Upholds g s (commitComplete s d p set) :=
  (commitActivate_upholds hp set).trans (commitReply_upholds (by simpa [commitActivate, takeSet] using hnone) p d _ _)

theorem startBlock_upholds {s : State} {set : TableSet} {k : Fin 6} (h : storeAgrees (startBlock s set k)) :
    Upholds g s (startBlock s set k) := .of_tables (s := s) (x := { s.tables with programming := some _ }) rfl rfl h (.refl _)

theorem blockProgrammed_upholds {s : State} (h : g → s.resp.op.isCommit = true → s.phase = .running) (fault : Option (List Byte)) :
    Upholds g s (blockProgrammed s fault) := by
  unfold blockProgrammed
  split
  next p dst port set hprog hop =>
    have hcommit : s.resp.op.isCommit = true := by rw [hop]; rfl
    dsimp only
    split
    · exact .refl s
    · have hvalid := holdBlock_valid s.tables p.block (fault.getD p.bytes)
      have hworking := holdBlock_working s.tables p.block (fault.getD p.bytes)
      have hnone := holdBlock_programming s.tables p.block (fault.getD p.bytes)
      split
      · exact .of_tables hvalid hworking (storeAgrees_of_none (by simp [clearOp]) rfl) (commitReply_upholds hnone _ _ _ _)
      · split
        · have hdone := commitComplete_upholds (g := g) (s := s.setTables (holdBlock s.tables p.block (fault.getD p.bytes)))
            (fun hg => h hg hcommit) hnone dst port set
          refine .of_tables hvalid hworking (storeAgrees_of_none ?_ rfl) hdone
          simp [commitComplete, clearOp, commitActivate, takeSet]
        · have hagrees := storeAgrees_of_commit (s := startBlock (s.setTables (holdBlock s.tables p.block (fault.getD p.bytes))) set
            (nextBlock p.block)) rfl hcommit
          exact .of_tables hvalid hworking hagrees (startBlock_upholds hagrees)
  next => exact .refl s

theorem acceptCommit_upholds (s : State) (p : PortId) (d : Byte) (staged : TableSet) : Upholds g s (acceptCommit s p d staged) := by
  unfold acceptCommit
  dsimp only
  split
  · exact (Reacts.offers _ _ rfl).upholds
  · split
    · exact (Reacts.offers _ _ rfl).upholds
    · have hagrees : storeAgrees (startBlock (s.setResp { s.resp with op := .commit d p (forceSubs staged) }) (forceSubs staged) 1) :=
        storeAgrees_of_commit rfl rfl
      exact .of_tables (s := s) (x := { s.tables with programming := some _ }) rfl rfl hagrees (setOp_upholds fun _ => hagrees)

/-! ## The Management Responder -/

theorem answer_upholds (s : State) (p : PortId) (src : Byte) (r : Request) (rc : ReplyCode) (bs : List Byte) :
    Upholds g s (answer s p src r rc bs) := (answer_reacts s p src r rc bs).upholds

/-- A change of the run state with a write of the maintenance sequence around it. -/
theorem Upholds.of_run {s t : State} (hphase : t.phase = s.phase) (htables : t.tables = s.tables) (hsources : t.sources = s.sources)
    (hest : t.est = s.est) (hop : t.resp.op = s.resp.op) (hm : maintenanceConsistent s → maintenanceConsistent t) : Upholds g s t := by
  refine SameTracking.upholds ⟨hphase, by rw [htables], by rw [htables], fun i => by rw [State.record, hsources]; rfl,
    fun i => by rw [State.record, hsources]; rfl⟩ (by rw [hest]) ⟨by rw [hphase]; exact id, ?_, hm, ?_⟩
  · exact positionWithin_congr (by rw [State.line, State.line, htables]) (by rw [hest]) (by rw [hest]) (by rw [hest])
  · exact storeAgrees_congr (by rw [htables]) (by rw [hop])

theorem freeze_upholds (s : State) : Upholds g s (freeze s) := by
  refine setResp_upholds (fun ⟨_, _, _, hstaged⟩ => ⟨?_, ?_, ?_, hstaged⟩) id
  all_goals simp

theorem enterMaintenance_upholds (s : State) : Upholds g s (enterMaintenance s) := by
  refine .of_run (by simp) (by simp [enterMaintenance]) (by simp) (by simp) (by simp [enterMaintenance]) fun _ => ?_
  simp [maintenanceConsistent, enterMaintenance, legInState]

theorem completeEntry_upholds (s : State) (p : PortId) (src : Byte) (r : Request) : Upholds g s (completeEntry s p src r) := by
  unfold completeEntry
  split
  · exact (enterMaintenance_upholds s).trans (answer_upholds _ _ _ _ _ _)
  · exact (freeze_upholds s).trans (answer_upholds _ _ _ _ _ _)

theorem serveMakeReady_upholds {s : State} (hq : s.resp.seq ≠ .pending) (p : PortId) (src : Byte) :
    Upholds g s (serveMakeReady s p src) := by
  unfold serveMakeReady
  split
  · exact answer_upholds _ _ _ _ _ _
  next hrun =>
    split
    · exact answer_upholds _ _ _ _ _ _
    · refine .trans (.of_run (by simp) (by simp) (by simp) (by simp) (by simp) fun ⟨hr, he, _, hs⟩ => ?_) (answer_upholds _ _ _ _ _ _)
      simp only [maintenanceConsistent, changeState_frame, changeState_leg, legInState]
      simp only [not_not.mp hrun] at hs
      exact ⟨hr, he, fun h => absurd h hq, hs.trans (by simp)⟩

theorem serveTableWrite_upholds (s : State) (p : PortId) (src t i : Byte) (e : List Byte) : Upholds g s (serveTableWrite s p src t i e) := by
  unfold serveTableWrite
  dsimp only
  split
  · exact answer_upholds _ _ _ _ _ _
  next hrun =>
    split
    · exact answer_upholds _ _ _ _ _ _
    · refine .trans (setResp_upholds (r := { s.resp with staged := some (writeEntry (copyRead s true) t.toNat i.toNat e).1 })
        (fun ⟨hr, he, hq, _⟩ => ⟨hr, he, hq, ?_⟩) id) (answer_upholds _ _ _ _ _ _)
      simpa using hrun

theorem serveMaintenanceRequest_upholds (s : State) (p : PortId) (src : Byte) : Upholds g s (serveMaintenanceRequest s p src) := by
  unfold serveMaintenanceRequest
  split
  · exact answer_upholds _ _ _ _ _ _
  · split
    · exact answer_upholds _ _ _ _ _ _
    next hrun =>
      refine .trans (setResp_upholds (r := { s.resp with seq := .pending, requester := some src, echo := some s.tables.commitCount })
        (fun ⟨_, _, _, hs⟩ => ⟨by simp, by simp, fun _ => ?_, hs⟩) id) (answer_upholds _ _ _ _ _ _)
      simpa using hrun

theorem serveLeaveMaintenance_upholds (s : State) (p : PortId) (src : Byte) : Upholds g s (serveLeaveMaintenance s p src) := by
  unfold serveLeaveMaintenance
  split
  · exact answer_upholds _ _ _ _ _ _
  · refine .trans (.of_run (by simp) (by simp) (by simp) (by simp) (by simp) fun ⟨hr, he, _, _⟩ => ?_) (answer_upholds _ _ _ _ _ _)
    simp only [maintenanceConsistent, changeState_frame, changeState_leg, legInState]
    exact ⟨hr, he, by simp, by simp⟩

theorem serveRestart_upholds (s : State) (p : PortId) (src : Byte) : Upholds g s (serveRestart s p src) := by
  unfold serveRestart
  split
  · exact answer_upholds _ _ _ _ _ _
  · exact .trans (setResp_upholds (r := { s.resp with restartPending := true }) id id) (Reacts.offers _ _ rfl).upholds

theorem servePortCounters_upholds (s : State) (p : PortId) (src : Byte) (r : Request) (which : PortId) (clear : Bool) :
    Upholds g s (servePortCounters s p src r which clear) := by
  unfold servePortCounters
  dsimp only
  refine .trans ?_ (answer_upholds _ _ _ _ _ _)
  split
  · exact (Reacts.ports (x := { s.port which with counters := PortCounters.zero }) rfl).upholds
  · exact .refl s

theorem serveCountersRead_upholds (s : State) (p : PortId) (src x clear : Byte) : Upholds g s (serveCountersRead s p src x clear) := by
  unfold serveCountersRead
  dsimp only
  split
  · exact answer_upholds _ _ _ _ _ _
  · split
    · refine .trans ?_ (answer_upholds _ _ _ _ _ _)
      split
      · exact setRecord_upholds rfl rfl
      · exact .refl s
    · split
      · exact servePortCounters_upholds s p src _ _ _
      · split
        · exact servePortCounters_upholds s p src _ _ _
        · exact answer_upholds _ _ _ _ _ _

/-- A request at its own step, with the sequence not pending; one that needs the store finds no operation in flight (R165, R169). -/
theorem serve_upholds {s : State} (hq : s.resp.seq ≠ .pending) (p : PortId) (src : Byte) {r : Request}
    (hn : r.needsStore = true → s.resp.op.inFlight = false) : Upholds g s (serve s p src r) := by
  cases r with
  | statusRead => exact answer_upholds _ _ _ _ _ _
  | maintenanceConfirm e => exact answer_upholds _ _ _ _ _ _
  | makeReady => exact serveMakeReady_upholds hq p src
  | countersRead x c => exact serveCountersRead_upholds s p src x c
  | tableWrite t i e => exact serveTableWrite_upholds s p src t i e
  | maintenanceRequest => exact serveMaintenanceRequest_upholds s p src
  | leaveMaintenance => exact serveLeaveMaintenance_upholds s p src
  | restart => exact serveRestart_upholds s p src
  | faultsRead k f =>
    simp only [serve, serveFaultsRead]
    split <;> exact answer_upholds _ _ _ _ _ _
  | stopLogRead i =>
    simp only [serve, serveStopLogRead]
    split <;> exact answer_upholds _ _ _ _ _ _
  | tableRead t i c =>
    simp only [serve, serveTableRead]
    split
    · exact answer_upholds _ _ _ _ _ _
    · split <;> exact answer_upholds _ _ _ _ _ _
  | resetTrip =>
    simp only [serve, serveResetTrip]
    split
    · exact answer_upholds _ _ _ _ _ _
    · exact ((Reacts.clears s _).trans (answer_reacts _ _ _ _ _ _)).upholds
  | armLeg d pl =>
    simp only [serve, serveArmLeg]
    split
    · exact answer_upholds _ _ _ _ _ _
    next hr =>
      split
      · split
        · exact answer_upholds _ _ _ _ _ _
        · split
          · exact answer_upholds _ _ _ _ _ _
          · refine ((armLeg_reacts ?_ _ _).trans (answer_reacts _ _ _ _ _ _)).upholds
            tauto
      · exact answer_upholds _ _ _ _ _ _
  | disarm =>
    simp only [serve, serveDisarm]
    split
    · exact answer_upholds _ _ _ _ _ _
    next hr =>
      refine ((Reacts.changes ?_ _ _).trans ((endLeg_reacts _).trans (answer_reacts _ _ _ _ _ _))).upholds
      rw [not_not.mp hr]
      constructor <;> decide
  | commit =>
    simp only [serve, serveCommit]
    split
    · exact answer_upholds _ _ _ _ _ _
    · exact acceptCommit_upholds s p src _
  | verify f n =>
    simp only [serve, serveVerify]
    split
    · exact answer_upholds _ _ _ _ _ _
    · exact startVerify_upholds (isCommit_of_idle (hn rfl)) p src _ _

theorem serveFrom_upholds {s : State} (hq : s.resp.seq ≠ .pending) (p : PortId) (src : Byte) (r : Request) :
    Upholds g s (serveFrom s p src r) := by
  unfold serveFrom
  split
  · exact answer_upholds _ _ _ _ _ _
  · split
    · exact answer_upholds _ _ _ _ _ _
    next hbusy => exact serve_upholds hq p src (fun hn => by simpa [hn] using hbusy)

theorem takeRequest_upholds (s : State) (p : PortId) (src : Byte) (r : Request) : Upholds g s (takeRequest s p src r) := by
  unfold takeRequest
  split
  · exact answer_upholds _ _ _ _ _ _
  · split
    · split
      · exact completeEntry_upholds s p src r
      · exact (freeze_upholds s).trans (serveFrom_upholds (by simp [freeze]) p src r)
    next hq => exact serveFrom_upholds hq p src r

theorem takePayload_upholds (s : State) (p : PortId) (src : Byte) (payload : List Byte) : Upholds g s (takePayload s p src payload) := by
  unfold takePayload
  split
  · exact (Reacts.offers _ _ rfl).upholds
  · exact takeRequest_upholds s p src _

/-! ## The line ports -/

/-- A frame is presented to a live record (R26). -/
theorem presentedTo_live {s : State} {f : RxFrame} {i : Fin 16} (h : presentedTo s f = some i) : s.live i = true := by
  unfold presentedTo at h
  split at h
  next hv =>
    have := List.find?_some h
    simp only [Bool.and_eq_true, decide_eq_true_eq] at this
    simp [State.live, hv, this.1]
  next => simp at h

theorem sortFrame_upholds (s : State) (p : PortId) (f : RxFrame) : Upholds g s (sortFrame s p f) := by
  unfold sortFrame
  split
  · split
    · exact takePayload_upholds s p _ _
    · exact (countAt_reacts s p _).upholds
  · split
    · split
      · exact (forward_reacts s _ f).upholds
      · unfold consoleFrame
        split
        next i hi =>
          split
          · exact present_upholds (roleIndex_some hi).1 f
          · exact (countAt_reacts s _ _).upholds
        · exact (countAt_reacts s _ _).upholds
    · split
      · unfold sampleFrame
        dsimp only
        split
        next i hi => exact (forward_reacts s p f).upholds.trans (present_upholds (presentedTo_live hi) f)
        · exact (forward_reacts s p f).upholds
      · exact (forward_reacts s p f).upholds

theorem completeFrame_upholds (s : State) (p : PortId) (bs : List Byte) : Upholds g s (completeFrame s p bs) := by
  unfold completeFrame
  split
  · exact (countAt_reacts s p _).upholds.trans (sortFrame_upholds _ p _)
  · exact (countAt_reacts s p _).upholds

theorem receiveCharacter_upholds (s : State) (p : PortId) (b : Byte) (m k : Bool) : Upholds g s (receiveCharacter s p b m k) := by
  unfold receiveCharacter
  split
  · exact (setRx_reacts s p _).upholds
  · exact (countAt_reacts s p _).upholds
  · exact .refl s
  · exact ((countAt_reacts s p _).trans (setRx_reacts _ p _)).upholds
  · unfold appendCharacter
    dsimp only
    split
    · exact ((countAt_reacts s p _).trans (setRx_reacts _ p _)).upholds
    · split
      · exact (setRx_reacts s p _).upholds.trans (completeFrame_upholds _ p _)
      · exact (setRx_reacts s p _).upholds
  · exact ((countAt_reacts s p _).trans (setRx_reacts _ p _)).upholds

theorem lineBreak_upholds (s : State) (p : PortId) : Upholds g s (lineBreak s p) := by
  unfold lineBreak
  split
  · exact .refl s
  · exact ((countAt_reacts s p _).trans (setRx_reacts _ p _)).upholds

/-! ## The command -/

theorem Upholds.ite {s t : State} {p : Prop} [Decidable p] (h : p → Upholds g s t) : Upholds g s (if p then t else s) := by
  split
  next hp => exact h hp
  next => exact .refl s

/-- Every command's effect, given that a COMMIT in flight finds a running part. -/
theorem effect_upholds {s : State} (h : g → s.resp.op.isCommit = true → s.phase = .running) (c : Instr) : Upholds g s (effect c s) := by
  cases c with
  | powerOnReset | rst | resetBlockFinished => exact .refl s
  | startUpLoadComplete => exact .ite loadDecides_upholds
  | receiveCharacter e b m k => exact receiveCharacter_upholds s _ b m k
  | lineBreak p => exact lineBreak_upholds s p
  | tableWrite p src t i e => exact takePayload_upholds s p src _
  | unknownCommand p src payload => exact .ite fun _ => (Reacts.offers _ _ rfl).upholds
  | lateTimerExpiry i =>
    refine .ite fun hdue => lateExpiry_upholds ?_
    simp only [lateDue, Bool.and_eq_true] at hdue
    exact hdue.1
  | generationTimerExpiry => exact .ite fun ht => (generateAtCeiling_reacts_of_running (timerDue_isSome ht)).upholds
  | stationaryTimerExpiry => exact .ite fun _ => stationaryExpiry_upholds s
  | brakeReleaseTimerExpiry => exact .ite fun _ => (brakeReleaseExpiry_reacts s).upholds
  | qualificationSample raw => exact .ite fun _ => (sampleInputs_reacts s raw).upholds
  | slipBlankingTimerExpiry => exact .ite fun _ => (releaseSlip_reacts s).upholds
  | transmitEnd e => exact (transmitEnd_reacts s e.port).upholds
  | blockProgrammed fault => exact blockProgrammed_upholds h fault
  | verifyBlockRead => exact verifyRead_upholds s
  | statusRead | faultsRead | resetTrip | makeReady | armLeg | disarm | stopLogRead | countersRead | tableRead | commit | verify
  | maintenanceRequest | maintenanceConfirm | leaveMaintenance | restart => exact takeRequest_upholds s _ _ _

end Sys2Proof.Machine
end

