-- ==== Sys2Proof/Proofs/Sources.lean ====
section
/-! PROOF. The resets and the steps of the records with their sources; settles O60. -/

namespace Sys2Proof.Machine

/-! ## Outside a reset that waits -/

theorem substitutesWithin_iff {s : State} (h : s.phase ≠ .finishing) : substitutesWithin s ↔ subsHeld s := by
  simp [substitutesWithin, subsHeld, h]

theorem degradedFollows_iff {s : State} (h : s.phase ≠ .finishing) : degradedFollows s ↔ degradedHeld s := by
  simp [degradedFollows, degradedHeld, h]

/-- The store's progress with its operation, and while a reset waits (R178, R182). -/
def storeProgress (s : State) : Prop :=
  (s.phase ≠ .finishing → storeAgrees s) ∧ (s.phase = .finishing → s.tables.programming.isSome = true ∧ s.resp.op = .none)

/-- A pending restart waits for a reply that a port still holds (R177). -/
def restartHeld (s : State) : Prop := s.resp.restartPending = true → s.portA.holdsRestart = true ∨ s.portB.holdsRestart = true

theorem storeConsistent_iff (s : State) : storeConsistent s ↔ storeProgress s ∧ restartHeld s := by
  unfold storeConsistent storeProgress storeAgrees restartHeld
  tauto

/-! ## What a reset leaves of the records -/

theorem resetPart_record (k : ResetKind) (x : Straps) (s : State) (i : Fin 16) :
    (resetPart k x s).record i = SourceRecord.fresh (keptAtRestart k (s.record i).counters SourceCounters.zero) := by
  obtain ⟨-, -, hsources, -⟩ := resetPart_parts k x s
  simp [State.record, hsources, resetSources]

/-- A reset begins the load, or waits for the block under way. -/
theorem resetPart_progress (k : ResetKind) (x : Straps) (s : State) :
    (resetPart k x s).phase = .loading ∧ (resetPart k x s).tables.valid = false ∧ (resetPart k x s).tables.programming = none ∨
    (resetPart k x s).phase = .finishing ∧ (resetPart k x s).tables.programming.isSome = true := by
  cases h : s.tables.programming with
  | none =>
    rw [resetPart_free h]
    exact .inl ⟨rfl, rfl, h⟩
  | some p =>
    rw [resetPart_busy h]
    exact .inr ⟨rfl, by simp [resetBlocks, resetTables, h]⟩

/-- No record is LOST after a reset. -/
theorem carLost_resetPart (k : ResetKind) (x : Straps) (s : State) : carLost (resetPart k x s) = false := by
  have notLost (r : Role) : (resetPart k x s).roleIn r .lost = false := by
    unfold State.roleIn State.roleRecord
    cases (resetPart k x s).roleIndex r with
    | none => rfl
    | some i => simp [resetPart_record, SourceRecord.fresh]
  simp [carLost, notLost]

theorem substitutesWithin_reset (k : ResetKind) (x : Straps) (s : State) : substitutesWithin (resetPart k x s) := by
  have hzero (i : Fin 16) : ((resetPart k x s).record i).subs = 0 := by rw [resetPart_record]; rfl
  refine ⟨fun i _ => by simp [hzero], fun hload => ?_, fun _ => hzero⟩
  obtain ⟨-, hvalid, -⟩ | ⟨hf, -⟩ := resetPart_progress k x s
  · exact hvalid
  · simp [hf] at hload

theorem degradedFollows_reset (k : ResetKind) (x : Straps) (s : State) : degradedFollows (resetPart k x s) := by
  have hd : (resetPart k x s).est.degraded = false := by rw [(resetPart_parts k x s).2.1]; rfl
  exact ⟨hd.trans (carLost_resetPart k x s).symm, fun _ => hd⟩

theorem positionWithin_reset (k : ResetKind) (x : Straps) (s : State) : positionWithin (resetPart k x s) := by
  obtain ⟨-, hest, -⟩ := resetPart_parts k x s
  unfold positionWithin
  rw [hest]
  exact ⟨Nat.zero_le _, Nat.zero_le _, Nat.zero_le _⟩

theorem maintenanceConsistent_reset (k : ResetKind) (x : Straps) (s : State) : maintenanceConsistent (resetPart k x s) := by
  obtain ⟨hresp, -, -, -, hleg, -⟩ := resetPart_parts k x s
  simp [maintenanceConsistent, hresp, hleg, Responder.fresh, Leg.fresh]

theorem storeProgress_reset (k : ResetKind) (x : Straps) (s : State) : storeProgress (resetPart k x s) := by
  have hop : (resetPart k x s).resp.op = .none := by rw [(resetPart_parts k x s).1]; rfl
  obtain ⟨hload, -, hprog⟩ | ⟨hf, hprog⟩ := resetPart_progress k x s
  · exact ⟨fun _ => storeAgrees_of_none hprog hop, by simp [hload]⟩
  · exact ⟨fun h => absurd hf h, fun _ => ⟨hprog, hop⟩⟩

/-! ## The end of the block a reset waited for -/

theorem carLost_of_invalid {s : State} (h : s.tables.valid = false) : carLost s = false := by
  simp [carLost, State.roleIn, State.roleRecord, State.roleIndex, h]

theorem substitutesWithin_blockHeld {s : State} (hf : s.phase = .finishing) (p : Programming) (held : List Byte)
    (h : substitutesWithin s) : substitutesWithin (blockHeld s p held) := by
  obtain ⟨-, -, hzero⟩ := h
  have hz (i : Fin 16) : ((blockHeld s p held).record i).subs = 0 := hzero (.inr hf) i
  exact ⟨fun i _ => by simp [hz], fun _ => rfl, fun _ => hz⟩

theorem degradedFollows_blockHeld {s : State} (hf : s.phase = .finishing) (p : Programming) (held : List Byte) (h : degradedFollows s) :
    degradedFollows (blockHeld s p held) := by
  have hd : (blockHeld s p held).est.degraded = false := h.2 hf
  exact ⟨hd.trans (carLost_of_invalid rfl).symm, fun _ => hd⟩

theorem positionWithin_blockHeld (s : State) (p : Programming) (held : List Byte) : positionWithin s → positionWithin (blockHeld s p held) :=
  positionWithin_congr (congrArg TableSet.line (holdBlock_working s.tables p.block held)) rfl rfl rfl

theorem storeProgress_blockHeld {s : State} (hf : s.phase = .finishing) (p : Programming) (held : List Byte) (h : storeProgress s) :
    storeProgress (blockHeld s p held) := by
  obtain ⟨-, hop⟩ := h.2 hf
  exact ⟨fun _ => storeAgrees_of_none (holdBlock_programming _ _ _) hop, fun hp => Phase.noConfusion hp⟩

/-! ## Every step -/

/-- The effect of a command, where the tables change at rest. -/
theorem effect_upholds_atRest (s : State) (c : Instr) : Upholds (tablesChangeAtRest s) s (effect c s) := by
  refine effect_upholds (fun hrest hcommit => ?_) c
  by_contra hp
  simp [isCommit_of_idle (hrest.1 hp).2] at hcommit

theorem step_substitutesWithin {s t : State} (h : step s = .next t) (hr : tablesChangeAtRest s) (hs : substitutesWithin s) :
    substitutesWithin t := by
  refine (step_keeps (P := fun s => tablesChangeAtRest s ∧ substitutesWithin s) (fun _ _ => id) (fun _ _ => id) (fun k x u _ => ?_)
    (fun u p held hf _ hu => ?_) (fun c u hf hu => ?_) h ⟨hr, hs⟩).2
  · exact ⟨tablesChangeAtRest_reset k x u, substitutesWithin_reset k x u⟩
  · exact ⟨tablesChangeAtRest_blockHeld hf p held hu.1, substitutesWithin_blockHeld hf p held hu.2⟩
  · have he := effect_upholds_atRest u c
    exact ⟨(effect_effects hf c).tablesChangeAtRest hu.1,
      (substitutesWithin_iff (he.phase hf)).mpr (he.subs hu.1 ((substitutesWithin_iff hf).mp hu.2))⟩

theorem step_degradedFollows {s t : State} (h : step s = .next t) : degradedFollows s → degradedFollows t := by
  refine step_keeps (fun _ _ => id) (fun _ _ => id) (fun k x u _ => degradedFollows_reset k x u)
    (fun u p held hf _ => degradedFollows_blockHeld hf p held) (fun c u hf hu => ?_) h
  have he := effect_upholds_atRest u c
  exact (degradedFollows_iff (he.phase hf)).mpr (he.degraded ((degradedFollows_iff hf).mp hu))

theorem step_positionWithin {s t : State} (h : step s = .next t) : positionWithin s → positionWithin t :=
  step_keeps (fun _ _ => id) (fun _ _ => id) (fun k x u _ => positionWithin_reset k x u)
    (fun u p held _ _ => positionWithin_blockHeld u p held) (fun c u _ => (effect_upholds_atRest u c).position) h

theorem step_maintenanceConsistent {s t : State} (h : step s = .next t) : maintenanceConsistent s → maintenanceConsistent t :=
  step_keeps (fun _ _ => id) (fun _ _ => id) (fun k x u _ => maintenanceConsistent_reset k x u) (fun _ _ _ _ _ => id)
    (fun c u _ => (effect_upholds_atRest u c).maintenance) h

theorem step_storeProgress {s t : State} (h : step s = .next t) : storeProgress s → storeProgress t := by
  refine step_keeps (fun _ _ => id) (fun _ _ => id) (fun k x u _ => storeProgress_reset k x u)
    (fun u p held hf _ => storeProgress_blockHeld hf p held) (fun c u hf hu => ?_) h
  have he := effect_upholds_atRest u c
  exact ⟨fun _ => he.store (hu.1 hf), fun hp => absurd hp (he.phase hf)⟩

/-- A reset leaves no restart pending. -/
theorem restartHeld_reset (k : ResetKind) (x : Straps) (s : State) : restartHeld (resetPart k x s) := by
  intro h
  rw [(resetPart_parts k x s).1] at h
  exact absurd h (by decide)

/-- A command is settled at its end: a restart still pending has its reply still to go (R177). -/
theorem restartHeld_settle (s : State) (x : Option StrapLevels) : restartHeld (settle s x) := by
  by_cases hdue : s.resp.restartPending = true ∧ s.portA.holdsRestart = false ∧ s.portB.holdsRestart = false
  · obtain ⟨hr, ha, hb⟩ := hdue
    rw [settle_of_due hr ha hb]
    exact restartHeld_reset _ _ s
  · have hs : settle s x = s := (settle_cases s x).resolve_right fun ⟨hr, ha, hb, _⟩ => hdue ⟨hr, ha, hb⟩
    rw [hs]
    intro hr
    by_contra hnone
    simp only [not_or, Bool.not_eq_true] at hnone
    exact hdue ⟨hr, hnone⟩

theorem step_restartHeld {s t : State} (h : step s = .next t) (hs : restartHeld s) : restartHeld t := by
  cases hq : s.pending with
  | nil =>
    rw [step_empty hq] at h
    injection h with h
    exact h ▸ hs
  | cons c rest =>
    rw [step_front hq] at h
    obtain ⟨k, x, rfl⟩ | ⟨-, p, held, -, rfl⟩ | rfl | ⟨-, x, rfl⟩ := exec_cases h
    · exact restartHeld_reset k x _
    · exact hs
    · exact hs
    · exact restartHeld_settle _ x

/-- Settles O60: each command's effect keeps the five in order, each reset brings them about, and a restart due is taken in its step. -/
theorem stepKeepsTheRecordsWithTheirSources : Obligations.StepKeepsTheRecordsWithTheirSources := by
  intro s t h
  refine ⟨step_substitutesWithin h, step_degradedFollows h, step_positionWithin h, step_maintenanceConsistent h, ?_⟩
  rw [storeConsistent_iff, storeConsistent_iff]
  exact fun ⟨hp, hr⟩ => ⟨step_storeProgress h hp, step_restartHeld h hr⟩

end Sys2Proof.Machine
end

