-- ==== Sys2Proof/Proofs/Basics.lean ====
section
/-! PROOF. The step and its queue, and the reset state. -/

namespace Sys2Proof.Machine

/-! ## The step -/

/-- Settles O1: the step's two cases. -/
theorem stepRunsTheFrontCommand : Obligations.StepRunsTheFrontCommand := ⟨fun _ _ _ h => step_front h, fun _ h => step_empty h⟩

/-- A write under a test leaves the queue where the write does. -/
theorem pending_ite {s t : State} (p : Prop) [Decidable p] (h : t.pending = s.pending) : (if p then t else s).pending = s.pending := by
  split
  · exact h
  · rfl

/-- No command's effect touches the queue of commands. -/
theorem effect_pending (c : Instr) (s : State) : (effect c s).pending = s.pending := by
  cases c with
  | stationaryTimerExpiry => exact pending_ite _ (by simp [stationaryExpiry])
  | brakeReleaseTimerExpiry => exact pending_ite _ (brakeReleaseExpiry_reacts s).frame.1
  | startUpLoadComplete | lateTimerExpiry | generationTimerExpiry | qualificationSample | slipBlankingTimerExpiry | unknownCommand =>
    exact pending_ite _ (by simp)
  | _ => simp [effect]

/-- The end of the block a reset waited for leaves the queue of commands. -/
theorem finishReset_pending (s : State) (fault : Option (List Byte)) : (finishReset s fault).pending = s.pending := by
  unfold finishReset
  split
  · dsimp only
    split <;> rfl
  · rfl

/-- Settles O2: a reset and the end of one answer as they stand, and every other command is taken. -/
theorem execAnswersNextAndKeepsTheQueue : Obligations.ExecAnswersNextAndKeepsTheQueue := by
  intro c s
  by_cases hc : isReset c = false
  · rw [exec_eq_taken hc]
    exact taken_total (effect c) (effect_pending c s)
  cases c with
  | powerOnReset a r => exact ⟨_, rfl, resetPart_pending _ _ s⟩
  | rst a r => exact ⟨_, rfl, resetPart_pending _ _ s⟩
  | resetBlockFinished fault => exact ⟨_, rfl, pending_ite _ (finishReset_pending s fault)⟩
  | _ => exact absurd rfl hc

/-! ## The reset state -/

/-- The reset state is what POR with straps 0 leaves of it. -/
theorem resetPart_reset : resetPart .por (Straps.read 0 0) State.reset = State.reset := by
  rw [resetPart_free rfl]
  simp only [resetBlocks, resetSources_cleared (k := .por) (by decide)]
  rfl

theorem outputsFollow_atReset : outputsFollow State.reset := by
  unfold outputsFollow
  decide

/-- Settles O54: a reset brings about each invariant, or finds it and keeps it. -/
theorem resetHasTheInvariants : Obligations.ResetHasTheInvariants := by
  have hfaults : faultSetOrdered State.reset := by decide
  have hlog : stopLogOrdered State.reset := ⟨by decide, by simp [State.reset, Leg.fresh]⟩
  have hpermits : permitsInsideWindows State.reset := fun c hc => by cases c <;> exact absurd hc (by decide)
  unfold Obligations.ResetHasTheInvariants
  rw [storeConsistent_iff]
  have hr := resetPart_reset
  refine ⟨by decide, outputsFollow_atReset, hr ▸ tablesChangeAtRest_reset _ _ _, hpermits, hfaults, hlog,
    departureFaultFree_atRest (hr ▸ atRest_reset _ _ _), hr ▸ speedsWithin_reset _ _ _, ?_,
    hr ▸ inputsConsistent_reset _ _ _, hr ▸ substitutesWithin_reset _ _ _, hr ▸ degradedFollows_reset _ _ _,
    hr ▸ positionWithin_reset _ _ _, hr ▸ maintenanceConsistent_reset _ _ _, hr ▸ storeProgress_reset _ _ _,
    hr ▸ restartHeld_reset _ _ _⟩
  exact hr ▸ envelopeWithin_reset _ _ _

/-! ## The values after POR -/

/-- A record built field by field, its numbers those of R7. -/
theorem get_build (f : Nat → Nat) (n : Nat) : (LineConstants.build f).get n = if n = 0 ∨ 28 < n then 0 else f n := by
  by_cases h : n ≤ 28
  · interval_cases n <;> rfl
  · obtain ⟨m, rfl⟩ := Nat.exists_eq_add_of_lt (Nat.lt_of_not_le h)
    rw [if_pos (.inr (by omega)), show 28 + m + 1 = m + 29 by omega]
    rfl

theorem lineLo_of_no_field {n : Nat} (h : n = 0 ∨ 28 < n) : lineLo n = 0 := by
  obtain rfl | h := h
  · rfl
  · obtain ⟨m, rfl⟩ := Nat.exists_eq_add_of_lt h
    rw [show 28 + m + 1 = m + 29 by omega]
    rfl

/-- The blank record (R5). -/
theorem blankLine_get (n : Nat) : blankLine.get n = if n = 24 then 65535 else if n = 25 then 3 else lineLo n := by
  rw [blankLine, get_build]
  split
  next h => rw [if_neg (by omega), if_neg (by omega), lineLo_of_no_field h]
  next => rfl

/-- The blank responses are the defaults, enabled (R116). -/
theorem blankSet_responseOf (k : FaultKind) : blankSet.responseOf k = { action := k.default, notice := true } := by cases k <;> rfl

/-- Settles O6: the reset state read part by part. -/
theorem resetHoldsTheSpecValues : Obligations.ResetHoldsTheSpecValues := by
  have hrecord (i : Fin 16) : State.reset.record i = SourceRecord.fresh SourceCounters.zero := by simp [State.record, State.reset]
  refine ⟨by decide, ⟨blankLine_get, rfl, fun i => ?_, rfl, fun i => ?_, ?_, fun k => ?_⟩, by decide, fun i => ?_, by decide, by decide,
    by decide, ?_, by decide, ?_⟩
  · simp [State.reset, blankSet, blankSource]
  · simp [State.reset, blankSet, blankSegment]
  · exact fun pl => by cases pl <;> rfl
  · simp [State.reset, blankSet_responseOf]
  · simp [hrecord, SourceRecord.fresh, SourceCounters.zero]
  · exact ⟨rfl, fun i => by cases i <;> rfl, by decide⟩
  · intro p
    cases p <;> exact ⟨rfl, rfl, rfl, rfl, rfl, fun k => by cases k <;> rfl⟩

end Sys2Proof.Machine
end

