-- ==== Sys2Proof/Proofs/Queueing.lean ====
section
/-! PROOF. The placing of offered frames and the arbiters at the end of a transmission (R155 to R157). -/

namespace Sys2Proof.Machine

/-! ## The waiting demand of a queue -/

theorem replaceDemand_append {before : List OutFrame} (h : before.any OutFrame.isDemand = false) (old d : Demand) (after : List OutFrame) :
    replaceDemand d (before ++ .demand old :: after) = before ++ .demand d :: after := by
  induction before with
  | nil => rfl
  | cons f rest ih =>
    rw [List.any_cons, Bool.or_eq_false_iff] at h
    simp [replaceDemand, h.1, ih h.2]

theorem waitingDemand_of_none {q : List OutFrame} (h : q.any OutFrame.isDemand = false) : waitingDemand q = none := by
  have hnone : q.find? OutFrame.isDemand = none := by simpa [List.find?_eq_none] using h
  rw [waitingDemand, hnone]

theorem waitingDemand_append {before : List OutFrame} (h : before.any OutFrame.isDemand = false) (d : Demand) (after : List OutFrame) :
    waitingDemand (before ++ .demand d :: after) = some d := by
  have hnone : before.find? OutFrame.isDemand = none := by simpa [List.find?_eq_none] using h
  have hfind : (before ++ OutFrame.demand d :: after).find? OutFrame.isDemand = some (.demand d) := by
    simp [List.find?_append, hnone, OutFrame.isDemand]
  rw [waitingDemand, hfind]

theorem eraseP_demand_append {before : List OutFrame} (h : before.any OutFrame.isDemand = false) (d : Demand) (after : List OutFrame) :
    (before ++ .demand d :: after).eraseP OutFrame.isDemand = before ++ after := by
  rw [List.eraseP_append_right _ (by simpa using h), List.eraseP_cons_of_pos rfl]

theorem any_demand_append (before after : List OutFrame) (d : Demand) :
    (before ++ OutFrame.demand d :: after).any OutFrame.isDemand = true := by simp [OutFrame.isDemand]

/-! ## Offers -/

theorem port_offer_free {p : Port} (hq : p.queue = []) (hl : p.line = none) (own : Byte) (f : OutFrame) : p.offer own f = p.send own f :=
  if_pos ⟨hq, hl⟩

theorem port_offer_joins {p : Port} (h : ¬(p.queue = [] ∧ p.line = none)) (hl : p.queue.length < 8) (own : Byte) (f : OutFrame) :
    p.offer own f = { p with queue := p.queue ++ [f] } := by
  rw [Port.offer, if_neg h]
  exact if_pos hl

theorem port_offer_dropped {p : Port} (hl : 8 ≤ p.queue.length) (own : Byte) (f : OutFrame) :
    p.offer own f = { p with counters := p.counters.bump .queueDrop } := by
  have hfull : ¬(p.queue = [] ∧ p.line = none) := by
    rintro ⟨hq, -⟩
    simp [hq] at hl
  rw [Port.offer, if_neg hfull]
  exact if_neg (show ¬_ < 8 by omega)

theorem offerDemand_replaces {s : State} {before after : List OutFrame} {old : Demand} (hq : s.portB.queue = before ++ .demand old :: after)
    (hb : before.any OutFrame.isDemand = false) (d : Demand) :
    offerDemand s d = s.setPortB { s.portB with queue := before ++ .demand d :: after } := by
  rw [offerDemand, hq, if_pos (any_demand_append _ _ _), replaceDemand_append hb]

theorem offerDemand_free {s : State} (hq : s.portB.queue = []) (hl : s.portB.line = none) (d : Demand) :
    offerDemand s d = sendDemand s d := by simp [offerDemand, hq, hl]

theorem offerDemand_joins {s : State} (hd : s.portB.queue.any OutFrame.isDemand = false) (hf : ¬(s.portB.queue = [] ∧ s.portB.line = none))
    (hl : s.portB.queue.length < 8) (d : Demand) :
    offerDemand s d = s.setPortB { s.portB with queue := s.portB.queue ++ [.demand d] } := by
  simp only [offerDemand, hd, if_neg hf]
  exact if_pos hl

theorem offerDemand_evicts {s : State} (hd : s.portB.queue.any OutFrame.isDemand = false) (hl : 8 ≤ s.portB.queue.length) (d : Demand) :
    offerDemand s d = s.setPortB { s.portB with
      queue := s.portB.queue.tail ++ [.demand d], counters := s.portB.counters.bump .queueDrop } := by
  have hf : ¬(s.portB.queue = [] ∧ s.portB.line = none) := by
    rintro ⟨hq, -⟩
    simp [hq] at hl
  simp only [offerDemand, hd, if_neg hf]
  exact if_neg (show ¬_ < 8 by omega)

/-- Settles O15: an offer by the room in the queue, a transmission by the frame, a demand by the one waiting. -/
theorem offeredFrameIsPlaced : Obligations.OfferedFrameIsPlaced := by
  refine ⟨fun p own f => ⟨fun hq hl => port_offer_free hq hl own f, fun h hl => port_offer_joins h hl own f,
    fun hl => port_offer_dropped hl own f⟩, fun p own dst payload n => ⟨rfl, rfl, rfl⟩, fun s d => ⟨?replaces, ?free, ?joins, ?evicts⟩⟩
  case replaces => exact fun before old after hq hb => offerDemand_replaces hq hb d
  case free => exact fun hq hl => offerDemand_free hq hl d
  case joins => exact fun hd hf hl => offerDemand_joins hd hf hl d
  case evicts => exact fun hd hl => offerDemand_evicts hd hl d

/-! ## The arbiters -/

/-- Where no demand waits, or on Port A, the arbiter takes the oldest frame. -/
theorem startNext_oldest {s : State} {p : PortId} (h : p = .b → (s.port p).queue.any OutFrame.isDemand = false) :
    startNext s p = s.setPort p ((s.port p).sendOldest s.straps.own) := by
  cases p with
  | a => rfl
  | b =>
    have hnone : waitingDemand s.portB.queue = none := waitingDemand_of_none (h rfl)
    simp only [startNext, hnone]
    rfl

theorem startNext_demand {s : State} {before after : List OutFrame} {d : Demand} (hq : s.portB.queue = before ++ .demand d :: after)
    (hb : before.any OutFrame.isDemand = false) :
    startNext s .b = sendDemand (s.setPortB { s.portB with queue := before ++ after }) d := by
  simp only [startNext, hq, waitingDemand_append hb, eraseP_demand_append hb]

theorem port_sendOldest_nil {p : Port} (h : p.queue = []) (own : Byte) : p.sendOldest own = p := by rw [Port.sendOldest, h]

theorem port_sendOldest_cons {p : Port} {f : OutFrame} {rest : List OutFrame} (h : p.queue = f :: rest) (own : Byte) :
    p.sendOldest own = { p with queue := rest }.send own f := by rw [Port.sendOldest, h]

/-- A port whose line has become free at the end of a transmission. -/
def freedPort (p : Port) : Port := { p with line := none, counters := p.counters.bump .transmitted }

theorem transmitEnd_of_line {s : State} {p : PortId} {sent : OnLine} (h : (s.port p).line = some sent) :
    transmitEnd s p = startNext (s.setPort p (freedPort (s.port p))) p := by
  rw [transmitEnd, h]
  rfl

/-- Outside a pending restart TRANSMIT_END is the end of the transmission. -/
theorem exec_transmitEnd {s : State} (e : PortEvent) (hf : s.phase ≠ .finishing) (hr : s.resp.restartPending = false) :
    exec (.transmitEnd e) s = .next (transmitEnd s e.port) :=
  taken_frame (fun t => transmitEnd t e.port) hf hr (transmitEnd_reacts s e.port).resp

/-- Settles O14: the arbiter's choice by the queue of the freed port. -/
theorem transmitEndTakesTheNextFrame : Obligations.TransmitEndTakesTheNextFrame := by
  intro s e sent hf hr hline p free
  rw [exec_transmitEnd e hf hr, transmitEnd_of_line hline]
  have hport : (s.setPort p (freedPort (s.port p))).port p = freedPort (s.port p) := by simp
  have holdest (hd : p = .b → (s.port p).queue.any OutFrame.isDemand = false) :
      startNext (s.setPort p (freedPort (s.port p))) p = s.setPort p ((freedPort (s.port p)).sendOldest s.straps.own) := by
    rw [startNext_oldest fun hp => by rw [hport]; exact hd hp, hport]
    simp
  refine ⟨fun hq => ?empty, fun f rest hq hd => ?oldest, fun d before after hp hq hb => ?demand⟩
  case empty =>
    rw [holdest fun _ => by simp [hq], port_sendOldest_nil (show (freedPort _).queue = [] from hq)]
    rfl
  case oldest =>
    rw [holdest hd, port_sendOldest_cons (show (freedPort _).queue = f :: rest from hq)]
    rfl
  case demand =>
    have hp' : e.port = .b := hp
    simp only [hp']
    rw [startNext_demand (s := s.setPort .b (freedPort (s.port .b))) hq hb]
    simp only [free, hp]
    rfl

end Sys2Proof.Machine
end

