-- ==== Sys2Proof/Proofs/Resets.lean ====
section
/-! PROOF. The three resets as they are taken, and the stores whose load fails (R177, R178, R182, R184). -/

namespace Sys2Proof.Machine

/-! ## POR and RST -/

theorem ownAddress_toNat (a : BitVec 6) : (ownAddress a).toNat = min 62 a.toNat := by
  unfold ownAddress
  split
  next h => simp [h]
  next h =>
    have hne : a.toNat ≠ 63 := fun hn => h (BitVec.eq_of_toNat_eq hn)
    have := a.isLt
    rw [BitVec.toNat_setWidth]
    omega

/-- Settles O3: with no block under way a reset is taken whole, and POR clears what RST keeps. -/
theorem porAndRstLeaveTheResetState : Obligations.PorAndRstLeaveTheResetState := by
  refine ⟨fun a r => ⟨ownAddress_toNat a, rfl⟩, fun a r s hp => ⟨?por, ?rst⟩⟩
  case por =>
    change Host.Outcome.next (resetPart .por (Straps.read a r) s) = _
    rw [resetPart_free hp]
    simp only [resetBlocks, resetSources_cleared (k := .por) (by decide)]
    rfl
  case rst =>
    change Host.Outcome.next (resetPart .rst (Straps.read a r) s) = _
    rw [resetPart_free hp]
    simp only [resetBlocks, resetSources_cleared (k := .rst) (by decide)]
    rfl

/-! ## The stores a failed write leaves (R182, R184) -/

theorem holdBlock_header (t : Tables) (k : Fin 6) (held : List Byte) :
    (holdBlock t k held).header = if k = 0 then held else t.header := by
  unfold holdBlock
  split
  next h => rw [if_pos (Fin.ext h)]
  next h => rw [if_neg fun hk => h (congrArg Fin.val hk)]

theorem holdBlock_block (t : Tables) (k : Fin 6) (held : List Byte) (j : Fin 5) :
    (holdBlock t k held).blocks[j] = if k.val = j.val + 1 then held else t.blocks[j] := by
  unfold holdBlock
  split
  next h => rw [if_neg (by omega)]
  next h =>
    by_cases hj : k.val = j.val + 1
    · simp [hj]
    · rw [if_neg hj]
      have hne : k.val - 1 ≠ j.val := by omega
      simp [hne]

/-- A block under way that is not the header is one of blocks 1 to 5. -/
theorem block_of_ne_zero {k : Fin 6} (h : k ≠ 0) : ∃ j : Fin 5, k.val = j.val + 1 := by
  have hpos : k.val ≠ 0 := fun hk => h (Fin.ext hk)
  exact ⟨⟨k.val - 1, by omega⟩, by simp; omega⟩

/-- No load accepts a store whose header or block under way was not written whole. -/
theorem loadFails_of_left {t : Tables} {p : Programming} {held : List Byte} (h : leftByFailedWrite t p held) :
    loadFails (holdBlock t p.block held).header (holdBlock t p.block held).blocks := by
  obtain ⟨hblock, hheader⟩ := h
  by_cases hp : p.block = 0
  · have hh : (holdBlock t p.block held).header = held := by rw [holdBlock_header, if_pos hp]
    have hb (j : Fin 5) : (holdBlock t p.block held).blocks[j] = t.blocks[j] := by
      rw [holdBlock_block, if_neg (by simp [hp])]
    obtain hbad | ⟨j, hj⟩ := hheader hp
    · exact loadFails_of_mismatch 0 fun hg => by simp [hh, hbad] at hg
    · exact loadFails_of_mismatch j fun _ => by rw [hh, hb, hj]
  · obtain ⟨j, hj⟩ := block_of_ne_zero hp
    refine loadFails_of_mismatch j fun _ => ?_
    rw [holdBlock_header, if_neg hp, holdBlock_block, if_pos hj, ← hj]
    exact hblock hp

/-- No load accepts a block whose generation the header does not name. -/
theorem loadFails_of_generation {t : Tables} {k : Fin 6} {held : List Byte} (hk : k ≠ 0) (h : field held 0 2 ≠ field t.header 0 2) :
    loadFails (holdBlock t k held).header (holdBlock t k held).blocks := by
  obtain ⟨j, hj⟩ := block_of_ne_zero hk
  refine loadFails_of_mismatch j fun _ => ?_
  rw [holdBlock_header, if_neg hk, holdBlock_block, if_pos hj]
  simp [blockMatches, h]

/-- A generation is the first two bytes of a block. -/
theorem field_of_take {a b : List Byte} (h : a.take 2 = b.take 2) : field a 0 2 = field b 0 2 := by simp [field, h]

/-! ## A reset that waits (R178) -/

theorem exec_reset_busy {s : State} {p : Programming} (h : s.tables.programming = some p) {a : BitVec 6} {r : BitVec 2} {c : Instr}
    (hc : c = .powerOnReset a r ∨ c = .rst a r) :
    ∃ k, exec c s = .next { resetBlocks k (Straps.read a r) s with phase := .finishing } := by
  obtain rfl | rfl := hc
  · exact ⟨.por, congrArg _ (resetPart_busy h _ _)⟩
  · exact ⟨.rst, congrArg _ (resetPart_busy h _ _)⟩

/-- What RESET_BLOCK_FINISHED brings about in a part that waits. -/
theorem exec_resetBlockFinished {s : State} {p : Programming} (hf : s.phase = .finishing) (hp : s.tables.programming = some p)
    (fault : Option (List Byte)) : exec (.resetBlockFinished fault) s =
      .next (if canFinish s.tables p (fault.getD p.bytes) then blockHeld s p (fault.getD p.bytes) else s) := by
  have : exec (.resetBlockFinished fault) s = .next (finishReset s fault) := congrArg _ (if_pos hf)
  rw [this, finishReset, hp]
  rfl

theorem holdBlock_commitCount (t : Tables) (k : Fin 6) (held : List Byte) : (holdBlock t k held).commitCount = t.commitCount := by
  unfold holdBlock
  split <;> rfl

theorem blockHeld_unchangedBut (s : State) (p : Programming) (held : List Byte) : unchangedBut [.phase, .tables] s (blockHeld s p held) := by
  intro q hq
  cases q <;> first | rfl | simp at hq

/-- Settles O4: the reset waits, and at the end of the block the load begins on a store that a reset in the middle of a COMMIT leaves unloadable. -/
theorem resetWaitsForTheBlockUnderWay : Obligations.ResetWaitsForTheBlockUnderWay := by
  refine ⟨fun a r s p hp c hc => ?waits, fun s p fault hf hp => ?ends⟩
  case waits =>
    obtain ⟨k, hk⟩ := exec_reset_busy hp hc
    exact ⟨_, hk, rfl, hp, rfl, rfl, rfl, rfl, rfl, rfl, rfl, rfl, rfl⟩
  case ends =>
    intro held possible
    rw [exec_resetBlockFinished hf hp]
    refine ⟨fun hpossible => ?_, fun hnot => by rw [if_neg (by rwa [canFinish_iff])]⟩
    rw [if_pos ((canFinish_iff _ _ _).mpr hpossible)]
    refine ⟨_, rfl, blockHeld_unchangedBut s p _, rfl, rfl, holdBlock_programming _ _ _, holdBlock_working _ _ _, holdBlock_commitCount _ _ _,
      holdBlock_header _ _ _, holdBlock_block _ _ _, fun hfails => ?_⟩
    obtain hw | ⟨hleft, htake⟩ := hpossible
    · obtain ⟨hk, hgen⟩ | hne := hfails
      · exact loadFails_of_generation hk (by rwa [← hw] at hgen)
      · exact absurd hw hne
    · exact loadFails_of_left hleft

/-! ## The RESTART reset (R177) -/

@[simp] theorem port_send_counters (p : Port) (own : Byte) (f : OutFrame) : (p.send own f).counters = p.counters := by cases f <;> rfl

/-- A transmission that begins writes the line and the sequence number of its port at most, and holds no RESTART reply but one that waited. -/
theorem port_send_noRestart {p : Port} {f : OutFrame} (hf : f.isRestart = false) (h : noRestartReply p) (own : Byte) :
    noRestartReply (p.send own f) := by
  simp only [noRestartReply, Port.holdsRestart, Bool.or_eq_false_iff] at h ⊢
  obtain ⟨hq, hl⟩ := h
  cases f with
  | demand d => exact ⟨hq, hl⟩
  | reply dst payload r => exact ⟨hq, hf⟩
  | notice | forwarded => exact ⟨hq, rfl⟩

theorem port_sendOldest_noRestart {p : Port} (h : noRestartReply p) (own : Byte) :
    noRestartReply (p.sendOldest own) ∧ (p.sendOldest own).counters = p.counters := by
  cases hq : p.queue with
  | nil =>
    rw [port_sendOldest_nil hq]
    exact ⟨h, rfl⟩
  | cons f rest =>
    rw [port_sendOldest_cons hq]
    simp only [noRestartReply, Port.holdsRestart, hq, List.any_cons, Bool.or_eq_false_iff] at h
    refine ⟨port_send_noRestart h.1.1 ?_ own, port_send_counters _ _ _⟩
    simpa [noRestartReply, Port.holdsRestart] using ⟨by simpa using h.1.2, by simpa using h.2⟩

/-- An arbiter finds no RESTART reply where none is held, and counts nothing. -/
theorem startNext_noRestart {s : State} (ha : noRestartReply s.portA) (hb : noRestartReply s.portB) (p : PortId) :
    noRestartReply (startNext s p).portA ∧ noRestartReply (startNext s p).portB ∧
    (startNext s p).portA.counters = s.portA.counters ∧ (startNext s p).portB.counters = s.portB.counters := by
  cases p with
  | a =>
    obtain ⟨h, hc⟩ := port_sendOldest_noRestart ha s.straps.own
    exact ⟨h, hb, hc, rfl⟩
  | b =>
    unfold startNext
    dsimp only
    split
    · refine ⟨ha, ?_, rfl, rfl⟩
      simp only [noRestartReply, Port.holdsRestart, Bool.or_eq_false_iff] at hb ⊢
      refine ⟨?_, rfl⟩
      rw [List.any_eq_false] at hb ⊢
      exact fun f hf => hb.1 f (List.mem_of_mem_eraseP hf)
    · obtain ⟨h, hc⟩ := port_sendOldest_noRestart hb s.straps.own
      exact ⟨ha, h, rfl, hc⟩

/-- The RESTART reset reads nothing of what the end of a transmission writes but the counters. -/
theorem resetBlocks_startNext {s : State} (ha : noRestartReply s.portA) (hb : noRestartReply s.portB) (p : PortId) (x : Straps) :
    resetBlocks .restart x (startNext s p) = resetBlocks .restart x s := by
  obtain ⟨-, -, hca, hcb⟩ := startNext_noRestart ha hb p
  obtain ⟨y, z, htrip⟩ := startNext_trip s p
  exact resetBlocks_restart_congr x (by simp) (by simp) (by simp) (by simp) (by simp) (by simp) (by rw [htrip]) hca hcb

/-- Settles O5: the freed port holds the reply no longer, so the reset falls due. -/
theorem restartResetAtTheEndOfItsReply : Obligations.RestartResetAtTheEndOfItsReply := by
  intro p levels s bytes hf hr hline hqueue hother hprog
  have hfreed : noRestartReply (freedPort (s.port p)) := by simp [noRestartReply, Port.holdsRestart, freedPort, hqueue]
  have hports : noRestartReply (s.setPort p (freedPort (s.port p))).portA ∧ noRestartReply (s.setPort p (freedPort (s.port p))).portB := by
    cases p
    · exact ⟨hfreed, hother⟩
    · exact ⟨hother, hfreed⟩
  obtain ⟨ha, hb, -, -⟩ := startNext_noRestart hports.1 hports.2 p
  refine ⟨_, ?_, rfl⟩
  change taken s (fun t => transmitEnd t p) levels = _
  rw [taken_settled _ hf, transmitEnd_of_line hline, settle_of_due (by simpa using hr) ha hb, resetPart_free (by simpa using hprog),
    resetBlocks_startNext hports.1 hports.2]
  have htables : (startNext (s.setPort p (freedPort (s.port p))) p).tables = s.tables := by simp
  have hstraps : (startNext (s.setPort p (freedPort (s.port p))) p).straps = s.straps := by simp
  rw [htables, hstraps]
  cases p <;> cases levels <;> rfl

/-! ## RESTART as a request (R177) -/

/-- The part with a restart pending. -/
def pendingRestart (s : State) : State := s.setResp { s.resp with restartPending := true }

@[simp] theorem pendingRestart_port (s : State) (p : PortId) : (pendingRestart s).port p = s.port p := by cases p <;> rfl

theorem serve_restart {s : State} (h : s.leg.run = .safe ∨ s.leg.run = .maintenance) (p : PortId) (src : Byte) :
    serve s p src .restart = (pendingRestart s).offer p (.reply src (replyPayload 0x10 .done []) true) := by
  have hrun : ¬(s.leg.run ≠ .safe ∧ s.leg.run ≠ .maintenance) := by tauto
  exact if_neg hrun

/-- RESTART is served, and settled at its end. -/
theorem exec_restart {e : PortEvent} {src : Byte} {s : State} (h : servable s src .restart) :
    exec (.restart e src) s = .next (settle (serve s e.port src .restart) e.straps) := by
  have hf : s.phase ≠ .finishing := by simp [h.1.1]
  change taken s (fun t => takeRequest t e.port src .restart) e.straps = _
  rw [taken_settled _ hf, takeRequest_of_servable h]

/-- A RESTART reply placed is held by its port. -/
theorem port_offer_restart {p : Port} (hl : p.queue.length < 8) (own dst : Byte) (payload : List Byte) :
    (p.offer own (.reply dst payload true)).holdsRestart = true := by
  by_cases hfree : p.queue = [] ∧ p.line = none
  · rw [port_offer_free hfree.1 hfree.2]
    simp [Port.holdsRestart, Port.send]
  · rw [port_offer_joins hfree hl]
    simp [Port.holdsRestart, OutFrame.isRestart]

theorem offer_restart_held {s : State} {p : PortId} (hl : (s.port p).queue.length < 8) (dst : Byte) (payload : List Byte) :
    (s.offer p (.reply dst payload true)).portA.holdsRestart = true ∨ (s.offer p (.reply dst payload true)).portB.holdsRestart = true := by
  cases p with
  | a => exact .inl (port_offer_restart hl _ _ _)
  | b => exact .inr (port_offer_restart hl _ _ _)

/-- A reply that meets a full queue is dropped, and no port holds it. -/
theorem offer_restart_dropped {s : State} {p : PortId} (hl : 8 ≤ (s.port p).queue.length) (f : OutFrame) :
    s.offer p f = s.setPort p { s.port p with counters := (s.port p).counters.bump .queueDrop } := by
  rw [State.offer, port_offer_dropped hl]

/-- A RESTART reset that falls due with no block under way. -/
theorem settle_due_free {s : State} (hr : s.resp.restartPending = true) (ha : noRestartReply s.portA) (hb : noRestartReply s.portB)
    (hp : s.tables.programming = none) (x : Option StrapLevels) :
    settle s x = { resetBlocks .restart (s.straps.reread x) s with
      tables := { resetTables .restart s.tables with valid := false }, phase := .loading } :=
  (settle_of_due hr ha hb).trans (resetPart_free hp _ _)

/-- Settles O37: placed, the reply holds the reset back; dropped, it lets the reset fall due at once. -/
theorem restartBecomesPending : Obligations.RestartBecomesPending := by
  intro e src s h p pending
  rw [exec_restart h]
  refine ⟨fun hrun hl => ?placed, fun hrun hl ha hb hprog => ?dropped, fun hsafe hmaint => ?refused⟩
  case placed =>
    rw [serve_restart hrun, settle_of_held (offer_restart_held (by simpa using hl) _ _)]
    rfl
  case dropped =>
    rw [serve_restart hrun, offer_restart_dropped (by simpa using hl)]
    rw [show e.port = p from rfl]
    clear_value p
    cases p
    all_goals
      rw [settle_due_free (by rfl) (by exact ha) (by exact hb) (by exact hprog)]
      exact ⟨_, rfl, rfl, rfl, rfl, rfl, rfl, rfl, rfl, rfl, rfl, rfl⟩
  case refused =>
    have hs : serve s e.port src .restart = answered s e.port src 0x10 .refusedState [] := if_pos ⟨hsafe, hmaint⟩
    rw [hs, settle_of_no_restart (by simpa [answered] using h.1.2)]

end Sys2Proof.Machine
end

