-- ==== Sys2Proof/Proofs/StoreLoads.lean ====
section
/-! PROOF. The store's blocks read back, and the start-up load on a store written whole and on one that is not (R179, R180, R184). -/

namespace Sys2Proof.Machine

/-! ## A table read back from its bytes -/

/-- In a sequence of pieces of one length, piece `i` with what follows it. -/
theorem drop_flatMap_of_lt {α : Type} (f : α → List Byte) (n : Nat) (hf : ∀ x, (f x).length = n) {l : List α} {i : Nat} (h : i < l.length) :
    (l.flatMap f).drop (n * i) = f l[i] ++ (l.drop (i + 1)).flatMap f := by
  rw [drop_flatMap f n hf, List.drop_eq_getElem_cons h, List.flatMap_cons]

/-- The same with bytes after the sequence. -/
theorem drop_flatMap_append {α : Type} (f : α → List Byte) (n : Nat) (hf : ∀ x, (f x).length = n) {l : List α} {i : Nat}
    (h : i < l.length) (rest : List Byte) :
    (l.flatMap f ++ rest).drop (n * i) = f l[i] ++ ((l.drop (i + 1)).flatMap f ++ rest) := by
  have hle : n * i ≤ (l.flatMap f).length := by
    rw [flatMap_length f n hf]
    exact Nat.mul_le_mul_left n h.le
  rw [List.drop_append_of_le_length hle, drop_flatMap_of_lt f n hf h, List.append_assoc]

theorem build_congr {f g : Nat → Nat} (h : ∀ n, 1 ≤ n → n ≤ 28 → f n = g n) : LineConstants.build f = LineConstants.build g := by
  unfold LineConstants.build
  congr 1 <;> exact h _ (by decide) (by decide)

/-- The Line Constants read from their bytes. -/
theorem build_fields (c : LineConstants) (h : ∀ n, c.get n < 16777216) :
    LineConstants.build (fun n => field ((List.range 28).flatMap fun i => toBytes 3 (c.get (i + 1))) (3 * (n - 1)) 3) = c := by
  refine (build_congr fun n h1 h28 => ?_).trans (show LineConstants.build c.get = c from rfl)
  have hlt : n - 1 < (List.range 28).length := by simp; omega
  have hdrop := drop_flatMap_of_lt (fun i => toBytes 3 (c.get (i + 1))) 3 (by simp) hlt
  have hfield := field_drop ((List.range 28).flatMap fun i => toBytes 3 (c.get (i + 1))) (3 * (n - 1)) 0 3
  rw [Nat.add_zero] at hfield
  rw [← hfield, hdrop, List.getElem_range, Nat.sub_add_cancel h1]
  exact field_toBytes_append _ (h n)

/-- The entries of a table read from their bytes, whatever follows them. -/
theorem ofFn_entries {α : Type} {m : Nat} (f : α → List Byte) (g : List Byte → α) (n : Nat) (hf : ∀ x, (f x).length = n)
    (v : Vector α m) (rest : List Byte) (h : ∀ (i : Fin m) (bs : List Byte), g (f v[i] ++ bs) = v[i]) :
    Vector.ofFn (fun i : Fin m => g ((v.toList.flatMap f ++ rest).drop (n * i.val))) = v := by
  apply Vector.ext
  intro i hi
  rw [Vector.getElem_ofFn, drop_flatMap_append f n hf (by simpa using hi)]
  simpa using h ⟨i, hi⟩ _

/-- The count that stands after the entries of a table. -/
theorem field_count {α : Type} {m : Nat} (f : α → List Byte) (n : Nat) (hf : ∀ x, (f x).length = n) (v : Vector α m) {count : Nat}
    (h : count < 256) : field (v.toList.flatMap f ++ toBytes 1 count) (n * m) 1 = count := by
  have hlen : (v.toList.flatMap f).length = n * m := by rw [flatMap_length f n hf]; simp
  rw [field_append_right _ _ hlen.le, hlen, Nat.sub_self, field_toBytes (by simpa using h)]

/-- A block's bytes after its generation are its table's. -/
theorem writtenBlocks_drop (gen : BitVec 16) (t : TableSet) (k : Fin 5) :
    ((writtenBlocks gen t)[k]).drop 2 = tableBytes t (k.val + 1) := by
  simp [writtenBlocks, blockBytes]

/-- The three places read from their bytes. -/
theorem places_read (t : StopPlaces) (h : ∀ p c, ((t.get p).window c).lo < 16777216 ∧ ((t.get p).window c).nom < 16777216 ∧
      ((t.get p).window c).hi < 16777216) :
    let bs := placeBytes t.bottom ++ placeBytes t.loop ++ placeBytes t.top
    (⟨placeOf bs, placeOf (bs.drop 19), placeOf (bs.drop 38)⟩ : StopPlaces) = t := by
  intro bs
  have hbottom : placeOf bs = t.bottom := by
    rw [show bs = placeBytes t.bottom ++ (placeBytes t.loop ++ placeBytes t.top) from List.append_assoc _ _ _]
    exact placeOf_append _ _ (h .bottom)
  have hloop : placeOf (bs.drop 19) = t.loop := by
    rw [show bs.drop 19 = placeBytes t.loop ++ placeBytes t.top by simp [bs]]
    exact placeOf_append _ _ (h .loop)
  have htop : placeOf (bs.drop 38) = t.top := by
    rw [show bs.drop 38 = placeBytes t.top ++ [] by simp [bs, List.drop_append]]
    exact placeOf_append _ _ (h .top)
  rw [hbottom, hloop, htop]

/-- Settles O9: each table is read back from its own block. -/
theorem tablesReadBackAsWritten : Obligations.TablesReadBackAsWritten := by
  intro gen t ⟨hline, hsources, hcount, hsegs, hprofile, hplaces⟩
  have hb := writtenBlocks_drop gen t
  have h0 : LineConstants.build (fun n => field (tableBytes t 1) (3 * (n - 1)) 3) = t.line := build_fields t.line hline
  have h1 : (⟨Vector.ofFn fun i : Fin 16 => sourceOf ((tableBytes t 2).drop (5 * i.val)), field (tableBytes t 2) 80 1⟩ : SourceTable) =
      t.sources := by
    have he := ofFn_entries sourceBytes sourceOf 5 sourceBytes_length t.sources.entries (toBytes 1 t.sources.count)
      fun i bs => sourceOf_append _ bs (hsources i)
    have hc := field_count sourceBytes 5 sourceBytes_length t.sources.entries hcount
    simp only [tableBytes]
    rw [he, hc]
  have h2 : (⟨Vector.ofFn fun i : Fin 64 => segmentOf ((tableBytes t 3).drop (8 * i.val)), field (tableBytes t 3) 512 1⟩ : Profile) =
      t.profile := by
    have he := ofFn_entries segmentBytes segmentOf 8 segmentBytes_length t.profile.segs (toBytes 1 t.profile.count)
      fun i bs => segmentOf_append _ bs (hsegs i)
    have hc := field_count segmentBytes 8 segmentBytes_length t.profile.segs hprofile
    simp only [tableBytes]
    rw [he, hc]
  have h3 := places_read t.places hplaces
  have h4 : Vector.ofFn (fun i : Fin 31 => responseOf ((tableBytes t 5).drop (2 * i.val))) = t.response := by
    have he := ofFn_entries responseBytes responseOf 2 responseBytes_length t.response [] fun i bs => responseOf_append _ bs
    simpa [tableBytes] using he
  simp only [tableSetOf, hb]
  exact (TableSet.mk.injEq ..).mpr ⟨h0, h1, h2, h3, h4⟩

/-! ## The header of a store (R179) -/

/-- Bytes with their check agree with it. -/
theorem frameGood_withCheck (bs : List Byte) : frameGood (withCheck bs) = true := by
  have hlen : (withCheck bs).length - 2 = bs.length := by simp [withCheck]
  have htake : (withCheck bs).take bs.length = bs := by simp [withCheck]
  have hdrop : (withCheck bs).drop bs.length = toBytes 2 (crc16 bs).toNat := by simp [withCheck]
  rw [frameGood, hlen, htake, hdrop, beNat_toBytes_of_lt (crc16 bs).isLt]
  simp

/-- The checks of the blocks as the header carries them. -/
def blockChecks (blocks : Vector (List Byte) 5) : List Byte := blocks.toList.flatMap fun b => toBytes 2 (crc16 b).toNat

theorem headerBytes_eq (count : BitVec 16) (blocks : Vector (List Byte) 5) :
    headerBytes count blocks =
      toBytes 2 count.toNat ++ (blockChecks blocks ++ toBytes 2 (crc16 (toBytes 2 count.toNat ++ blockChecks blocks)).toNat) :=
  List.append_assoc _ _ _

theorem blockChecks_length (blocks : Vector (List Byte) 5) : (blockChecks blocks).length = 10 := by
  rw [blockChecks, flatMap_length _ 2 (by simp)]
  simp

theorem headerGood_headerBytes (count : BitVec 16) (blocks : Vector (List Byte) 5) : headerGood (headerBytes count blocks) = true := by
  have hlen : (headerBytes count blocks).length = 14 := by simp [headerBytes_eq, blockChecks_length]
  have hgood : frameGood (headerBytes count blocks) = true := frameGood_withCheck _
  simp [headerGood, hlen, hgood]

theorem headerBytes_count (count : BitVec 16) (blocks : Vector (List Byte) 5) : field (headerBytes count blocks) 0 2 = count.toNat := by
  rw [headerBytes_eq]
  exact field_toBytes_append _ count.isLt

theorem headerCount_headerBytes (count : BitVec 16) (blocks : Vector (List Byte) 5) : headerCount (headerBytes count blocks) = count := by
  rw [headerCount, headerBytes_count]
  simp

theorem headerBytes_check (count : BitVec 16) (blocks : Vector (List Byte) 5) (k : Fin 5) :
    field (headerBytes count blocks) (2 * (k.val + 1)) 2 = (crc16 blocks[k]).toNat := by
  have hk : k.val < blocks.toList.length := by simp
  have hfront : (headerBytes count blocks).drop 2 =
      blockChecks blocks ++ toBytes 2 (crc16 (toBytes 2 count.toNat ++ blockChecks blocks)).toNat := by
    rw [headerBytes_eq, List.drop_left' (by simp)]
  have hpiece (rest : List Byte) := drop_flatMap_append (fun b => toBytes 2 (crc16 b).toNat) 2 (by simp) hk rest
  calc field (headerBytes count blocks) (2 * (k.val + 1)) 2
      = field ((headerBytes count blocks).drop 2) (2 * k.val) 2 := by rw [field_drop, Nat.mul_succ, Nat.add_comm]
    _ = field (((headerBytes count blocks).drop 2).drop (2 * k.val)) 0 2 := by rw [field_drop _ (2 * k.val), Nat.add_zero]
    _ = (crc16 blocks[k]).toNat := by
      rw [hfront, blockChecks, hpiece]
      exact field_toBytes_append _ (crc16 blocks[k]).isLt

/-- A block matches the header written for it and its generation. -/
theorem blockMatches_written {count : BitVec 16} {blocks : Vector (List Byte) 5} {k : Fin 5} (h : field blocks[k] 0 2 = count.toNat) :
    blockMatches (headerBytes count blocks) (k.val + 1) blocks[k] = true := by
  rw [blockMatches, headerBytes_check, headerBytes_count, h]
  simp

theorem writtenBlocks_generation (gen : BitVec 16) (t : TableSet) (k : Fin 5) : field (writtenBlocks gen t)[k] 0 2 = gen.toNat := by
  have hb : (writtenBlocks gen t)[k] = toBytes 2 gen.toNat ++ tableBytes t (k.val + 1) := by simp [writtenBlocks, blockBytes]
  rw [hb]
  exact field_toBytes_append _ gen.isLt

theorem allMatch_written (gen : BitVec 16) (t : TableSet) :
    allMatch (headerBytes gen (writtenBlocks gen t)) (writtenBlocks gen t) = true := by
  rw [allMatch, List.all_eq_true]
  exact fun k _ => blockMatches_written (writtenBlocks_generation gen t k)

/-! ## The start-up load (R180) -/

theorem exec_startUpLoadComplete {s : State} (hp : s.phase = .loading) (hr : s.resp.restartPending = false) :
    exec .startUpLoadComplete s = .next (loadDecides s) := by
  change taken s (fun t => if t.phase = .loading then loadDecides t else t) none = _
  rw [taken_frame _ (by simp [hp]) hr]
  · rw [if_pos hp]
  · rw [if_pos hp]
    simp

theorem judgeLoad_written (own : Byte) {count : BitVec 16} {set : TableSet} (hfits : setFits set) (hcheck : checkSet own set = none) :
    judgeLoad own (headerBytes count (writtenBlocks count set)) (writtenBlocks count set) = (count, some (forceSubs set)) := by
  simp [judgeLoad, headerGood_headerBytes, allMatch_written, tablesReadBackAsWritten count set hfits, hcheck, headerCount_headerBytes]

/-- Settles O7: the store written whole passes each test of the load, and its set is activated. -/
theorem storeWrittenWholeLoads : Obligations.StoreWrittenWholeLoads := by
  intro s count set hp hr hfits hcheck hblocks hheader
  have hjudge : judgeLoad s.straps.own s.tables.header s.tables.blocks = (count, some (forceSubs set)) := by
    rw [hheader, hblocks]
    exact judgeLoad_written _ hfits hcheck
  refine ⟨_, exec_startUpLoadComplete hp hr, ?_⟩
  have hlists (x : State) := activateEstimator_lists x s.tables.working.line
  simp only [loadDecides, hjudge]
  refine ⟨by simp, by simp [takeSet], by simp [takeSet], by simp [takeSet], by simp [takeSet], by simp [takeSet], ?_, ?_, by simp, by simp,
    by simp, by simp⟩
  · exact (hlists _).1
  · exact (hlists _).2

/-- A load that fails keeps the tables but for the count. -/
theorem loadDecides_failed {s : State} {count : BitVec 16} (h : judgeLoad s.straps.own s.tables.header s.tables.blocks = (count, none)) :
    loadDecides s = { s with phase := .running, tables := { s.tables with commitCount := count } } := by
  simp only [loadDecides, h]
  rfl

/-- Settles O8: the header, a block or the consistency of the set stops the load. -/
theorem failedLoadLeavesTheTables : Obligations.FailedLoadLeavesTheTables := by
  intro s hp hr
  rw [exec_startUpLoadComplete hp hr]
  refine ⟨fun hbad => ?header, fun hgood hfails => ?block⟩
  case header => rw [loadDecides_failed (show judgeLoad _ _ _ = (0, none) by simp [judgeLoad, hbad])]
  case block =>
    have hjudge : judgeLoad s.straps.own s.tables.header s.tables.blocks = (headerCount s.tables.header, none) := by
      obtain ⟨k, hk⟩ | hset := hfails
      · have hall : allMatch s.tables.header s.tables.blocks = false := by
          rw [allMatch, List.all_eq_false]
          exact ⟨k, List.mem_finRange k, by rw [hk]; decide⟩
        simp [judgeLoad, hgood, hall]
      · obtain ⟨x, hx⟩ := Option.ne_none_iff_exists'.mp hset
        simp [judgeLoad, hgood, hx]
    rw [loadDecides_failed hjudge]

end Sys2Proof.Machine
end

