-- ==== Sys2Proof/Proofs/FrameBytes.lean ====
section
/-! PROOF. Requests and frames as bytes, and the check formed over a frame with its check field (R151, R160, R162). -/

namespace Sys2Proof.Machine

/-! ## Requests -/

/-- A number in two bytes, byte by byte. -/
theorem toBytes_two (x : Nat) : toBytes 2 x = [BitVec.ofNat 8 (x / 256), BitVec.ofNat 8 x] := by simp [toBytes]

/-- The echo of a MAINTENANCE CONFIRM reads back. -/
theorem parseRequest_confirm (echo : BitVec 16) : parseRequest (0x0E :: toBytes 2 echo.toNat) = some (.maintenanceConfirm echo) := by
  have hread : BitVec.ofNat 16 (beNat (toBytes 2 echo.toNat)) = echo := by
    rw [beNat_toBytes_of_lt echo.isLt]
    simp
  rw [toBytes_two] at hread ⊢
  have hparse (h l : Byte) : parseRequest [0x0E, h, l] = some (.maintenanceConfirm (BitVec.ofNat 16 (beNat [h, l]))) := rfl
  rw [hparse, hread]

theorem parseRequest_tableWrite {t i : Byte} {e : List Byte} (h : entryFits t i e = true) :
    parseRequest (0x0A :: t :: i :: e) = some (.tableWrite t i e) := if_pos h

/-- Settles O10: each request's payload has its code and its parameters. -/
theorem requestPayloadReadsBack : Obligations.RequestPayloadReadsBack := by
  intro r hfits
  cases r with
  | tableWrite t i e => exact parseRequest_tableWrite (hfits t i e rfl)
  | maintenanceConfirm echo => exact parseRequest_confirm echo
  | _ => rfl

/-! ## The check as a register -/

/-- A step with the top bit clear shifts. -/
theorem crcBit_of_msb {c : BitVec 16} (h : c.msb = false) : crcBit c = c <<< 1 := by simp [crcBit, h]

/-- The generator's lowest bit carries the bit shifted out. -/
theorem crcBit_lowest (c : BitVec 16) : (crcBit c).getLsbD 0 = c.msb := by
  unfold crcBit
  cases h : c.msb <;> simp

/-- A shift and the bit shifted out determine the register. -/
theorem eq_of_shiftLeft_msb {c d : BitVec 16} (hs : c <<< 1 = d <<< 1) (hm : c.msb = d.msb) : c = d := by
  apply BitVec.eq_of_getLsbD_eq
  intro i hi
  by_cases h15 : i = 15
  · subst h15
    simpa [BitVec.msb_eq_getLsbD_last] using hm
  · have := congrArg (fun x : BitVec 16 => x.getLsbD (i + 1)) hs
    simpa [BitVec.getLsbD_shiftLeft, show i + 1 < 16 by omega, hi] using this

theorem crcBit_injective : Function.Injective crcBit := by
  intro c d h
  have hm : c.msb = d.msb := by rw [← crcBit_lowest, ← crcBit_lowest, h]
  refine eq_of_shiftLeft_msb ?_ hm
  unfold crcBit at h
  rw [hm] at h
  split at h
  · exact (BitVec.xor_left_inj _).mp h
  · exact h

/-- Eight steps of the register. -/
def crcByteSteps (c : BitVec 16) : BitVec 16 := crcBit (crcBit (crcBit (crcBit (crcBit (crcBit (crcBit (crcBit c)))))))

theorem crcByte_eq (c : BitVec 16) (b : Byte) : crcByte c b = crcByteSteps (c ^^^ (b.setWidth 16 <<< 8)) := rfl

theorem crcByteSteps_injective : Function.Injective crcByteSteps :=
  fun _ _ h => crcBit_injective (crcBit_injective (crcBit_injective (crcBit_injective (crcBit_injective (crcBit_injective
    (crcBit_injective (crcBit_injective h)))))))

/-- A byte in the low half is shifted to the high half. -/
theorem crcByteSteps_low (b : Byte) : crcByteSteps (b.setWidth 16) = b.setWidth 16 <<< 8 := by
  have hstep (n : Nat) (h : n < 8) : crcBit (b.setWidth 16 <<< n) = b.setWidth 16 <<< (n + 1) := by
    rw [crcBit_of_msb, ← BitVec.shiftLeft_add]
    rw [BitVec.msb_eq_getLsbD_last]
    simp
    intro _
    exact BitVec.getLsbD_of_ge b _ (by omega)
  have h0 : crcBit (b.setWidth 16) = b.setWidth 16 <<< 1 := by simpa using hstep 0 (by decide)
  rw [crcByteSteps, h0, hstep 1 (by decide), hstep 2 (by decide), hstep 3 (by decide), hstep 4 (by decide), hstep 5 (by decide),
    hstep 6 (by decide), hstep 7 (by decide)]

theorem crcByte_injective (b : Byte) : Function.Injective (crcByte · b) :=
  fun _ _ h => (BitVec.xor_left_inj _).mp (crcByteSteps_injective h)

/-- Two bytes as a register: what the check formed before them has to be. -/
theorem append_xor_high (hi lo : Byte) : (hi ++ lo : BitVec 16) ^^^ (hi.setWidth 16 <<< 8) = lo.setWidth 16 := by
  apply BitVec.eq_of_getLsbD_eq
  intro i hi16
  rw [BitVec.getLsbD_xor, BitVec.getLsbD_append, BitVec.getLsbD_shiftLeft, BitVec.getLsbD_setWidth, BitVec.getLsbD_setWidth]
  by_cases h : i < 8
  · simp [h, show i < 16 by omega]
  · have hlo : lo.getLsbD i = false := BitVec.getLsbD_of_ge lo i (by omega)
    simp [h, hlo, show i < 16 by omega, show i - 8 < 16 by omega]

theorem append_toNat (hi lo : Byte) : (hi ++ lo : BitVec 16).toNat = beNat [hi, lo] := by
  rw [BitVec.toNat_append, ← Nat.shiftLeft_add_eq_or_of_lt lo.isLt]
  simp [beNat, Nat.shiftLeft_eq]

/-- Two more bytes bring the check to 0 exactly where they are the check. -/
theorem crcByte_twice_eq_zero (c : BitVec 16) (hi lo : Byte) : crcByte (crcByte c hi) lo = 0 ↔ c.toNat = beNat [hi, lo] := by
  have hzero : crcByte (crcByte (hi ++ lo : BitVec 16) hi) lo = 0 := by
    rw [crcByte_eq (hi ++ lo : BitVec 16), append_xor_high, crcByteSteps_low, crcByte_eq, BitVec.xor_self]
    rfl
  rw [← append_toNat]
  refine ⟨fun h => ?_, fun h => by rw [BitVec.eq_of_toNat_eq h, hzero]⟩
  rw [crcByte_injective hi (crcByte_injective lo (h.trans hzero.symm))]

theorem crc16_append (a b : List Byte) : crc16 (a ++ b) = b.foldl crcByte (crc16 a) := List.foldl_append

/-- Formed over a whole frame the check is 0 exactly where the frame is good (R151). -/
theorem crc16_eq_zero_iff {bs : List Byte} (h : 2 ≤ bs.length) : crc16 bs = 0 ↔ frameGood bs = true := by
  have hlen : (bs.drop (bs.length - 2)).length = 2 := by simp; omega
  obtain ⟨hi, lo, htail⟩ := List.length_eq_two.mp hlen
  have hcrc : crc16 bs = crcByte (crcByte (crc16 (bs.take (bs.length - 2))) hi) lo := by
    conv_lhs => rw [← List.take_append_drop (bs.length - 2) bs, crc16_append, htail]
    rfl
  rw [hcrc, crcByte_twice_eq_zero, frameGood, htail, decide_eq_true_iff]

/-! ## Frames -/

/-- A frame's five header bytes, then its payload, then its check. -/
theorem frameBytes_eq (dst src kind seq : Byte) (payload : List Byte) :
    frameBytes dst src kind seq payload = dst :: src :: kind :: seq :: byteOf payload.length ::
      (payload ++ toBytes 2 (crc16 ([dst, src, kind, seq, byteOf payload.length] ++ payload)).toNat) := rfl

theorem frameBytes_length (dst src kind seq : Byte) (payload : List Byte) :
    (frameBytes dst src kind seq payload).length = 7 + payload.length := by
  simp [frameBytes_eq]
  omega

/-- A header byte reads back. -/
theorem byteOf_beNat (b : Byte) : byteOf (beNat [b]) = b := by simp [byteOf, beNat]

theorem parseFrame_frameBytes (dst src kind seq : Byte) {payload : List Byte} (h : payload.length ≤ 32) :
    parseFrame (frameBytes dst src kind seq payload) =
      { dst := dst, src := src, kind := kind, seq := seq, payload := payload, bytes := frameBytes dst src kind seq payload } := by
  have hlen : field (frameBytes dst src kind seq payload) 4 1 = payload.length := by
    rw [frameBytes_eq]
    simp [field, beNat, byteOf]
    omega
  rw [parseFrame, hlen]
  simp [frameBytes_eq, field, byteOf_beNat]

/-- Settles O11: lengths and fields by the layout, the check by its register. -/
theorem frameFormedIsGoodAndReadsBack : Obligations.FrameFormedIsGoodAndReadsBack :=
  ⟨fun dst src kind seq payload h => ⟨frameBytes_length dst src kind seq payload, frameGood_withCheck _,
    parseFrame_frameBytes dst src kind seq h⟩, fun _ => crc16_eq_zero_iff, by decide +kernel⟩

end Sys2Proof.Machine
end

