-- ==== Sys2Proof/Proofs/Receiving.lean ====
section
/-! PROOF. The receiver, and the tests of the Frame Sorter in their order (R26, R150, R151, R153, R154). -/

namespace Sys2Proof.Machine

/-! ## The receiver -/

/-- A character taken to a state in which no restart is pending. -/
theorem exec_receiveCharacter {s t : State} {e : PortEvent} {b : Byte} {m g : Bool} (hf : s.phase ≠ .finishing)
    (hr : t.resp.restartPending = false) (h : receiveCharacter s e.port b m g = t) : exec (.receiveCharacter e b m g) s = .next t := by
  subst h
  exact taken_next (fun t => receiveCharacter t e.port b m g) hf hr

theorem exec_lineBreak {s t : State} {p : PortId} (hf : s.phase ≠ .finishing) (hr : t.resp.restartPending = false)
    (h : lineBreak s p = t) : exec (.lineBreak p) s = .next t := by
  subst h
  exact taken_next (fun t => lineBreak t p) hf hr

/-- An event counted at a port whose receiver takes a new state. -/
theorem setRx_countAt (s : State) (p : PortId) (k : PortCounter) (x : Option (List Byte)) :
    setRx (countAt s p k) p x = s.setPort p { s.port p with rx := x, counters := (s.port p).counters.bump k } := by cases p <;> rfl

/-- The same in the other order, at a completed frame. -/
theorem countAt_setRx (s : State) (p : PortId) (k : PortCounter) (x : Option (List Byte)) :
    countAt (setRx s p x) p k = s.setPort p { s.port p with rx := x, counters := (s.port p).counters.bump k } := by cases p <;> rfl

/-- An event counted at a port in IDLE. -/
theorem countAt_idle {s : State} {p : PortId} (h : (s.port p).rx = none) (k : PortCounter) :
    countAt s p k = s.setPort p { s.port p with rx := none, counters := (s.port p).counters.bump k } := by rw [countAt, ← h]; rfl

theorem appendCharacter_tooLong {bs : List Byte} {b : Byte} (h : (bs ++ [b]).length = 5 ∧ 32 < b.toNat) (s : State) (p : PortId) :
    appendCharacter s p bs b = setRx (countAt s p .length) p none := if_pos h

theorem appendCharacter_partial {bs : List Byte} {b : Byte} (h : ¬((bs ++ [b]).length = 5 ∧ 32 < b.toNat))
    (hw : ¬(5 ≤ (bs ++ [b]).length ∧ (bs ++ [b]).length = 7 + field (bs ++ [b]) 4 1)) (s : State) (p : PortId) :
    appendCharacter s p bs b = setRx s p (some (bs ++ [b])) := (if_neg h).trans (if_neg hw)

theorem appendCharacter_whole {bs : List Byte} {b : Byte} (h : ¬((bs ++ [b]).length = 5 ∧ 32 < b.toNat))
    (hw : 5 ≤ (bs ++ [b]).length ∧ (bs ++ [b]).length = 7 + field (bs ++ [b]) 4 1) (s : State) (p : PortId) :
    appendCharacter s p bs b = completeFrame (setRx s p none) p (bs ++ [b]) := (if_neg h).trans (if_pos hw)

theorem completeFrame_bad {bs : List Byte} (h : frameGood bs = false) (s : State) (p : PortId) :
    completeFrame s p bs = countAt s p .check := by simp [completeFrame, h]

theorem completeFrame_good {bs : List Byte} (h : frameGood bs = true) (s : State) (p : PortId) :
    completeFrame s p bs = sortFrame (countAt s p .good) p (parseFrame bs) := by simp [completeFrame, h]

/-- Outside a pending restart no write of a port makes one fall due. -/
theorem restartPending_setPort {s : State} (h : s.resp.restartPending = false) (p : PortId) (x : Port) :
    (s.setPort p x).resp.restartPending = false := by simpa using h

/-- Settles O12: the receiver's state, the mark and the stop bit decide, and of a partial frame its length. -/
theorem receiverTakesCharactersAndBreaks : Obligations.ReceiverTakesCharactersAndBreaks := by
  intro s e b hf hr p counted
  have hport (x : Port) := restartPending_setPort hr p x
  refine ⟨fun hidle => ⟨?start, ?framing, fun g => ?ignored, ?noBreak⟩, fun bs hrx => ⟨?restart, fun m => ?badStop, ?aborted, ?appended⟩⟩
  case start => exact exec_receiveCharacter hf (hport _) (by simp only [receiveCharacter, show (s.port e.port).rx = none from hidle]; rfl)
  case framing =>
    refine exec_receiveCharacter hf (hport _) ?_
    simp only [receiveCharacter, show (s.port e.port).rx = none from hidle]
    exact countAt_idle hidle _
  case ignored => exact exec_receiveCharacter hf hr (by simp only [receiveCharacter, show (s.port e.port).rx = none from hidle])
  case noBreak => exact exec_lineBreak hf hr (by simp only [lineBreak, hidle])
  case restart =>
    refine exec_receiveCharacter hf (hport _) ?_
    simp only [receiveCharacter, show (s.port e.port).rx = some bs from hrx]
    exact setRx_countAt s p _ _
  case badStop =>
    refine exec_receiveCharacter hf (hport _) ?_
    simp only [receiveCharacter, show (s.port e.port).rx = some bs from hrx]
    cases m <;> exact setRx_countAt s p _ _
  case aborted =>
    refine exec_lineBreak hf (hport _) ?_
    simp only [lineBreak, hrx]
    exact setRx_countAt s p _ _
  case appended =>
    have happend : receiveCharacter s e.port b false true = appendCharacter s e.port bs b := by
      simp only [receiveCharacter, show (s.port e.port).rx = some bs from hrx]
    intro now tooLong whole
    refine ⟨fun hlong => ?_, fun hlong hwhole => ?_, fun hlong hwhole hbad => ?_, fun hlong hwhole hgood => ?_⟩
    · refine exec_receiveCharacter hf (hport _) (happend.trans ?_)
      rw [appendCharacter_tooLong hlong]
      exact setRx_countAt s p _ _
    · refine exec_receiveCharacter hf (hport _) (happend.trans ?_)
      rw [appendCharacter_partial hlong hwhole]
      rfl
    · refine exec_receiveCharacter hf (hport _) (happend.trans ?_)
      rw [appendCharacter_whole hlong hwhole, completeFrame_bad hbad]
      exact countAt_setRx s p _ _
    · change taken s (fun t => receiveCharacter t e.port b false true) e.straps = _
      rw [taken_settled _ hf, happend, appendCharacter_whole hlong hwhole, completeFrame_good hgood, countAt_setRx]

/-! ## The Frame Sorter -/

/-- Of the indices in order the first that passes a test. -/
theorem find_finRange {n : Nat} {q : Fin n → Bool} {i : Fin n} (hi : q i = true) (hfirst : ∀ j < i, q j = false) :
    (List.finRange n).find? q = some i := by
  rw [List.find?_eq_some_iff_getElem]
  refine ⟨hi, i.val, by simp, by simp, fun j hj => ?_⟩
  simpa using hfirst ⟨j, by omega⟩ hj

/-- A role is tracked on samples unless it is CONSOLE (R22). -/
theorem trackedKind_sample (r : Role) : r.trackedKind = kindSample ↔ r ≠ .console := by cases r <;> decide

/-- A sample is presented to the first entry in use with its source and a role tracked on samples (R26). -/
theorem presentedTo_sample {s : State} {f : RxFrame} (hk : f.kind = kindSample) (i : Fin 16) :
    (decide (i.val < s.tables.working.sources.count) &&
      (decide ((s.entry i).address = f.src.toNat) && decide ((s.entry i).role.trackedKind = f.kind))) = true ↔
    i.val < s.tables.working.sources.count ∧ (s.entry i).address = f.src.toNat ∧ (s.entry i).role ≠ .console := by
  simp [hk, trackedKind_sample]

/-- The part takes no sample from a source that no entry in use tracks. -/
theorem presentedTo_none {s : State} {f : RxFrame} (hk : f.kind = kindSample)
    (h : ∀ i : Fin 16, ¬(s.tables.valid = true ∧ i.val < s.tables.working.sources.count ∧ (s.entry i).address = f.src.toNat ∧
      (s.entry i).role ≠ .console)) : presentedTo s f = none := by
  unfold presentedTo
  split
  next hv =>
    refine List.find?_eq_none.mpr fun i _ hi => h i ⟨hv, ?_⟩
    exact (presentedTo_sample hk i).mp hi
  next => rfl

theorem presentedTo_first {s : State} {f : RxFrame} (hk : f.kind = kindSample) {i : Fin 16} (hv : s.tables.valid = true)
    (hi : i.val < s.tables.working.sources.count ∧ (s.entry i).address = f.src.toNat ∧ (s.entry i).role ≠ .console)
    (hfirst : ∀ j < i, ¬(s.tables.valid = true ∧ j.val < s.tables.working.sources.count ∧ (s.entry j).address = f.src.toNat ∧
      (s.entry j).role ≠ .console)) : presentedTo s f = some i := by
  rw [presentedTo, if_pos hv]
  refine find_finRange ((presentedTo_sample hk i).mpr hi) fun j hj => ?_
  exact Bool.eq_false_iff.mpr fun hj' => hfirst j hj ⟨hv, (presentedTo_sample hk j).mp hj'⟩

/-- A frame forwarded leaves what a sample is presented by. -/
theorem presentedTo_forward (s : State) (p : PortId) (f : RxFrame) : presentedTo (forward s p f) f = presentedTo s f := by
  simp only [presentedTo, (forward_reacts s p f).tables]

/-- The tests of the sorter on a frame that is not for the part. -/
theorem sortFrame_other {s : State} {f : RxFrame} (h : f.dst ≠ s.straps.own) (p : PortId) :
    sortFrame s p f = if f.kind = kindDemand then (match p with | .b => forward s .b f | .a => consoleFrame s f)
      else if f.kind = kindSample then sampleFrame s p f else forward s p f := by
  unfold sortFrame
  exact if_neg h

/-- A demand on Port A from no console (R153, tests 4 and 5). -/
theorem consoleFrame_foreign {s : State} {f : RxFrame} (h : s.consoleAddress ≠ some f.src) : consoleFrame s f = countAt s .a .foreignDemand := by
  unfold consoleFrame
  split
  next i hi => rw [if_neg fun ha => h (by simp [State.consoleAddress, hi, ha])]
  next => rfl

theorem consoleFrame_console {s : State} {f : RxFrame} (h : s.consoleAddress = some f.src) :
    ∃ i, s.roleIndex .console = some i ∧ consoleFrame s f = present s i f := by
  obtain ⟨i, hi, ha⟩ := Option.map_eq_some_iff.mp h
  refine ⟨i, hi, ?_⟩
  simp only [consoleFrame, hi]
  exact if_pos ha

/-- Settles O13: destination, kind and source decide in this order. -/
theorem sorterDecidesByDestinationKindAndSource : Obligations.SorterDecidesByDestinationKindAndSource := by
  intro s p f count passedOn tracked
  have hsample : kindSample ≠ kindDemand := by decide
  refine ⟨fun hd hk => ?request, fun hd hk => ?misaddressed, fun hd hk hp => ?fromB, fun hd hk hp hc => ?foreign,
    fun hd hk hp hc => ?console, fun hd hk => ⟨fun hnone => ?untracked, fun i hi hfirst => ?tracked⟩, fun hd hk hk' => ?other⟩
  case request =>
    unfold sortFrame
    exact (if_pos hd).trans (if_pos hk)
  case misaddressed =>
    unfold sortFrame
    exact (if_pos hd).trans (if_neg hk)
  case fromB =>
    rw [sortFrame_other hd, if_pos hk]
    subst hp
    rfl
  case foreign =>
    rw [sortFrame_other hd, if_pos hk]
    subst hp
    exact consoleFrame_foreign hc
  case console =>
    obtain ⟨i, hi, hpresent⟩ := consoleFrame_console hc
    refine ⟨i, hi, ?_⟩
    rw [sortFrame_other hd, if_pos hk]
    subst hp
    exact hpresent
  case untracked =>
    have hto : presentedTo (forward s p f) f = none := (presentedTo_forward s p f).trans (presentedTo_none hk hnone)
    rw [sortFrame_other hd, if_neg (hk ▸ hsample), if_pos hk]
    simp only [sampleFrame, hto]
    rfl
  case tracked =>
    have hto : presentedTo (forward s p f) f = some i := (presentedTo_forward s p f).trans (presentedTo_first hk hi.1 hi.2 hfirst)
    rw [sortFrame_other hd, if_neg (hk ▸ hsample), if_pos hk]
    simp only [sampleFrame, hto]
    rfl
  case other =>
    rw [sortFrame_other hd, if_neg hk, if_neg hk']
    rfl

end Sys2Proof.Machine
end

