-- ==== Sys2Proof/Proofs/MakeReady.lean ====
section
/-! PROOF. MAKE READY: the conditions in the order of R85, each with its reason and detail (R84, R85). -/

namespace Sys2Proof.Machine

/-! ## The conditions one by one -/

/-- The index a role's source has in the details of NOT_READY, 0 where no entry in use holds the role. -/
def roleDetail (s : State) (r : Role) : Nat := ((s.roleIndex r).map (·.val)).getD 0

theorem byteOf_roleDetail (s : State) (r : Role) :
    byteOf (roleDetail s r) = (match s.roleIndex r with | some i => byteOf i.val | none => 0) := by
  unfold roleDetail
  cases s.roleIndex r <;> rfl

theorem firstFailing_cons_of_fails {s : State} {test : Role → Bool} {r : Role} (h : test r = false) (rest : List Role) :
    firstFailing s test (r :: rest) = some (roleDetail s r) := by simp [firstFailing, h, roleDetail]

theorem firstFailing_cons_of_passes {s : State} {test : Role → Bool} {r : Role} (h : test r = true) (rest : List Role) :
    firstFailing s test (r :: rest) = firstFailing s test rest := by simp [firstFailing, h]

theorem pairPasses {s : State} {test : Role → Bool} {a b : Role} (ha : test a = true) (hb : test b = true) :
    firstFailing s test [a, b] = none := (firstFailing_cons_of_passes ha _).trans (firstFailing_cons_of_passes hb _)

/-- Condition 3: the encoder, the console and the drive are in SYNC. -/
theorem sourcesPass {s : State} (he : s.roleIn .encoder .sync = true) (hc : s.roleIn .console .sync = true)
    (hd : s.roleIn .drive .sync = true) : firstFailing s (fun r => s.roleIn r .sync) [.encoder, .console, .drive] = none :=
  (firstFailing_cons_of_passes he _).trans (pairPasses hc hd)

/-- Condition 2: every record's action is NOTICE. -/
def faultsReady (s : State) : Prop := ∀ x ∈ s.trip.faults, (s.response x.kind).action = .notice

theorem find_stopping_none {s : State} (h : faultsReady s) : (s.trip.faults.find? fun r => stopsDeparture s r.kind) = none :=
  List.find?_eq_none.mpr fun x hx => by simp [stopsDeparture, h x hx]

theorem find_stopping_append {s : State} {r : FaultRecord} {before after : List FaultRecord} (hf : s.trip.faults = before ++ r :: after)
    (hr : (s.response r.kind).action ≠ .notice) (hb : ∀ x ∈ before, (s.response x.kind).action = .notice) :
    (s.trip.faults.find? fun r => stopsDeparture s r.kind) = some r := by
  have hnone : (before.find? fun r => stopsDeparture s r.kind) = none :=
    List.find?_eq_none.mpr fun x hx => by simp [stopsDeparture, hb x hx]
  rw [hf, List.find?_append, hnone]
  simp [stopsDeparture, hr]

/-- Condition 5 for a car's source. -/
theorem carSourceOk_iff (s : State) (c : Car) : carSourceOk s c.positionRole = true ↔
    s.roleIn c.positionRole .sync = true ∨ s.roleIn c.positionRole .coast = true ∨
      (s.roleIn c.positionRole .lost = true ∧ (s.response c.positionLost).action = .notice) := by
  cases c <;> simp [carSourceOk, stopsDeparture, Car.positionRole, Car.positionLost, or_assoc]

/-! ## The first condition that fails -/

theorem notReady_invalid {s : State} (h : s.tables.valid = false) : notReady s = some (1, 0) := by simp [notReady, h]

theorem notReady_faults {s : State} {r : FaultRecord} (hv : s.tables.valid = true)
    (hf : (s.trip.faults.find? fun r => stopsDeparture s r.kind) = some r) : notReady s = some (2, r.kind.num) := by simp [notReady, hv, hf]

section Conditions

variable {s : State} (hv : s.tables.valid = true) (hf : faultsReady s)

include hv hf

theorem notReady_sources {i : Nat} (h : firstFailing s (fun r => s.roleIn r .sync) [.encoder, .console, .drive] = some i) :
    notReady s = some (3, i) := by simp [notReady, hv, find_stopping_none hf, h]

variable (hs : firstFailing s (fun r => s.roleIn r .sync) [.encoder, .console, .drive] = none)

include hs

theorem notReady_established (h : s.established = false) : notReady s = some (4, 0) := by
  simp [notReady, hv, find_stopping_none hf, hs, h]

variable (he : s.established = true)

include he

theorem notReady_cars {i : Nat} (h : firstFailing s (carSourceOk s) [.carAPosition, .carBPosition] = some i) : notReady s = some (5, i) := by
  simp [notReady, hv, find_stopping_none hf, hs, he, h]

variable (hc : firstFailing s (carSourceOk s) [.carAPosition, .carBPosition] = none)

include hc

theorem notReady_doors {i : Nat} (h : firstFailing s (doorsClosed s) [.carADoors, .carBDoors] = some i) : notReady s = some (6, i) := by
  simp [notReady, hv, find_stopping_none hf, hs, he, hc, h]

variable (hd : firstFailing s (doorsClosed s) [.carADoors, .carBDoors] = none)

include hd

/-- After the doors the inputs and the drive are judged (R85, conditions 7 and 8). -/
theorem notReady_inputs : notReady s =
    if s.trip.inputs.estop.qualified then some (7, 1) else if s.trip.inputs.otTop.qualified then some (7, 2)
    else if s.trip.inputs.otBottom.qualified then some (7, 3) else if !lastSays s .drive driveReady then some (8, 0) else none := by
  simp [notReady, hv, find_stopping_none hf, hs, he, hc, hd]

end Conditions

/-! ## The request -/

/-- A servable MAKE READY is its own service. -/
theorem exec_makeReady_of_servable {s : State} {src : Byte} (h : servable s src .makeReady) (p : PortId) :
    exec (.makeReady p src) s = .next (serveMakeReady s p src) := taken_of_servable_of_resp h p (by simp [serve])

theorem serveMakeReady_notReady {s : State} {reason detail : Nat} (hrun : s.leg.run = .safe) (h : notReady s = some (reason, detail))
    (p : PortId) (src : Byte) : serveMakeReady s p src = answered s p src 0x04 .notReady [byteOf reason, byteOf detail] := by
  simp only [serveMakeReady, h]
  exact if_neg (not_not.mpr hrun)

theorem serveMakeReady_ready {s : State} (hrun : s.leg.run = .safe) (h : notReady s = none) (p : PortId) (src : Byte) :
    serveMakeReady s p src = answered
      { s with
        leg := legAtRest s.leg .ready, trip := tripAtRest s.trip, lim := limAtRest s.lim
        portA := offered s .a (stateNotice s .ready .makeReady 0 s.leg.number) } p src 0x04 .done [] := by
  simp only [serveMakeReady, h, changeState_atRest (new := .ready) rfl (by decide)]
  exact if_neg (not_not.mpr hrun)

/-- Settles O25: the service is refused outside SAFE, and in SAFE the first condition that fails decides. -/
theorem makeReadyEntersReady : Obligations.MakeReadyEntersReady := by
  intro p src s h refused index carOk
  have hrefused {reason detail : Nat} (hrun : s.leg.run = .safe) (hn : notReady s = some (reason, detail)) :
      refused (byteOf reason) (byteOf detail) := by
    simp only [refused, exec_makeReady_of_servable h, serveMakeReady_notReady hrun hn]
  have hindex (r : Role) : byteOf (roleDetail s r) = index r := byteOf_roleDetail s r
  have hcarA : carSourceOk s .carAPosition = true ↔ carOk .a := carSourceOk_iff s .a
  have hcarB : carSourceOk s .carBPosition = true ↔ carOk .b := carSourceOk_iff s .b
  refine ⟨fun hrun hready => ?ready, fun hrun hv => hrefused hrun (notReady_invalid hv),
    fun r before after hrun hv hfaults hr hb => hrefused hrun (notReady_faults hv (find_stopping_append hfaults hr hb)),
    fun hrun hv hf => ⟨fun he => ?encoder, fun he hc => ?console, fun he hc hd => ?drive, fun he hc hd => ?rest⟩, fun hrun => ?state⟩
  case ready =>
    obtain ⟨hv, hf, ⟨he, hc, hd⟩, hest, hcars, ⟨hda, hdb⟩, ⟨hstop, htop, hbottom⟩, hdrive⟩ := hready
    have hnone : notReady s = none := by
      rw [notReady_inputs hv hf (sourcesPass he hc hd) hest (pairPasses (hcarA.mpr (hcars .a)) (hcarB.mpr (hcars .b))) (pairPasses hda hdb)]
      simp [hstop, htop, hbottom, hdrive]
    rw [exec_makeReady_of_servable h, serveMakeReady_ready hrun hnone]
  case encoder =>
    rw [← hindex]
    exact hrefused hrun (notReady_sources hv hf (firstFailing_cons_of_fails he _))
  case console =>
    rw [← hindex]
    exact hrefused hrun (notReady_sources hv hf ((firstFailing_cons_of_passes he _).trans (firstFailing_cons_of_fails hc _)))
  case drive =>
    rw [← hindex]
    exact hrefused hrun (notReady_sources hv hf
      ((firstFailing_cons_of_passes he _).trans ((firstFailing_cons_of_passes hc _).trans (firstFailing_cons_of_fails hd _))))
  case rest =>
    have hs := sourcesPass he hc hd
    refine ⟨fun hest => hrefused hrun (notReady_established hv hf hs hest), fun hest => ⟨fun ha => ?carA, fun ha hb => ?carB, fun ha hb => ?_⟩⟩
    case carA =>
      rw [← hindex]
      refine hrefused hrun (notReady_cars hv hf hs hest (firstFailing_cons_of_fails ?_ _))
      exact Bool.eq_false_iff.mpr (ha ∘ hcarA.mp)
    case carB =>
      rw [← hindex]
      refine hrefused hrun (notReady_cars hv hf hs hest
        ((firstFailing_cons_of_passes (hcarA.mpr ha) _).trans (firstFailing_cons_of_fails ?_ _)))
      exact Bool.eq_false_iff.mpr (hb ∘ hcarB.mp)
    have hcars := pairPasses (s := s) (hcarA.mpr ha) (hcarB.mpr hb)
    refine ⟨fun hda => ?doorA, fun hda hdb => ?doorB, fun hda hdb => ?_⟩
    case doorA =>
      rw [← hindex]
      exact hrefused hrun (notReady_doors hv hf hs hest hcars (firstFailing_cons_of_fails hda _))
    case doorB =>
      rw [← hindex]
      exact hrefused hrun (notReady_doors hv hf hs hest hcars
        ((firstFailing_cons_of_passes hda _).trans (firstFailing_cons_of_fails hdb _)))
    have hinputs := notReady_inputs hv hf hs hest hcars (pairPasses hda hdb)
    refine ⟨fun hstop => hrefused hrun (hinputs.trans (by simp [hstop])), fun hstop htop => hrefused hrun (hinputs.trans (by simp [hstop, htop])),
      fun hstop htop hbottom => hrefused hrun (hinputs.trans (by simp [hstop, htop, hbottom])),
      fun hstop htop hbottom hdrive => hrefused hrun (hinputs.trans (by simp [hstop, htop, hbottom, hdrive]))⟩
  case state =>
    rw [exec_makeReady_of_servable h, serveMakeReady, if_pos hrun]
    rfl

end Sys2Proof.Machine
end

