-- ==== Sys2Proof/Proofs/Services.lean ====
section
/-! PROOF. The answers before a request's own step, the reads of the Fault Set and the Stop Log, the maintenance sequence, TABLE WRITE and COMMIT
(R162, R165 to R169, R171, R174, R175, R181). -/

namespace Sys2Proof.Machine

/-! ## FAULTS READ and STOP LOG READ (R171) -/

theorem exec_faultsRead_of_servable {s : State} {src first form : Byte} (h : servable s src (.faultsRead first form)) (p : PortId) :
    exec (.faultsRead p src first form) s = .next (serveFaultsRead s p src first form) := taken_of_servable_of_resp h p (by simp [serve])

theorem exec_stopLogRead_of_servable {s : State} {src index : Byte} (h : servable s src (.stopLogRead index)) (p : PortId) :
    exec (.stopLogRead p src index) s = .next (serveStopLogRead s p src index) := taken_of_servable_of_resp h p (by simp [serve])

/-- The records from a kind onward. -/
def faultsFrom (s : State) (first : Byte) : List FaultRecord := s.trip.faults.filter fun r => decide (first.toNat ≤ r.kind.num)

theorem serveFaultsRead_badIndex {first form : Byte} (h : first.toNat < 1 ∨ 31 < first.toNat ∨ 1 < form.toNat) (s : State) (p : PortId)
    (src : Byte) : serveFaultsRead s p src first form = answered s p src 0x02 .badIndex [] := if_pos h

theorem serveFaultsRead_records {first form : Byte} (hlow : 1 ≤ first.toNat) (hhigh : first.toNat ≤ 31) (hform : form.toNat ≤ 1) (s : State)
    (p : PortId) (src : Byte) : serveFaultsRead s p src first form =
      answered s p src 0x02 .done (faultBytes (faultsFrom s first) (decide (form = 1))) := if_neg (by omega)

theorem faultBytes_short (records : List FaultRecord) : faultBytes records false =
    byteOf (min 8 records.length) :: (records.take 8).flatMap fun r => [byteOf r.kind.num, byteOf r.count, byteOf r.stateAtRaise.num] := by
  simp only [faultBytes, Config.shortFaults, List.length_take]
  rfl

theorem serveStopLogRead_record {s : State} {index : Byte} {r : StopRecord} (h : s.leg.log[index.toNat]? = some r) (p : PortId) (src : Byte) :
    serveStopLogRead s p src index = answered s p src 0x07 .done (stopRecordBytes r) := by
  simp only [serveStopLogRead, h]
  rfl

theorem serveStopLogRead_badIndex {s : State} {index : Byte} (h : s.leg.log.length ≤ index.toNat) (p : PortId) (src : Byte) :
    serveStopLogRead s p src index = answered s p src 0x07 .badIndex [] := by
  simp only [serveStopLogRead, List.getElem?_eq_none h]
  rfl

/-- Settles O22: the services of the two reads, by form and by index. -/
theorem faultsAndStopLogReadReportTheRecords : Obligations.FaultsAndStopLogReadReportTheRecords := by
  intro p src s
  refine ⟨fun first form h => ?faults, fun index h => ?stopLog⟩
  case faults =>
    intro records
    rw [exec_faultsRead_of_servable h]
    refine ⟨fun hbad => ?_, fun hlow hhigh hform => ?_, fun hlow hhigh hform => ⟨fun hnone => ?_, fun r rest hr => ?_⟩⟩
    · rw [serveFaultsRead_badIndex hbad]
    · subst hform
      rw [serveFaultsRead_records hlow hhigh (by decide), decide_eq_false (by decide), faultBytes_short]
      rfl
    · subst hform
      rw [serveFaultsRead_records hlow hhigh (by decide), show faultsFrom s first = [] from hnone]
      rfl
    · subst hform
      rw [serveFaultsRead_records hlow hhigh (by decide), show faultsFrom s first = r :: rest from hr]
      rfl
  case stopLog =>
    rw [exec_stopLogRead_of_servable h]
    exact ⟨fun r hr => by rw [serveStopLogRead_record hr], fun hl => by rw [serveStopLogRead_badIndex hl]⟩

/-! ## The answers before a request's own step (R165 to R167, R169) -/

/-- A freeze is written field by field. -/
theorem freeze_eq (s : State) : freeze s = { s with resp := { s.resp with seq := .frozen, requester := none, echo := none } } := rfl

theorem startUpBusy_of_ordinary {s : State} (h : ordinary s) (r : Request) : startUpBusy s r = false := by simp [startUpBusy, h.1, h.2]

/-- Out of PENDING a request goes through steps 4 to 6. -/
theorem takeRequest_of_not_pending {s : State} (ho : ordinary s) (hq : s.resp.seq ≠ .pending) (p : PortId) (src : Byte) (r : Request) :
    takeRequest s p src r = serveFrom s p src r := by
  rw [takeRequest, if_neg (by rw [startUpBusy_of_ordinary ho]; decide), if_neg hq]

theorem takeRequest_of_pending {s : State} (ho : ordinary s) (hq : s.resp.seq = .pending) (p : PortId) (src : Byte) (r : Request) :
    takeRequest s p src r = if confirmMatches s src r then completeEntry s p src r else serveFrom (freeze s) p src r := by
  rw [takeRequest, if_neg (by rw [startUpBusy_of_ordinary ho]; decide), if_pos hq]

/-- The matching confirm is MAINTENANCE CONFIRM from the requester with the echo. -/
theorem confirmMatches_eq_false {s : State} {src : Byte} {r : Request}
    (h : ∀ echo, r = .maintenanceConfirm echo → ¬(s.resp.requester = some src ∧ s.resp.echo = some echo)) : confirmMatches s src r = false := by
  cases r with
  | maintenanceConfirm echo => simpa [confirmMatches] using h echo rfl
  | _ => rfl

/-- Settles O30: a request that is not the matching confirm is served from the frozen state, as it is there. -/
theorem anyOtherRequestFreezesTheEntry : Obligations.AnyOtherRequestFreezesTheEntry := by
  intro p src r s ho hq hother
  rw [← freeze_eq, takeRequest_of_pending ho hq, confirmMatches_eq_false hother,
    takeRequest_of_not_pending (s := freeze s) ho (by simp [freeze])]
  rfl

theorem serveFrom_refusedSource {s : State} {src : Byte} {r : Request} (hc : r.stateChanging = true) (hs : ¬mayChangeState s src) (p : PortId) :
    serveFrom s p src r = answered s p src r.code .refusedSource [] := by
  have hallowed : sourceAllowed s src = false := by simpa [sourceAllowed] using hs
  rw [serveFrom, if_pos (by simp [hc, hallowed])]
  rfl

theorem serveFrom_busy {s : State} {src : Byte} {r : Request} (hc : r.stateChanging = true → mayChangeState s src) (hn : r.needsStore = true)
    (hop : s.resp.op ≠ .none) (p : PortId) : serveFrom s p src r = answered s p src r.code .busy [] := by
  have hallowed : (r.stateChanging && !sourceAllowed s src) = false := by
    cases hr : r.stateChanging
    · rfl
    · obtain h | h := hc hr <;> simp [sourceAllowed, h]
  rw [serveFrom, if_neg (by simp [hallowed]), if_pos (by simp [hn, (inFlight_eq_true_iff _).mpr hop])]
  rfl

/-- Settles O31: the form step, the start-up step, the source step and the store step, each with its answer. -/
theorem requestIsRefusedBeforeItsOwnStep : Obligations.RequestIsRefusedBeforeItsOwnStep := by
  refine ⟨fun p src payload s hf hr hparse => ?form, fun p src r s => ⟨fun hbusy hr => ?startUp, fun ho hq hc hs => ?source,
    fun ho hq hc hn hop => ?store⟩⟩
  case form =>
    change taken s (fun t => if parseRequest payload = none then answerUnknown t p src payload else t) none = _
    simp only [if_pos hparse]
    exact taken_frame (fun t => answerUnknown t p src payload) hf hr (by simp)
  case startUp =>
    have hb : startUpBusy s r = true := by
      simp only [startUpBusy, Bool.and_eq_true, Bool.or_eq_true, decide_eq_true_eq]
      exact ⟨hbusy, hr⟩
    rw [takeRequest, if_pos hb]
    rfl
  case source => rw [takeRequest_of_not_pending ho hq, serveFrom_refusedSource hc hs]
  case store => rw [takeRequest_of_not_pending ho hq, serveFrom_busy hc hn hop]

/-! ## The maintenance sequence (R168, R169) -/

theorem exec_maintenanceRequest_of_servable {s : State} {src : Byte} (h : servable s src .maintenanceRequest) (p : PortId) :
    exec (.maintenanceRequest p src) s = .next (serveMaintenanceRequest s p src) := by
  have ⟨⟨_, hrestart⟩, _⟩ := h
  refine taken_of_servable h p ?_
  simp only [serve, serveMaintenanceRequest]
  split
  · simpa using hrestart
  · split <;> simpa using hrestart

theorem enterMaintenance_eq (s : State) : enterMaintenance s = { s with
    leg := legAtRest s.leg .maintenance, trip := tripAtRest s.trip, lim := limAtRest s.lim
    resp := { s.resp with seq := .idle, requester := none, echo := none, staged := some s.tables.working }
    portA := offered s .a (stateNotice s .maintenance .maintenanceEntry 0 s.leg.number) } := by
  rw [enterMaintenance, changeState_atRest rfl (by decide)]
  rfl

/-- The matching confirm in SAFE enters MAINTENANCE before its reply. -/
theorem exec_maintenanceConfirm_of_match {s : State} {src : Byte} {echo : BitVec 16} (ho : ordinary s) (hq : s.resp.seq = .pending)
    (hr : s.resp.requester = some src) (he : s.resp.echo = some echo) (hrun : s.leg.run = .safe) (p : PortId) :
    exec (.maintenanceConfirm p src echo) s = .next (answered (enterMaintenance s) p src 0x0E .done []) := by
  have htake : takeRequest s p src (.maintenanceConfirm echo) = answered (enterMaintenance s) p src 0x0E .done [] := by
    rw [takeRequest_of_pending ho hq, if_pos (by simp [confirmMatches, hr, he]), completeEntry, if_pos hrun]
    rfl
  change taken s (fun t => takeRequest t p src (.maintenanceConfirm echo)) none = _
  rw [taken_next _ (by simp [ho.1])] <;> rw [htake]
  simp [answered, enterMaintenance, ho.2]

/-- Settles O29: the request by sequence and run state, the matching confirm, and any other confirm at its own step. -/
theorem maintenanceIsEnteredByRequestAndConfirm : Obligations.MaintenanceIsEnteredByRequestAndConfirm := by
  refine ⟨fun p src s h => ?request, fun p src echo s => ⟨fun ho hq hr he hrun => ?matching, fun h => ?other⟩⟩
  case request =>
    rw [exec_maintenanceRequest_of_servable h]
    refine ⟨fun hq => ?_, fun hq hrun => ?_, fun hq hrun => ?_⟩
    · rw [serveMaintenanceRequest, if_pos hq]
      rfl
    · rw [serveMaintenanceRequest, if_neg (by simp [hq]), if_pos hrun]
      rfl
    · rw [serveMaintenanceRequest, if_neg (by simp [hq]), if_neg (not_not.mpr hrun)]
      rfl
  case matching => rw [exec_maintenanceConfirm_of_match ho hq hr he hrun, enterMaintenance_eq]
  case other =>
    exact taken_of_servable_of_resp h p (by simp [serve, serveMaintenanceConfirm])

/-! ## TABLE WRITE (R7, R174) -/

theorem serveTableWrite_not_maintenance {s : State} (h : s.leg.run ≠ .maintenance) (p : PortId) (src t i : Byte) (e : List Byte) :
    serveTableWrite s p src t i e = answered s p src 0x0A .refusedState [] := if_pos h

theorem serveTableWrite_badIndex {s : State} {t i : Byte} (hr : s.leg.run = .maintenance) (hn : entryLength t.toNat i.toNat = none)
    (p : PortId) (src : Byte) (e : List Byte) : serveTableWrite s p src t i e = answered s p src 0x0A .badIndex [] :=
  (if_neg (not_not.mpr hr)).trans (if_pos hn)

theorem serveTableWrite_entry {s : State} {t i : Byte} {x : TableSet} (hr : s.leg.run = .maintenance) (hx : s.resp.staged = some x)
    (hn : (entryLength t.toNat i.toNat).isSome = true) (p : PortId) (src : Byte) (e : List Byte) :
    serveTableWrite s p src t i e =
      answered { s with resp := { s.resp with staged := some (writeEntry x t.toNat i.toNat e).1 } } p src 0x0A
        (if (writeEntry x t.toNat i.toNat e).2 then .doneClamped else .done) [] := by
  have hne : entryLength t.toNat i.toNat ≠ none := Option.isSome_iff_ne_none.mp hn
  refine (if_neg (not_not.mpr hr)).trans ((if_neg hne).trans ?_)
  rw [copyRead_staged hx]
  rfl

/-- A servable TABLE WRITE whose entry has the length its table and index name is its own service. -/
theorem exec_tableWrite_of_servable {s : State} {src t i : Byte} {e : List Byte} (h : servable s src (.tableWrite t i e))
    (hfits : entryFits t i e = true) (p : PortId) : exec (.tableWrite p src t i e) s = .next (serveTableWrite s p src t i e) := by
  have hparsed : parseRequest (requestPayload (.tableWrite t i e)) = some (.tableWrite t i e) := parseRequest_tableWrite hfits
  have htake : takePayload s p src (requestPayload (.tableWrite t i e)) = serveTableWrite s p src t i e := by
    rw [takePayload_of_parsed hparsed, takeRequest_of_servable h]
    rfl
  have ⟨⟨hp, hr⟩, _⟩ := h
  change taken s (fun u => takePayload u p src (requestPayload (.tableWrite t i e))) none = _
  rw [taken_next _ (by simp [hp])] <;> rw [htake]
  simp only [serveTableWrite]
  split
  · simpa using hr
  · split <;> simpa using hr

/-- Settles O32: the run state, the entry named, and the staged copy with that entry written. -/
theorem tableWriteReplacesTheStagedEntry : Obligations.TableWriteReplacesTheStagedEntry := by
  intro p src table index entry s h hfits
  rw [exec_tableWrite_of_servable h hfits]
  exact ⟨fun t hr hx hn => by rw [serveTableWrite_entry hr hx hn], fun hr hn => by rw [serveTableWrite_badIndex hr hn],
    fun hr => by rw [serveTableWrite_not_maintenance hr]⟩

/-! ## COMMIT at its acceptance (R175, R181) -/

/-- COMMIT makes no restart pending. -/
@[simp] theorem acceptCommit_restartPending (s : State) (p : PortId) (d : Byte) (t : TableSet) :
    (acceptCommit s p d t).resp.restartPending = s.resp.restartPending := by
  unfold acceptCommit
  dsimp only
  split
  · simp
  · split <;> simp [startBlock]

theorem exec_commit_of_servable {s : State} {src : Byte} (h : servable s src .commit) (p : PortId) :
    exec (.commit p src) s = .next (serveCommit s p src) := by
  have ⟨⟨_, hr⟩, _⟩ := h
  refine taken_of_servable h p ?_
  simp only [serve, serveCommit]
  split <;> simpa using hr

theorem serveCommit_staged {s : State} {t : TableSet} (hr : s.leg.run = .maintenance) (hx : s.resp.staged = some t) (p : PortId) (src : Byte) :
    serveCommit s p src = acceptCommit s p src t := by
  rw [serveCommit, if_neg (not_not.mpr hr), copyRead_staged hx]

/-- Settles O34: the checks, the wear of the store, and block 1 under way. -/
theorem commitStartsProgramming : Obligations.CommitStartsProgramming := by
  intro p src s h
  rw [exec_commit_of_servable h]
  refine ⟨fun hr => by rw [serveCommit, if_pos hr]; rfl, fun t hr hx => ?_⟩
  rw [serveCommit_staged hr hx]
  intro set
  refine ⟨fun table index hcheck => ?failed, fun hcheck hworn => ?worn, fun hcheck hcount => ?started⟩
  case failed =>
    simp only [acceptCommit, show checkSet s.straps.own (forceSubs t) = some (table, index) from hcheck]
    rfl
  case worn =>
    simp only [acceptCommit, show checkSet s.straps.own (forceSubs t) = none from hcheck, if_pos hworn]
    rfl
  case started =>
    simp only [acceptCommit, show checkSet s.straps.own (forceSubs t) = none from hcheck, if_neg hcount]
    rfl

end Sys2Proof.Machine
end

