-- ==== Sys2Proof/Proofs/TableWrites.lean ====
section
/-! PROOF. What a TABLE WRITE leaves of each table (R7 to R9, R12, R15, R21, R116). -/

namespace Sys2Proof.Machine

/-! ## Numbers clamped and numbers of members -/

theorem clampNat_eq (lo hi x : Nat) : clampNat lo hi x = if x < lo then lo else if hi < x then hi else x := rfl

theorem clampNat_eq_max_min {lo hi : Nat} (h : lo ≤ hi) (x : Nat) : clampNat lo hi x = max lo (min hi x) := by
  rw [clampNat_eq]
  split
  · omega
  · split <;> omega

theorem clampNat_zero (hi x : Nat) : clampNat 0 hi x = min hi x := by
  rw [clampNat_eq_max_min (Nat.zero_le hi), Nat.zero_max]

theorem role_ofNum (x : Nat) : (Role.ofNum x).num = min 8 x := by
  by_cases h : x < 8
  · interval_cases x <;> rfl
  · obtain ⟨m, rfl⟩ := Nat.exists_eq_add_of_le' (Nat.not_lt.mp h)
    exact (Nat.min_eq_left (Nat.le_add_left _ _)).symm

theorem segKind_ofNum (x : Nat) : (SegKind.ofNum x).num = min 2 x := by
  by_cases h : x < 2
  · interval_cases x <;> rfl
  · obtain ⟨m, rfl⟩ := Nat.exists_eq_add_of_le' (Nat.not_lt.mp h)
    exact (Nat.min_eq_left (Nat.le_add_left _ _)).symm

theorem action_ofNum (x : Nat) : (Action.ofNum x).num = min 2 x := by
  by_cases h : x < 2
  · interval_cases x <;> rfl
  · obtain ⟨m, rfl⟩ := Nat.exists_eq_add_of_le' (Nat.not_lt.mp h)
    exact (Nat.min_eq_left (Nat.le_add_left _ _)).symm

theorem car_ofNum (x : Nat) : (Car.ofNum x).num = min 1 x := by
  by_cases h : x < 1
  · interval_cases x
    rfl
  · obtain ⟨m, rfl⟩ := Nat.exists_eq_add_of_le' (Nat.not_lt.mp h)
    exact (Nat.min_eq_left (Nat.le_add_left _ _)).symm

/-! ## The Line Constants -/

theorem put_eq_build {n : Nat} (h1 : 1 ≤ n) (h28 : n ≤ 28) (c : LineConstants) (y : Nat) :
    c.put n y = LineConstants.build fun k => if k = n then y else c.get k := by interval_cases n <;> rfl

theorem get_of_no_field {n : Nat} (h : n = 0 ∨ 28 < n) (c : LineConstants) : c.get n = 0 := by
  have := get_build c.get n
  rw [if_pos h] at this
  exact this

theorem get_put {n : Nat} (h1 : 1 ≤ n) (h28 : n ≤ 28) (c : LineConstants) (y k : Nat) :
    (c.put n y).get k = if k = n then y else c.get k := by
  rw [put_eq_build h1 h28, get_build]
  split
  next h => rw [if_neg (by omega), get_of_no_field h]
  next => rfl

theorem lineLo_le_lineHi {vMax n : Nat} (h1 : 1 ≤ n) (h28 : n ≤ 28) (hv : 200 ≤ vMax) : lineLo n ≤ lineHi vMax n := by
  interval_cases n <;> simp only [lineLo, lineHi] <;> omega

theorem writeEntry_line (t : TableSet) (n : Nat) (bs : List Byte) : writeEntry t 1 n bs =
    ({ t with line := t.line.put n (lineClamp t.line.vMax n (field bs 0 3)) }, decide (lineClamp t.line.vMax n (field bs 0 3) ≠ field bs 0 3)) :=
  rfl

/-- The value a write leaves lies within the field's bounds. -/
theorem lineClamp_within {vMax n : Nat} (h1 : 1 ≤ n) (h28 : n ≤ 28) (hv : 200 ≤ vMax) (x : Nat) :
    lineLo n ≤ lineClamp vMax n x ∧ lineClamp vMax n x ≤ lineHi vMax n := by
  have hle := lineLo_le_lineHi h1 h28 hv
  unfold lineClamp
  split
  next h =>
    subst h
    split <;> simp [lineLo, lineHi]
  next => rw [clampNat_eq_max_min hle]; omega

/-! ## The Source Table, the Restriction Profile, the places and the responses -/

theorem writeEntry_source (t : TableSet) (i : Fin 16) (bs : List Byte) : writeEntry t 2 i.val bs =
    ({ t with sources := { t.sources with entries := t.sources.entries.set i (writeSource bs).1 } }, (writeSource bs).2) := by
  simp [writeEntry]

theorem writeEntry_segment (t : TableSet) (i : Fin 64) (bs : List Byte) : writeEntry t 3 i.val bs =
    ({ t with profile := { t.profile with segs := t.profile.segs.set i (writeSegment t.line.vMax bs).1 } },
      (writeSegment t.line.vMax bs).2) := by
  simp [writeEntry]

/-- A place table with one place written. -/
def setPlace (x : StopPlaces) (pl : Place) (e : PlaceEntry) : StopPlaces :=
  match pl with
  | .bottom => { x with bottom := e }
  | .loop => { x with loop := e }
  | .top => { x with top := e }

theorem setPlace_get (x : StopPlaces) (pl q : Place) (e : PlaceEntry) : (setPlace x pl e).get q = if q = pl then e else x.get q := by
  cases pl <;> cases q <;> rfl

theorem writeEntry_place (t : TableSet) (pl : Place) (bs : List Byte) :
    writeEntry t 4 pl.num bs = ({ t with places := setPlace t.places pl (writePlace bs).1 }, (writePlace bs).2) := by cases pl <;> rfl

theorem writeEntry_response (t : TableSet) (k : FaultKind) (bs : List Byte) :
    writeEntry t 5 k.num bs = ({ t with response := t.response.set k.idx (writeResponse k bs).1 }, (writeResponse k bs).2) := by
  have hlt : k.num - 1 < 31 := k.idx.isLt
  have hw : writeEntry t 5 k.num bs = ({ t with response := t.response.set (k.num - 1) (writeResponse (kindOfIndex k.num) bs).1 },
      (writeResponse (kindOfIndex k.num) bs).2) := dif_pos hlt
  rw [hw, kindOfIndex_num]
  rfl

theorem clampWindow_eq (w : Window) : clampWindow w = ⟨min 4000000 w.lo, min 4000000 w.nom, min 4000000 w.hi⟩ := by
  simp only [clampWindow, clampNat_zero]

theorem clampWindow_ne_iff (w : Window) : clampWindow w ≠ w ↔ 4000000 < w.lo ∨ 4000000 < w.nom ∨ 4000000 < w.hi := by
  obtain ⟨lo, nom, hi⟩ := w
  rw [clampWindow_eq, ne_eq, Window.mk.injEq]
  dsimp only
  omega

/-- A car's window as its nine bytes in a place's entry carry it. -/
def windowField (bs : List Byte) (c : Car) : Window :=
  ⟨field bs (9 * c.num) 3, field bs (9 * c.num + 3) 3, field bs (9 * c.num + 6) 3⟩

theorem windowOf_eq (bs : List Byte) : windowOf bs = windowField bs .a := rfl

theorem windowOf_drop (bs : List Byte) : windowOf (bs.drop 9) = windowField bs .b := by
  simp only [windowOf, field_drop]
  rfl

theorem writePlace_eq (bs : List Byte) : writePlace bs =
    (⟨clampWindow (windowField bs .a), clampWindow (windowField bs .b), Car.ofNum (field bs 18 1)⟩,
      decide (clampWindow (windowField bs .a) ≠ windowField bs .a) || decide (clampWindow (windowField bs .b) ≠ windowField bs .b) ||
        decide (1 < field bs 18 1)) := by
  rw [← windowOf_drop]
  rfl

/-- The action written is held at or above its kind's floor. -/
theorem writeResponse_action (k : FaultKind) (bs : List Byte) : (writeResponse k bs).1.action.num = max k.floor.num (min 2 (field bs 0 1)) := by
  have h : (writeResponse k bs).1.action =
      if (Action.ofNum (field bs 0 1)).num < k.floor.num then k.floor else Action.ofNum (field bs 0 1) := rfl
  rw [h, action_ofNum]
  split
  · omega
  · rw [action_ofNum]
    omega

/-- Settles O33: table by table, from the entry written. -/
theorem tableWritesAreClamped : Obligations.TableWritesAreClamped := by
  intro t bs
  refine ⟨fun n h1 h28 => ?line, fun i => ?source, ?sourceCount, fun i => ?segment, ?segmentCount, fun pl => ?place, fun k => ?response⟩
  case line =>
    intro x w
    have hget (k : Nat) : w.1.line.get k = if k = n then lineClamp t.line.vMax n x else t.line.get k := get_put h1 h28 _ _ _
    have hn : w.1.line.get n = lineClamp t.line.vMax n x := by rw [hget, if_pos rfl]
    rw [hn]
    refine ⟨fun h25 => ?_, fun h25 => ?_, fun hv => lineClamp_within h1 h28 hv x, fun k hk => by rw [hget, if_neg hk], ?_, rfl⟩
    · rw [lineClamp, if_neg h25, clampNat_eq]
    · rw [lineClamp, if_pos h25]
    · exact decide_eq_true_iff
  case source =>
    rw [writeEntry_source]
    intro w e
    have he : e = (writeSource bs).1 := by simp [e, w]
    have haddress : e.address = min 62 (field bs 0 1) := by rw [he]; exact clampNat_zero _ _
    have hrole : e.role.num = min 8 (field bs 1 1) := by rw [he]; exact role_ofNum _
    have htimeout : e.lateTimeout = max 5 (min 800 (field bs 2 2)) := by rw [he]; exact clampNat_eq_max_min (by decide) _
    have hsubs : e.maxSubs = min 7 (field bs 4 1) := by rw [he]; exact clampNat_zero _ _
    refine ⟨haddress, hrole, htimeout, hsubs, ?_, by rw [he]⟩
    rw [haddress, hrole, htimeout, hsubs]
    simp only [w, writeSource, Bool.or_eq_true, decide_eq_true_eq, clampNat_eq_max_min (show 5 ≤ 800 by decide)]
    omega
  case sourceCount =>
    rw [← clampNat_zero]
    rfl
  case segment =>
    rw [writeEntry_segment]
    intro w g limit
    have hg : g = (writeSegment t.line.vMax bs).1 := by simp [g, w]
    have hstart : g.start = min 4000000 (field bs 0 3) := by rw [hg]; exact clampNat_zero _ _
    have hlimit : g.limit = clampNat 100 t.line.vMax limit := by rw [hg]; rfl
    have hdecel : g.decel = max 200 (min 2000 (field bs 5 2)) := by rw [hg]; exact clampNat_eq_max_min (by decide) _
    have hkind : g.kind.num = min 2 (field bs 7 1) := by rw [hg]; exact segKind_ofNum _
    refine ⟨hstart, hlimit, hdecel, hkind, ?_, by rw [hg]⟩
    rw [hstart, hlimit, hdecel, hkind]
    simp only [w, writeSegment, Bool.or_eq_true, decide_eq_true_eq, clampNat_eq_max_min (show 200 ≤ 2000 by decide), limit]
    omega
  case segmentCount =>
    have hcount := clampNat_eq_max_min (show 1 ≤ 64 by decide) (field bs 0 1)
    have hw : writeEntry t 3 64 bs = ({ t with profile := { t.profile with count := clampNat 1 64 (field bs 0 1) } },
        decide (clampNat 1 64 (field bs 0 1) ≠ field bs 0 1)) := rfl
    rw [hw, hcount]
    congr 2
    rw [eq_iff_iff]
    omega
  case place =>
    rw [writeEntry_place]
    intro w e at'
    have he : e = (writePlace bs).1 := by simp [e, w, setPlace_get]
    have hwindow (c : Car) : (writePlace bs).1.window c = clampWindow (windowField bs c) := by
      rw [writePlace_eq]
      cases c <;> rfl
    refine ⟨fun c => ?_, ?_, ?_, fun q hq => ?_, rfl⟩
    · rw [he, hwindow, clampWindow_eq]
      rfl
    · rw [he, writePlace_eq]
      exact car_ofNum _
    · have hfields (c : Car) : clampWindow (windowField bs c) ≠ windowField bs c ↔
          4000000 < at' c 0 ∨ 4000000 < at' c 1 ∨ 4000000 < at' c 2 := clampWindow_ne_iff _
      simp only [w, writePlace_eq, Bool.or_eq_true, decide_eq_true_eq, hfields]
      refine or_congr_left ⟨fun h => h.elim (⟨.a, ·⟩) (⟨.b, ·⟩), fun ⟨c, hc⟩ => ?_⟩
      cases c
      · exact .inl hc
      · exact .inr hc
    · simp [w, setPlace_get, hq]
  case response =>
    rw [writeEntry_response]
    intro w e
    have he : e = (writeResponse k bs).1 := by simp [e, w, TableSet.responseOf]
    have haction : e.action.num = max k.floor.num (min 2 (field bs 0 1)) := by rw [he]; exact writeResponse_action k bs
    refine ⟨haction, by rw [he]; rfl, ?_, by rw [he]⟩
    rw [he]
    simp only [w, writeResponse, Bool.or_eq_true, decide_eq_true_eq]

end Sys2Proof.Machine
end

