-- ==== Sys2Proof/Proofs/Programming.lean ====
section
/-! PROOF. The end of a block under way in a COMMIT that does not complete with it, and the block reads of a VERIFY (R182, R185). -/

namespace Sys2Proof.Machine

/-! ## Outcomes -/

/-- A command of a part in ordinary service has its effect, and no restart falls due. -/
theorem exec_of_ordinary {s t : State} {c : Instr} (ho : ordinary s) (hc : isReset c = false) (h : effect c s = t)
    (hr : t.resp.restartPending = s.resp.restartPending) : exec c s = .next t := by
  subst h
  rw [exec_eq_taken hc]
  exact taken_next _ (by simp [ho.1]) (hr.trans ho.2)

/-! ## The end of a block (R182) -/

/-- Block 1 to 5 at its end holds its bytes in its place. -/
theorem holdBlock_of_block (t : Tables) {b : Fin 6} {k : Fin 5} (h : b.val = k.val + 1) (held : List Byte) :
    holdBlock t b held = { t with blocks := t.blocks.set k held, programming := none } := by
  unfold holdBlock
  rw [dif_neg (by omega)]
  simp [h]

theorem nextBlock_of_lt {b next : Fin 6} {k : Fin 5} (hb : b.val = k.val + 1) (h : next.val = k.val + 2) : nextBlock b = next := by
  have hne : b ≠ 5 := fun h5 => by
    have h5 : b.val = 5 := congrArg Fin.val h5
    omega
  refine (if_neg hne).trans (Fin.ext ?_)
  rw [Fin.val_add]
  change (b.val + 1) % 6 = next.val
  omega

theorem nextBlock_of_last {b : Fin 6} (h : b.val = 5) : nextBlock b = 0 := if_pos (Fin.ext h)

section
variable {s : State} {fault : Option (List Byte)} {pr : Programming} {dst : Byte} {p : PortId} {set : TableSet}

/-- Bytes that the block cannot hold are no event of the part (log 9, 32). -/
theorem blockProgrammed_impossible (hp : s.tables.programming = some pr) (hop : s.resp.op = .commit dst p set)
    (h : canHold s.tables pr (fault.getD pr.bytes) = false) : blockProgrammed s fault = s := by
  simp [blockProgrammed, hp, hop, h]

/-- A block read back as something else stops the COMMIT. -/
theorem blockProgrammed_failed (hp : s.tables.programming = some pr) (hop : s.resp.op = .commit dst p set)
    (hne : fault.getD pr.bytes ≠ pr.bytes) (h : canHold s.tables pr (fault.getD pr.bytes) = true) : blockProgrammed s fault =
      clearOp (answered (s.setTables (holdBlock s.tables pr.block (fault.getD pr.bytes))) p dst 0x0B .storeFault [byteOf pr.block.val]) := by
  simp only [blockProgrammed, hp, hop]
  rw [if_neg (by simp [h]), if_pos hne]
  rfl

/-- A block of 1 to 5 read back as written is followed by the next. -/
theorem blockProgrammed_goesOn (hp : s.tables.programming = some pr) (hop : s.resp.op = .commit dst p set)
    (heq : fault.getD pr.bytes = pr.bytes) (h0 : pr.block ≠ 0) : blockProgrammed s fault =
      startBlock (s.setTables (holdBlock s.tables pr.block pr.bytes)) set (nextBlock pr.block) := by
  simp only [blockProgrammed, hp, hop, heq]
  rw [if_neg (by simp), if_neg (by simp), if_neg h0]

/-- The header read back as written completes the COMMIT. -/
theorem blockProgrammed_completes (hp : s.tables.programming = some pr) (hop : s.resp.op = .commit dst p set)
    (heq : fault.getD pr.bytes = pr.bytes) (h0 : pr.block = 0) : blockProgrammed s fault =
      commitComplete (s.setTables (holdBlock s.tables 0 pr.bytes)) dst p set := by
  simp only [blockProgrammed, hp, hop, heq]
  rw [if_neg (by simp), if_neg (by simp), if_pos h0, h0]

end

/-- Settles O38: the four outcomes of the end of a block, the written block in its place. -/
theorem blockProgrammedGoesOnOrStops : Obligations.BlockProgrammedGoesOnOrStops := by
  intro s fault pr dst p set ho hp hop gen held
  refine ⟨fun k hk heq => ?goesOn, fun hne hleft => ?impossible, fun hne hleft => ?stops⟩
  case goesOn =>
    have h0 : pr.block ≠ 0 := fun h => by simp [h] at hk
    have hrun := blockProgrammed_goesOn hp hop heq h0
    rw [holdBlock_of_block s.tables hk] at hrun
    refine ⟨fun next hnext => exec_of_ordinary ho rfl ?_ rfl, fun hlast => exec_of_ordinary ho rfl ?_ rfl⟩
    · have hne : next ≠ 0 := fun h => by simp [h] at hnext
      refine hrun.trans ?_
      rw [nextBlock_of_lt hk hnext, startBlock, writtenBytes, if_neg hne]
      rfl
    · refine hrun.trans ?_
      rw [nextBlock_of_last (by rw [hk, hlast]; rfl)]
      rfl
  case impossible =>
    refine exec_of_ordinary ho rfl (blockProgrammed_impossible hp hop ?_) rfl
    rw [Bool.eq_false_iff, ne_eq, canHold_iff]
    exact not_or.mpr ⟨hne, hleft⟩
  case stops =>
    refine ⟨_, exec_of_ordinary ho rfl (blockProgrammed_failed hp hop hne ((canHold_iff _ _ _).mpr (.inr hleft))) (by simp [clearOp, answered]),
      ?_, ?_, ?_, by simp [clearOp, answered], by simp [clearOp, answered], by simp [clearOp, answered, holdBlock_working],
      by simp [clearOp, answered], by simp [clearOp, answered, holdBlock_commitCount], ?_, fun k => ?_, ?_⟩
    · cases p <;> rfl
    · cases p <;> rfl
    · intro part hpart
      cases p <;> cases part <;> simp at hpart <;> rfl
    · simpa [clearOp, answered] using holdBlock_header s.tables pr.block held
    · simpa [clearOp, answered] using holdBlock_block s.tables pr.block held k
    · simpa [clearOp, answered] using loadFails_of_left hleft

/-! ## The block reads of a VERIFY (R185) -/

theorem storeMatches_block (s : State) (k : Fin 5) :
    storeMatches s (k.val + 1) = blockMatches s.tables.header (k.val + 1) s.tables.blocks[k] :=
  dif_pos (show k.val + 1 - 1 < 5 by omega)

/-- A block read that is not the last of its range. -/
theorem verifyRead_goesOn {s : State} {dst : Byte} {p : PortId} {next last : Nat} {bad : List Nat}
    (hop : s.resp.op = .verify dst p next last bad) (h : next < last) {found : Bool} (hf : (!storeMatches s next) = found) :
    verifyRead s = { raiseIf s found .storeMismatch with
      resp := { s.resp with op := .verify dst p (next + 1) last (if found then bad ++ [next] else bad) } } := by
  have hresp : (raiseIf s found .storeMismatch).resp = s.resp := by simp
  simp only [verifyRead, hop, hf]
  rw [if_pos h, hresp]
  rfl

/-- The last block read of a range. -/
theorem verifyRead_ends {s : State} {dst : Byte} {p : PortId} {next last : Nat} {bad : List Nat}
    (hop : s.resp.op = .verify dst p next last bad) (h : last ≤ next) {found : Bool} (hf : (!storeMatches s next) = found) :
    verifyRead s = { answered (raiseIf s found .storeMismatch) p dst 0x0C .done
      [byteOf (verifyMask (if found then bad ++ [next] else bad))] with resp := { s.resp with op := .none } } := by
  have hresp : (raiseIf s found .storeMismatch).resp = s.resp := by simp
  simp only [verifyRead, hop, hf]
  rw [if_neg (by omega), verifyDone_eq, hresp]

/-- A kind raised has its record. -/
theorem raiseFault_holds (s : State) (k : FaultKind) : ∃ r ∈ (raiseFault s k).trip.faults, r.kind = k := by
  obtain ⟨hfaults, -⟩ := raiseFault_trip s k
  rw [hfaults]
  exact addFault_holds (newFault s k) _

/-- Settles O40: the two outcomes of a block read, the block judged by the header. -/
theorem verifyBlockReadJudgesTheBlock : Obligations.VerifyBlockReadJudgesTheBlock := by
  intro s dst p k last bad ho hop found judged bad'
  have hf : (!storeMatches s (k.val + 1)) = found := by rw [storeMatches_block]
  refine ⟨fun h => exec_of_ordinary ho rfl (verifyRead_goesOn hop h hf) rfl, fun h => exec_of_ordinary ho rfl (verifyRead_ends hop h hf) rfl,
    fun h => ?_, (raiseIf_frame s found .storeMismatch).2.2.2.2.1⟩
  simp only [judged, h, if_true]
  exact raiseFault_holds s _

end Sys2Proof.Machine
end

