-- ==== Sys2Proof/Proofs/Raising.lean ====
section
/-! PROOF. The raise of a fault whole: its record, its notices and its action (R84, R122 to R125). -/

namespace Sys2Proof.Machine

/-! ## The record (R122, R123) -/

theorem faultOf_cons (x : FaultRecord) (l : List FaultRecord) (k : FaultKind) :
    faultOf (x :: l) k = if x.kind = k then some x else faultOf l k := by
  unfold faultOf
  rw [List.find?_cons]
  by_cases h : x.kind = k <;> simp [h]

theorem faultOf_eq_none {l : List FaultRecord} {k : FaultKind} (h : ∀ r ∈ l, r.kind ≠ k) : faultOf l k = none := by
  simpa [faultOf] using h

/-- A kind with no record gets the record raised. -/
theorem addFault_new {new : FaultRecord} {l : List FaultRecord} (h : faultOf l new.kind = none) :
    faultOf (addFault new l) new.kind = some new := by
  induction l with
  | nil => simp [addFault, faultOf]
  | cons x l ih =>
    rw [faultOf_cons] at h
    have hx : x.kind ≠ new.kind := fun hk => by simp [hk] at h
    rw [if_neg hx] at h
    unfold addFault
    rw [if_neg hx]
    split
    · rw [faultOf_cons, if_pos rfl]
    · rw [faultOf_cons, if_neg hx, ih h]

/-- In a Fault Set in kind order a kind's record is counted once more. -/
theorem addFault_again {new r : FaultRecord} {l : List FaultRecord} (ho : (l.map fun r => r.kind.num).Pairwise (· < ·))
    (h : faultOf l new.kind = some r) : faultOf (addFault new l) new.kind = some { r with count := min 255 (r.count + 1) } := by
  induction l with
  | nil => simp [faultOf] at h
  | cons x l ih =>
    rw [List.map_cons, List.pairwise_cons] at ho
    obtain ⟨hfirst, ho⟩ := ho
    rw [faultOf_cons] at h
    unfold addFault
    split
    next hx =>
      rw [if_pos hx, Option.some.injEq] at h
      rw [faultOf_cons, ← h, if_pos hx]
    next hx =>
      rw [if_neg hx] at h
      have hlater : x.kind.num < new.kind.num := by
        have hmem : r ∈ l := List.mem_of_find?_eq_some h
        have hkind : r.kind = new.kind := by simpa using List.find?_some h
        rw [← hkind]
        exact hfirst _ (List.mem_map_of_mem hmem)
      rw [if_neg (by omega), faultOf_cons, if_neg hx, ih ho h]

/-! ## The action (R125) -/

theorem actionTarget_service_moving {r : RunState} (h : r = .depart ∨ r = .run ∨ r = .approach ∨ r = .creep) :
    actionTarget .service r = some .serviceStop := by
  rcases h with rfl | rfl | rfl | rfl <;> rfl

theorem actionTarget_emergency_energized {r : RunState} (h : (r = .depart ∨ r = .run ∨ r = .approach ∨ r = .creep) ∨ r = .serviceStop) :
    actionTarget .emergency r = some .emergencyStop := by
  rcases h with (rfl | rfl | rfl | rfl) | rfl <;> rfl

theorem actionTarget_standing {a : Action} {r : RunState} (ha : a ≠ .notice) (h : r = .ready ∨ r = .armed ∨ r = .halted) :
    actionTarget a r = some .safe := by
  cases a with
  | notice => exact absurd rfl ha
  | service => rcases h with rfl | rfl | rfl <;> rfl
  | emergency => rcases h with rfl | rfl | rfl <;> rfl

@[simp] theorem actionTarget_notice (r : RunState) : actionTarget .notice r = none := by cases r <;> rfl
@[simp] theorem actionTarget_emergencyStop (a : Action) : actionTarget a .emergencyStop = none := by cases a <;> rfl

/-- An action that moves the run state leaves it. -/
theorem actionTarget_ne {a : Action} {r new : RunState} (h : actionTarget a r = some new) : new ≠ r := by
  rintro rfl
  cases a <;> cases new <;> simp [actionTarget] at h

/-! ## The raise whole -/

/-- The first two steps of a raise: the record and, where the kind's notice is enabled, the notice (R123, R124). -/
def announced (s : State) (k : FaultKind) : State :=
  let t := recordFault s k
  if (s.response k).notice then notify t (faultNotice t k) else t

theorem raiseFault_eq (s : State) (k : FaultKind) : raiseFault s k = applyAction (announced s k) (s.response k).action k := rfl

theorem announced_eq (s : State) (k : FaultKind) :
    announced s k = { s with trip := (recordFault s k).trip, portA := (announced s k).portA } := by
  unfold announced
  dsimp only
  split <;> rfl

/-- The port of the notice of a raise. -/
theorem announced_portA (s : State) (k : FaultKind) :
    (announced s k).portA = if (s.response k).notice then offered s .a (.notice s.noticeAddress (.faultRaised k (s.response k).action
      s.leg.run (((faultOf (addFault (newFault s k) s.trip.faults) k).map (·.count)).getD 1) s.rMm s.aPos s.bPos)) else s.portA := by
  unfold announced
  dsimp only
  split <;> rfl

theorem announced_leg (s : State) (k : FaultKind) : (announced s k).leg = s.leg := by rw [announced_eq]

/-- A raise whose action moves nothing is its record and its notice. -/
theorem raiseFault_stays {s : State} {k : FaultKind} (h : actionTarget (s.response k).action s.leg.run = none) :
    raiseFault s k = announced s k := by
  rw [raiseFault_eq, applyAction, announced_leg, h]

/-- A raise that moves the run state changes it after its record and notice; a leg ARMED ends besides. -/
theorem raiseFault_changes {s : State} {k : FaultKind} {new : RunState} (h : actionTarget (s.response k).action s.leg.run = some new) :
    raiseFault s k = (if s.leg.run = .armed then endLeg (changeState (announced s k) new .fault k.num)
      else changeState (announced s k) new .fault k.num) := by
  rw [raiseFault_eq, applyAction, announced_leg, h]

/-- The outputs after a change of the run state (R134), and the ramp origin of an entry into SERVICE_STOP (R127). -/
theorem changeState_outputs (s : State) (new : RunState) (c : StateCause) (k : Nat) :
    (changeState s new c k).trip.den = new.energized ∧ (changeState s new c k).trip.sbr = new.energized ∧
    (changeState s new c k).trip.ebr = new.energized ∧
    (changeState s new c k).trip.ramp = if new = .serviceStop then some ⟨s.est.v, s.now⟩ else none := by
  obtain ⟨x, y, h⟩ := changeState_trip s new c k
  rw [h]
  exact ⟨rfl, rfl, rfl, rfl⟩

/-- What a raise that moves the run state brings. -/
theorem raiseFault_moves {s : State} {k : FaultKind} {new : RunState} (h : actionTarget (s.response k).action s.leg.run = some new) :
    (raiseFault s k).leg.run = new ∧ (raiseFault s k).trip.den = new.energized ∧ (raiseFault s k).trip.sbr = new.energized ∧
    (raiseFault s k).trip.ebr = new.energized ∧
    (raiseFault s k).trip.ramp = (if new = .serviceStop then some ⟨s.est.v, s.now⟩ else none) ∧
    (raiseFault s k).portA = (announced s k).portA.offer s.straps.own (stateNotice s new .fault k.num s.leg.number) := by
  have hrun : (raiseFault s k).leg.run = new := by rw [raiseFault_run, h, Option.getD_some]
  have hparts : (raiseFault s k).trip = (changeState (announced s k) new .fault k.num).trip ∧
      (raiseFault s k).portA = (changeState (announced s k) new .fault k.num).portA := by
    rw [raiseFault_changes h]
    split <;> simp
  obtain ⟨htrip, hport⟩ := hparts
  obtain ⟨hden, hsbr, hebr, hramp⟩ := changeState_outputs (announced s k) new .fault k.num
  rw [htrip, hport, changeState_portA]
  refine ⟨hrun, hden, hsbr, hebr, hramp.trans ?_, ?_⟩
  · rw [announced_eq]
  · rw [announced_eq]
    rfl

/-- Settles O49: the record, the action by the table of R125, and the notices in their order. -/
theorem raiseRecordsAndActs : Obligations.RaiseRecordsAndActs := by
  intro s k t moving standing a noticed changed
  have hfaults : t.trip.faults = addFault (newFault s k) s.trip.faults := (raiseFault_trip s k).1
  refine ⟨?_, fun r ho hr => ?_, fun hn => ?_, fun k' hk => ?_, fun ha hm => ?_, fun ha hm => ?_, fun ha hst => ?_, fun hno => ?_,
    fun count hcount => ?_, raiseFault_unchangedBut s k⟩
  · rw [hfaults]
    obtain ⟨r, hr, hk⟩ := addFault_holds (newFault s k) s.trip.faults
    rw [faultOf, List.find?_isSome]
    exact ⟨r, hr, by simpa [newFault] using hk⟩
  · rw [hfaults]
    exact addFault_again ho.1 hr
  · rw [hfaults]
    exact addFault_new (new := newFault s k) hn
  · rw [hfaults]
    exact addFault_other _ _ hk
  · have h : actionTarget (s.response k).action s.leg.run = some .serviceStop := by
      rw [show (s.response k).action = .service from ha, actionTarget_service_moving hm]
    obtain ⟨hrun, hden, -, -, hramp, -⟩ := raiseFault_moves h
    exact ⟨hrun, hden, hramp⟩
  · have h : actionTarget (s.response k).action s.leg.run = some .emergencyStop := by
      rw [show (s.response k).action = .emergency from ha, actionTarget_emergency_energized hm]
    obtain ⟨hrun, hden, hsbr, hebr, hramp, -⟩ := raiseFault_moves h
    exact ⟨hrun, hden, hsbr, hebr, hramp⟩
  · have h : actionTarget (s.response k).action s.leg.run = some .safe := actionTarget_standing ha hst
    exact ⟨(raiseFault_moves h).1, raiseFault_permit h .a, raiseFault_permit h .b⟩
  · have h : actionTarget (s.response k).action s.leg.run = none := by
      rcases hno with ha | ⟨ha, hr⟩ | hr | hr | hr
      · rw [show (s.response k).action = .notice from ha, actionTarget_notice]
      · rw [show (s.response k).action = .service from ha, hr]
        rfl
      · rw [hr, actionTarget_safe]
      · rw [hr, actionTarget_maintenance]
      · rw [hr, actionTarget_emergencyStop]
    obtain ⟨hleg, henv, hlim, hportB, -⟩ := raiseFault_of_no_target h
    exact ⟨hleg, henv, hlim, hportB⟩
  · have hsome : ((faultOf (addFault (newFault s k) s.trip.faults) k).map (·.count)).getD 1 = count := by
      rcases hcount with ⟨hn, rfl⟩ | ⟨ho, r, hr, rfl⟩
      · rw [show faultOf (addFault (newFault s k) s.trip.faults) k = _ from addFault_new (new := newFault s k) hn]
        rfl
      · rw [show faultOf (addFault (newFault s k) s.trip.faults) k = _ from addFault_again (new := newFault s k) ho.1 hr]
        rfl
    have hport : (announced s k).portA = noticed count := by rw [announced_portA, hsome]
    cases h : actionTarget (s.response k).action s.leg.run with
    | none => rw [if_pos (by simp [t, h]), ← hport, ← raiseFault_stays h]
    | some new =>
      obtain ⟨hrun, -, -, -, -, hA⟩ := raiseFault_moves h
      rw [if_neg (by rw [show t.leg.run = new from hrun]; exact actionTarget_ne h), hA, hport, ← hrun]

end Sys2Proof.Machine
end

