-- ==== Sys2Proof/Proofs/Following.lean ====
section
/-! PROOF. What follows a position update or a sample in the same step: the raises, the changes of the run state from a departure to a creep, the
target, the envelope and the door permits; and what they leave (R94 to R99, R102, R117 to R125). -/

namespace Sys2Proof.Machine

/-! ## The relation -/

/-- `Follows s t`: raises, passages of a leg under way, recomputations and writes of the leg's standing bring `s` to `t`. -/
inductive Follows : State → State → Prop
  | refl (s : State) : Follows s s
  | trans {s t u : State} : Follows s t → Follows t u → Follows s u
  | recomputes (s : State) : Follows s (recompute s)
  | legs {s : State} {l : Leg} (h : s.leg.SameStanding l) : Follows s (s.setLeg l)
  | permits (s : State) (c : Car) (x : Bool) : Follows s (setPermit s c x)
  | raises (s : State) (k : FaultKind) : Follows s (raiseFault s k)
  | passes {s : State} {new : RunState} (h : new = .run ∨ new = .approach ∨ new = .creep) (c : StateCause) (k : Nat) :
      Follows s (changeState s new c k)

theorem raiseIf_follows (s : State) (b : Bool) (k : FaultKind) : Follows s (raiseIf s b k) := by
  unfold raiseIf
  split
  · exact .raises s k
  · exact .refl s

theorem raises_follow (s : State) (l : List FaultKind) : Follows s (l.foldl raiseFault s) := by
  induction l generalizing s with
  | nil => exact .refl s
  | cons k l ih => exact (Follows.raises s k).trans (ih _)

theorem raiseInput_follows (s : State) (i : InputId) (x : Bool) : Follows s (raiseInput s i x) := by
  unfold raiseInput
  split
  · exact .raises s _
  · exact .refl s

theorem computeTarget_follows (s : State) : Follows s (s.setLeg (computeTarget s)) := .legs (computeTarget_standing s)

theorem frozenTarget_follows (s : State) : Follows s (s.setLeg { computeTarget s with frozen := true }) := by
  have h := computeTarget_standing s
  exact .legs ⟨h.run, h.haltPlace, h.brakeTimer, h.log, h.lastRecord, h.dra, h.drb⟩

theorem creepEntry_follows (s : State) : Follows s (creepEntry s) := by
  have h : Follows s (changeState (recompute (s.setLeg { computeTarget s with frozen := true })) .creep .creepDistance 0) :=
    ((frozenTarget_follows s).trans (.recomputes _)).trans (.passes (.inr (.inr rfl)) _ _)
  unfold creepEntry
  dsimp only
  split
  · exact h.trans (.raises _ _)
  · exact h.trans (raiseIf_follows _ _ _)

theorem testCreep_follows (s : State) : Follows s (testCreep s) := by
  unfold testCreep
  split
  · exact creepEntry_follows s
  · exact .refl s

theorem testPassages_follows (s : State) : Follows s (testPassages s) := by
  unfold testPassages
  split
  · split
    · exact (Follows.passes (.inr (.inl rfl)) _ _).trans (testCreep_follows _)
    · exact .refl s
  · split
    · exact testCreep_follows s
    · exact .refl s

theorem testBrakesOpen_follows (s : State) : Follows s (testBrakesOpen s) := by
  unfold testBrakesOpen
  split
  · exact (Follows.passes (.inl rfl) _ _).trans (testPassages_follows _)
  · exact .refl s

theorem setMismatch_follows (s : State) (c : Car) (x : Bool) : Follows s (setMismatch s c x) := by
  cases c <;> exact .legs ⟨rfl, rfl, .inl rfl, rfl, rfl, rfl, rfl⟩

theorem evaluatePermit_follows (s : State) (c : Car) : Follows s (evaluatePermit s c) := by
  unfold evaluatePermit
  split
  · dsimp only
    split
    · exact .permits s c _
    · exact (setMismatch_follows s c _).trans (.permits _ c _)
    · refine .trans ?_ (.permits _ c _)
      split
      · exact .refl s
      · exact (setMismatch_follows s c _).trans (.raises _ _)
    · exact .permits s c _
  · exact .refl s

theorem evaluatePermits_follows (s : State) : Follows s (evaluatePermits s) :=
  (evaluatePermit_follows s .a).trans (evaluatePermit_follows _ .b)

theorem legUpdate_follows (s : State) (u : Update) : Follows s (legUpdate s u) := by
  have hlatch : Follows s (if s.leg.run = .approach && decide (u = .carReport) then relatch s else s) := by
    split
    · exact (computeTarget_follows s).trans (.recomputes _)
    · exact .refl s
  have htests (t : State) : Follows t (if overruns t then raiseFault t .overrun else testPassages t) := by
    split
    · exact .raises t _
    · exact testPassages_follows t
  unfold legUpdate
  split
  · exact hlatch.trans (htests _)
  · exact hlatch.trans (htests _)
  · exact hlatch.trans (htests _)
  · exact evaluatePermits_follows s
  · exact .refl s

theorem positionUpdate_follows (s : State) (u : Update) : Follows s (positionUpdate s u) := by
  refine .trans (.recomputes s) (.trans ?_ (legUpdate_follows _ u))
  split
  · exact raises_follow _ _
  · exact .refl _

/-! ## What stands of the Trip Unit -/

/-- A kind has a record in the Fault Set. -/
def hasRecord (s : State) (k : FaultKind) : Prop := ∃ r ∈ s.trip.faults, r.kind = k

/-- The inputs and the sample timer stand, and every kind with a record keeps one. -/
structure TripStands (s t : State) : Prop where
  inputs : t.trip.inputs = s.trip.inputs
  slipUnderlying : t.trip.slipUnderlying = s.trip.slipUnderlying
  sampleTimer : t.trip.sampleTimer = s.trip.sampleTimer
  held : ∀ k, hasRecord s k → hasRecord t k

theorem TripStands.trans {s t u : State} (h : TripStands s t) (k : TripStands t u) : TripStands s u :=
  ⟨k.inputs.trans h.inputs, k.slipUnderlying.trans h.slipUnderlying, k.sampleTimer.trans h.sampleTimer,
    fun x hx => k.held x (h.held x hx)⟩

theorem TripStands.of_trip {s t : State} (h : t.trip = s.trip) : TripStands s t := by
  refine ⟨by rw [h], by rw [h], by rw [h], fun k hk => ?_⟩
  rw [hasRecord, h]
  exact hk

theorem raiseFault_tripStands (s : State) (k : FaultKind) : TripStands s (raiseFault s k) := by
  obtain ⟨hfaults, hinputs, hslip, htimer⟩ := raiseFault_trip s k
  refine ⟨hinputs, hslip, htimer, fun x hx => ?_⟩
  rw [hasRecord, hfaults]
  exact (addFault_kinds _ _ x).mpr (.inr hx)

theorem changeState_tripStands (s : State) (new : RunState) (c : StateCause) (k : Nat) : TripStands s (changeState s new c k) := by
  obtain ⟨x, y, h⟩ := changeState_trip s new c k
  refine ⟨by rw [h]; rfl, by rw [h]; rfl, by rw [h]; rfl, fun k hk => ?_⟩
  rw [hasRecord, h]
  exact hk

theorem Follows.tripStands {s t : State} (h : Follows s t) : TripStands s t := by
  induction h with
  | trans _ _ h k => exact h.trans k
  | raises s k => exact raiseFault_tripStands s k
  | passes _ c k => exact changeState_tripStands _ _ c k
  | _ => exact .of_trip (by simp)

theorem raiseFault_hasRecord (s : State) (k : FaultKind) : hasRecord (raiseFault s k) k := raiseFault_holds s k

/-- Each of the kinds raised one after another has its record. -/
theorem raises_hasRecord (s : State) {l : List FaultKind} {k : FaultKind} (h : k ∈ l) : hasRecord (l.foldl raiseFault s) k := by
  induction l generalizing s with
  | nil => simp at h
  | cons x l ih =>
    obtain rfl | h := List.mem_cons.mp h
    · exact (raises_follow _ l).tripStands.held _ (raiseFault_hasRecord s k)
    · exact ih _ h

/-! ## What stands of the frame, and of Port B -/

theorem Follows.frame {s t : State} (h : Follows s t) : t.tables = s.tables ∧ t.sources = s.sources ∧ t.est = s.est ∧
    unchangedBut [.leg, .trip, .env, .lim, .portA, .portB] s t := by
  induction h with
  | trans _ _ h k =>
    obtain ⟨ht, hs, he, hu⟩ := h
    obtain ⟨kt, ks, ke, ku⟩ := k
    exact ⟨kt.trans ht, ks.trans hs, ke.trans he, unchangedBut_mono (unchangedBut_trans hu ku) (by decide)⟩
  | _ =>
    refine ⟨by simp, by simp, by simp, fun part hpart => ?_⟩
    cases part <;> simp at hpart <;> simp [Part.same]

/-- The CONSOLE source is not LOST: no demand is generated at an entry into SERVICE_STOP (R146). -/
def consoleHeard (s : State) : Prop := s.roleIn .console .lost = false

theorem changeState_portB {s : State} {new : RunState} (h : new = .serviceStop → consoleHeard s) (c : StateCause) (k : Nat) :
    (changeState s new c k).portB = s.portB := by
  by_cases hnew : new = .serviceStop
  · have hlost : (notify (enterState s new) (.stateChanged s.leg.run new c k s.leg.number)).roleIn .console .lost = false := by
      rw [roleIn_congr (s := s) (by simp) (by simp)]
      exact h hnew
    simp [changeState, hlost]
  · rw [changeState_plain hnew]
    simp

theorem raiseFault_portB {s : State} (h : consoleHeard s) (k : FaultKind) : (raiseFault s k).portB = s.portB := by
  cases ht : actionTarget (s.response k).action s.leg.run with
  | none => exact (raiseFault_of_no_target ht).2.2.2.1
  | some new =>
    have hann : (changeState (announced s k) new .fault k.num).portB = s.portB := by
      rw [changeState_portB (fun _ => (roleIn_congr (s := s) (by rw [announced_eq]) (by rw [announced_eq]) _ _).trans h), announced_eq]
    rw [raiseFault_changes ht]
    split
    · rw [← hann]
      simp
    · exact hann

theorem Follows.portB {s t : State} (h : Follows s t) (hc : consoleHeard s) : t.portB = s.portB := by
  induction h with
  | trans h _ ih ik =>
    obtain ⟨ht, hs, -⟩ := h.frame
    exact (ik ((roleIn_congr ht hs _ _).trans hc)).trans (ih hc)
  | raises s k => exact raiseFault_portB hc k
  | passes h c k => exact changeState_portB (by rintro rfl; simp at h) c k
  | _ => simp

/-! ## A leg that has left its departure -/

/-- The run state is past ARMED and DEPART, and the brake-release timer is stopped. -/
def departed (s : State) : Prop := s.leg.run ≠ .armed ∧ s.leg.run ≠ .depart ∧ s.leg.brakeTimer = none

theorem departed_of_legInState {s t : State} {new : RunState} (ha : new ≠ .armed) (hd : new ≠ .depart) (h : t.leg = legInState s new) :
    departed t := by
  rw [departed, h]
  exact ⟨ha, hd, if_neg hd⟩

theorem actionTarget_departs {a : Action} {r new : RunState} (h : actionTarget a r = some new) : new ≠ .armed ∧ new ≠ .depart := by
  cases a <;> cases r <;> simp [actionTarget] at h <;> subst h <;> decide

theorem Follows.departed {s t : State} (h : Follows s t) : departed s → departed t := by
  induction h with
  | refl => exact id
  | trans _ _ h k => exact k ∘ h
  | recomputes => exact id
  | permits s c x => cases c <;> exact id
  | legs h =>
    rintro ⟨ha, hd, ht⟩
    refine ⟨by simpa [h.run] using ha, by simpa [h.run] using hd, ?_⟩
    obtain hb | hb := h.brakeTimer
    · exact hb.trans ht
    · exact hb
  | raises s k =>
    intro hs
    cases ht : actionTarget (s.response k).action s.leg.run with
    | none =>
      rw [Machine.departed, (raiseFault_of_no_target ht).1]
      exact hs
    | some new =>
      obtain ⟨ha, hd⟩ := actionTarget_departs ht
      exact departed_of_legInState ha hd (raiseFault_leg ht hs.1)
  | passes h c k =>
    intro _
    exact departed_of_legInState (by rintro rfl; simp at h) (by rintro rfl; simp at h) (changeState_leg _ _ c k)

/-- Both brake inputs open take a leg out of DEPART. -/
theorem testBrakesOpen_departs {s : State} (h : s.leg.run = .depart) (hS : s.trip.inputs.brkS.qualified = true)
    (hE : s.trip.inputs.brkE.qualified = true) : departed (testBrakesOpen s) := by
  rw [testBrakesOpen, if_pos (by simp [h, hS, hE])]
  exact (testPassages_follows _).departed (departed_of_legInState (by decide) (by decide) (changeState_leg s .run _ _))

theorem testBrakesOpen_closed {s : State} (h : s.leg.run ≠ .depart ∨ s.trip.inputs.brkS.qualified = false ∨
    s.trip.inputs.brkE.qualified = false) : testBrakesOpen s = s := by
  rw [testBrakesOpen, if_neg]
  simp only [Bool.and_eq_true, decide_eq_true_eq]
  rintro ⟨⟨hd, hS⟩, hE⟩
  simp [hd, hS, hE] at h

end Sys2Proof.Machine
end

