-- ==== Sys2Proof/Proofs/Commit.lean ====
section
/-! PROOF. The completion of a COMMIT: the working copy, the lists, the Source Records, the Position Estimator and the reply (R44, R60, R79, R183). -/

namespace Sys2Proof.Machine

/-! ## Offsets within the stretch limit -/

theorem clampMag_eq (m : Nat) (x : Int) : clampMag m x = max (-(m : Int)) (min m x) := by
  unfold clampMag
  split
  next => omega
  next => split <;> omega

@[simp] theorem clampMag_zero (m : Nat) : clampMag m 0 = 0 := by rw [clampMag_eq]; omega

/-! ## The Position Estimator's part (R60) -/

theorem activateEstimator_est (s : State) (old : LineConstants) : (activateEstimator s old).est = activatedEstimate s old := by
  simp [activateEstimator]

theorem activatedEstimate_degraded (s : State) (old : LineConstants) :
    activatedEstimate s old = { activatedEstimate s old with degraded := carLost s } := rfl

theorem activatedEstimate_eq (s : State) (old : LineConstants) : activatedEstimate s old = { s.est with
    real := min s.est.real (s.line.lineLength * 1000)
    offA := max (-(s.line.stretchLimit : Int)) (min s.line.stretchLimit s.est.offA)
    offB := if old.ropeSum = s.line.ropeSum then max (-(s.line.stretchLimit : Int)) (min s.line.stretchLimit s.est.offB) else 0
    offBSet := decide (old.ropeSum = s.line.ropeSum) && s.est.offBSet, agedB := decide (old.ropeSum = s.line.ropeSum) && s.est.agedB
    degraded := carLost s } := by
  unfold activatedEstimate heldOffset
  dsimp only
  by_cases h : old.ropeSum = s.line.ropeSum
  · simp [h, clampMag_eq]
  · simp only [h, decide_false, if_false, clampMag_zero, Bool.false_eq_true]
    simp [clampMag_eq]

/-- An offset past the new stretch limit is raised, and the update that follows leaves the record. -/
theorem activateEstimator_raises {s : State} {old : LineConstants} (h : s.line.stretchLimit < s.est.offA.natAbs ∨
    (old.ropeSum = s.line.ropeSum ∧ s.line.stretchLimit < s.est.offB.natAbs)) : hasRecord (activateEstimator s old) .stretchLimit := by
  refine (positionUpdate_follows _ _).tripStands.held _ ?_
  obtain hA | ⟨hk, hB⟩ := h
  · refine (raiseIf_follows _ _ _).tripStands.held _ ?_
    simp only [raiseIf, overStretch, hA, decide_true, if_true]
    exact raiseFault_hasRecord _ _
  · simp only [overStretch, hk, hB, decide_true, Bool.and_self, raiseIf, if_true]
    exact raiseFault_hasRecord _ _

/-- A raise in MAINTENANCE moves nothing. -/
theorem raiseIf_maintenance {s : State} (h : s.leg.run = .maintenance) (b : Bool) (k : FaultKind) :
    (raiseIf s b k).leg = s.leg ∧ (raiseIf s b k).env = s.env ∧ (raiseIf s b k).lim = s.lim ∧ (raiseIf s b k).portB = s.portB := by
  unfold raiseIf
  split
  · obtain ⟨hleg, henv, hlim, hportB, -⟩ := raiseFault_of_no_target (s := s) (k := k) (by rw [h, actionTarget_maintenance])
    exact ⟨hleg, henv, hlim, hportB⟩
  · exact ⟨rfl, rfl, rfl, rfl⟩

/-- A recomputation repeated forms the same envelope. -/
theorem formEnvelope_recompute (s : State) : formEnvelope (recompute s) = formEnvelope s := rfl

theorem positionUpdate_maintenance {s : State} (h : s.leg.run = .maintenance) {u : Update} (hu : u ≠ .speed) :
    positionUpdate s u = recompute s := by
  simp only [positionUpdate, if_neg hu, legUpdate]
  rw [show (recompute s).leg.run = .maintenance from h]

theorem activateEstimator_maintenance {s : State} (h : s.leg.run = .maintenance) (old : LineConstants) :
    (activateEstimator s old).leg = s.leg ∧ (activateEstimator s old).lim = s.lim ∧ (activateEstimator s old).portB = s.portB ∧
    (activateEstimator s old).env = formEnvelope (activateEstimator s old) := by
  unfold activateEstimator
  dsimp only
  generalize hx : s.setEst (activatedEstimate s old) = x
  obtain ⟨hleg, hlim, hportB⟩ : x.leg = s.leg ∧ x.lim = s.lim ∧ x.portB = s.portB := by subst hx; simp
  obtain ⟨hleg1, -, hlim1, hportB1⟩ := raiseIf_maintenance (s := x) (by rw [hleg, h]) (overStretch s.line s.est.offA) .stretchLimit
  generalize raiseIf x (overStretch s.line s.est.offA) .stretchLimit = y at *
  obtain ⟨hleg2, -, hlim2, hportB2⟩ := raiseIf_maintenance (s := y) (by rw [hleg1, hleg, h])
    (decide (old.ropeSum = s.line.ropeSum) && overStretch s.line s.est.offB) .stretchLimit
  generalize raiseIf y (decide (old.ropeSum = s.line.ropeSum) && overStretch s.line s.est.offB) .stretchLimit = z at *
  rw [positionUpdate_maintenance (by rw [hleg2, hleg1, hleg, h]) (by decide), formEnvelope_recompute]
  exact ⟨hleg2.trans (hleg1.trans hleg), hlim2.trans (hlim1.trans hlim), hportB2.trans (hportB1.trans hportB), rfl⟩

/-! ## The set in force (R183) -/

/-- The part with a committed set in force, before the Position Estimator takes it. -/
def setInForce (s : State) (set : TableSet) : State :=
  activateSources (takeSet (s.setTables { s.tables with commitCount := s.tables.commitCount + 1 }) set) s.tables.working.sources s.tables.valid

theorem commitActivate_eq (s : State) (set : TableSet) :
    commitActivate s set = activateEstimator (setInForce s set) s.tables.working.line := rfl

theorem setInForce_tables (s : State) (set : TableSet) : (setInForce s set).tables =
    { s.tables with commitCount := s.tables.commitCount + 1, working := set, valid := true } := by simp [setInForce, takeSet]

theorem setInForce_frame (s : State) (set : TableSet) : (setInForce s set).est = s.est ∧ (setInForce s set).leg = s.leg ∧
    (setInForce s set).lim = s.lim ∧ (setInForce s set).portB = s.portB := by simp [setInForce]

theorem setInForce_lists (s : State) (set : TableSet) : (setInForce s set).env.uphill = uphillList set.profile.inUse ∧
    (setInForce s set).env.downhill = downhillList set.profile.inUse := by simp [setInForce, takeSet, deriveLists]

theorem setInForce_record (s : State) (set : TableSet) (i : Fin 16) : (setInForce s set).record i =
    comparedRecord s.tables.working.sources s.tables.valid set.sources i (s.record i) := by
  rw [setInForce, activateSources_record]
  simp [takeSet, State.record]

theorem commitActivate_tables (s : State) (set : TableSet) : (commitActivate s set).tables =
    { s.tables with commitCount := s.tables.commitCount + 1, working := set, valid := true } := by
  rw [commitActivate_eq, ← setInForce_tables]
  simp

theorem commitActivate_record (s : State) (set : TableSet) (i : Fin 16) : (commitActivate s set).record i =
    comparedRecord s.tables.working.sources s.tables.valid set.sources i (s.record i) := by
  rw [commitActivate_eq, ← setInForce_record]
  exact record_congr (by simp) i

theorem commitActivate_lists (s : State) (set : TableSet) : (commitActivate s set).env.uphill = uphillList set.profile.inUse ∧
    (commitActivate s set).env.downhill = downhillList set.profile.inUse := by
  obtain ⟨hup, hdown⟩ := activateEstimator_lists (setInForce s set) s.tables.working.line
  obtain ⟨hu, hd⟩ := setInForce_lists s set
  exact ⟨hup.trans hu, hdown.trans hd⟩

theorem commitActivate_est (s : State) (set : TableSet) : (commitActivate s set).est =
    { activatedEstimate (setInForce s set) s.tables.working.line with degraded := carLost (commitActivate s set) } := by
  have hlost : carLost (commitActivate s set) = carLost (setInForce s set) := carLost_congr (by simp [commitActivate_eq]) (by simp [commitActivate_eq])
  rw [hlost, commitActivate_eq, activateEstimator_est]
  exact activatedEstimate_degraded _ _

/-- A record is kept, restarted or made dormant by its old and new entries (R44). -/
theorem comparedRecord_cases (old : SourceTable) (v : Bool) (new : SourceTable) (i : Fin 16) (r : SourceRecord) :
    let wasIn := v = true ∧ i.val < old.count
    let isIn := i.val < new.count
    let same := old.entries[i] = new.entries[i]
    let kept := comparedRecord old v new i r
    (isIn ∧ wasIn ∧ same → kept = r) ∧ (isIn ∧ ¬(wasIn ∧ same) → kept = SourceRecord.fresh SourceCounters.zero) ∧
    (¬isIn ∧ wasIn → kept = { r with timer := none }) ∧ (¬isIn ∧ ¬wasIn → kept = r) := by
  simp only [comparedRecord, restartedRecord, Bool.and_eq_true, decide_eq_true_eq]
  refine ⟨fun ⟨hi, hw, hs⟩ => ?_, fun ⟨hi, hn⟩ => ?_, fun ⟨hi, hw⟩ => ?_, fun ⟨hi, hw⟩ => ?_⟩
  · rw [if_pos hi, if_pos ⟨hw, hs⟩]
  · rw [if_pos hi, if_neg hn]
  · rw [if_neg hi, if_pos hw]
  · rw [if_neg hi, if_neg hw]

/-- Settles O39: the completion is the activation of the set and its reply. -/
theorem commitCompletionActivatesTheSet : Obligations.CommitCompletionActivatesTheSet := by
  intro s pr dst p set ho hp h0 hop old wasIn isIn same sameRope within
  generalize hs' : s.setTables (holdBlock s.tables 0 pr.bytes) = s'
  have hresp : s'.resp = s.resp := by subst hs'; rfl
  have htables : s'.tables = { s.tables with header := pr.bytes, programming := none } := by subst hs'; rfl
  have hest : s'.est = s.est := by subst hs'; rfl
  have hleg : s'.leg = s.leg := by subst hs'; rfl
  have hlim : s'.lim = s.lim := by subst hs'; rfl
  have hportB : s'.portB = s.portB := by subst hs'; rfl
  have hframe : s'.phase = s.phase ∧ s'.now = s.now ∧ s'.straps = s.straps := by subst hs'; exact ⟨rfl, rfl, rfl⟩
  have hsources : s'.sources = s.sources := by subst hs'; rfl
  let u := commitActivate s' set
  have hu : u = commitActivate s' set := rfl
  have hutables : u.tables = { s.tables with
      header := pr.bytes, programming := none, commitCount := s.tables.commitCount + 1, working := set, valid := true } := by
    rw [hu, commitActivate_tables, htables]
  have huresp : u.resp = s.resp := by simp [hu, hresp]
  let t : State := { answered u p dst 0x0B .done (toBytes 2 (s.tables.commitCount + 1).toNat) with resp := { s.resp with op := .none } }
  have hframeT : t.tables = u.tables ∧ t.sources = u.sources ∧ t.est = u.est ∧ t.env = u.env ∧ t.leg = u.leg ∧ t.trip = u.trip ∧
      t.lim = u.lim ∧ t.phase = u.phase ∧ t.now = u.now ∧ t.straps = u.straps := by simp [t, answered]
  obtain ⟨htT, hsT, heT, hvT, hlT, htrT, hliT, hpT, hnT, hstT⟩ := hframeT
  have heffect : effect (.blockProgrammed none) s = t := by
    change blockProgrammed s none = t
    rw [blockProgrammed_completes hp hop rfl h0, hs']
    change clearOp (answered u p dst 0x0B .done (toBytes 2 u.tables.commitCount.toNat)) = t
    rw [hutables]
    exact clearOp_of_resp (by simp [answered, huresp])
  have hinForce : (setInForce s' set).line = set.line ∧ (setInForce s' set).est = s.est ∧ s'.tables.working = old := by
    refine ⟨?_, ?_, by rw [htables]⟩
    · rw [State.line, setInForce_tables]
    · rw [(setInForce_frame s' set).1, hest]
  obtain ⟨hline, hestF, hold⟩ := hinForce
  refine ⟨t, exec_of_ordinary ho rfl heffect rfl, by rw [htT, hutables], rfl, by rw [hvT]; exact (commitActivate_lists s' set).1,
    by rw [hvT]; exact (commitActivate_lists s' set).2, fun i => ?record, ?est, fun hover => ?raised, fun hm => ?rest,
    by rw [hpT, hu, (commitActivate_frame s' set).2.1, hframe.1], by rw [hnT, hu, (commitActivate_frame s' set).2.2.1, hframe.2.1],
    by rw [hstT, hu, (commitActivate_frame s' set).2.2.2.1, hframe.2.2], u, rfl, fun hm => ?portB⟩
  case record =>
    have hrec : t.record i = comparedRecord old.sources s.tables.valid set.sources i (s.record i) := by
      rw [record_congr hsT, hu, commitActivate_record, hold, htables, record_congr hsources]
    rw [hrec]
    exact comparedRecord_cases old.sources s.tables.valid set.sources i (s.record i)
  case est =>
    have hlost : carLost u = (t.roleIn .carAPosition .lost || t.roleIn .carBPosition .lost) := (carLost_congr htT hsT).symm
    rw [heT, hu, commitActivate_est, ← hu, hlost, activatedEstimate_eq, hline, hestF, hold]
  case raised =>
    change hasRecord t .stretchLimit
    rw [hasRecord, htrT]
    refine activateEstimator_raises (s := setInForce s' set) (old := s'.tables.working.line) ?_
    rw [hline, hestF, hold]
    exact hover
  case rest =>
    obtain ⟨-, hlegF, hlimF, -⟩ := setInForce_frame s' set
    obtain ⟨hlegU, hlimU, -, henvU⟩ := activateEstimator_maintenance (s := setInForce s' set) (by rw [hlegF, hleg, hm]) s'.tables.working.line
    refine ⟨?_, by rw [hlT]; exact hlegU.trans (hlegF.trans hleg), by rw [hliT]; exact hlimU.trans (hlimF.trans hlim)⟩
    rw [hvT, formEnvelope_congr htT heT (by rw [hlT]) (by rw [hlT]) (by rw [hlT]) hvT]
    exact henvU
  case portB =>
    obtain ⟨-, hlegF, -, hportF⟩ := setInForce_frame s' set
    obtain ⟨-, -, hportU, -⟩ := activateEstimator_maintenance (s := setInForce s' set) (by rw [hlegF, hleg, hm]) s'.tables.working.line
    exact hportU.trans (hportF.trans hportB)

end Sys2Proof.Machine
end

