-- ==== Sys2Proof/Proofs/Judgements.lean ====
section
/-! PROOF. The speed tests, the judgement of samples, and the expiries of the brake-release timer and of the slip blanking timer (R94, R117 to R121,
R133). -/

namespace Sys2Proof.Machine

/-! ## Raises in a row -/

theorem raiseIf_true {s : State} {b : Bool} (h : b = true) (k : FaultKind) : raiseIf s b k = raiseFault s k := by rw [raiseIf, if_pos h]
theorem raiseIf_false {s : State} {b : Bool} (h : b = false) (k : FaultKind) : raiseIf s b k = s := by simp [raiseIf, h]

theorem energized_iff (r : RunState) :
    r.energized = true ↔ (r = .depart ∨ r = .run ∨ r = .approach ∨ r = .creep) ∨ r = .serviceStop := by cases r <;> simp [RunState.energized]

theorem motion_iff (r : RunState) : r.motion = true ↔ r = .depart ∨ r = .run ∨ r = .approach ∨ r = .creep := by
  cases r <;> simp [RunState.motion]

/-- The part stands in EMERGENCY_STOP with its outputs de-energized. -/
def tripped (s : State) : Prop := s.leg.run = .emergencyStop ∧ s.trip.den = false

theorem raiseFault_tripped {s : State} (h : tripped s) (k : FaultKind) : tripped (raiseFault s k) := by
  obtain ⟨hrun, hden⟩ := h
  obtain ⟨hleg, -, -, -, htrip⟩ := raiseFault_of_no_target (s := s) (k := k) (by rw [hrun, actionTarget_emergencyStop])
  refine ⟨by rw [hleg, hrun], ?_⟩
  rw [htrip]
  exact hden

theorem raises_tripped {s : State} (h : tripped s) (l : List FaultKind) : tripped (l.foldl raiseFault s) := by
  induction l generalizing s with
  | nil => exact h
  | cons k l ih => exact ih (raiseFault_tripped h k)

/-- A raise leaves an energized part energized or takes it to EMERGENCY_STOP, and there it does by the action EMERGENCY. -/
theorem raiseFault_energized {s : State} (h : s.leg.run.energized = true) (k : FaultKind) :
    tripped (raiseFault s k) ∨ (s.response k).action ≠ .emergency ∧ (raiseFault s k).leg.run.energized = true := by
  cases ha : (s.response k).action with
  | notice => exact .inr ⟨by decide, by simpa [ha] using h⟩
  | service =>
    refine .inr ⟨by decide, ?_⟩
    rw [raiseFault_run, ha]
    obtain hm | hs := (energized_iff _).mp h
    · rw [actionTarget_service_moving hm]
      rfl
    · rw [hs]
      rfl
  | emergency =>
    have htarget : actionTarget (s.response k).action s.leg.run = some .emergencyStop := by
      rw [ha, actionTarget_emergency_energized ((energized_iff _).mp h)]
    obtain ⟨hrun, hden, -⟩ := raiseFault_moves htarget
    exact .inl ⟨hrun, hden⟩

/-- Among kinds raised in an energized state one whose action is EMERGENCY trips the part. -/
theorem raises_emergency {s : State} {l : List FaultKind} (h : s.leg.run.energized = true)
    (hk : ∃ k ∈ l, (s.response k).action = .emergency) : tripped (l.foldl raiseFault s) := by
  induction l generalizing s with
  | nil => simp at hk
  | cons x l ih =>
    obtain htripped | ⟨hx, henergized⟩ := raiseFault_energized h x
    · exact raises_tripped htripped l
    · obtain ⟨k, hk, ha⟩ := hk
      obtain rfl | hk := List.mem_cons.mp hk
      · exact absurd ha hx
      · exact ih henergized ⟨k, hk, by rw [response_congr (s := s) (by simp), ha]⟩

/-! ## What the tests find (R117, R119 to R121) -/

theorem envelopeKind_toList (s : State) : (envelopeKind s).toList =
    if s.env.e + s.line.emergencyMargin < s.est.v then [.overspeedEmergency]
    else if s.env.e + s.line.serviceMargin < s.est.v then [.overspeedService]
    else if s.env.e + s.line.warnMargin < s.est.v then [.overspeedWarning] else [] := by
  unfold envelopeKind
  split
  · rfl
  · split
    · rfl
    · split <;> rfl

theorem rampKind_toList (s : State) : (rampKind s).toList =
    if min s.env.e (s.rampCeiling.getD 0) + s.line.emergencyMargin < s.est.v then [.overspeedEmergency] else [] := by
  unfold rampKind
  split <;> rfl

theorem speedFindings_eq (s : State) : speedFindings s =
    (let absolute : List FaultKind := if s.line.vTrip < s.est.v then [.absoluteOverspeed] else []
    match s.leg.run with
    | .depart | .run | .approach | .creep => absolute ++
      (if s.env.e + s.line.emergencyMargin < s.est.v then [.overspeedEmergency]
        else if s.env.e + s.line.serviceMargin < s.est.v then [.overspeedService]
        else if s.env.e + s.line.warnMargin < s.est.v then [.overspeedWarning] else []) ++
      (if s.line.stationaryThreshold < s.est.v ∧ s.est.dir ≠ s.leg.dir then [.wrongWay] else [])
    | .serviceStop => absolute ++
      if min s.env.e (s.rampCeiling.getD 0) + s.line.emergencyMargin < s.est.v then [.overspeedEmergency] else []
    | .emergencyStop => absolute
    | .safe | .ready | .armed | .halted | .maintenance => absolute ++
      if s.line.stationaryThreshold < s.est.v then [.uncommandedMotion] else []) := by
  have hwrong : (if decide (s.line.stationaryThreshold < s.est.v) && decide (s.est.dir ≠ s.leg.dir) then [FaultKind.wrongWay] else []) =
      if s.line.stationaryThreshold < s.est.v ∧ s.est.dir ≠ s.leg.dir then [.wrongWay] else [] := by
    simp only [Bool.and_eq_true, decide_eq_true_eq]
  have hmoved : (if decide (s.line.stationaryThreshold < s.est.v) then [FaultKind.uncommandedMotion] else []) =
      if s.line.stationaryThreshold < s.est.v then [.uncommandedMotion] else [] := by
    simp only [decide_eq_true_eq]
  cases hrun : s.leg.run <;> simp only [speedFindings, hrun, envelopeKind_toList, rampKind_toList, hwrong, hmoved]

/-- Settles O50: the kinds found by run state, raised in a row; and the three kinds of sample. -/
theorem speedAndSamplesAreJudged : Obligations.SpeedAndSamplesAreJudged := by
  constructor
  case left =>
    intro s v absolute envelope wrong ceiling ramp moved found
    have hfound : speedTests s = found.foldl raiseFault s := congrArg (List.foldl raiseFault s) (speedFindings_eq s)
    rw [hfound]
    exact ⟨rfl, fun k hk => raises_hasRecord s hk, fun he hk => raises_emergency he hk⟩
  case right =>
    intro s f openDoor tension slack stopped
    have hdoors (h : openDoor) : judgeDoors s f.payload = raiseFault s .doorOpenInMotion := raiseIf_true (by simpa [doorOpen] using h) _
    have hshut (h : ¬openDoor) : judgeDoors s f.payload = s := raiseIf_false (by simpa [openDoor, doorOpen] using h) _
    have hslack : raiseIf s (decide (tensionOf f.payload < s.line.tensionMin) && s.leg.run.motion) .slackRope = slack := by
      simp only [raiseIf, Bool.and_eq_true, decide_eq_true_eq]
      rfl
    refine ⟨fun r hr => ⟨fun h => ?_, fun h => ?_⟩, fun h => ?_, fun h => ?_, fun h => ?_, fun h => ?_⟩
    · obtain rfl | rfl := hr
      · exact hdoors h
      · exact hdoors h
    · obtain rfl | rfl := hr
      · exact hshut h
      · exact hshut h
    · change judgeTension s f.payload = _
      rw [judgeTension, hslack]
      exact raiseIf_true (decide_eq_true h) _
    · change judgeTension s f.payload = _
      rw [judgeTension, hslack]
      exact raiseIf_false (decide_eq_false (Nat.not_lt.mpr h)) _
    · exact raiseIf_true (by simpa [driveReady] using h) _
    · exact raiseIf_false (by simpa [stopped, driveReady] using h) _

/-! ## The brake-release timer (R94) -/

theorem exec_brakeReleaseTimerExpiry {s : State} (ho : ordinary s) (h : timerDue s.now s.leg.brakeTimer = true) :
    exec .brakeReleaseTimerExpiry s = .next (brakeReleaseExpiry s) :=
  exec_of_ordinary ho rfl (if_pos h) (by rw [(brakeReleaseExpiry_reacts s).resp])

/-- Settles O44: the raise of BRAKE_RELEASE_TIMEOUT with the timer stopped. -/
theorem brakeReleaseExpiryEndsDeparture : Obligations.BrakeReleaseExpiryEndsDeparture := by
  intro s ho hdue hrun
  generalize hs' : s.setLeg { s.leg with brakeTimer := none } = s'
  have hexpiry : brakeReleaseExpiry s = raiseFault s' .brakeReleaseTimeout := by
    rw [brakeReleaseExpiry, hs', raiseIf_true (decide_eq_true hrun)]
  have hresponse : s'.response .brakeReleaseTimeout = s.response .brakeReleaseTimeout := by subst hs'; rfl
  have hleg : s'.leg = { s.leg with brakeTimer := none } := by subst hs'; rfl
  have hrun' : s'.leg.run = .depart := by rw [hleg, hrun]
  have hparts : unchangedBut [.leg, .trip, .lim, .env, .portA, .portB] s s' := by
    subst hs'
    intro part hpart
    cases part <;> simp at hpart <;> rfl
  have hstill : (raiseFault s' .brakeReleaseTimeout).leg.brakeTimer = none ∧ (raiseFault s' .brakeReleaseTimeout).leg.active = s.leg.active := by
    cases h : actionTarget (s'.response .brakeReleaseTimeout).action s'.leg.run with
    | none => rw [(raiseFault_of_no_target h).1, hleg]; exact ⟨rfl, rfl⟩
    | some new =>
      rw [raiseFault_leg h (by rw [hrun']; decide)]
      exact ⟨if_neg (by rw [← hrun']; exact actionTarget_ne h), by rw [legInState, hleg]⟩
  obtain ⟨-, -, -, hrStar, -, -, -, -, hlog, -⟩ := raiseFault_legKept s' .brakeReleaseTimeout
  refine ⟨_, exec_brakeReleaseTimerExpiry ho hdue, ?_⟩
  rw [hexpiry]
  refine ⟨raiseFault_holds s' _, hstill.1, fun ha => ?_, fun ha => ?_, by rw [hrStar, hleg], hstill.2, by rw [hlog, hleg],
    unchangedBut_mono (unchangedBut_trans hparts (raiseFault_unchangedBut _ _)) (by decide)⟩
  · obtain ⟨hnew, hden, -, -, hramp, -⟩ := raiseFault_moves (s := s') (k := .brakeReleaseTimeout) (new := .serviceStop) (by
      rw [hresponse, ha, hrun']; rfl)
    refine ⟨hnew, hden, hramp.trans ?_⟩
    subst hs'
    rfl
  · obtain ⟨hnew, hden, -⟩ := raiseFault_moves (s := s') (k := .brakeReleaseTimeout) (new := .emergencyStop) (by
      rw [hresponse, ha, hrun']; rfl)
    exact ⟨hnew, hden⟩

/-! ## The slip blanking timer (R133) -/

theorem exec_slipBlankingTimerExpiry {s : State} (ho : ordinary s) (h : timerDue s.now s.trip.slipTimer = true) :
    exec .slipBlankingTimerExpiry s = .next (releaseSlip s) :=
  exec_of_ordinary ho rfl (if_pos h) (by rw [(releaseSlip_reacts s).resp])

/-- A transition of SLIP is its value and its raise. -/
theorem transition_slip (s : State) (x : Bool) : transition s .slip x = raiseInput (setQualified s .slip x) .slip x := rfl

theorem raiseInput_slip_raises {s : State} (h : s.leg.run.motion = true) : raiseInput s .slip true = raiseFault s .ropeSlip := by
  simp [raiseInput, inputKind, h]

theorem raiseInput_slip_none {s : State} {x : Bool} (h : x = false ∨ s.leg.run.motion = false) : raiseInput s .slip x = s := by
  have hkind : inputKind .slip x s.leg.run = none := by
    obtain rfl | h := h
    · rfl
    · cases x <;> simp [inputKind, h]
  rw [raiseInput, hkind]

/-- The part with its slip blanking timer stopped and its qualified SLIP value released to the underlying value. -/
def slipReleased (s : State) : State :=
  setQualified (s.setTrip { s.trip with slipTimer := none }) .slip s.trip.slipUnderlying

theorem releaseSlip_steady {s : State} (h : s.trip.inputs.slip.qualified = s.trip.slipUnderlying) :
    releaseSlip s = s.setTrip { s.trip with slipTimer := none } := if_pos h

theorem releaseSlip_turns {s : State} (h : s.trip.inputs.slip.qualified ≠ s.trip.slipUnderlying) :
    releaseSlip s = raiseInput (slipReleased s) .slip s.trip.slipUnderlying := if_neg h

/-- Settles O46: without a transition the timer alone is written; with one the value, and the raise in a motion state. -/
theorem slipBlankingExpiryReleasesTheValue : Obligations.SlipBlankingExpiryReleasesTheValue := by
  intro s ho hdue
  have hexec := exec_slipBlankingTimerExpiry ho hdue
  refine ⟨fun h => by rw [hexec, releaseSlip_steady h]; rfl, fun h => ⟨_, hexec, ?_⟩⟩
  rw [releaseSlip_turns h]
  have hinputs := (raiseInput_follows (slipReleased s) .slip s.trip.slipUnderlying).tripStands.inputs
  have hreleased : unchangedBut [.trip] s (slipReleased s) := by
    intro part hpart
    cases part <;> simp at hpart <;> rfl
  refine ⟨by rw [hinputs]; rfl, by rw [hinputs]; rfl,
    unchangedBut_mono (unchangedBut_trans hreleased (raiseInput_follows _ _ _).frame.2.2.2) (by decide), fun hx hm => ?_, fun hno => ?_⟩
  · rw [hx, raiseInput_slip_raises (s := slipReleased s) hm]
    exact raiseFault_holds _ _
  · rw [raiseInput_slip_none (s := slipReleased s) hno]
    exact ⟨hreleased, rfl, rfl⟩

end Sys2Proof.Machine
end

