-- ==== Sys2Proof/Proofs/Envelopes.lean ====
section
/-! PROOF. The envelopes of one recomputation: the per-car envelopes, the target envelope and the system envelope (R68 to R75). -/

namespace Sys2Proof.Machine

/-! ## Least values -/

/-- A fold of minima is the least of the values and its start. -/
theorem foldl_min_least (l : List Nat) (a : Nat) :
    l.foldl min a ≤ a ∧ (∀ x ∈ l, l.foldl min a ≤ x) ∧ (l.foldl min a = a ∨ l.foldl min a ∈ l) := by
  induction l generalizing a with
  | nil => simp
  | cons y l ih =>
    obtain ⟨hle, hall, hmem⟩ := ih (min a y)
    rw [List.foldl_cons]
    refine ⟨by omega, fun x hx => ?_, ?_⟩
    · obtain rfl | hx := List.mem_cons.mp hx
      · omega
      · exact hall x hx
    · obtain heq | hmem := hmem
      · rw [heq]
        obtain h | h := min_choice a y
        · exact .inl h
        · exact .inr (by rw [h]; exact List.mem_cons_self)
      · exact .inr (List.mem_cons_of_mem _ hmem)

/-! ## The per-car envelope (R69, R70) -/

theorem climbs_iff (d : Dir) (c : Car) : climbs d c = true ↔ (d = .up ∧ c = .a) ∨ (d = .down ∧ c = .b) := by
  cases d <;> cases c <;> simp [climbs]

/-- A restriction point lies ahead of a car. -/
def pointAhead (s : State) (c : Car) (x : Point) : Prop :=
  if climbs s.leg.dir c = true then s.carPos c ≤ x.chainage else x.chainage ≤ s.carPos c

/-- The braking curve of a car toward a restriction point. -/
def towardPoint (s : State) (c : Car) (x : Point) : Nat :=
  curve s.line.vMax x.speed (if climbs s.leg.dir c = true then x.chainage - s.carPos c else s.carPos c - x.chainage) x.decel
    s.line.brakingMargin

/-- The Restriction List of a car. -/
def pointsOf (s : State) (c : Car) : List Point := if climbs s.leg.dir c = true then s.env.uphill else s.env.downhill

/-- The limit of the segment a car stands in. -/
def segmentLimit (s : State) (c : Car) : Nat := (s.tables.working.profile.at (s.carPos c)).limit

theorem pointCurve_eq_some (s : State) (c : Car) (x : Point) (v : Nat) :
    pointCurve s.line (climbs s.leg.dir c) (s.carPos c) x = some v ↔ pointAhead s c x ∧ towardPoint s c x = v := by
  unfold pointCurve pointAhead towardPoint
  by_cases h : climbs s.leg.dir c = true
  · simp only [h, if_true]
    split <;> simp_all
  · simp only [h]
    split <;> simp_all

theorem carEnvelope_idle {s : State} (h : s.leg.active = false) (c : Car) : carEnvelope s c = segmentLimit s c :=
  if_neg (by simp [h])

theorem carEnvelope_active {s : State} (h : s.leg.active = true) (c : Car) : carEnvelope s c =
    ((pointsOf s c).filterMap (pointCurve s.line (climbs s.leg.dir c) (s.carPos c))).foldl min (segmentLimit s c) :=
  if_pos h

theorem carEnvelope_le_limit (s : State) (c : Car) : carEnvelope s c ≤ segmentLimit s c := by
  by_cases h : s.leg.active = true
  · rw [carEnvelope_active h]
    exact (foldl_min_least _ _).1
  · rw [carEnvelope_idle (by simpa using h)]

theorem carEnvelope_le_toward {s : State} (h : s.leg.active = true) {c : Car} {x : Point} (hx : x ∈ pointsOf s c) (ha : pointAhead s c x) :
    carEnvelope s c ≤ towardPoint s c x := by
  rw [carEnvelope_active h]
  exact (foldl_min_least _ _).2.1 _ (List.mem_filterMap.mpr ⟨x, hx, (pointCurve_eq_some s c x _).mpr ⟨ha, rfl⟩⟩)

theorem carEnvelope_attained {s : State} (h : s.leg.active = true) (c : Car) :
    carEnvelope s c = segmentLimit s c ∨ ∃ x ∈ pointsOf s c, pointAhead s c x ∧ carEnvelope s c = towardPoint s c x := by
  rw [carEnvelope_active h]
  obtain heq | hmem := (foldl_min_least ((pointsOf s c).filterMap (pointCurve s.line (climbs s.leg.dir c) (s.carPos c)))
    (segmentLimit s c)).2.2
  · exact .inl heq
  · obtain ⟨x, hx, hv⟩ := List.mem_filterMap.mp hmem
    obtain ⟨ha, hv⟩ := (pointCurve_eq_some s c x _).mp hv
    exact .inr ⟨x, hx, ha, hv.symm⟩

/-! ## The target envelope (R72 to R74) -/

theorem remaining_eq (s : State) : s.remaining = if s.leg.dir = .up then (s.leg.rStar : Int) - s.rMm else (s.rMm : Int) - s.leg.rStar := by
  unfold State.remaining
  split
  next h => rw [if_pos h]
  next h => rw [if_neg (by simp [h])]

theorem targetEnvelope_far {lc : LineConstants} {d : Int} (h : (lc.creepDistance : Int) < d) : targetEnvelope lc d =
    min (curve lc.vMax 0 d.toNat lc.aStop 0) (curve lc.vMax lc.creepSpeed (d - lc.creepDistance).toNat lc.aStop 0) := by
  rw [targetEnvelope, if_pos h]
  congr 2
  omega

theorem targetEnvelope_near {lc : LineConstants} {d : Int} (h : d ≤ lc.creepDistance) (h0 : 0 < d) :
    targetEnvelope lc d = min lc.creepSpeed (isqrt (2 * lc.aStop * d.toNat)) := by
  rw [targetEnvelope, if_neg (by omega), if_pos h0]

theorem targetEnvelope_past {lc : LineConstants} {d : Int} (h : d ≤ 0) : targetEnvelope lc d = 0 := by
  rw [targetEnvelope, if_neg (by omega), if_neg (by omega)]

/-! ## The system envelope (R75) -/

/-- The values E is the least of. -/
def envelopeTerms (s : State) : List Nat :=
  [carEnvelope s .a, carEnvelope s .b, s.line.vMax] ++ (formEnvelope s).eT.toList ++ (if s.est.degraded then [s.line.vDegraded] else [])

theorem formEnvelope_eT (s : State) :
    (formEnvelope s).eT = if s.leg.active then some (targetEnvelope s.line s.remaining) else none := rfl

theorem formEnvelope_least (s : State) : (∀ x ∈ envelopeTerms s, (formEnvelope s).e ≤ x) ∧ (formEnvelope s).e ∈ envelopeTerms s := by
  unfold envelopeTerms formEnvelope
  generalize carEnvelope s .a = a
  generalize carEnvelope s .b = b
  generalize s.line.vMax = m
  generalize s.line.vDegraded = g
  cases s.leg.active with
  | false => cases s.est.degraded <;> simp <;> omega
  | true =>
    generalize targetEnvelope s.line s.remaining = e
    cases s.est.degraded <;> simp <;> omega

/-- Settles O48: the least of the terms, each car's envelope the least of its own, the target envelope by its zone. -/
theorem systemEnvelopeIsTheLeast : Obligations.SystemEnvelopeIsTheLeast := by
  intro s t terms braking climbing points ahead toward limit own left
  obtain ⟨hleast, hmem⟩ := formEnvelope_least s
  have hclimb (c : Car) : climbing c ↔ climbs s.leg.dir c = true := (climbs_iff s.leg.dir c).symm
  have hpoints (c : Car) : points c = pointsOf s c := by simp only [points, pointsOf, hclimb]
  have hahead (c : Car) (x : Point) : ahead c x ↔ pointAhead s c x := by simp only [ahead, pointAhead, hclimb]
  have htoward (c : Car) (x : Point) : toward c x = towardPoint s c x := by simp only [toward, towardPoint, hclimb]; rfl
  have hown (c : Car) : own c = carEnvelope s c := by cases c <;> rfl
  have hleft : left = s.remaining := (remaining_eq s).symm
  have heT (h : s.leg.active = true) : t.env.eT = some (targetEnvelope s.line left) := by
    rw [hleft]
    exact (formEnvelope_eT s).trans (if_pos h)
  refine ⟨hleast, hmem, ?_, hleast _ (by simp [envelopeTerms]), fun c => ?_, ?_, fun c => ⟨?_, fun h => ?_, fun h => ⟨fun x hx ha => ?_, ?_⟩⟩,
    fun h => ⟨fun hfar => ?_, fun hnear h0 => ?_, fun hpast => ?_⟩, rfl, rfl⟩
  · change (formEnvelope s).eT.isSome = true ↔ _
    rw [formEnvelope_eT]
    cases s.leg.active <;> simp
  · refine (hleast (carEnvelope s c) ?_).trans (carEnvelope_le_limit s c)
    cases c <;> simp [envelopeTerms]
  · intro part hpart
    cases part <;> simp at hpart <;> rfl
  · rw [hown]
    exact carEnvelope_le_limit s c
  · rw [hown]
    exact carEnvelope_idle h c
  · rw [hown, htoward]
    exact carEnvelope_le_toward h (hpoints c ▸ hx) ((hahead c x).mp ha)
  · rw [hown, hpoints]
    simp only [hahead, htoward]
    exact carEnvelope_attained h c
  · rw [heT h, targetEnvelope_far hfar]
    rfl
  · rw [heT h, targetEnvelope_near hnear h0]
  · rw [heT h, targetEnvelope_past hpast]

end Sys2Proof.Machine
end

