-- ==== Sys2Proof/Proofs/Estimation.lean ====
section
/-! PROOF. Encoder samples and substitutes, and the reports of the two cars (R49 to R58, R61, R62). -/

namespace Sys2Proof.Machine

/-! ## The encoder (R49 to R52) -/

theorem countDelta_eq (old new : BitVec 24) : countDelta old new =
    if (new.toNat + 16777216 - old.toNat) % 16777216 < 8388608 then (((new.toNat + 16777216 - old.toNat) % 16777216 : Nat) : Int)
    else (((new.toNat + 16777216 - old.toNat) % 16777216 : Nat) : Int) - 16777216 := by
  have hold := old.isLt
  have hsub : (new - old).toNat = (new.toNat + 16777216 - old.toNat) % 16777216 := by
    rw [BitVec.toNat_sub]
    omega
  rw [countDelta, BitVec.toInt_eq_toNat_cond, hsub]
  split <;> split <;> omega

theorem timeDelta_eq (old new : BitVec 16) : timeDelta old new = (new.toNat + 65536 - old.toNat) % 65536 := by
  have hold := old.isLt
  rw [timeDelta, BitVec.toNat_sub]
  omega

theorem signed_eq (d : Dir) (x : Nat) : signed d x = (if d = .up then 1 else -1) * (x : Int) := by
  cases d <;> simp [signed]

/-- A speed update goes to the Envelope Unit, the speed tests and the Leg Controller in this order (R61). -/
theorem positionUpdate_speed (s : State) : positionUpdate s .speed = legUpdate (speedTests (recompute s)) .speed := rfl

theorem positionUpdate_est (s : State) (u : Update) : (positionUpdate s u).est = s.est := (positionUpdate_follows s u).frame.2.2.1

/-- Settles O18: the estimator of each of the three updates, and the update handed on. -/
theorem encoderSampleMovesTheRopeCoordinate : Obligations.EncoderSampleMovesTheRopeCoordinate := by
  intro s timer handedOn sign
  have htimer (v : Nat) : stationaryTimer s v = timer v := rfl
  have hhanded (e : Estimator) : positionUpdate (s.setEst e) .speed = handedOn e ∧ (positionUpdate (s.setEst e) .speed).est = e :=
    ⟨rfl, positionUpdate_est _ _⟩
  refine ⟨?frame, ?substitute⟩
  case frame =>
    intro f b hb count stamp diff dc dt travel onLine v dir healthy unhealthy
    refine ⟨fun hh => ?_, fun hh => ?_⟩
    · have hest : healthyEstimate s b count stamp = healthy := by
        simp only [healthyEstimate, countDelta_eq, timeDelta_eq, judgeStationary_eq, htimer]
        rfl
      have hrun : deliver s .encoder f = positionUpdate (s.setEst healthy) .speed := by
        rw [← hest]
        simp only [deliver, encoderSample, hb, encoderHealthy, hh, decide_true, if_true]
        rfl
      rw [hrun]
      exact hhanded healthy
    · have hest : unhealthyEstimate s b count stamp = unhealthy := by
        simp only [unhealthyEstimate, signed_eq, timeDelta_eq, judgeStationary_eq, htimer]
        rfl
      have hrun : deliver s .encoder f = positionUpdate (s.setEst unhealthy) .speed := by
        rw [← hest]
        simp only [deliver, encoderSample, hb, encoderHealthy, hh, decide_false, Bool.false_eq_true, if_false]
        rfl
      rw [hrun]
      exact hhanded unhealthy
  case substitute =>
    intro lateTimeout coasted
    have hest : judgeStationary s { s.est with coast := s.est.coast + signed s.est.dir (s.est.v * lateTimeout) } = coasted := by
      simp only [signed_eq, judgeStationary_eq, htimer]
      rfl
    rw [encoderSubstitute, hest]
    exact hhanded coasted

/-! ## The car reports (R54 to R58) -/

theorem raiseIf_est (s : State) (b : Bool) (k : FaultKind) : (raiseIf s b k).est = s.est := (raiseIf_follows s b k).frame.2.2.1

/-- A discrepancy beyond the limit is raised, and the estimator stands. -/
theorem disagrees_iff (lc : LineConstants) (e : Int) : disagrees lc e = true ↔ lc.disagreementLimit < e.natAbs := decide_eq_true_iff

/-- A write of the estimator, the offset's cut raised, and the update handed on. -/
theorem offsetUpdate {s : State} {e : Estimator} {off : Int} (u : Update) :
    positionUpdate (raiseIf (s.setEst e) (overStretch s.line off) .stretchLimit) u =
      positionUpdate (if s.line.stretchLimit < off.natAbs then raiseFault { s with est := e } .stretchLimit else { s with est := e }) u ∧
    (positionUpdate (raiseIf (s.setEst e) (overStretch s.line off) .stretchLimit) u).est = e := by
  refine ⟨?_, by rw [positionUpdate_est, raiseIf_est]; rfl⟩
  simp only [raiseIf, overStretch, decide_eq_true_eq]
  rfl

section
variable {s : State} {c : Nat}

theorem carAReport_establishes (h : s.est.ropeEst = false) : carAReport s c =
    positionUpdate (s.setEst { s.est with real := c * 1000, coast := 0, offA := 0, agedA := false, ropeEst := true }) .carSet := by
  simp [carAReport, h]

theorem carAReport_disagrees (h : s.est.ropeEst = true) (hd : disagrees s.line ((c : Int) - (s.rMm + s.est.offA)) = true) :
    carAReport s c = raiseFault s .positionDisagree := by simp [carAReport, h, hd]

theorem carAReport_draws (h : s.est.ropeEst = true) (hd : disagrees s.line ((c : Int) - (s.rMm + s.est.offA)) = false) :
    carAReport s c =
      let off := slewed s.line s.est.offA ((c : Int) - (s.rMm + s.est.offA))
      positionUpdate (raiseIf (s.setEst { s.est with offA := heldOffset s.line off, agedA := false }) (overStretch s.line off) .stretchLimit)
        .carReport := by simp [carAReport, h, hd]

theorem carBReport_waits (h : s.est.ropeEst = false) : carBReport s c = s := by simp [carBReport, h]

theorem carBReport_sets (h : s.est.ropeEst = true) (hset : s.est.offBSet = false) : carBReport s c =
      let off := (c : Int) - (s.line.ropeSum - s.rMm)
      positionUpdate (raiseIf (s.setEst { s.est with offB := heldOffset s.line off, offBSet := true, agedB := false })
        (overStretch s.line off) .stretchLimit) .carSet := by simp [carBReport, h, hset]

theorem carBReport_disagrees (h : s.est.ropeEst = true) (hset : s.est.offBSet = true)
    (hd : disagrees s.line ((c : Int) - (s.line.ropeSum - s.rMm + s.est.offB)) = true) :
    carBReport s c = raiseFault s .positionDisagree := by simp [carBReport, h, hset, hd]

theorem carBReport_draws (h : s.est.ropeEst = true) (hset : s.est.offBSet = true)
    (hd : disagrees s.line ((c : Int) - (s.line.ropeSum - s.rMm + s.est.offB)) = false) : carBReport s c =
      let off := slewed s.line s.est.offB ((c : Int) - (s.line.ropeSum - s.rMm + s.est.offB))
      positionUpdate (raiseIf (s.setEst { s.est with offB := heldOffset s.line off, agedB := false }) (overStretch s.line off) .stretchLimit)
        .carReport := by simp [carBReport, h, hset, hd]

end

/-- Settles O19: a report of a quality that counts is the car's report at its chainage held to the line. -/
theorem carReportsMoveTheOffsets : Obligations.CarReportsMoveTheOffsets := by
  intro s f c fix within after established eA newA movedA firstB setB eB newB movedB
  have hskip (h : ¬fix) (car : Car) : carSample s car f.payload = s := if_pos (by simpa [fix, carQuality] using h)
  have hA (h : fix) : deliver s .carAPosition f = carAReport s c := if_neg h
  have hB (h : fix) : deliver s .carBPosition f = carBReport s c := if_neg h
  have hest (k : FaultKind) : (raiseFault s k).est = s.est := (Follows.raises s k).frame.2.2.1
  have hnewA : slewed s.line s.est.offA eA = newA := by rw [slewed, clampMag_eq]
  have hnewB : slewed s.line s.est.offB eB = newB := by rw [slewed, clampMag_eq]
  have hheld (x : Int) : heldOffset s.line x = within s.line.stretchLimit x := clampMag_eq _ _
  have hmore {e : Int} (h : s.line.disagreementLimit < e.natAbs) : disagrees s.line e = true := (disagrees_iff _ _).mpr h
  have hless {e : Int} (h : e.natAbs ≤ s.line.disagreementLimit) : disagrees s.line e = false := by
    rw [Bool.eq_false_iff, ne_eq, disagrees_iff]
    omega
  refine ⟨fun h => ⟨hskip h .a, hskip h .b⟩, fun h hr => ?_, fun h hr => ⟨fun hd => ?_, fun hd => ?_⟩, fun h hr hset => ?_,
    fun h hr hset => ⟨fun hd => ?_, fun hd => ?_⟩⟩
  · rw [hA h, hB h, carAReport_establishes hr, carBReport_waits hr]
    exact ⟨rfl, positionUpdate_est _ _, rfl⟩
  · rw [hA h, carAReport_disagrees hr (hmore hd)]
    exact ⟨rfl, hest _⟩
  · have hrun := carAReport_draws hr (hless hd)
    dsimp only at hrun
    rw [hA h, hrun, hnewA, hheld]
    exact offsetUpdate _
  · have hrun := carBReport_sets (c := c) hr hset
    dsimp only at hrun
    rw [hB h, hrun, hheld]
    exact offsetUpdate _
  · rw [hB h, carBReport_disagrees hr hset (hmore hd)]
    exact ⟨rfl, hest _⟩
  · have hrun := carBReport_draws hr hset (hless hd)
    dsimp only at hrun
    rw [hB h, hrun, hnewB, hheld]
    exact offsetUpdate _

end Sys2Proof.Machine
end

