-- ==== Sys2Proof/Proofs/ConsoleDemands.lean ====
section
/-! PROOF. The console's demands: the clamp, the direction conflict, the departure and the offer to Port B (R93, R136 to R139). -/

namespace Sys2Proof.Machine

/-- The console demand of a frame, its setpoint clamped (R136). -/
def lastDemandOf (f : RxFrame) : LastDemand :=
  { setpoint := min (demandSetpoint f.payload) 20000, enable := demandEnable f.payload, dir := demandDir f.payload }

/-- The part with a frame's demand as its last console demand. -/
def demandKept (s : State) (f : RxFrame) : State := s.setLim { s.lim with last := some (lastDemandOf f) }

/-- The demand of a frame as it is offered to Port B (R139). -/
def demandOf (f : RxFrame) : Demand :=
  { dst := f.dst, src := f.src, seq := f.seq, offered := min (demandSetpoint f.payload) 20000, received := demandSetpoint f.payload
    enable := demandEnable f.payload, dir := demandDir f.payload, generated := false }

/-- The frame's demand conflicts with the direction of a leg in motion (R137). -/
def conflicts (s : State) (f : RxFrame) : Prop := s.leg.run.motion = true ∧ demandDir f.payload ≠ s.leg.dir

/-- The frame's demand takes the leg out of ARMED (R93). -/
def departsWith (s : State) (f : RxFrame) : Prop :=
  s.leg.run = .armed ∧ demandEnable f.payload = true ∧ 0 < demandSetpoint f.payload ∧ demandDir f.payload = s.leg.dir

theorem consoleDemand_eq (s : State) (f : RxFrame) : consoleDemand s f = offerDemand (departureReport (raiseIf (demandKept s f)
    (s.leg.run.motion && decide (demandDir f.payload ≠ s.leg.dir)) .directionConflict) (lastDemandOf f)) (demandOf f) := rfl

theorem departureReport_departs {s : State} {f : RxFrame} (h : departsWith s f) :
    departureReport s (lastDemandOf f) = testBrakesOpen (changeState s .depart .enableDemand 0) := by
  obtain ⟨hrun, henable, hset, hdir⟩ := h
  rw [departureReport, if_pos]
  simp only [Bool.and_eq_true, decide_eq_true_eq]
  exact ⟨⟨⟨hrun, henable⟩, lt_min hset (by decide)⟩, hdir⟩

theorem departureReport_stays {s : State} {f : RxFrame} (h : ¬departsWith s f) : departureReport s (lastDemandOf f) = s := by
  rw [departureReport, if_neg]
  simp only [Bool.and_eq_true, decide_eq_true_eq]
  rintro ⟨⟨⟨hrun, henable⟩, hset⟩, hdir⟩
  exact h ⟨hrun, henable, hset.trans_le (min_le_left _ _), hdir⟩

/-- A demand that does not conflict goes to the Leg Controller as it is. -/
theorem consoleDemand_agrees {s : State} {f : RxFrame} (h : ¬conflicts s f) :
    consoleDemand s f = offerDemand (departureReport (demandKept s f) (lastDemandOf f)) (demandOf f) := by
  rw [consoleDemand_eq, raiseIf_false]
  simpa [conflicts] using h

/-- The departure a demand begins, with the brakes as they stand (R93, R94). -/
def departure (s : State) (f : RxFrame) : State := testBrakesOpen (changeState (demandKept s f) .depart .enableDemand 0)

theorem consoleDemand_departs {s : State} {f : RxFrame} (h : departsWith s f) : consoleDemand s f = offerDemand (departure s f) (demandOf f) := by
  have hno : ¬conflicts s f := fun hc => by simp [conflicts, h.1, RunState.motion] at hc
  rw [consoleDemand_agrees hno, departureReport_departs (s := demandKept s f) h]
  rfl

theorem consoleDemand_conflicts {s : State} {f : RxFrame} (h : conflicts s f) :
    consoleDemand s f = offerDemand (raiseFault (demandKept s f) .directionConflict) (demandOf f) := by
  have hrun : (raiseFault (demandKept s f) .directionConflict).leg.run ≠ .armed := by
    have hmotion : s.leg.run ≠ .armed := fun ha => by simp [conflicts, ha, RunState.motion] at h
    rw [raiseFault_run]
    cases ht : actionTarget ((demandKept s f).response .directionConflict).action (demandKept s f).leg.run with
    | none => exact hmotion
    | some new => exact (actionTarget_departs ht).1
  rw [consoleDemand_eq, raiseIf_true (by simpa [conflicts] using h), departureReport_stays fun hd => hrun hd.1]

theorem consoleDemand_passes {s : State} {f : RxFrame} (hd : ¬departsWith s f) (hc : ¬conflicts s f) :
    consoleDemand s f = offerDemand (demandKept s f) (demandOf f) := by
  rw [consoleDemand_agrees hc, departureReport_stays (s := demandKept s f) hd]

/-- The parts of a departure: ARMED is left, and with a brake closed the leg stands in DEPART with its timer running. -/
theorem departure_leaves (s : State) (f : RxFrame) : (departure s f).leg.run ≠ .armed := by
  generalize hu : changeState (demandKept s f) .depart .enableDemand 0 = u
  have hrun : u.leg.run = .depart := by rw [← hu, changeState_leg]; rfl
  by_cases hb : u.trip.inputs.brkS.qualified = true ∧ u.trip.inputs.brkE.qualified = true
  · rw [departure, hu]
    exact (testBrakesOpen_departs hrun hb.1 hb.2).1
  · rw [departure, hu, testBrakesOpen_closed (by simp only [Bool.eq_false_iff]; tauto), hrun]
    decide

theorem departure_closed {s : State} {f : RxFrame} (h : s.trip.inputs.brkS.qualified = false ∨ s.trip.inputs.brkE.qualified = false) :
    departure s f = changeState (demandKept s f) .depart .enableDemand 0 := by
  have hinputs : (changeState (demandKept s f) .depart .enableDemand 0).trip.inputs = s.trip.inputs :=
    (changeState_tripStands _ _ _ _).inputs
  exact testBrakesOpen_closed (by rw [hinputs]; exact .inr h)

theorem departure_tables (s : State) (f : RxFrame) : (departure s f).tables = s.tables := by simp [departure, demandKept]

theorem departure_last (s : State) (f : RxFrame) : (departure s f).lim.last = some (lastDemandOf f) := by simp [departure, demandKept]

theorem departure_portB {s : State} (h : consoleHeard s) (f : RxFrame) : (departure s f).portB = s.portB := by
  have hu : (changeState (demandKept s f) .depart .enableDemand 0).portB = s.portB := changeState_portB (by simp) _ _
  rw [departure, (testBrakesOpen_follows _).portB, hu]
  exact (roleIn_congr (s := s) (by simp [demandKept]) (by simp [demandKept]) _ _).trans h

/-- Settles O20: a departure, a conflict, or neither; and the offer in each. -/
theorem consoleDemandIsTaken : Obligations.ConsoleDemandIsTaken := by
  intro s f x enable dir last kept d departs
  have hleg (u : State) : (offerDemand u d).leg = u.leg := by simp
  refine ⟨?_, fun hrun he hx hd => ?_, fun hrun hno => ?_, fun hm hd => ?_, fun hdep => ?_, fun hm hd => ?_, fun hdep hm => ?_⟩
  · rw [consoleDemand_eq]
    have hlast : (raiseIf (demandKept s f) (s.leg.run.motion && decide (demandDir f.payload ≠ s.leg.dir)) .directionConflict).lim.last =
        some last := by
      unfold raiseIf
      split
      · rw [raiseFault_last]
        rfl
      · rfl
    have hreport (u : State) (y : LastDemand) : (departureReport u y).lim.last = u.lim.last := by
      unfold departureReport
      split <;> simp
    rw [(offerDemand_frame _ _).2.2.2.2.2.2.2.2.2.2.1, hreport, hlast]
  · rw [consoleDemand_departs ⟨hrun, he, hx, hd⟩]
    refine ⟨by simpa using departure_leaves s f, fun hb => ?_⟩
    rw [departure_closed hb]
    obtain ⟨y, z, htrip⟩ := offerDemand_trip (changeState (demandKept s f) .depart .enableDemand 0) (demandOf f)
    refine ⟨by simp [legInState], by simp [legInState, timerAfter, demandKept, State.line], ?_⟩
    rw [htrip]
    exact (changeState_outputs (demandKept s f) .depart .enableDemand 0).1
  · have hdep : ¬departsWith s f := fun ⟨_, he, hx, hd⟩ => by
      rcases hno with hno | hno | hno
      · rw [show demandEnable f.payload = false from hno] at he
        exact absurd he (by decide)
      · exact absurd hx (by rw [show demandSetpoint f.payload = 0 from hno]; decide)
      · exact hno hd
    rw [consoleDemand_passes hdep fun hc => by simp [conflicts, hrun, RunState.motion] at hc]
    exact hleg (demandKept s f)
  · rw [consoleDemand_conflicts ⟨hm, hd⟩]
    obtain ⟨y, z, htrip⟩ := offerDemand_trip (raiseFault (demandKept s f) .directionConflict) (demandOf f)
    rw [htrip]
    exact raiseFault_holds _ _
  · exact ⟨_, consoleDemand_departs hdep, departure_tables s f, departure_last s f, fun hc => departure_portB hc f⟩
  · exact consoleDemand_conflicts ⟨hm, hd⟩
  · exact consoleDemand_passes hdep fun hc => hc.2 (hm hc.1)

end Sys2Proof.Machine
end

