-- ==== Sys2Proof/Proofs/Passages.lean ====
section
/-! PROOF. The leg under way: the re-latch, the overrun, the passages to APPROACH and CREEP, and the departure's end (R94 to R99). -/

namespace Sys2Proof.Machine

/-! ## A change to a run state of a leg under way -/

/-- The Trip Unit with its three outputs energized and no ramp origin. -/
def movingTrip (x : Trip) : Trip := { x with den := true, sbr := true, ebr := true, ramp := none }

/-- The part after a passage to a run state. -/
def passedTo (s : State) (r : RunState) (c : StateCause) : State := { s with
  leg := legAtRest s.leg r, trip := movingTrip s.trip, lim := limAtRest s.lim, portA := offered s .a (stateNotice s r c 0 s.leg.number) }

theorem changeState_passes {new : RunState} (h : new = .run ∨ new = .approach ∨ new = .creep) (s : State) (c : StateCause) :
    changeState s new c 0 = passedTo s new c := by
  have hd : new ≠ .depart := by rintro rfl; simp at h
  have hh : new ≠ .halted := by rintro rfl; simp at h
  have hs : new ≠ .serviceStop := by rintro rfl; simp at h
  have he : new.energized = true := by rcases h with rfl | rfl | rfl <;> rfl
  have htrip : tripInState s new = movingTrip s.trip := by simp only [tripInState, movingTrip, he, if_neg hs]
  rw [changeState_plain hs, enterState, legInState_eq_legAtRest hd hh, htrip, limInState_eq_limAtRest hs]
  rfl

/-! ## The distance and the target -/

theorem overruns_iff (s : State) : overruns s = true ↔ s.remaining < -(s.line.overrunTolerance : Int) := decide_eq_true_iff

/-- The leg with its target computed afresh. -/
def latchedLeg (s : State) : Leg :=
  { s.leg with rStar := (targetNow s s.leg.endPlace).1, split := (targetNow s s.leg.endPlace).2 }

/-- The leg with its target computed a last time and frozen (R98). -/
def finalLeg (s : State) : Leg := { latchedLeg s with frozen := true }

theorem relatch_of_not_frozen {s : State} (h : s.leg.frozen = false) :
    relatch s = { s with leg := latchedLeg s, env := formEnvelope { s with leg := latchedLeg s } } := by
  rw [relatch, computeTarget_of_not_frozen h]
  rfl

/-! ## The entry into CREEP (R98, R99) -/

/-- The part in CREEP, its notice offered to a Port A. -/
def creepingFrom (s : State) (a : Port) : State := { s with
  leg := legAtRest (finalLeg s) .creep, trip := movingTrip s.trip, lim := limAtRest s.lim, env := formEnvelope { s with leg := finalLeg s }
  portA := a.offer s.straps.own (.notice s.noticeAddress (.stateChanged .approach .creep .creepDistance 0 s.leg.number)) }

/-- The entry into CREEP with the overrun tested again and a split raised. -/
def enteredFrom (s : State) (a : Port) : State :=
  if (s.setLeg (finalLeg s)).remaining < -(s.line.overrunTolerance : Int) then raiseFault (creepingFrom s a) .overrun
  else if (targetNow s s.leg.endPlace).2 then raiseFault (creepingFrom s a) .splitStop else creepingFrom s a

theorem creepEntry_of_not_frozen {s : State} (hrun : s.leg.run = .approach) (h : s.leg.frozen = false) :
    creepEntry s = enteredFrom s s.portA := by
  have hcreep : changeState (recompute (s.setLeg { computeTarget s with frozen := true })) .creep .creepDistance 0 =
      creepingFrom s s.portA := by
    have hset : { computeTarget s with frozen := true } = finalLeg s := by
      rw [computeTarget_of_not_frozen h]
      rfl
    rw [hset, changeState_passes (.inr (.inr rfl))]
    simp only [passedTo, creepingFrom, stateNotice]
    rw [show (recompute (s.setLeg (finalLeg s))).leg.run = .approach from hrun]
    rfl
  have hover : overruns (creepingFrom s s.portA) = true ↔ (s.setLeg (finalLeg s)).remaining < -(s.line.overrunTolerance : Int) :=
    overruns_iff (creepingFrom s s.portA)
  unfold creepEntry
  dsimp only
  rw [hcreep]
  simp only [hover]
  rfl

/-- The entry into CREEP from APPROACH as a passage leaves it is that of the state before the passage. -/
theorem enteredFrom_passedTo (s : State) (c : StateCause) (a : Port) : enteredFrom (passedTo s .approach c) a = enteredFrom s a := by
  have hcreep : creepingFrom (passedTo s .approach c) a = creepingFrom s a := rfl
  have hover : ((passedTo s .approach c).setLeg (finalLeg (passedTo s .approach c))).remaining = (s.setLeg (finalLeg s)).remaining := rfl
  unfold enteredFrom
  rw [hcreep, hover]
  rfl

/-! ## The passages (R95, R96) -/

section
variable {s : State}

theorem testPassages_run_far (hrun : s.leg.run = .run) (h : (s.line.approachDistance : Int) < s.remaining) : testPassages s = s := by
  rw [testPassages, if_pos hrun, if_neg (by omega)]

theorem testPassages_run_near (hrun : s.leg.run = .run) (h : s.remaining ≤ (s.line.approachDistance : Int)) :
    testPassages s = testCreep (passedTo s .approach .approachDistance) := by
  rw [testPassages, if_pos hrun, if_pos h, changeState_passes (.inr (.inl rfl))]

theorem testPassages_approach (hrun : s.leg.run = .approach) : testPassages s = testCreep s := by
  rw [testPassages, if_neg (by simp [hrun]), if_pos hrun]

theorem testCreep_far (h : (s.line.creepDistance : Int) < s.remaining) : testCreep s = s := by rw [testCreep, if_neg (by omega)]

theorem testCreep_near (h : s.remaining ≤ (s.line.creepDistance : Int)) : testCreep s = creepEntry s := if_pos h

theorem testPassages_creep (hrun : s.leg.run = .creep) : testPassages s = s := by
  rw [testPassages, if_neg (by simp [hrun]), if_neg (by simp [hrun])]

theorem testBrakesOpen_open (hrun : s.leg.run = .depart) (hS : s.trip.inputs.brkS.qualified = true)
    (hE : s.trip.inputs.brkE.qualified = true) : testBrakesOpen s = testPassages (passedTo s .run .brakesOpen) := by
  rw [testBrakesOpen, if_pos (by simp [hrun, hS, hE]), changeState_passes (.inl rfl)]

/-! ## The position update (R95, R97) -/

theorem legUpdate_under (hrun : s.leg.run = .run ∨ s.leg.run = .approach ∨ s.leg.run = .creep) (u : Update) : legUpdate s u =
    (let t := if s.leg.run = .approach ∧ u = .carReport then relatch s else s
    if overruns t then raiseFault t .overrun else testPassages t) := by
  rcases hrun with h | h | h <;> simp [legUpdate, h]

theorem legUpdate_halted (h : s.leg.run = .halted) (u : Update) : legUpdate s u = evaluatePermits s := by simp [legUpdate, h]

theorem legUpdate_resting (h : ¬(s.leg.run = .run ∨ s.leg.run = .approach ∨ s.leg.run = .creep)) (hh : s.leg.run ≠ .halted) (u : Update) :
    legUpdate s u = s := by
  cases hrun : s.leg.run <;> simp_all [legUpdate]

end

/-- Settles O52: the update by run state, and the passages by the distance. -/
theorem legClosesOnItsTarget : Obligations.LegClosesOnItsTarget := by
  intro s u distance beyond target latched moving passed final creeping entered under
  have hdistance : distance s.leg = s.remaining := (remaining_eq s).symm
  have hbeyond : beyond s.leg ↔ overruns s = true := by
    rw [overruns_iff, ← hdistance]
  have hfinal : beyond final ↔ (s.setLeg (finalLeg s)).remaining < -(s.line.overrunTolerance : Int) := by
    rw [remaining_eq (s.setLeg (finalLeg s))]
    exact Iff.rfl
  have hentered (a : Port) : enteredFrom s a = entered a := by
    simp only [enteredFrom, ← hfinal]
    rfl
  refine ⟨fun h hh => legUpdate_resting h hh u, fun h => legUpdate_halted h u, fun hrun hf => ?_, fun h hno => ⟨fun hb => ?_, fun hb => ?_⟩,
    fun hrun hd => ?_, fun hrun hn hd => ?_, fun hrun hn hd hf => ?_, fun hrun hd => ?_, fun hrun hd hf => ?_,
    fun hrun => testPassages_creep hrun, fun hrun hS hE => testBrakesOpen_open hrun hS hE, fun h => testBrakesOpen_closed h⟩
  · have hlatched : (relatch s).leg.run = .approach := by rw [relatch_of_not_frozen hf]; exact hrun
    have hrelatch : { s with leg := latched, env := formEnvelope { s with leg := latched } } = relatch s := (relatch_of_not_frozen hf).symm
    rw [hrelatch, legUpdate_under (.inr (.inl hrun)), legUpdate_under (.inr (.inl hlatched))]
    simp [hrun]
  · rw [legUpdate_under h, if_neg hno]
    exact if_pos (hbeyond.mp hb)
  · rw [legUpdate_under h, if_neg hno]
    exact if_neg fun ho => hb (hbeyond.mpr ho)
  · exact testPassages_run_far hrun (hdistance ▸ hd)
  · rw [testPassages_run_near hrun (hdistance ▸ hn)]
    exact testCreep_far (s := passedTo s .approach .approachDistance) (hdistance ▸ hd)
  · rw [testPassages_run_near hrun (hdistance ▸ hn), testCreep_near (s := passedTo s .approach .approachDistance) (hdistance ▸ hd),
      creepEntry_of_not_frozen (s := passedTo s .approach .approachDistance) rfl hf, enteredFrom_passedTo, hentered]
    rfl
  · rw [testPassages_approach hrun, testCreep_far (hdistance ▸ hd)]
  · rw [testPassages_approach hrun, testCreep_near (hdistance ▸ hd), creepEntry_of_not_frozen hrun hf, hentered]

end Sys2Proof.Machine
end

