-- ==== Sys2Proof/Proofs/DoorPermits.lean ====
section
/-! PROOF. The door permits: the loop condition of a track, one car's evaluation, and both (R22, R102, R103). -/

namespace Sys2Proof.Machine

/-! ## The loop condition (R103) -/

theorem loopPresence_eq (p : List Byte) (c : Car) : loopPresence p c = decide (field p 0 1 / 2 ^ c.num % 2 = 1) := by
  have hbit (n : Nat) {k : Nat} (h : k < 8) : (byteOf n).getLsbD k = decide (n / 2 ^ k % 2 = 1) := by
    rw [byteOf, BitVec.getLsbD_ofNat, Nat.testBit_eq_decide_div_mod_eq, decide_eq_true h, Bool.true_and]
  cases c with
  | a => exact hbit _ (by decide)
  | b => exact hbit _ (by decide)

/-- The track of a car needs no report: no loop place, or no detector. -/
def loopFree (s : State) (pl : Place) (c : Car) : Prop := pl ≠ .loop ∨ s.tables.working.sources.detector c = none

/-- The detector of a car's track is in SYNC, and its last payload reports presence or absence. -/
def loopReports (s : State) (c : Car) (present : Bool) : Prop :=
  ∃ i payload, s.tables.working.sources.detector c = some i ∧ (s.record i).sync = .sync ∧ (s.record i).lastPayload = some payload ∧
    present = loopPresence payload c

/-- The car stands inside its window of a place. -/
def insideAt (s : State) (pl : Place) (c : Car) : Bool := ((s.tables.working.places.get pl).window c).holds (s.carPos c)

/-- Absence is reported with the car inside and the track's mismatch flag clear. -/
def mismatchOnset (s : State) (pl : Place) (c : Car) : Prop :=
  ¬loopFree s pl c ∧ loopReports s c false ∧ insideAt s pl c = true ∧ mismatch s c = false

theorem loopReports_unique {s : State} {c : Car} (h : loopReports s c true) : ¬loopReports s c false := by
  obtain ⟨i, p, hi, -, hp, ht⟩ := h
  rintro ⟨j, q, hj, -, hq, hf⟩
  obtain rfl : i = j := Option.some.inj (hi.symm.trans hj)
  obtain rfl : p = q := Option.some.inj (hp.symm.trans hq)
  exact absurd (ht.trans hf.symm) (by decide)

section
variable {s : State} {pl : Place} {c : Car}

theorem loopVerdict_free (h : loopFree s pl c) (x : Bool) : loopVerdict s pl c x = .free := by
  unfold loopVerdict
  by_cases hpl : pl = .loop
  · obtain hn | hn := h
    · exact absurd hpl hn
    · rw [if_neg (by simp [hpl]), hn]
  · rw [if_pos hpl]

theorem loopVerdict_reported (h : ¬loopFree s pl c) {b : Bool} (hr : loopReports s c b) (x : Bool) :
    loopVerdict s pl c x = if b then .present else if x then .absentInside else .unmet := by
  obtain ⟨i, p, hi, hs, hp, rfl⟩ := hr
  have hpl : ¬(pl ≠ .loop) := fun hn => h (.inl hn)
  simp only [loopVerdict, if_neg hpl, hi, hs, hp]

theorem loopVerdict_silent (h : ¬loopFree s pl c) (hr : ∀ b, ¬loopReports s c b) (x : Bool) : loopVerdict s pl c x = .unmet := by
  have hpl : ¬(pl ≠ .loop) := fun hn => h (.inl hn)
  unfold loopVerdict
  rw [if_neg hpl]
  split
  next hn => exact absurd (.inr hn) h
  next i hi =>
    split
    next p hs hp => exact absurd ⟨i, p, hi, hs, hp, rfl⟩ (hr (loopPresence p c))
    next => rfl

/-! ## One car's permit (R102, R103) -/

section
variable (hrun : s.leg.run = .halted) (hplace : s.leg.haltPlace = some pl)
include hrun hplace

theorem evaluatePermit_free (h : loopFree s pl c) : evaluatePermit s c = setPermit s c (insideAt s pl c) := by
  simp only [evaluatePermit, hrun, hplace, loopVerdict_free h]
  rfl

theorem evaluatePermit_present (h : ¬loopFree s pl c) (hr : loopReports s c true) :
    evaluatePermit s c = setPermit (setMismatch s c false) c (insideAt s pl c) := by
  simp only [evaluatePermit, hrun, hplace, loopVerdict_reported h hr, if_true]
  rfl

theorem evaluatePermit_onset (h : mismatchOnset s pl c) :
    evaluatePermit s c = setPermit (raiseFault (setMismatch s c true) .loopDetectorMismatch) c false := by
  obtain ⟨hfree, hr, hin, hm⟩ := h
  have hin : ((s.tables.working.places.get pl).window c).holds (s.carPos c) = true := hin
  simp [evaluatePermit, hrun, hplace, loopVerdict_reported hfree hr, hin, hm]

theorem evaluatePermit_unmet (h : ¬loopFree s pl c) (hr : ¬loopReports s c true) (hn : ¬mismatchOnset s pl c) :
    evaluatePermit s c = setPermit s c false := by
  by_cases hf : loopReports s c false
  · by_cases hin : ((s.tables.working.places.get pl).window c).holds (s.carPos c) = true
    · have hm : mismatch s c = true := by
        rw [← Bool.not_eq_false]
        exact fun hm => hn ⟨h, hf, hin, hm⟩
      simp [evaluatePermit, hrun, hplace, loopVerdict_reported h hf, hin, hm]
    · simp [evaluatePermit, hrun, hplace, loopVerdict_reported h hf, hin]
  · have hsilent : ∀ b, ¬loopReports s c b := fun b => by cases b <;> assumption
    simp only [evaluatePermit, hrun, hplace, loopVerdict_silent h hsilent]

end

end

/-! ## Permits and mismatch flags -/

theorem mismatch_congr {s t : State} (h : t.leg = s.leg) (c : Car) : mismatch t c = mismatch s c := by cases c <;> simp [mismatch, h]

theorem mismatch_setPermit (s : State) (c d : Car) (x : Bool) : mismatch (setPermit s c x) d = mismatch s d := by
  cases c <;> cases d <;> rfl

theorem mismatch_setMismatch (s : State) (c : Car) (x : Bool) : mismatch (setMismatch s c x) c = x := by cases c <;> rfl

theorem mismatch_setMismatch_of_ne {c d : Car} (h : d ≠ c) (s : State) (x : Bool) : mismatch (setMismatch s c x) d = mismatch s d := by
  cases c <;> cases d <;> simp_all [mismatch, setMismatch]

theorem permit_setMismatch (s : State) (c d : Car) (x : Bool) : permit (setMismatch s c x) d = permit s d := by
  cases c <;> cases d <;> rfl

theorem setPermit_place (s : State) (c : Car) (x : Bool) :
    (setPermit s c x).leg.run = s.leg.run ∧ (setPermit s c x).leg.haltPlace = s.leg.haltPlace := by cases c <;> exact ⟨rfl, rfl⟩

theorem setMismatch_place (s : State) (c : Car) (x : Bool) :
    (setMismatch s c x).leg.run = s.leg.run ∧ (setMismatch s c x).leg.haltPlace = s.leg.haltPlace := by cases c <;> exact ⟨rfl, rfl⟩

/-- What one car's evaluation brings where it stays in HALTED. -/
structure PermitJudged (s t : State) (pl : Place) (c : Car) : Prop where
  permit : permit t c = true ↔ insideAt s pl c = true ∧ (loopFree s pl c ∨ loopReports s c true)
  free : loopFree s pl c → mismatch t c = mismatch s c
  present : ¬loopFree s pl c → loopReports s c true → mismatch t c = false
  absent : ¬loopFree s pl c → ¬loopReports s c true → (mismatch t c = true ↔ mismatchOnset s pl c ∨ mismatch s c = true)
  otherPermit : ∀ d, d ≠ c → Machine.permit t d = Machine.permit s d
  otherMismatch : ∀ d, d ≠ c → mismatch t d = mismatch s d
  run : t.leg.run = s.leg.run
  haltPlace : t.leg.haltPlace = s.leg.haltPlace

section
variable {s : State} {pl : Place} {c : Car} (hrun : s.leg.run = .halted) (hplace : s.leg.haltPlace = some pl)
include hrun hplace

/-- An evaluation in HALTED whose raise, if it makes one, moves nothing. -/
theorem evaluatePermit_judged (hcalm : mismatchOnset s pl c → (s.response .loopDetectorMismatch).action = .notice) :
    PermitJudged s (evaluatePermit s c) pl c := by
  by_cases hfree : loopFree s pl c
  · rw [evaluatePermit_free hrun hplace hfree]
    obtain ⟨hr, hh⟩ := setPermit_place s c (insideAt s pl c)
    exact ⟨by rw [permit_setPermit]; simp [hfree], fun _ => mismatch_setPermit _ _ _ _, fun hn => absurd hfree hn, fun hn => absurd hfree hn,
      fun d hd => permit_setPermit_of_ne hd _ _, fun d _ => mismatch_setPermit _ _ _ _, hr, hh⟩
  · by_cases hpresent : loopReports s c true
    · rw [evaluatePermit_present hrun hplace hfree hpresent]
      obtain ⟨hr, hh⟩ := setPermit_place (setMismatch s c false) c (insideAt s pl c)
      obtain ⟨hr', hh'⟩ := setMismatch_place s c false
      exact ⟨by rw [permit_setPermit]; simp [hpresent], fun hf => absurd hf hfree,
        fun _ _ => by rw [mismatch_setPermit, mismatch_setMismatch], fun _ hn => absurd hpresent hn,
        fun d hd => by rw [permit_setPermit_of_ne hd, permit_setMismatch],
        fun d hd => by rw [mismatch_setPermit, mismatch_setMismatch_of_ne hd], hr.trans hr', hh.trans hh'⟩
    · by_cases honset : mismatchOnset s pl c
      · rw [evaluatePermit_onset hrun hplace honset]
        have hresponse : ((setMismatch s c true).response .loopDetectorMismatch).action = .notice := by
          rw [response_congr (s := s) (by simp), hcalm honset]
        have hleg := (raiseFault_of_no_target (s := setMismatch s c true) (k := .loopDetectorMismatch) (by rw [hresponse, actionTarget_notice])).1
        obtain ⟨hr, hh⟩ := setPermit_place (raiseFault (setMismatch s c true) .loopDetectorMismatch) c false
        obtain ⟨hr', hh'⟩ := setMismatch_place s c true
        exact ⟨by rw [permit_setPermit]; simp [hfree, hpresent], fun hf => absurd hf hfree, fun _ hp => absurd hp hpresent,
          fun _ _ => by rw [mismatch_setPermit, mismatch_congr hleg, mismatch_setMismatch]; simp [honset],
          fun d hd => by rw [permit_setPermit_of_ne hd, permit_congr hleg, permit_setMismatch],
          fun d hd => by rw [mismatch_setPermit, mismatch_congr hleg, mismatch_setMismatch_of_ne hd],
          by rw [hr, hleg, hr'], by rw [hh, hleg, hh']⟩
      · rw [evaluatePermit_unmet hrun hplace hfree hpresent honset]
        obtain ⟨hr, hh⟩ := setPermit_place s c false
        exact ⟨by rw [permit_setPermit]; simp [hfree, hpresent], fun hf => absurd hf hfree, fun _ hp => absurd hp hpresent,
          fun _ _ => by rw [mismatch_setPermit]; simp [honset], fun d hd => permit_setPermit_of_ne hd _ _,
          fun d _ => mismatch_setPermit _ _ _ _, hr, hh⟩

/-- An evaluation that raises nothing writes the Leg Controller alone. -/
theorem evaluatePermit_quiet (h : ¬mismatchOnset s pl c) : unchangedBut [.leg] s (evaluatePermit s c) := by
  have hwrite (t : State) (x : Bool) : unchangedBut [.leg] t (setPermit t c x) := by
    intro part hpart
    cases part <;> simp at hpart <;> cases c <;> rfl
  have hflag (x : Bool) : unchangedBut [.leg] s (setMismatch s c x) := by
    intro part hpart
    cases part <;> simp at hpart <;> cases c <;> rfl
  by_cases hfree : loopFree s pl c
  · rw [evaluatePermit_free hrun hplace hfree]
    exact hwrite _ _
  · by_cases hpresent : loopReports s c true
    · rw [evaluatePermit_present hrun hplace hfree hpresent]
      exact unchangedBut_mono (unchangedBut_trans (hflag _) (hwrite _ _)) (by decide)
    · rw [evaluatePermit_unmet hrun hplace hfree hpresent h]
      exact hwrite _ _

theorem evaluatePermit_raises (h : mismatchOnset s pl c) : hasRecord (evaluatePermit s c) .loopDetectorMismatch := by
  rw [evaluatePermit_onset hrun hplace h]
  exact (Follows.permits _ c false).tripStands.held _ (raiseFault_hasRecord _ _)

/-- A raise whose action is no NOTICE takes HALTED to SAFE, with no permit. -/
theorem evaluatePermit_stops (h : mismatchOnset s pl c) (ha : (s.response .loopDetectorMismatch).action ≠ .notice) :
    (evaluatePermit s c).leg.run = .safe ∧ ∀ d, permit (evaluatePermit s c) d = false := by
  rw [evaluatePermit_onset hrun hplace h]
  have htarget : actionTarget ((setMismatch s c true).response .loopDetectorMismatch).action (setMismatch s c true).leg.run = some .safe := by
    rw [response_congr (s := s) (by simp), (setMismatch_place s c true).1, hrun]
    exact actionTarget_standing ha (.inr (.inr rfl))
  refine ⟨by rw [(setPermit_place _ _ _).1, (raiseFault_moves htarget).1], fun d => ?_⟩
  by_cases hd : d = c
  · rw [hd, permit_setPermit]
  · rw [permit_setPermit_of_ne hd, raiseFault_permit htarget]

end

theorem evaluatePermit_elsewhere {s : State} (h : s.leg.run ≠ .halted) (c : Car) : evaluatePermit s c = s := by
  unfold evaluatePermit
  split
  next hrun _ => exact absurd hrun h
  next => rfl

/-! ## Both permits -/

section
variable {s t : State} (ht : t.tables = s.tables) (hs : t.sources = s.sources) (he : t.est = s.est)
include ht

theorem loopFree_congr (pl : Place) (c : Car) : loopFree t pl c ↔ loopFree s pl c := by rw [loopFree, loopFree, ht]

include hs in
theorem loopReports_congr (c : Car) (b : Bool) : loopReports t c b ↔ loopReports s c b := by
  simp only [loopReports, ht, record_congr hs]

include he in
theorem insideAt_congr (pl : Place) (c : Car) : insideAt t pl c = insideAt s pl c := by rw [insideAt, insideAt, ht, carPos_congr ht he]

include hs he in
theorem mismatchOnset_congr {c : Car} (hm : mismatch t c = mismatch s c) (pl : Place) : mismatchOnset t pl c ↔ mismatchOnset s pl c := by
  rw [mismatchOnset, mismatchOnset, loopFree_congr ht, loopReports_congr ht hs, insideAt_congr ht he, hm]

/-- An evaluation is the same from a state that agrees on the car and its track. -/
theorem PermitJudged.of_agree {u : State} {pl : Place} {c : Car} (hs : t.sources = s.sources) (he : t.est = s.est)
    (hm : mismatch t c = mismatch s c) (h : PermitJudged t u pl c) :
    (Machine.permit u c = true ↔ insideAt s pl c = true ∧ (loopFree s pl c ∨ loopReports s c true)) ∧
    (loopFree s pl c → mismatch u c = mismatch s c) ∧ (¬loopFree s pl c → loopReports s c true → mismatch u c = false) ∧
    (¬loopFree s pl c → ¬loopReports s c true → (mismatch u c = true ↔ mismatchOnset s pl c ∨ mismatch s c = true)) := by
  simp only [← loopFree_congr ht, ← loopReports_congr ht hs, ← insideAt_congr ht he, ← mismatchOnset_congr ht hs he hm, ← hm]
  exact ⟨h.permit, h.free, h.present, h.absent⟩

end

section
variable {s : State} {pl : Place} (hrun : s.leg.run = .halted) (hplace : s.leg.haltPlace = some pl)
include hrun hplace

/-- Car A's evaluation leaves car B's as it was. -/
theorem firstPermit_leaves (hcalm : mismatchOnset s pl .a → (s.response .loopDetectorMismatch).action = .notice) :
    (evaluatePermit s .a).leg.run = .halted ∧ (evaluatePermit s .a).leg.haltPlace = some pl ∧
    (mismatchOnset (evaluatePermit s .a) pl .b ↔ mismatchOnset s pl .b) := by
  obtain ⟨ht, hs, he, -⟩ := (evaluatePermit_follows s .a).frame
  have h := evaluatePermit_judged hrun hplace hcalm
  exact ⟨h.run.trans hrun, h.haltPlace.trans hplace, mismatchOnset_congr ht hs he (h.otherMismatch .b (by decide)) pl⟩

/-- The two evaluations where every raise moves nothing. -/
theorem evaluatePermits_judged (hcalm : ∀ c, mismatchOnset s pl c → (s.response .loopDetectorMismatch).action = .notice) :
    (evaluatePermits s).leg.run = .halted ∧ (evaluatePermits s).leg.haltPlace = some pl ∧
    ∀ c, (permit (evaluatePermits s) c = true ↔ insideAt s pl c = true ∧ (loopFree s pl c ∨ loopReports s c true)) ∧
      (loopFree s pl c → mismatch (evaluatePermits s) c = mismatch s c) ∧
      (¬loopFree s pl c → loopReports s c true → mismatch (evaluatePermits s) c = false) ∧
      (¬loopFree s pl c → ¬loopReports s c true →
        (mismatch (evaluatePermits s) c = true ↔ mismatchOnset s pl c ∨ mismatch s c = true)) := by
  obtain ⟨ht, hs, he, -⟩ := (evaluatePermit_follows s .a).frame
  have hA := evaluatePermit_judged hrun hplace (hcalm .a)
  obtain ⟨hrunA, hplaceA, honset⟩ := firstPermit_leaves hrun hplace (hcalm .a)
  have hB : PermitJudged (evaluatePermit s .a) (evaluatePermits s) pl .b :=
    evaluatePermit_judged hrunA hplaceA fun h => by rw [response_congr (s := s) ht]; exact hcalm .b (honset.mp h)
  refine ⟨hB.run.trans hrunA, hB.haltPlace.trans hplaceA, fun c => ?_⟩
  cases c with
  | a =>
    rw [hB.otherPermit .a (by decide), hB.otherMismatch .a (by decide)]
    exact ⟨hA.permit, hA.free, hA.present, hA.absent⟩
  | b => exact hB.of_agree ht hs he (hA.otherMismatch .b (by decide))

/-- Where an onset is found it is raised, and its action taken. -/
theorem evaluatePermits_onset (h : ∃ c, mismatchOnset s pl c) : hasRecord (evaluatePermits s) .loopDetectorMismatch ∧
    ((s.response .loopDetectorMismatch).action ≠ .notice →
      (evaluatePermits s).leg.run = .safe ∧ ∀ d, permit (evaluatePermits s) d = false) := by
  by_cases hA : mismatchOnset s pl .a
  · refine ⟨(evaluatePermit_follows _ .b).tripStands.held _ (evaluatePermit_raises hrun hplace hA), fun ha => ?_⟩
    obtain ⟨hsafe, hnone⟩ := evaluatePermit_stops hrun hplace hA ha
    rw [evaluatePermits, evaluatePermit_elsewhere (by rw [hsafe]; decide)]
    exact ⟨hsafe, hnone⟩
  · have hB : mismatchOnset s pl .b := by
      obtain ⟨c, hc⟩ := h
      cases c with
      | a => exact absurd hc hA
      | b => exact hc
    obtain ⟨hrunA, hplaceA, honset⟩ := firstPermit_leaves hrun hplace fun h => absurd h hA
    obtain ⟨ht, -⟩ := (evaluatePermit_follows s .a).frame
    refine ⟨evaluatePermit_raises hrunA hplaceA (honset.mpr hB), fun ha => evaluatePermit_stops hrunA hplaceA (honset.mpr hB) ?_⟩
    rw [response_congr (s := s) ht]
    exact ha

theorem evaluatePermits_quiet (h : ∀ c, ¬mismatchOnset s pl c) : unchangedBut [.leg] s (evaluatePermits s) := by
  obtain ⟨hrunA, hplaceA, honset⟩ := firstPermit_leaves hrun hplace fun hA => absurd hA (h .a)
  exact unchangedBut_mono (unchangedBut_trans (evaluatePermit_quiet hrun hplace (h .a))
    (evaluatePermit_quiet hrunA hplaceA fun hB => h .b (honset.mp hB))) (by decide)

end

/-- Settles O53: the two evaluations with the loop condition written out. -/
theorem doorPermitsFollowTheirConditions : Obligations.DoorPermitsFollowTheirConditions := by
  intro s detectors serving reports
  have hreports (c : Car) (b : Bool) : reports c b ↔ loopReports s c b := by
    simp only [reports, loopReports, loopPresence_eq]
    rfl
  refine ⟨fun h => ?elsewhere, fun pl hrun hplace => ?halted, fun f => rfl⟩
  case elsewhere => rw [evaluatePermits, evaluatePermit_elsewhere h, evaluatePermit_elsewhere h]
  case halted =>
    intro inside free onset t
    have honset (c : Car) : onset c ↔ mismatchOnset s pl c := by
      simp only [onset, hreports]
      rfl
    simp only [honset, hreports]
    refine ⟨fun ha => evaluatePermits_judged hrun hplace fun _ _ => ha, fun h => (evaluatePermits_onset hrun hplace h).1, fun h ha => ?_,
      fun h => evaluatePermits_quiet hrun hplace h⟩
    obtain ⟨hsafe, hnone⟩ := (evaluatePermits_onset hrun hplace h).2 ha
    exact ⟨hsafe, hnone .a, hnone .b⟩

end Sys2Proof.Machine
end

