-- ==== Sys2Proof/Proofs/Stationary.lean ====
section
/-! PROOF. STATIONARY by run state: the halt, and the end of a leg in a stop state (R63, R100, R101, R107, R109, R110). -/

namespace Sys2Proof.Machine

/-- The part with its stationary timer armed again. -/
def stationaryArmed (s : State) : State := s.setEst { s.est with statTimer := timerAfter s.now s.est.statTime }

theorem exec_stationaryTimerExpiry {s : State} (ho : ordinary s) (h : timerDue s.now s.est.statTimer = true) :
    exec .stationaryTimerExpiry s = .next (takeStationary (stationaryArmed s)) :=
  exec_of_ordinary ho rfl (if_pos h) (by rw [(takeStationary_reacts _).resp]; rfl)

/-- The leg's end in a stop state (R107). -/
theorem endStop_eq (s : State) (o : StopOutcome) :
    let leg : Leg := { legAtRest s.leg .safe with
      active := false, log := (stopRecord s o :: s.leg.log).take 16, lastRecord := s.leg.lastRecord + 1 }
    endStop s o = { s with
      leg := leg, trip := tripAtRest s.trip, lim := limAtRest s.lim, env := formEnvelope { s with leg := leg }
      portA := (offered s .a (stateNotice s .safe .stationary 0 s.leg.number)).offer s.straps.own
        (.notice s.noticeAddress (.stopResult (stopRecord s o))) } := by
  intro leg
  rw [endStop, changeState_atRest rfl (by decide)]
  exact recompute_eq (s := { s with leg := leg }) rfl rfl rfl rfl rfl rfl

/-! ## What follows a halt -/

/-- The part stands, its leg ended, with the outputs de-energized and a Stop Log. -/
structure StandsHalted (log : List StopRecord) (last : BitVec 16) (s : State) : Prop where
  run : s.leg.run = .halted ∨ s.leg.run = .safe
  active : s.leg.active = false
  den : s.trip.den = false
  sbr : s.trip.sbr = false
  ebr : s.trip.ebr = false
  log : s.leg.log = log
  lastRecord : s.leg.lastRecord = last

section
variable {log : List StopRecord} {last : BitVec 16} {s : State}

theorem StandsHalted.raise (h : StandsHalted log last s) (k : FaultKind) : StandsHalted log last (raiseFault s k) := by
  obtain ⟨-, -, -, -, -, -, -, -, hlog, hlast⟩ := raiseFault_legKept s k
  cases ht : actionTarget (s.response k).action s.leg.run with
  | none =>
    obtain ⟨hleg, -, -, -, htrip⟩ := raiseFault_of_no_target ht
    exact ⟨by rw [hleg]; exact h.run, by rw [hleg]; exact h.active, by rw [htrip]; exact h.den, by rw [htrip]; exact h.sbr,
      by rw [htrip]; exact h.ebr, hlog.trans h.log, hlast.trans h.lastRecord⟩
  | some new =>
    obtain hr | hr := h.run
    · obtain rfl : new = .safe := by
        rw [hr] at ht
        cases ha : (s.response k).action <;> simp [ha, actionTarget] at ht <;> exact ht.symm
      obtain ⟨hrun, hden, hsbr, hebr, -⟩ := raiseFault_moves ht
      exact ⟨.inr hrun, by rw [raiseFault_leg ht (by simp [hr])]; exact h.active, hden, hsbr, hebr, hlog.trans h.log, hlast.trans h.lastRecord⟩
    · rw [hr, actionTarget_safe] at ht
      cases ht

theorem StandsHalted.setPermit (h : StandsHalted log last s) (c : Car) (x : Bool) : StandsHalted log last (setPermit s c x) := by
  cases c <;> exact ⟨h.run, h.active, h.den, h.sbr, h.ebr, h.log, h.lastRecord⟩

theorem StandsHalted.setMismatch (h : StandsHalted log last s) (c : Car) (x : Bool) : StandsHalted log last (setMismatch s c x) := by
  cases c <;> exact ⟨h.run, h.active, h.den, h.sbr, h.ebr, h.log, h.lastRecord⟩

theorem StandsHalted.raiseIf (h : StandsHalted log last s) (b : Bool) (k : FaultKind) : StandsHalted log last (raiseIf s b k) := by
  unfold Machine.raiseIf
  split
  · exact h.raise k
  · exact h

theorem StandsHalted.evaluatePermit (h : StandsHalted log last s) (c : Car) : StandsHalted log last (evaluatePermit s c) := by
  by_cases hrun : s.leg.run = .halted
  · cases hplace : s.leg.haltPlace with
    | none =>
      have hnone : Machine.evaluatePermit s c = s := by simp [Machine.evaluatePermit, hrun, hplace]
      rw [hnone]
      exact h
    | some pl =>
      by_cases hfree : loopFree s pl c
      · rw [evaluatePermit_free hrun hplace hfree]
        exact h.setPermit c _
      · by_cases hpresent : loopReports s c true
        · rw [evaluatePermit_present hrun hplace hfree hpresent]
          exact (h.setMismatch c _).setPermit c _
        · by_cases honset : mismatchOnset s pl c
          · rw [evaluatePermit_onset hrun hplace honset]
            exact ((h.setMismatch c _).raise _).setPermit c _
          · rw [evaluatePermit_unmet hrun hplace hfree hpresent honset]
            exact h.setPermit c _
  · rw [evaluatePermit_elsewhere hrun]
    exact h

end

/-! ## The halt (R101) -/

/-- The part in HALTED at its place with its leg ended, before the window check. -/
def haltedLeg (s : State) : State :=
  endLeg (notify (changeState ((writeStop s (stopRecord s .completed)).setLeg (haltLeg (writeStop s (stopRecord s .completed)).leg s.leg.endPlace))
    .halted .stationary 0) (.stopResult (stopRecord s .completed)))

theorem halt_eq (s : State) : halt s = evaluatePermits (raiseIf (haltedLeg s)
    (!s.leg.split && !(s.endEntry.a.holds s.aPos && s.endEntry.b.holds s.bPos)) .stopOutsideWindow) := rfl

theorem haltedLeg_run (s : State) : (haltedLeg s).leg.run = .halted ∧ (haltedLeg s).leg.haltPlace = some s.leg.endPlace := by
  simp [haltedLeg, endLeg, legInState, haltLeg]

theorem haltedLeg_stands (s : State) : StandsHalted ((stopRecord s .completed :: s.leg.log).take 16) (s.leg.lastRecord + 1) (haltedLeg s) := by
  have houtputs := changeState_outputs ((writeStop s (stopRecord s .completed)).setLeg
    (haltLeg (writeStop s (stopRecord s .completed)).leg s.leg.endPlace)) .halted .stationary 0
  obtain ⟨hden, hsbr, hebr, -⟩ := houtputs
  refine ⟨.inl (haltedLeg_run s).1, rfl, ?_, ?_, ?_, ?_, ?_⟩
  · simpa [haltedLeg, RunState.energized] using hden
  · simpa [haltedLeg, RunState.energized] using hsbr
  · simpa [haltedLeg, RunState.energized] using hebr
  · simp [haltedLeg, endLeg, legInState, haltLeg, writeStop, Config.stopLogDepth]
  · simp [haltedLeg, endLeg, legInState, haltLeg, writeStop, stopRecord]

theorem halt_stands (s : State) : StandsHalted ((stopRecord s .completed :: s.leg.log).take 16) (s.leg.lastRecord + 1) (halt s) :=
  (((haltedLeg_stands s).raiseIf _ _).evaluatePermit .a).evaluatePermit .b

theorem haltedLeg_tables (s : State) : (haltedLeg s).tables = s.tables := by simp [haltedLeg]

/-- With both kinds of a halt answered by NOTICE the part stays in HALTED. -/
theorem halt_stays {s : State} (hw : (s.response .stopOutsideWindow).action = .notice)
    (hl : (s.response .loopDetectorMismatch).action = .notice) :
    (halt s).leg.run = .halted ∧ (halt s).leg.haltPlace = some s.leg.endPlace := by
  generalize hb : (!s.leg.split && !(s.endEntry.a.holds s.aPos && s.endEntry.b.holds s.bPos)) = b
  obtain ⟨hrun, hplace⟩ := haltedLeg_run s
  have hleg : (raiseIf (haltedLeg s) b .stopOutsideWindow).leg = (haltedLeg s).leg := by
    unfold raiseIf
    split
    · refine (raiseFault_of_no_target ?_).1
      rw [response_congr (s := s) (haltedLeg_tables s), hw, actionTarget_notice]
    · rfl
  have htables : (raiseIf (haltedLeg s) b .stopOutsideWindow).tables = s.tables :=
    (raiseIf_follows _ _ _).frame.1.trans (haltedLeg_tables s)
  have h := evaluatePermits_judged (s := raiseIf (haltedLeg s) b .stopOutsideWindow) (pl := s.leg.endPlace) (by rw [hleg, hrun])
    (by rw [hleg, hplace]) fun _ _ => by rw [response_congr (s := s) htables, hl]
  rw [halt_eq, hb]
  exact ⟨h.1, h.2.1⟩

theorem error_eq (s : State) : -s.remaining = if s.leg.dir = .up then (s.rMm : Int) - s.leg.rStar else (s.leg.rStar : Int) - s.rMm := by
  rw [remaining_eq]
  split <;> omega

theorem takeStationary_elsewhere {s : State} (hc : s.leg.run ≠ .creep) (hs : s.leg.run ≠ .serviceStop) (he : s.leg.run ≠ .emergencyStop) :
    takeStationary s = s := by
  cases hrun : s.leg.run <;> simp_all [takeStationary]

/-- Settles O43: the halt, the two ends of a stop, and nothing in any other run state. -/
theorem stationaryIsTakenByRunState : Obligations.StationaryIsTakenByRunState := by
  intro s ho hdue est record
  have hexec := exec_stationaryTimerExpiry ho hdue
  have hrecord (o : StopOutcome) : stopRecord (stationaryArmed s) o = record o := by
    simp only [stopRecord, error_eq]
    rfl
  refine ⟨fun hrun => ?halt, fun o ho => ?stop, fun hc hs he => ?other⟩
  case halt =>
    have htake : takeStationary (stationaryArmed s) = halt (stationaryArmed s) := by
      rw [takeStationary, show (stationaryArmed s).leg.run = .creep from hrun]
    have h := halt_stands (stationaryArmed s)
    obtain ⟨-, -, -, -, htables, hresp, hsources, hest⟩ := (halt_reacts (s := stationaryArmed s) hrun).frame
    rw [hrecord] at h
    exact ⟨_, hexec.trans (congrArg _ htake), hest, h.log, h.lastRecord, h.active, h.run, fun hw hl => halt_stays hw hl, h.den, h.sbr, h.ebr,
      htables, hsources, hresp⟩
  case stop =>
    intro leg
    have htake : takeStationary (stationaryArmed s) = endStop (stationaryArmed s) o := by
      obtain ⟨hrun, rfl⟩ | ⟨hrun, rfl⟩ := ho
      · rw [takeStationary, show (stationaryArmed s).leg.run = .serviceStop from hrun]
      · rw [takeStationary, show (stationaryArmed s).leg.run = .emergencyStop from hrun]
    have hend := endStop_eq (stationaryArmed s) o
    rw [hrecord] at hend
    refine ⟨_, hexec.trans (congrArg _ (htake.trans hend)), rfl, rfl, rfl, rfl, ?_, rfl, fun part hpart => ?_⟩
    · rfl
    · cases part <;> simp at hpart <;> rfl
  case other =>
    rw [hexec, takeStationary_elsewhere (s := stationaryArmed s) hc hs he]
    rfl

end Sys2Proof.Machine
end

