-- ==== Sys2Proof/Proofs/Samples.lean ====
section
/-! PROOF. A qualification sample: the histories, the judgement of each input, the raises of its transitions and the departure's end
(R94, R112, R118, R132, R133). -/

namespace Sys2Proof.Machine

/-! ## One transition -/

/-- The last samples of an input agree on a value that its qualified value is to take (R132, R133). -/
def inputTurns (s : State) (i : InputId) (x : Bool) : Prop :=
  agreed s.line.qualWindow (s.trip.inputs.get i).history = some x ∧ (s.trip.inputs.get i).qualified ≠ x ∧
  (i = .slip → s.trip.slipTimer = none)

/-- An input with the value its history gives. -/
def judgedInput (w : Nat) (x : Input) : Input := { x with qualified := (agreed w x.history).getD x.qualified }

theorem transition_follows (s : State) (i : InputId) (x : Bool) : Follows (setQualified s i x) (transition s i x) := by
  unfold transition
  dsimp only
  split
  · exact (raiseInput_follows _ i x).trans (testBrakesOpen_follows _)
  · exact raiseInput_follows _ i x

theorem setQualified_get (s : State) (i j : InputId) (x : Bool) : (setQualified s i x).trip.inputs.get j =
    if j = i then { s.trip.inputs.get i with qualified := x } else s.trip.inputs.get j := inputs_get_set _ _ _ _

/-- What a write of an input's qualified value and what follows it leave. -/
structure InputTaken (s t : State) (i : InputId) (x : Input) : Prop where
  inputs : ∀ j, t.trip.inputs.get j = if j = i then x else s.trip.inputs.get j
  slipUnderlying : t.trip.slipUnderlying = s.trip.slipUnderlying
  sampleTimer : t.trip.sampleTimer = s.trip.sampleTimer
  held : ∀ k, hasRecord s k → hasRecord t k
  parts : t.tables = s.tables ∧ unchangedBut [.leg, .trip, .env, .lim, .portA, .portB] s t

theorem qualify_taken (s : State) (i : InputId) (x : Bool) :
    InputTaken s (qualify s i x) i { s.trip.inputs.get i with qualified := x } := by
  unfold qualify
  split
  next h =>
    refine ⟨fun j => ?_, rfl, rfl, fun _ => id, rfl, unchangedBut_refl _ s⟩
    split
    next hj => rw [hj, ← h]
    next => rfl
  next =>
    have hf := transition_follows s i x
    obtain ⟨ht, -, -, hu⟩ := hf.frame
    have hset : unchangedBut [.trip] s (setQualified s i x) := by
      intro part hpart
      cases part <;> simp at hpart <;> rfl
    exact ⟨fun j => by rw [hf.tripStands.inputs, setQualified_get], hf.tripStands.slipUnderlying, hf.tripStands.sampleTimer,
      hf.tripStands.held, ht, unchangedBut_mono (unchangedBut_trans hset hu) (by decide)⟩

/-! ## One judgement -/

/-- The underlying SLIP value after a judgement (R133). -/
def judgedUnderlying (s : State) (i : InputId) : Bool :=
  if i = .slip then (agreed s.line.qualWindow s.trip.inputs.slip.history).getD s.trip.slipUnderlying else s.trip.slipUnderlying

/-- What the judgement of an input leaves. -/
structure InputJudged (s t : State) (i : InputId) : Prop where
  others : ∀ j, j ≠ i → t.trip.inputs.get j = s.trip.inputs.get j
  history : (t.trip.inputs.get i).history = (s.trip.inputs.get i).history
  own : i ≠ .slip → t.trip.inputs.get i = judgedInput s.line.qualWindow (s.trip.inputs.get i)
  slipUnderlying : t.trip.slipUnderlying = judgedUnderlying s i
  sampleTimer : t.trip.sampleTimer = s.trip.sampleTimer
  held : ∀ k, hasRecord s k → hasRecord t k
  parts : t.tables = s.tables ∧ unchangedBut [.leg, .trip, .env, .lim, .portA, .portB] s t

theorem judgeInput_of_none {s : State} {i : InputId} (h : agreed s.line.qualWindow (s.trip.inputs.get i).history = none) :
    judgeInput s i = s := by
  unfold judgeInput
  rw [h]

theorem judgeInput_of_some {s : State} {i : InputId} {x : Bool} (h : agreed s.line.qualWindow (s.trip.inputs.get i).history = some x)
    (hi : i ≠ .slip) : judgeInput s i = qualify s i x := by
  unfold judgeInput
  rw [h]
  cases i with
  | slip => exact absurd rfl hi
  | _ => rfl

theorem judgeInput_slip {s : State} {x : Bool} (h : agreed s.line.qualWindow s.trip.inputs.slip.history = some x) :
    judgeInput s .slip = judgeSlip s x := by
  unfold judgeInput
  rw [show agreed s.line.qualWindow (s.trip.inputs.get .slip).history = some x from h]

/-- The part with the underlying SLIP value set. -/
def underlyingSet (s : State) (x : Bool) : State := s.setTrip { s.trip with slipUnderlying := x }

theorem judgeSlip_free {s : State} (h : s.trip.slipTimer = none) (x : Bool) : judgeSlip s x = qualify (underlyingSet s x) .slip x := if_pos h

theorem judgeSlip_blanked {s : State} (h : s.trip.slipTimer ≠ none) (x : Bool) : judgeSlip s x = underlyingSet s x := if_neg h

theorem judgeInput_judged (s : State) (i : InputId) : InputJudged s (judgeInput s i) i := by
  cases h : agreed s.line.qualWindow (s.trip.inputs.get i).history with
  | none =>
    rw [judgeInput_of_none h]
    refine ⟨fun _ _ => rfl, rfl, fun _ => by simp [judgedInput, h], ?_, rfl, fun _ => id, rfl, unchangedBut_refl _ s⟩
    unfold judgedUnderlying
    split
    next hi =>
      subst hi
      rw [show agreed s.line.qualWindow s.trip.inputs.slip.history = none from h]
      rfl
    next => rfl
  | some x =>
    by_cases hi : i = .slip
    · subst hi
      generalize hs' : underlyingSet s x = s'
      have hset : s'.trip.inputs = s.trip.inputs ∧ s'.trip.slipUnderlying = x ∧ s'.trip.sampleTimer = s.trip.sampleTimer ∧
          (∀ k, hasRecord s k → hasRecord s' k) ∧ s'.tables = s.tables ∧ unchangedBut [.trip] s s' := by
        subst hs'
        refine ⟨rfl, rfl, rfl, fun _ => id, rfl, fun part hpart => ?_⟩
        cases part <;> simp at hpart <;> rfl
      obtain ⟨hinputs, hunder, htimer, hheld, htables, hparts⟩ := hset
      have hvalue : judgedUnderlying s .slip = x := by
        rw [judgedUnderlying, if_pos rfl, show agreed s.line.qualWindow s.trip.inputs.slip.history = some x from h]
        rfl
      rw [judgeInput_slip h]
      by_cases hfree : s.trip.slipTimer = none
      · rw [judgeSlip_free hfree, hs']
        have ht := qualify_taken s' .slip x
        exact ⟨fun j hj => by rw [ht.inputs, if_neg hj, hinputs], by rw [ht.inputs, if_pos rfl, hinputs], fun hn => absurd rfl hn,
          by rw [ht.slipUnderlying, hunder, hvalue], ht.sampleTimer.trans htimer, fun k hk => ht.held k (hheld k hk),
          ht.parts.1.trans htables, unchangedBut_mono (unchangedBut_trans hparts ht.parts.2) (by decide)⟩
      · rw [judgeSlip_blanked hfree, hs']
        exact ⟨fun j _ => by rw [hinputs], by rw [hinputs], fun hn => absurd rfl hn, by rw [hunder, hvalue], htimer, hheld, htables,
          unchangedBut_mono hparts (by decide)⟩
    · have ht := qualify_taken s i x
      rw [judgeInput_of_some h hi]
      exact ⟨fun j hj => by rw [ht.inputs, if_neg hj], by rw [ht.inputs, if_pos rfl], fun _ => by rw [ht.inputs, if_pos rfl, judgedInput, h]; rfl,
        by rw [ht.slipUnderlying, judgedUnderlying, if_neg hi], ht.sampleTimer, ht.held, ht.parts⟩

theorem judgeInput_line (s : State) (i : InputId) : (judgeInput s i).line = s.line := line_congr (judgeInput_judged s i).parts.1

/-! ## The judgements in a row -/

theorem judges_history (l : List InputId) (s : State) (j : InputId) :
    ((l.foldl judgeInput s).trip.inputs.get j).history = (s.trip.inputs.get j).history := by
  induction l generalizing s with
  | nil => rfl
  | cons i l ih =>
    rw [List.foldl_cons, ih]
    have h := judgeInput_judged s i
    by_cases hj : j = i
    · rw [hj, h.history]
    · rw [h.others j hj]

theorem judges_get {l : List InputId} (hl : l.Nodup) (s : State) {j : InputId} (hj : j ≠ .slip) :
    (l.foldl judgeInput s).trip.inputs.get j =
      if j ∈ l then judgedInput s.line.qualWindow (s.trip.inputs.get j) else s.trip.inputs.get j := by
  induction l generalizing s with
  | nil => rfl
  | cons i l ih =>
    obtain ⟨hi, hl⟩ := List.nodup_cons.mp hl
    have h := judgeInput_judged s i
    rw [List.foldl_cons, ih hl, judgeInput_line]
    by_cases hji : j = i
    · subst hji
      rw [if_neg hi, if_pos List.mem_cons_self, h.own hj]
    · rw [h.others j hji]
      simp [hji]

theorem judges_slipUnderlying {l : List InputId} (hl : l.Nodup) (s : State) : (l.foldl judgeInput s).trip.slipUnderlying =
    if .slip ∈ l then judgedUnderlying s .slip else s.trip.slipUnderlying := by
  induction l generalizing s with
  | nil => rfl
  | cons i l ih =>
    obtain ⟨hi, hl⟩ := List.nodup_cons.mp hl
    have h := judgeInput_judged s i
    rw [List.foldl_cons, ih hl]
    by_cases hs : i = .slip
    · subst hs
      rw [if_neg hi, if_pos List.mem_cons_self, h.slipUnderlying]
    · have hsame : judgedUnderlying (judgeInput s i) .slip = judgedUnderlying s .slip := by
        have hget : (judgeInput s i).trip.inputs.slip = s.trip.inputs.slip := h.others .slip (Ne.symm hs)
        rw [judgedUnderlying, judgedUnderlying, if_pos rfl, if_pos rfl, judgeInput_line, hget, h.slipUnderlying, judgedUnderlying, if_neg hs]
      have hunder : (judgeInput s i).trip.slipUnderlying = s.trip.slipUnderlying := by
        rw [h.slipUnderlying, judgedUnderlying, if_neg hs]
      rw [hsame, hunder]
      simp [Ne.symm hs]

theorem judges_kept (l : List InputId) (s : State) : (l.foldl judgeInput s).trip.sampleTimer = s.trip.sampleTimer ∧
    (∀ k, hasRecord s k → hasRecord (l.foldl judgeInput s) k) ∧
    unchangedBut [.leg, .trip, .env, .lim, .portA, .portB] s (l.foldl judgeInput s) := by
  induction l generalizing s with
  | nil => exact ⟨rfl, fun _ => id, unchangedBut_refl _ s⟩
  | cons i l ih =>
    obtain ⟨htimer, hheld, hparts⟩ := ih (judgeInput s i)
    have h := judgeInput_judged s i
    exact ⟨htimer.trans h.sampleTimer, fun k hk => hheld k (h.held k hk),
      unchangedBut_mono (unchangedBut_trans h.parts.2 hparts) (by decide)⟩

/-! ## A judgement in SAFE -/

/-- What a judgement leaves where no raise moves the run state. -/
structure Unmoved (s t : State) : Prop where
  leg : t.leg = s.leg
  env : t.env = s.env
  lim : t.lim = s.lim
  portB : t.portB = s.portB
  slipTimer : t.trip.slipTimer = s.trip.slipTimer

theorem Unmoved.trans {s t u : State} (h : Unmoved s t) (k : Unmoved t u) : Unmoved s u :=
  ⟨k.leg.trans h.leg, k.env.trans h.env, k.lim.trans h.lim, k.portB.trans h.portB, k.slipTimer.trans h.slipTimer⟩

theorem raiseInput_unmoved {s : State} (h : s.leg.run = .safe) (i : InputId) (x : Bool) : Unmoved s (raiseInput s i x) := by
  unfold raiseInput
  split
  next k _ =>
    obtain ⟨hleg, henv, hlim, hportB, htrip⟩ := raiseFault_of_no_target (s := s) (k := k) (by rw [h, actionTarget_safe])
    exact ⟨hleg, henv, hlim, hportB, by rw [htrip]; rfl⟩
  next => exact ⟨rfl, rfl, rfl, rfl, rfl⟩

theorem qualify_unmoved {s : State} (h : s.leg.run = .safe) (i : InputId) (x : Bool) : Unmoved s (qualify s i x) := by
  unfold qualify
  split
  · exact ⟨rfl, rfl, rfl, rfl, rfl⟩
  · have hset : Unmoved s (setQualified s i x) := ⟨rfl, rfl, rfl, rfl, rfl⟩
    have hraise := hset.trans (raiseInput_unmoved (s := setQualified s i x) h i x)
    unfold transition
    dsimp only
    rw [testBrakesOpen_closed (.inl (by rw [hraise.leg, h]; decide)), ite_self]
    exact hraise

theorem judgeInput_unmoved {s : State} (h : s.leg.run = .safe) (i : InputId) : Unmoved s (judgeInput s i) := by
  cases ha : agreed s.line.qualWindow (s.trip.inputs.get i).history with
  | none =>
    rw [judgeInput_of_none ha]
    exact ⟨rfl, rfl, rfl, rfl, rfl⟩
  | some x =>
    by_cases hi : i = .slip
    · subst hi
      have hset : Unmoved s (underlyingSet s x) := ⟨rfl, rfl, rfl, rfl, rfl⟩
      rw [judgeInput_slip ha]
      by_cases hfree : s.trip.slipTimer = none
      · rw [judgeSlip_free hfree]
        exact hset.trans (qualify_unmoved (s := underlyingSet s x) h .slip x)
      · rw [judgeSlip_blanked hfree]
        exact hset
    · rw [judgeInput_of_some ha hi]
      exact qualify_unmoved h i x

/-- While the blanking timer runs the qualified SLIP value stands (R133). -/
theorem judgeInput_blanked {s : State} (h : s.trip.slipTimer ≠ none) (i : InputId) :
    (judgeInput s i).trip.inputs.slip.qualified = s.trip.inputs.slip.qualified := by
  by_cases hi : i = .slip
  · subst hi
    cases ha : agreed s.line.qualWindow s.trip.inputs.slip.history with
    | none => rw [judgeInput_of_none ha]
    | some x =>
      rw [judgeInput_slip ha, judgeSlip_blanked h]
      rfl
  · exact congrArg Input.qualified ((judgeInput_judged s i).others .slip (Ne.symm hi))

theorem judges_unmoved {s : State} (h : s.leg.run = .safe) (l : List InputId) : Unmoved s (l.foldl judgeInput s) ∧
    (s.trip.slipTimer ≠ none → (l.foldl judgeInput s).trip.inputs.slip.qualified = s.trip.inputs.slip.qualified) := by
  induction l generalizing s with
  | nil => exact ⟨⟨rfl, rfl, rfl, rfl, rfl⟩, fun _ => rfl⟩
  | cons i l ih =>
    have hone := judgeInput_unmoved h i
    obtain ⟨hrest, hslip⟩ := ih (s := judgeInput s i) (by rw [hone.leg, h])
    exact ⟨hone.trans hrest, fun ht => (hslip (by rw [hone.slipTimer]; exact ht)).trans (judgeInput_blanked ht i)⟩

/-! ## Transitions that raise, and those that do not -/

theorem inputTurns_congr {s t : State} {i : InputId} (hi : t.trip.inputs.get i = s.trip.inputs.get i) (hl : t.tables = s.tables)
    (ht : i = .slip → t.trip.slipTimer = s.trip.slipTimer) (x : Bool) : inputTurns t i x ↔ inputTurns s i x := by
  unfold inputTurns
  rw [hi, line_congr hl]
  constructor
  · rintro ⟨ha, hq, hs⟩
    exact ⟨ha, hq, fun h => (ht h) ▸ hs h⟩
  · rintro ⟨ha, hq, hs⟩
    exact ⟨ha, hq, fun h => (ht h).symm ▸ hs h⟩

theorem inputKind_estop (r : RunState) : inputKind .estop true r = some .estop := rfl
theorem inputKind_otTop (r : RunState) : inputKind .otTop true r = some .overtravel := rfl
theorem inputKind_otBottom (r : RunState) : inputKind .otBottom true r = some .overtravel := rfl
theorem inputKind_slip {r : RunState} (h : r.motion = true) : inputKind .slip true r = some .ropeSlip := if_pos h

theorem inputTurns_congr_of_ne {s t : State} {i : InputId} (h : i ≠ .slip) (hi : t.trip.inputs.get i = s.trip.inputs.get i)
    (hl : t.tables = s.tables) (x : Bool) : inputTurns t i x ↔ inputTurns s i x :=
  inputTurns_congr hi hl (fun hs => absurd hs h) x

theorem judgeInput_turns {s : State} {i : InputId} {x : Bool} (h : inputTurns s i x) (hi : i ≠ .slip) : judgeInput s i = transition s i x := by
  rw [judgeInput_of_some h.1 hi, qualify, if_neg h.2.1]

theorem judgeInput_slip_turns {s : State} {x : Bool} (h : inputTurns s .slip x) :
    judgeInput s .slip = transition (underlyingSet s x) .slip x := by
  obtain ⟨ha, hq, ht⟩ := h
  rw [judgeInput_slip ha, judgeSlip_free (ht rfl)]
  exact if_neg hq

/-- A transition that raises a kind leaves its record. -/
theorem transition_raises {s : State} {i : InputId} {x : Bool} {k : FaultKind} (h : inputKind i x s.leg.run = some k) :
    hasRecord (transition s i x) k := by
  have hraise : raiseInput (setQualified s i x) i x = raiseFault (setQualified s i x) k := by
    rw [raiseInput, show (setQualified s i x).leg.run = s.leg.run from rfl, h]
  unfold transition
  dsimp only
  rw [hraise]
  split
  · exact (testBrakesOpen_follows _).tripStands.held _ (raiseFault_hasRecord _ _)
  · exact raiseFault_hasRecord _ _

theorem judgeInput_raises {s : State} {i : InputId} {x : Bool} {k : FaultKind} (h : inputTurns s i x) (hk : inputKind i x s.leg.run = some k) :
    hasRecord (judgeInput s i) k := by
  by_cases hi : i = .slip
  · subst hi
    rw [judgeInput_slip_turns h]
    exact transition_raises hk
  · rw [judgeInput_turns h hi]
    exact transition_raises hk

/-- A transition that raises a kind leaves its record through the judgements after it. -/
theorem judges_raise {s t : State} {l : List InputId} (before after : List InputId) {i : InputId} {x : Bool} {k : FaultKind}
    (hl : l = before ++ i :: after) (ht : before.foldl judgeInput s = t) (h : inputTurns t i x) (hk : inputKind i x t.leg.run = some k) :
    hasRecord (l.foldl judgeInput s) k := by
  rw [hl, List.foldl_append, List.foldl_cons, ht]
  exact (judges_kept after _).2.1 _ (judgeInput_raises h hk)

/-- Of the state the inputs and the underlying SLIP value alone are written. -/
def inputsWritten (s t : State) : Prop := ∃ x u, t = s.setTrip { s.trip with inputs := x, slipUnderlying := u }

theorem inputsWritten_refl (s : State) : inputsWritten s s := ⟨s.trip.inputs, s.trip.slipUnderlying, rfl⟩

theorem inputsWritten_trans {s t u : State} (h : inputsWritten s t) (k : inputsWritten t u) : inputsWritten s u := by
  obtain ⟨x, a, rfl⟩ := h
  obtain ⟨y, b, rfl⟩ := k
  exact ⟨y, b, rfl⟩

/-- A transition that raises no kind, of an input that is no brake or outside DEPART. -/
theorem transition_quiet {s : State} {i : InputId} {x : Bool} (hk : inputKind i x s.leg.run = none)
    (hb : i.isBrake = false ∨ s.leg.run ≠ .depart) : transition s i x = setQualified s i x := by
  have hraise : raiseInput (setQualified s i x) i x = setQualified s i x := by
    rw [raiseInput, show (setQualified s i x).leg.run = s.leg.run from rfl, hk]
  unfold transition
  dsimp only
  rw [hraise]
  obtain hb | hb := hb
  · rw [if_neg (by simp [hb])]
  · rw [testBrakesOpen_closed (s := setQualified s i x) (.inl hb), ite_self]

theorem judgeInput_quiet {s : State} {i : InputId} (hk : ∀ x, inputTurns s i x → inputKind i x s.leg.run = none)
    (hb : i.isBrake = false ∨ s.leg.run ≠ .depart) : inputsWritten s (judgeInput s i) := by
  have hset (t : State) (x : Bool) : inputsWritten t (setQualified t i x) := ⟨_, t.trip.slipUnderlying, rfl⟩
  by_cases hturns : ∃ x, inputTurns s i x
  · obtain ⟨x, hx⟩ := hturns
    by_cases hi : i = .slip
    · subst hi
      rw [judgeInput_slip_turns hx, transition_quiet (s := underlyingSet s x) (hk x hx) hb]
      exact ⟨_, _, rfl⟩
    · rw [judgeInput_turns hx hi, transition_quiet (hk x hx) hb]
      exact hset s x
  · cases ha : agreed s.line.qualWindow (s.trip.inputs.get i).history with
    | none =>
      rw [judgeInput_of_none ha]
      exact inputsWritten_refl s
    | some x =>
      by_cases hi : i = .slip
      · subst hi
        have hset : inputsWritten s (underlyingSet s x) := ⟨s.trip.inputs, x, rfl⟩
        rw [judgeInput_slip ha]
        by_cases hfree : s.trip.slipTimer = none
        · have hq : s.trip.inputs.slip.qualified = x := by
            by_contra hq
            exact hturns ⟨x, ha, hq, fun _ => hfree⟩
          rw [judgeSlip_free hfree, show qualify (underlyingSet s x) .slip x = underlyingSet s x from if_pos hq]
          exact hset
        · rw [judgeSlip_blanked hfree]
          exact hset
      · have hq : (s.trip.inputs.get i).qualified = x := by
          by_contra hq
          exact hturns ⟨x, ha, hq, fun h => absurd h hi⟩
        rw [judgeInput_of_some ha hi, qualify, if_pos hq]
        exact inputsWritten_refl s

/-- Without a transition an input other than SLIP is left. -/
theorem judgeInput_steady {s : State} {i : InputId} (hi : i ≠ .slip) (h : ∀ x, ¬inputTurns s i x) : judgeInput s i = s := by
  cases ha : agreed s.line.qualWindow (s.trip.inputs.get i).history with
  | none => exact judgeInput_of_none ha
  | some x =>
    have hq : (s.trip.inputs.get i).qualified = x := by
      by_contra hq
      exact h x ⟨ha, hq, fun hs => absurd hs hi⟩
    rw [judgeInput_of_some ha hi, qualify, if_pos hq]

/-- A brake input that opens raises nothing, and the departure is tested (R94). -/
theorem judgeInput_opens {s : State} {i : InputId} (hi : i = .brkS ∨ i = .brkE) (h : inputTurns s i true) :
    judgeInput s i = testBrakesOpen (setQualified s i true) := by
  obtain rfl | rfl := hi
  · exact judgeInput_turns h (by decide)
  · exact judgeInput_turns h (by decide)

/-! ## The calm judgements -/

/-- No input that stops the part in every run state turns active. -/
def calmInputs (s : State) : Prop := ¬inputTurns s .estop true ∧ ¬inputTurns s .otTop true ∧ ¬inputTurns s .otBottom true

/-- The state after the first three judgements. -/
def judgedStops (s : State) : State := judgeInput (judgeInput (judgeInput s .estop) .otTop) .otBottom

theorem judgedStops_get (s : State) {j : InputId} (h1 : j ≠ .estop) (h2 : j ≠ .otTop) (h3 : j ≠ .otBottom) :
    (judgedStops s).trip.inputs.get j = s.trip.inputs.get j := by
  rw [judgedStops, (judgeInput_judged _ .otBottom).others j h3, (judgeInput_judged _ .otTop).others j h2,
    (judgeInput_judged s .estop).others j h1]

theorem judgedStops_calm {s : State} (h : calmInputs s) : inputsWritten s (judgedStops s) := by
  obtain ⟨he, ht, hb⟩ := h
  have h1 : inputsWritten s (judgeInput s .estop) := judgeInput_quiet (fun x hx => by
    cases x with
    | false => rfl
    | true => exact absurd hx he) (.inl rfl)
  have h2 : inputsWritten (judgeInput s .estop) (judgeInput (judgeInput s .estop) .otTop) := judgeInput_quiet (fun x hx => by
    cases x with
    | false => rfl
    | true =>
      have hj := judgeInput_judged s .estop
      exact absurd ((inputTurns_congr_of_ne (by decide) (hj.others .otTop (by decide)) hj.parts.1 true).mp hx) ht) (.inl rfl)
  have h3 : inputsWritten (judgeInput (judgeInput s .estop) .otTop) (judgedStops s) := judgeInput_quiet (fun x hx => by
    cases x with
    | false => rfl
    | true =>
      have hj := judgeInput_judged s .estop
      have hk := judgeInput_judged (judgeInput s .estop) .otTop
      exact absurd ((inputTurns_congr_of_ne (by decide) ((hk.others .otBottom (by decide)).trans (hj.others .otBottom (by decide)))
        (hk.parts.1.trans hj.parts.1) true).mp hx) hb) (.inl rfl)
  exact inputsWritten_trans h1 (inputsWritten_trans h2 h3)

/-- The state after the first four judgements. -/
def judgedSlip (s : State) : State := judgeInput (judgedStops s) .slip

theorem judgedSlip_turns {s : State} (h : calmInputs s) (x : Bool) : inputTurns (judgedStops s) .slip x ↔ inputTurns s .slip x := by
  obtain ⟨y, u, hw⟩ := judgedStops_calm h
  refine inputTurns_congr (judgedStops_get s (by decide) (by decide) (by decide)) ?_ (fun _ => ?_) x
  · rw [hw]; rfl
  · rw [hw]; rfl

theorem judgedSlip_calm {s : State} (h : calmInputs s) (hs : ¬inputTurns s .slip true) : inputsWritten s (judgedSlip s) := by
  refine inputsWritten_trans (judgedStops_calm h) (judgeInput_quiet (fun x hx => ?_) (.inl rfl))
  cases x with
  | false => rfl
  | true => exact absurd ((judgedSlip_turns h true).mp hx) hs

/-- The brake inputs are not yet judged there. -/
theorem judgedSlip_get (s : State) {j : InputId} (h : j = .brkS ∨ j = .brkE) :
    (judgedSlip s).trip.inputs.get j = s.trip.inputs.get j := by
  rw [judgedSlip, (judgeInput_judged _ .slip).others j (by rcases h with rfl | rfl <;> decide)]
  rcases h with rfl | rfl <;> exact judgedStops_get s (by decide) (by decide) (by decide)

theorem judges_inputOrder (s : State) : inputOrder.foldl judgeInput s = judgeInput (judgeInput (judgedSlip s) .brkS) .brkE := by
  simp only [inputOrder, List.foldl_cons, List.foldl_nil, judgedSlip, judgedStops]

section
variable {s : State} (hcalm : calmInputs s) (hslip : ¬inputTurns s .slip true)
include hcalm hslip

theorem brakeTurns_iff {i : InputId} (h : i = .brkS ∨ i = .brkE) (x : Bool) : inputTurns (judgedSlip s) i x ↔ inputTurns s i x := by
  obtain ⟨y, u, hw⟩ := judgedSlip_calm hcalm hslip
  refine inputTurns_congr_of_ne (by rcases h with rfl | rfl <;> decide) (judgedSlip_get s h) ?_ x
  rw [hw]
  rfl

/-- A brake input that closes under way is raised (R118). -/
theorem judges_brakeLost (hturns : inputTurns s .brkS false ∨ inputTurns s .brkE false)
    (hrun : s.leg.run = .run ∨ s.leg.run = .approach ∨ s.leg.run = .creep ∨ s.leg.run = .serviceStop) :
    hasRecord (inputOrder.foldl judgeInput s) .brakeFeedbackLost := by
  have hleg : (judgedSlip s).leg = s.leg := by
    obtain ⟨y, u, hw⟩ := judgedSlip_calm hcalm hslip
    rw [hw]
    rfl
  have hkind {i : InputId} (h : i = .brkS ∨ i = .brkE) {r : RunState} (hr : r = s.leg.run) : inputKind i false r = some .brakeFeedbackLost := by
    subst hr
    rcases h with rfl | rfl <;> exact if_pos hrun
  have hdepart : s.leg.run ≠ .depart := by rcases hrun with h | h | h | h <;> rw [h] <;> decide
  rw [judges_inputOrder]
  by_cases hS : inputTurns s .brkS false
  · exact (judgeInput_judged _ .brkE).held _ (judgeInput_raises ((brakeTurns_iff hcalm hslip (.inl rfl) false).mpr hS)
      (hkind (.inl rfl) (by rw [hleg])))
  · have hE := hturns.resolve_left hS
    have hquiet : inputsWritten (judgedSlip s) (judgeInput (judgedSlip s) .brkS) := judgeInput_quiet (fun x hx => by
      cases x with
      | false => exact absurd ((brakeTurns_iff hcalm hslip (.inl rfl) false).mp hx) hS
      | true => rfl) (.inr (by rw [hleg]; exact hdepart))
    have hj := judgeInput_judged (judgedSlip s) .brkS
    have hturnsE : inputTurns (judgeInput (judgedSlip s) .brkS) .brkE false :=
      (inputTurns_congr_of_ne (by decide) (hj.others .brkE (by decide)) hj.parts.1 false).mpr
        ((brakeTurns_iff hcalm hslip (.inr rfl) false).mpr hE)
    refine judgeInput_raises hturnsE (hkind (.inr rfl) ?_)
    obtain ⟨y, u, hw⟩ := hquiet
    rw [hw, ← hleg]
    rfl

/-- In DEPART the opening of the brakes is the departure's test with both open (R94). -/
theorem judges_brakesOpen (hturns : inputTurns s .brkS true ∨ inputTurns s .brkE true)
    (hS : (judgedInput s.line.qualWindow s.trip.inputs.brkS).qualified = true)
    (hE : (judgedInput s.line.qualWindow s.trip.inputs.brkE).qualified = true) :
    ∃ u, inputOrder.foldl judgeInput s = testBrakesOpen u ∧ inputsWritten s u ∧ u.trip.inputs.brkS.qualified = true ∧
      u.trip.inputs.brkE.qualified = true := by
  have hw := judgedSlip_calm hcalm hslip
  have hline : (judgedSlip s).tables = s.tables := by
    obtain ⟨y, u, hw⟩ := hw
    rw [hw]
    rfl
  have hgetS : (judgedSlip s).trip.inputs.brkS = s.trip.inputs.brkS := judgedSlip_get s (.inl rfl)
  have hgetE : (judgedSlip s).trip.inputs.brkE = s.trip.inputs.brkE := judgedSlip_get s (.inr rfl)
  have hnever {i : InputId} (hq : (judgedInput s.line.qualWindow (s.trip.inputs.get i)).qualified = true) : ¬inputTurns s i false := by
    rintro ⟨ha, -, -⟩
    simp [judgedInput, ha] at hq
  have hopen {i : InputId} (hi : i = .brkS ∨ i = .brkE) (hq : (judgedInput s.line.qualWindow (s.trip.inputs.get i)).qualified = true)
      (hn : ¬inputTurns s i true) : (s.trip.inputs.get i).qualified = true := by
    cases ha : agreed s.line.qualWindow (s.trip.inputs.get i).history with
    | none => simpa [judgedInput, ha] using hq
    | some x =>
      have hx : x = true := by simpa [judgedInput, ha] using hq
      by_contra hf
      exact hn ⟨hx ▸ ha, hf, fun h => by rcases hi with rfl | rfl <;> cases h⟩
  rw [judges_inputOrder]
  generalize hv : judgedSlip s = v at *
  have hturnV {i : InputId} (h : i = .brkS ∨ i = .brkE) (x : Bool) : inputTurns v i x ↔ inputTurns s i x := by
    rw [← hv]
    exact brakeTurns_iff hcalm hslip h x
  have hwrite (i : InputId) (t : State) : inputsWritten t (setQualified t i true) := ⟨_, t.trip.slipUnderlying, rfl⟩
  by_cases hSt : inputTurns s .brkS true
  · have hfirst : judgeInput v .brkS = testBrakesOpen (setQualified v .brkS true) := judgeInput_opens (.inl rfl) ((hturnV (.inl rfl) true).mpr hSt)
    have hEsame : (setQualified v .brkS true).trip.inputs.brkE = s.trip.inputs.brkE := hgetE
    have hSset : (setQualified v .brkS true).trip.inputs.brkS.qualified = true := rfl
    have hstands := (testBrakesOpen_follows (setQualified v .brkS true)).tripStands.inputs
    have htables := (testBrakesOpen_follows (setQualified v .brkS true)).frame.1
    have hturnE (x : Bool) : inputTurns (judgeInput v .brkS) .brkE x ↔ inputTurns s .brkE x := by
      refine inputTurns_congr_of_ne (by decide) ?_ ?_ x
      · rw [hfirst, hstands]
        exact hgetE
      · rw [hfirst, htables]
        exact hline
    by_cases hEt : inputTurns s .brkE true
    · have hclosed : (setQualified v .brkS true).trip.inputs.brkE.qualified = false := by
        rw [hEsame]
        exact (Bool.not_eq_true _).mp hEt.2.1
      have hv' : judgeInput v .brkS = setQualified v .brkS true := hfirst.trans (testBrakesOpen_closed (.inr (.inr hclosed)))
      refine ⟨setQualified (setQualified v .brkS true) .brkE true, ?_, inputsWritten_trans hw (inputsWritten_trans (hwrite _ _) (hwrite _ _)),
        rfl, rfl⟩
      rw [judgeInput_opens (.inr rfl) ((hturnE true).mpr hEt), hv']
    · refine ⟨setQualified v .brkS true, ?_, inputsWritten_trans hw (hwrite _ _), rfl, by rw [hEsame]; exact hopen (i := .brkE) (.inr rfl) hE hEt⟩
      rw [judgeInput_steady (by decide) fun x hx => ?_, hfirst]
      cases x with
      | false => exact hnever (i := .brkE) hE ((hturnE false).mp hx)
      | true => exact hEt ((hturnE true).mp hx)
  · have hEt := hturns.resolve_left hSt
    have hv' : judgeInput v .brkS = v := judgeInput_steady (by decide) fun x hx => by
      cases x with
      | false => exact hnever (i := .brkS) hS ((hturnV (.inl rfl) false).mp hx)
      | true => exact hSt ((hturnV (.inl rfl) true).mp hx)
    refine ⟨setQualified v .brkE true, ?_, inputsWritten_trans hw (hwrite _ _), ?_, rfl⟩
    · rw [hv', judgeInput_opens (.inr rfl) ((hturnV (.inr rfl) true).mpr hEt)]
    · change v.trip.inputs.brkS.qualified = true
      rw [hgetS]
      exact hopen (i := .brkS) (.inl rfl) hS hSt

end

/-! ## The sample -/

theorem exec_qualificationSample {s : State} (ho : ordinary s) (h : sampleDue s = true) (raw : RawInputs) :
    exec (.qualificationSample raw) s = .next (sampleInputs s raw) :=
  exec_of_ordinary ho rfl (if_pos h) (by rw [(sampleInputs_reacts s raw).resp])

theorem takeSample_get (s : State) (raw : RawInputs) (i : InputId) : (takeSample s raw).trip.inputs.get i =
    { s.trip.inputs.get i with history := (rawLevel raw i :: (s.trip.inputs.get i).history).take 6 } := inputs_get_sampled _ _ _

theorem inputOrder_nodup : inputOrder.Nodup := by decide

theorem mem_inputOrder (i : InputId) : i ∈ inputOrder := by cases i <;> decide

/-- Settles O45: the judgements in a row, from the state as sampled. -/
theorem qualificationSampleJudgesTheInputs : Obligations.QualificationSampleJudgesTheInputs := by
  intro s raw ho hdue history judged turns calm
  generalize hs' : takeSample s raw = s'
  have hget (i : InputId) : s'.trip.inputs.get i = { s.trip.inputs.get i with history := history i } := by
    rw [← hs']
    exact takeSample_get s raw i
  have hline : s'.line = s.line := by subst hs'; rfl
  have hleg : s'.leg = s.leg := by subst hs'; rfl
  have hslipTimer : s'.trip.slipTimer = s.trip.slipTimer := by subst hs'; rfl
  have hunder : s'.trip.slipUnderlying = s.trip.slipUnderlying := by subst hs'; rfl
  have hturns (i : InputId) (x : Bool) : turns i x ↔ inputTurns s' i x := by
    unfold inputTurns
    rw [hget, hline, hslipTimer]
  have hcalm : calm → calmInputs s' := fun ⟨he, ht, hb⟩ => ⟨(hturns _ _).not.mp he, (hturns _ _).not.mp ht, (hturns _ _).not.mp hb⟩
  have hjudged (i : InputId) : (judgedInput s'.line.qualWindow (s'.trip.inputs.get i)).qualified = judged i (s.trip.inputs.get i).qualified := by
    rw [hget, hline]
    rfl
  have hsampled : unchangedBut [.trip] s s' := by
    subst hs'
    intro part hpart
    cases part <;> simp at hpart <;> rfl
  obtain ⟨htimer, hheld, hparts⟩ := judges_kept inputOrder s'
  have hexec : exec (.qualificationSample raw) s = .next (inputOrder.foldl judgeInput s') := by
    rw [exec_qualificationSample ho hdue, sampleInputs, hs']
  refine ⟨_, hexec, fun i => ?_, ?_, fun i hi => ?_, ?_, fun hrun => ?safe, fun h => ?estop, fun h => ?overtravel, fun hc h hm => ?slip,
    fun hc hns h hrun => ?brakes, fun hc hns hrun h hS hE => ?leaves, unchangedBut_mono (unchangedBut_trans hsampled hparts) (by decide)⟩
  · rw [judges_history, hget]
  · rw [htimer, ← hs']
    rfl
  · rw [judges_get inputOrder_nodup s' hi, if_pos (mem_inputOrder i), hjudged]
  · rw [judges_slipUnderlying inputOrder_nodup, if_pos (mem_inputOrder .slip), judgedUnderlying, if_pos rfl,
      show s'.trip.inputs.slip = _ from hget .slip, hline, hunder]
  case safe =>
    obtain ⟨hunmoved, hblank⟩ := judges_unmoved (s := s') (by rw [hleg, hrun]) inputOrder
    obtain ⟨henv, hlim, hportB⟩ : s'.env = s.env ∧ s'.lim = s.lim ∧ s'.portB = s.portB := by subst hs'; exact ⟨rfl, rfl, rfl⟩
    refine ⟨hunmoved.leg.trans hleg, hunmoved.env.trans henv, hunmoved.lim.trans hlim, hunmoved.portB.trans hportB, fun ht => ?_⟩
    rw [hblank (by rw [hslipTimer]; exact ht), show s'.trip.inputs.slip = _ from hget .slip]
    rfl
  case estop => exact judges_raise [] [.otTop, .otBottom, .slip, .brkS, .brkE] rfl List.foldl_nil ((hturns _ _).mp h) (inputKind_estop _)
  case overtravel =>
    have hj := judgeInput_judged s' .estop
    obtain h | h := h
    · have hnow := (inputTurns_congr_of_ne (by decide) (hj.others .otTop (by decide)) hj.parts.1 true).mpr ((hturns _ _).mp h)
      exact judges_raise [.estop] [.otBottom, .slip, .brkS, .brkE] rfl (by simp only [List.foldl_cons, List.foldl_nil]) hnow (inputKind_otTop _)
    · have hk := judgeInput_judged (judgeInput s' .estop) .otTop
      have hnow := (inputTurns_congr_of_ne (by decide) ((hk.others .otBottom (by decide)).trans (hj.others .otBottom (by decide)))
        (hk.parts.1.trans hj.parts.1) true).mpr ((hturns _ _).mp h)
      exact judges_raise [.estop, .otTop] [.slip, .brkS, .brkE] rfl (by simp only [List.foldl_cons, List.foldl_nil]) hnow (inputKind_otBottom _)
  case slip =>
    have hnow := (judgedSlip_turns (hcalm hc) true).mpr ((hturns _ _).mp h)
    have hrun : (judgedStops s').leg = s.leg := by
      obtain ⟨y, u, hw⟩ := judgedStops_calm (hcalm hc)
      rw [hw]
      exact hleg
    exact judges_raise [.estop, .otTop, .otBottom] [.brkS, .brkE] rfl (by simp only [List.foldl_cons, List.foldl_nil, judgedStops]) hnow
      (inputKind_slip (by rw [hrun]; exact hm))
  case brakes =>
    refine judges_brakeLost (hcalm hc) ((hturns _ _).not.mp hns) (h.imp (hturns _ _).mp (hturns _ _).mp) ?_
    rw [hleg]
    exact hrun
  case leaves =>
    obtain ⟨u, ht, ⟨y, w, hw⟩, huS, huE⟩ := judges_brakesOpen (hcalm hc) ((hturns _ _).not.mp hns)
      (h.imp (hturns _ _).mp (hturns _ _).mp) ((hjudged .brkS).trans hS) ((hjudged .brkE).trans hE)
    have hu : u.leg = s.leg := by rw [hw]; exact hleg
    rw [ht]
    obtain ⟨-, hdepart, hbrake⟩ := testBrakesOpen_departs (s := u) (by rw [hu, hrun]) huS huE
    refine ⟨hdepart, hbrake, fun hfar => ?_⟩
    have hremaining : (passedTo u .run .brakesOpen).remaining = s.remaining := by
      rw [hw, ← hs']
      rfl
    have hlineU : u.line = s.line := by rw [hw]; exact hline
    rw [testBrakesOpen_open (by rw [hu, hrun]) huS huE,
      testPassages_run_far (s := passedTo u .run .brakesOpen) rfl (by rw [hremaining]; exact hlineU ▸ hfar)]
    subst hs'
    subst hw
    exact ⟨rfl, rfl, rfl, rfl⟩

end Sys2Proof.Machine
end

