-- ==== Sys2Proof/Proofs/Tracking.lean ====
section
/-! PROOF. Presented frames: the write of a record with its notice, and the judgement of a frame by its sequence difference (R27 to R33,
R38, R43, R48). -/

namespace Sys2Proof.Machine

/-! ## The write of a record (R43) -/

/-- A record written, with the notice of a change of its sync state. -/
def recordNoticed (s : State) (i : Fin 16) (r : SourceRecord) (c : SourceCause) : State :=
  { s with
    sources := s.sources.set i r
    portA := if (s.record i).sync = r.sync then s.portA
      else offered s .a (.notice s.noticeAddress (.sourceState i (s.entry i) (s.record i).sync r.sync c r.subs)) }

section
variable {s : State} {i : Fin 16} {r : SourceRecord} {c : SourceCause}

theorem updateRecord_same (h : r.sync = (s.record i).sync) : updateRecord s i r c = recordNoticed s i r c := by
  rw [updateRecord, recordNoticed, if_pos h, if_pos h.symm]
  rfl

theorem updateRecord_changed (h : r.sync ≠ (s.record i).sync) :
    updateRecord s i r c = syncChanged (recordNoticed s i r c) (s.entry i).role r.sync := by
  rw [updateRecord, recordNoticed, if_neg h, if_neg (Ne.symm h)]
  rfl

/-- The other blocks see the changes of the car, loop detector and console records only. -/
theorem updateRecord_unseen (hr : (s.entry i).role = .encoder ∨ (s.entry i).role = .carADoors ∨ (s.entry i).role = .carBDoors ∨
    (s.entry i).role = .tension ∨ (s.entry i).role = .drive) : updateRecord s i r c = recordNoticed s i r c := by
  by_cases h : r.sync = (s.record i).sync
  · exact updateRecord_same h
  · rw [updateRecord_changed h]
    rcases hr with hr | hr | hr | hr | hr <;> rw [hr] <;> rfl

end

/-! ## A frame by its sequence difference (R27 to R33) -/

/-- An encoder frame carries the timestamp of the baseline (R27). -/
theorem zeroDelta_iff (s : State) (i : Fin 16) (p : List Byte) :
    zeroDelta s i p = true ↔ (s.entry i).role = .encoder ∧ ∃ b, s.est.baseline = some b ∧ b.stamp = BitVec.ofNat 16 (field p 3 2) := by
  unfold zeroDelta
  cases s.est.baseline with
  | none => simp
  | some b =>
    simp only [Bool.and_eq_true, decide_eq_true_eq, Option.some.injEq, exists_eq_left']
    rfl

/-- The part after a record that was in SYNC or is now is handed to the other blocks (R59, R102, R147). -/
def syncHanded (s : State) (i : Fin 16) (r : SourceRecord) : State :=
  let noticed := recordNoticed s i r .inOrder
  if (s.record i).sync = .sync then noticed else match (s.entry i).role with
    | .carAPosition | .carBPosition => refreshDegraded noticed
    | .loopDetector => evaluatePermits noticed
    | .console => { noticed with lim := { s.lim with genTimer := none } }
    | _ => noticed

theorem updateRecord_sync {s : State} {i : Fin 16} {r : SourceRecord} (h : r.sync = .sync) :
    updateRecord s i r .inOrder = syncHanded s i r := by
  unfold syncHanded
  by_cases hs : (s.record i).sync = .sync
  · rw [updateRecord_same (h.trans hs.symm), if_pos hs]
  · rw [updateRecord_changed (by rw [h]; exact Ne.symm hs), if_neg hs, h]
    cases (s.entry i).role <;> rfl

section
variable {s : State} {i : Fin 16} {f : RxFrame}

theorem accept_still {d : Nat} (h : zeroDelta s i f.payload = true) : accept s i f d = malformed s i := if_pos h

theorem accept_moves {d : Nat} (h : zeroDelta s i f.payload = false) :
    accept s i f d = deliver (syncHanded s i (acceptedRecord s i f d)) (s.entry i).role f := by
  rw [accept, h, updateRecord_sync rfl]
  rfl

theorem accept_sources {d : Nat} (h : zeroDelta s i f.payload = false) :
    (accept s i f d).sources = s.sources.set i (acceptedRecord s i f d) := by
  rw [accept_moves h, ← updateRecord_sync rfl, (deliver_frame _ _ _).2.2.2.2.2.2, updateRecord_sources]

theorem takeBaseline_sources (c : SourceCounters) : (takeBaseline s i f c).sources = s.sources.set i (baselineRecord s i f.seq c) := by
  unfold takeBaseline
  dsimp only
  split
  · rw [(encoderBaseline_frame _ _ _).2.2.2.2.2.2.1, updateRecord_sources]
  · exact updateRecord_sources _ _ _ _

/-- An encoder baseline folds coast travel (R48). -/
theorem takeBaseline_est (h : (s.entry i).role = .encoder) (c : SourceCounters) : (takeBaseline s i f c).est =
    { s.est with real := s.rUm, coast := 0, baseline := some ⟨encoderCount f.payload, encoderStamp f.payload⟩ } := by
  rw [takeBaseline, if_pos h, updateRecord_unseen (.inl h)]
  rfl

/-! ## The branches of the judgement -/

theorem present_malformed (h : wellFormedPayload (s.entry i).role f.payload = false) : present s i f = malformed s i := by
  simp [present, h]

variable (hok : wellFormedPayload (s.entry i).role f.payload = true)
include hok

theorem present_tracked (h : (s.record i).sync = .sync ∨ (s.record i).sync = .coast) :
    present s i f = if (f.seq - (s.record i).expected).toNat ≤ 7 then accept s i f (f.seq - (s.record i).expected).toNat
      else if (f.seq - (s.record i).expected).toNat ≤ 127 then updateRecord s i (jumpRecord (s.record i)) .jump
      else setRecord s i { s.record i with counters := (s.record i).counters.bumpLate } := by
  rcases h with h | h <;> simp [present, hok, h]

theorem present_lost (h : (s.record i).sync = .lost) : present s i f = takeBaseline s i f (s.record i).counters := by
  simp [present, hok, h]

theorem present_hunt (h : (s.record i).sync = .hunt) : present s i f =
    if (s.record i).baselineHeld = false then takeBaseline s i f (s.record i).counters
    else if (f.seq - (s.record i).expected).toNat = 0 then accept s i f 0
    else takeBaseline s i f (s.record i).counters.bumpJumps := by
  simp [present, hok, h]

/-- A frame of a hunt with no baseline, or of a LOST record, becomes the baseline (R29, R33). -/
theorem present_baseline (h : ((s.record i).sync = .hunt ∧ (s.record i).baselineHeld = false) ∨ (s.record i).sync = .lost) :
    present s i f = takeBaseline s i f (s.record i).counters := by
  obtain ⟨hs, hb⟩ | hs := h
  · rw [present_hunt hok hs, if_pos hb]
  · exact present_lost hok hs

/-- A frame out of order in a hunt restarts it (R29). -/
theorem present_restarts (hs : (s.record i).sync = .hunt) (hb : (s.record i).baselineHeld = true)
    (hd : (f.seq - (s.record i).expected).toNat ≠ 0) : present s i f = takeBaseline s i f (s.record i).counters.bumpJumps := by
  rw [present_hunt hok hs, if_neg (by simp [hb]), if_neg hd]

/-- A frame in order is found acceptable (R29, R30). -/
theorem present_acceptable (h : (((s.record i).sync = .sync ∨ (s.record i).sync = .coast) ∧ (f.seq - (s.record i).expected).toNat ≤ 7) ∨
    ((s.record i).sync = .hunt ∧ (s.record i).baselineHeld = true ∧ (f.seq - (s.record i).expected).toNat = 0)) :
    present s i f = accept s i f (f.seq - (s.record i).expected).toNat := by
  obtain ⟨ht, hd⟩ | ⟨hs, hb, hd⟩ := h
  · rw [present_tracked hok ht, if_pos hd]
  · rw [present_hunt hok hs, if_neg (by simp [hb]), if_pos hd, hd]

end

/-- Settles O17: the branches of the judgement by sync state, baseline and sequence difference. -/
theorem presentedFrameIsJudgedByItsDifference : Obligations.PresentedFrameIsJudgedByItsDifference := by
  intro s i f r d role ok tracked acceptable still late accepted baseline noticed handed
  refine ⟨fun hok => ?malformed, fun hok ht hd => ?late, fun hok ht hlow hhigh => ?jump, fun hok ha hstill => ?still,
    fun hok ha hstill => ?accepted, fun hok hs hb hd => ?restarts, fun hok h => ?baseline, fun hok h henc => ?encoder⟩
  case malformed => exact present_malformed hok
  case late =>
    rw [present_tracked hok ht, if_neg (show ¬d ≤ 7 by omega), if_neg (show ¬d ≤ 127 by omega)]
    rfl
  case jump =>
    rw [present_tracked hok ht, if_neg (show ¬d ≤ 7 by omega), if_pos (show d ≤ 127 from hhigh)]
    exact ⟨updateRecord_sources _ _ _ _, updateRecord_baseline _ _ _ _, updateRecord_last _ _ _ _⟩
  case still => exact (present_acceptable hok ha).trans (accept_still ((zeroDelta_iff s i _).mpr hstill))
  case accepted =>
    have hz : zeroDelta s i f.payload = false := by
      rw [Bool.eq_false_iff, ne_eq, zeroDelta_iff]
      exact hstill
    have hhanded : syncHanded s i (acceptedRecord s i f d) = handed := rfl
    rw [present_acceptable hok ha, ← hhanded]
    exact ⟨accept_moves hz, accept_sources hz⟩
  case restarts =>
    rw [present_restarts hok hs hb hd]
    exact takeBaseline_sources _
  case baseline =>
    rw [present_baseline hok h]
    exact takeBaseline_sources _
  case encoder =>
    have hrun : ∃ c, present s i f = takeBaseline s i f c := by
      obtain ⟨hs, hb⟩ | hs := h
      · by_cases hheld : r.baselineHeld = true
        · exact ⟨_, present_restarts hok hs hheld (hb hheld)⟩
        · exact ⟨_, present_baseline hok (.inl ⟨hs, by simpa using hheld⟩)⟩
      · exact ⟨_, present_baseline hok (.inr hs)⟩
    obtain ⟨c, hrun⟩ := hrun
    rw [hrun]
    exact takeBaseline_est henc c

end Sys2Proof.Machine
end

