-- ==== Sys2Proof/Proofs/LateExpiries.lean ====
section
/-! PROOF. The expiry of a record's late timer: the substitute and its consumers, the loss, and the baseline dropped (R35, R36, R39, R40,
R52, R59). -/

namespace Sys2Proof.Machine

/-! ## The three outcomes -/

theorem exec_lateTimerExpiry {s : State} {i : Fin 16} (ho : ordinary s) (h : lateDue s i = true) :
    exec (.lateTimerExpiry i) s = .next (lateExpiry s i) :=
  exec_of_ordinary ho rfl (if_pos h) (by simp)

/-- The part with its record coasting, before the substitute is handed on (R35, R43). -/
def coasted (s : State) (i : Fin 16) : State := updateRecord s i (substituteRecord s i) .expiry

/-- The part with its record LOST, before the fault is raised (R35, R40). -/
def recordLost (s : State) (i : Fin 16) : State := updateRecord s i (lostRecord (s.record i)) .expiry

section
variable {s : State} {i : Fin 16}

theorem lateExpiry_hunt (h : (s.record i).sync = .hunt) : lateExpiry s i = setRecord s i (droppedRecord (s.record i)) := by
  simp [lateExpiry, h]

variable (h : (s.record i).sync = .sync ∨ (s.record i).sync = .coast)
include h

theorem lateExpiry_substitutes (hn : (s.record i).subs < (s.entry i).maxSubs) : lateExpiry s i = takeSubstitute (coasted s i) i := by
  rcases h with h | h <;> simp [lateExpiry, coasted, h, hn]

theorem lateExpiry_loses (hn : (s.entry i).maxSubs ≤ (s.record i).subs) :
    lateExpiry s i = raiseFault (recordLost s i) (s.entry i).role.lostKind := by
  have hn' : ¬(s.record i).subs < (s.entry i).maxSubs := by omega
  rcases h with h | h <;> simp [lateExpiry, recordLost, h, hn']

theorem recordLost_changed : recordLost s i =
    syncChanged (recordNoticed s i (lostRecord (s.record i)) .expiry) (s.entry i).role .lost :=
  updateRecord_changed (by rcases h with h | h <;> rw [h] <;> exact SyncState.noConfusion)

end

theorem lateExpiry_parts (s : State) (i : Fin 16) : unchangedBut [.sources, .est, .env, .leg, .trip, .lim, .portA, .portB] s (lateExpiry s i) := by
  intro part hpart
  cases part <;> simp at hpart <;> simp [Part.same]

/-! ## The consumers of a substitute (R39, R52, R59) -/

/-- Whether a car source is LOST depends on which records are. -/
theorem carLost_of_lost {s t : State} (ht : t.tables = s.tables) (h : ∀ i, (t.record i).sync = .lost ↔ (s.record i).sync = .lost) :
    carLost t = carLost s := by
  have hrole (r : Role) : t.roleIn r .lost = s.roleIn r .lost := by
    have hi : t.roleIndex r = s.roleIndex r := roleIndex_congr ht r
    unfold State.roleIn State.roleRecord
    rw [hi]
    cases s.roleIndex r with
    | none => rfl
    | some i => exact decide_eq_decide.mpr (h i)
  unfold carLost
  rw [hrole, hrole]

theorem recordNoticed_record (s : State) (i j : Fin 16) (r : SourceRecord) (c : SourceCause) :
    (recordNoticed s i r c).record j = if j = i then r else s.record j := by
  have hrec : (recordNoticed s i r c).record j = (setRecord s i r).record j := rfl
  rw [hrec]
  split
  next h => rw [h, record_setRecord]
  next h => exact record_setRecord_of_ne (Ne.symm h) s r

theorem refreshDegraded_idle {s : State} (h : s.est.degraded = carLost s) : refreshDegraded s = s := if_pos h

/-- Degraded mode held before a record coasts is held after. -/
theorem recordNoticed_degraded {s : State} {i : Fin 16} {r : SourceRecord} {c : SourceCause} (hd : s.est.degraded = carLost s)
    (hold : (s.record i).sync ≠ .lost) (hnew : r.sync ≠ .lost) :
    (recordNoticed s i r c).est.degraded = carLost (recordNoticed s i r c) := by
  refine hd.trans (carLost_of_lost (s := s) (t := recordNoticed s i r c) rfl fun j => ?_).symm
  rw [recordNoticed_record]
  split
  next h => rw [h]; exact iff_of_false hnew hold
  next => exact Iff.rfl

/-- A car record that coasts is written and noticed, and nothing else follows. -/
theorem coasted_car {s : State} {i : Fin 16} (hr : (s.entry i).role = .carAPosition ∨ (s.entry i).role = .carBPosition)
    (hs : (s.record i).sync = .sync ∨ (s.record i).sync = .coast) (hd : s.est.degraded = carLost s) :
    coasted s i = recordNoticed s i (substituteRecord s i) .expiry := by
  have hold : (s.record i).sync ≠ .lost := by rcases hs with hs | hs <;> rw [hs] <;> exact SyncState.noConfusion
  have hidle := refreshDegraded_idle (recordNoticed_degraded (r := substituteRecord s i) (c := .expiry) hd hold SyncState.noConfusion)
  by_cases h : (substituteRecord s i).sync = (s.record i).sync
  · exact updateRecord_same h
  · rw [coasted, updateRecord_changed h]
    rcases hr with hr | hr <;> rw [hr] <;> exact hidle

theorem takeSubstitute_encoder {s : State} {i : Fin 16} (h : (s.entry i).role = .encoder) :
    takeSubstitute s i = encoderSubstitute s (s.entry i).lateTimeout := by rw [takeSubstitute, h]

theorem takeSubstitute_carA {s : State} {i : Fin 16} (h : (s.entry i).role = .carAPosition) : takeSubstitute s i = markAged s .a := by
  rw [takeSubstitute, h]

theorem takeSubstitute_carB {s : State} {i : Fin 16} (h : (s.entry i).role = .carBPosition) : takeSubstitute s i = markAged s .b := by
  rw [takeSubstitute, h]

/-- Doors, tension and the drive have no consumer of a substitute. -/
theorem takeSubstitute_unheard {s : State} {i : Fin 16} (h : (s.entry i).role = .carADoors ∨ (s.entry i).role = .carBDoors ∨
    (s.entry i).role = .tension ∨ (s.entry i).role = .drive) : takeSubstitute s i = s := by
  unfold takeSubstitute
  rcases h with h | h | h | h <;> rw [h]

/-- What a write of a record and a write of an age mark leave. -/
theorem recordNoticed_unchangedBut (s : State) (i : Fin 16) (r : SourceRecord) (c : SourceCause) :
    unchangedBut [.sources, .portA] s (recordNoticed s i r c) := by
  intro part hpart
  cases part <;> simp at hpart <;> rfl

theorem markAged_unchangedBut (s : State) (c : Car) : unchangedBut [.est] s (markAged s c) := by
  intro part hpart
  cases c <;> cases part <;> simp at hpart <;> rfl

/-! ## The loss -/

/-- A refresh of degraded mode leaves both age marks. -/
theorem refreshDegraded_aged (s : State) :
    (refreshDegraded s).est.agedA = s.est.agedA ∧ (refreshDegraded s).est.agedB = s.est.agedB := by
  unfold refreshDegraded
  split
  · exact ⟨rfl, rfl⟩
  · rw [positionUpdate_est]
    exact ⟨rfl, rfl⟩

theorem raiseFault_est (s : State) (k : FaultKind) : (raiseFault s k).est = s.est := (Follows.raises s k).frame.2.2.1

/-- Settles O41: the substitute, the loss by its record and its fault, and the baseline dropped. -/
theorem lateExpirySubstitutesOrDeclaresLost : Obligations.LateExpirySubstitutesOrDeclaresLost := by
  refine ⟨?hunt, ?tracked⟩
  case hunt =>
    intro s i ho hdue hs
    rw [exec_lateTimerExpiry ho hdue, lateExpiry_hunt hs]
    rfl
  case tracked =>
    intro s i ho hdue hs r e
    have hexec := exec_lateTimerExpiry ho hdue
    refine ⟨fun hn => ?substitute, fun hn => ?lost⟩
    case substitute =>
      have hrun := lateExpiry_substitutes hs hn
      refine ⟨_, hexec, ?sources, lateExpiry_parts s i, fun hr => ?encoder, fun hd hr => ?carA, fun hd hr => ?carB, fun hr => ?unheard⟩
      case sources =>
        rw [hrun, (takeSubstitute_frame _ _).2.2.2.2.2.2, coasted, updateRecord_sources]
        rfl
      case encoder =>
        have hcoasted : coasted s i = recordNoticed s i (substituteRecord s i) .expiry := updateRecord_unseen (.inl hr)
        rw [hrun, hcoasted, takeSubstitute_encoder (s := recordNoticed s i _ _) hr, encoderSubstitute, positionUpdate_est, ← signed_eq]
        exact ⟨rfl, rfl, rfl, rfl⟩
      case carA =>
        rw [hrun, coasted_car (.inl hr) hs hd, takeSubstitute_carA (s := recordNoticed s i _ _) hr]
        exact ⟨rfl, unchangedBut_mono (unchangedBut_trans (recordNoticed_unchangedBut s i _ _) (markAged_unchangedBut _ .a)) (by decide)⟩
      case carB =>
        rw [hrun, coasted_car (.inr hr) hs hd, takeSubstitute_carB (s := recordNoticed s i _ _) hr]
        exact ⟨rfl, unchangedBut_mono (unchangedBut_trans (recordNoticed_unchangedBut s i _ _) (markAged_unchangedBut _ .b)) (by decide)⟩
      case unheard =>
        have hcoasted : coasted s i = recordNoticed s i (substituteRecord s i) .expiry := updateRecord_unseen (.inr hr)
        rw [hrun, hcoasted, takeSubstitute_unheard (s := recordNoticed s i _ _) hr]
        exact recordNoticed_unchangedBut s i _ _
    case lost =>
      have hrun := lateExpiry_loses hs hn
      refine ⟨_, hexec, ?_, lateExpiry_parts s i, ?_, fun hr => ?_, fun hr => ?_⟩
      · rw [hrun, (Follows.raises _ _).frame.2.1, recordLost, updateRecord_sources]
        rfl
      · rw [hrun]
        exact raiseFault_holds _ _
      · rw [hrun, raiseFault_est, recordLost_changed hs, show (s.entry i).role = .carAPosition from hr]
        exact (refreshDegraded_aged _).1
      · rw [hrun, raiseFault_est, recordLost_changed hs, show (s.entry i).role = .carBPosition from hr]
        exact (refreshDegraded_aged _).2

end Sys2Proof.Machine
end

