-- ==== Sys2Proof/Proofs/SilentConsole.lean ====
section
/-! PROOF. The demands made for a silent console: at a substitute, at its loss and at each expiry of the generation timer (R121, R144 to R146). -/

namespace Sys2Proof.Machine

/-! ## Generated demands (R144) -/

/-- A demand made at a setpoint for the drive's entry (R144). -/
def generatedDemand (s : State) (dr : Fin 16) (x : Nat) : Demand :=
  { dst := byteOf (s.entry dr).address, src := s.straps.own, seq := 0, offered := x, received := x, enable := true, dir := s.leg.dir
    generated := true }

/-- The ramp ceiling from an origin (R121). -/
def ceilingFrom (s : State) (o : RampOrigin) : Nat := o.speed - s.line.serviceDecel * (s.now - o.time).toNat / 1000

/-- The period of the generation timer, from now (R146). -/
def generationPeriod (s : State) (ic : Fin 16) : Timer := timerAfter s.now (s.entry ic).lateTimeout

section
variable {s : State} {ic dr : Fin 16}

theorem generateDemand_drive (h : s.roleIndex .drive = some dr) (x : Nat) :
    generateDemand s x = offerDemand s (generatedDemand s dr x) := by
  have haddress : s.driveAddress = byteOf (s.entry dr).address := by
    rw [State.driveAddress, h]
    rfl
  rw [generateDemand, haddress]
  rfl

/-- A demand at the ramp ceiling, and the generation timer armed (R146). -/
theorem generateAtCeiling_ramp {o : RampOrigin} (hc : s.roleIndex .console = some ic) (hd : s.roleIndex .drive = some dr)
    (hr : s.trip.ramp = some o) : generateAtCeiling s =
      { offerDemand s (generatedDemand s dr (ceilingFrom s o)) with lim := { s.lim with genTimer := generationPeriod s ic } } := by
  have hceiling : s.rampCeiling.getD 0 = ceilingFrom s o := by
    rw [State.rampCeiling, hr]
    rfl
  have hperiod : s.consoleTimeout = (s.entry ic).lateTimeout := by
    rw [State.consoleTimeout, hc]
    rfl
  have hparts (x : Demand) : (offerDemand s x).lim = s.lim ∧ (offerDemand s x).now = s.now ∧ (offerDemand s x).tables = s.tables := by simp
  obtain ⟨hlim, hnow, htables⟩ := hparts (generatedDemand s dr (ceilingFrom s o))
  have hlimiter : ({ (offerDemand s (generatedDemand s dr (ceilingFrom s o))).lim with
      genTimer := timerAfter (offerDemand s (generatedDemand s dr (ceilingFrom s o))).now
        (offerDemand s (generatedDemand s dr (ceilingFrom s o))).consoleTimeout } : Limiter) =
      { s.lim with genTimer := generationPeriod s ic } := by
    rw [hlim, hnow, consoleTimeout_congr (s := s) htables, hperiod]
    rfl
  rw [generateAtCeiling, hceiling, generateDemand_drive hd]
  exact congrArg (State.setLim _) hlimiter

end

/-! ## What a placed demand depends on -/

/-- Port B after an offer is formed from Port B, the run state and its direction, the envelope and the ramp. -/
theorem offerDemand_portB_congr {s t : State} (hb : t.portB = s.portB) (hl : t.leg = s.leg) (he : t.env = s.env)
    (hr : t.trip.ramp = s.trip.ramp) (ht : t.tables = s.tables) (hn : t.now = s.now) (d : Demand) :
    (offerDemand t d).portB = (offerDemand s d).portB := by
  have hsetpoint : sentSetpoint t d = sentSetpoint s d := by rw [sentSetpoint, hl, he, rampCeiling_congr ht hn hr]; rfl
  have hline : demandOnLine t d = demandOnLine s d := by
    simp only [demandOnLine, sentPayload, sentEnable, sentDir, sentLimited, hsetpoint, hb, hl]
  unfold offerDemand
  rw [hb]
  dsimp only
  split
  · rfl
  · split
    · simpa using hline
    · split <;> rfl

/-! ## A substitute (R145) -/

theorem consoleSubstitute_energized {s : State} (h : s.leg.run.energized = true) :
    consoleSubstitute s = generateDemand s ((s.lim.last.map (·.setpoint)).getD 0) := if_pos h

theorem consoleSubstitute_quiet {s : State} (h : s.leg.run.energized = false) : consoleSubstitute s = s := by
  simp [consoleSubstitute, h]

theorem takeSubstitute_console {s : State} {i : Fin 16} (h : (s.entry i).role = .console) : takeSubstitute s i = consoleSubstitute s := by
  rw [takeSubstitute, h]

/-- A console record that coasts is seen by no other block (R146, R147). -/
theorem coasted_console {s : State} {i : Fin 16} (h : (s.entry i).role = .console) :
    coasted s i = recordNoticed s i (substituteRecord s i) .expiry := by
  by_cases hs : (substituteRecord s i).sync = (s.record i).sync
  · exact updateRecord_same hs
  · rw [coasted, updateRecord_changed hs, h]
    rfl

/-! ## The loss (R146) -/

/-- The console's record LOST and noticed. -/
def consoleSilent (s : State) (ic : Fin 16) : State := recordNoticed s ic (lostRecord (s.record ic)) .expiry

section
variable {s : State} {ic : Fin 16} (hrole : (s.entry ic).role = .console) (hs : (s.record ic).sync = .sync ∨ (s.record ic).sync = .coast)
include hrole hs

theorem recordLost_console_stop (hrun : s.leg.run = .serviceStop) : recordLost s ic = generateAtCeiling (consoleSilent s ic) := by
  rw [recordLost_changed hs, hrole]
  have hstop : (consoleSilent s ic).leg.run = .serviceStop := hrun
  exact if_pos ⟨rfl, hstop⟩

theorem recordLost_console_elsewhere (hrun : s.leg.run ≠ .serviceStop) : recordLost s ic = consoleSilent s ic := by
  rw [recordLost_changed hs, hrole]
  exact if_neg fun h => hrun h.2

end

theorem consoleSilent_lost {s : State} {ic : Fin 16} (hc : s.roleIndex .console = some ic) : (consoleSilent s ic).roleIn .console .lost = true := by
  have hindex : (consoleSilent s ic).roleIndex .console = some ic := hc
  have hrecord : (consoleSilent s ic).record ic = lostRecord (s.record ic) := (recordNoticed_record s ic ic _ _).trans (if_pos rfl)
  rw [State.roleIn, State.roleRecord, hindex, Option.map_some, hrecord]
  rfl

/-- The part entering SERVICE_STOP with its CONSOLE record LOST makes a demand at the speed held (R127, R146). -/
theorem changeState_silent {s : State} {ic dr : Fin 16} (hc : s.roleIndex .console = some ic) (hd : s.roleIndex .drive = some dr)
    (hlost : s.roleIn .console .lost = true) (c : StateCause) (k : Nat) :
    (changeState s .serviceStop c k).lim = { s.lim with genTimer := generationPeriod s ic } ∧
    (changeState s .serviceStop c k).portB = (offerDemand (enterState s .serviceStop) (generatedDemand s dr s.est.v)).portB := by
  generalize hu : notify (enterState s .serviceStop) (.stateChanged s.leg.run .serviceStop c k s.leg.number) = u
  have hlost' : u.roleIn .console .lost = true := by subst hu; exact hlost
  have hrun : changeState s .serviceStop c k = generateAtCeiling u := by
    rw [changeState, hu, hlost']
    rfl
  have hceiling : ceilingFrom u ⟨s.est.v, s.now⟩ = s.est.v := by
    have hnow : u.now = s.now := by subst hu; rfl
    simp [ceilingFrom, hnow]
  have hgen := generateAtCeiling_ramp (s := u) (ic := ic) (dr := dr) (o := ⟨s.est.v, s.now⟩) (by subst hu; exact hc) (by subst hu; exact hd)
    (by subst hu; rfl)
  rw [hrun, hgen, hceiling]
  subst hu
  refine ⟨rfl, ?_⟩
  exact offerDemand_portB_congr (s := enterState s .serviceStop) (t := notify (enterState s .serviceStop) _) rfl rfl rfl rfl rfl rfl _

/-- In SERVICE_STOP only the action EMERGENCY moves the part (R125). -/
theorem actionTarget_serviceStop {a : Action} (h : a ≠ .emergency) : actionTarget a .serviceStop = none := by
  cases a with
  | emergency => exact absurd rfl h
  | _ => rfl

section
variable {s : State} {ic dr : Fin 16} (hc : s.roleIndex .console = some ic) (hd : s.roleIndex .drive = some dr)
  (hs : (s.record ic).sync = .sync ∨ (s.record ic).sync = .coast) (hn : (s.entry ic).maxSubs ≤ (s.record ic).subs)
include hc hd hs hn

/-- The console lost in SERVICE_STOP: a demand at the ceiling, and a raise that moves nothing. -/
theorem lateExpiry_console_stop {o : RampOrigin} (hrun : s.leg.run = .serviceStop) (hramp : s.trip.ramp = some o)
    (ha : (s.response .consoleLost).action ≠ .emergency) :
    (lateExpiry s ic).leg.run = .serviceStop ∧ (lateExpiry s ic).lim = { s.lim with genTimer := generationPeriod s ic } ∧
    (lateExpiry s ic).portB = (offerDemand s (generatedDemand s dr (ceilingFrom s o))).portB := by
  have hrole : (s.entry ic).role = .console := (roleIndex_some hc).2
  have hlost : recordLost s ic = _ :=
    (recordLost_console_stop hrole hs hrun).trans (generateAtCeiling_ramp (s := consoleSilent s ic) hc hd hramp)
  have hleg : (recordLost s ic).leg.run = .serviceStop := by
    rw [recordLost_console_stop hrole hs hrun, (generateAtCeiling_frame _).2.2.2.2.2.2.2.2.2.1]
    exact hrun
  have hstay : actionTarget ((recordLost s ic).response .consoleLost).action (recordLost s ic).leg.run = none := by
    rw [response_congr (s := s) (by simp [recordLost]), hleg, actionTarget_serviceStop ha]
  obtain ⟨hlegKept, -, hlim, hport, -⟩ := raiseFault_of_no_target hstay
  rw [lateExpiry_loses hs hn, hrole]
  refine ⟨(congrArg _ hlegKept).trans hleg, hlim.trans (congrArg _ hlost), (hport.trans (congrArg _ hlost)).trans ?_⟩
  exact offerDemand_portB_congr (s := s) (t := consoleSilent s ic) rfl rfl rfl rfl rfl rfl _

/-- The console lost in motion with its kind answered by SERVICE: the leg goes into SERVICE_STOP, with a demand at the speed held. -/
theorem lateExpiry_console_motion (hm : s.leg.run.motion = true) (ha : (s.response .consoleLost).action = .service) :
    let stopped : State := { s with leg := legAtRest s.leg .serviceStop, trip := { s.trip with ramp := some ⟨s.est.v, s.now⟩ } }
    (lateExpiry s ic).leg = stopped.leg ∧ (lateExpiry s ic).trip.ramp = stopped.trip.ramp ∧
    (lateExpiry s ic).lim = { s.lim with genTimer := generationPeriod s ic } ∧
    (lateExpiry s ic).portB = (offerDemand stopped (generatedDemand s dr s.est.v)).portB := by
  intro stopped
  have hrole : (s.entry ic).role = .console := (roleIndex_some hc).2
  have hmoves := (motion_iff _).mp hm
  have hmoving : s.leg.run ≠ .serviceStop ∧ s.leg.run ≠ .armed := by rcases hmoves with h | h | h | h <;> rw [h] <;> decide
  obtain ⟨hstop, harmed⟩ := hmoving
  have htarget : actionTarget ((consoleSilent s ic).response .consoleLost).action (consoleSilent s ic).leg.run = some .serviceStop := by
    have haction : ((consoleSilent s ic).response .consoleLost).action = .service := ha
    rw [haction]
    exact actionTarget_service_moving hmoves
  rw [lateExpiry_loses hs hn, hrole, recordLost_console_elsewhere hrole hs hstop]
  have hchange : raiseFault (consoleSilent s ic) .consoleLost = _ := (raiseFault_changes htarget).trans (if_neg harmed)
  have hannounced := announced_eq (consoleSilent s ic) .consoleLost
  generalize announced (consoleSilent s ic) .consoleLost = u at hchange hannounced
  have hsilent := changeState_silent (s := u) (ic := ic) (dr := dr) (by rw [hannounced]; exact hc) (by rw [hannounced]; exact hd)
    (by rw [hannounced]; exact consoleSilent_lost hc) .fault FaultKind.consoleLost.num
  rw [← hchange] at hsilent
  obtain ⟨hlim, hport⟩ := hsilent
  obtain ⟨-, -, -, -, hramp, -⟩ := raiseFault_moves htarget
  refine ⟨raiseFault_leg htarget harmed, hramp, hlim.trans ?_, hport.trans ?_⟩
  · rw [hannounced]
    rfl
  · have hdemand : generatedDemand u dr u.est.v = generatedDemand s dr s.est.v := by rw [hannounced]; rfl
    rw [hdemand, hannounced]
    refine offerDemand_portB_congr ?_ ?_ ?_ ?_ ?_ ?_ _ <;> rfl

end

/-- Settles O42: the demand of a substitute, of the loss in SERVICE_STOP and in motion, and of the generation timer. -/
theorem silentConsoleIsAnsweredByGeneratedDemands : Obligations.SilentConsoleIsAnsweredByGeneratedDemands := by
  intro s ic dr ho hc hd e r late made ceiling
  have hrole : (s.entry ic).role = .console := (roleIndex_some hc).2
  refine ⟨fun o hdue hramp => ?timer, fun hdue hs => ⟨fun hn => ?substitute, fun hn => ⟨fun o hrun hramp ha => ?stop, fun hm ha => ?motion⟩⟩⟩
  case timer => exact exec_of_ordinary ho rfl ((if_pos hdue).trans (generateAtCeiling_ramp hc hd hramp)) (by simp)
  case substitute =>
    intro noticed setpoint
    have hcoasted : lateExpiry s ic = consoleSubstitute noticed := by
      have hport : (recordNoticed s ic (substituteRecord s ic) .expiry).portA = noticed.portA :=
        ite_congr rfl (fun _ => rfl) fun h => by rw [hs.resolve_right h]; rfl
      have hnoticed : recordNoticed s ic (substituteRecord s ic) .expiry = noticed :=
        congrArg (State.setPortA (setRecord s ic (substituteRecord s ic))) hport
      rw [lateExpiry_substitutes hs hn, coasted_console hrole, hnoticed, takeSubstitute_console (s := noticed) hrole]
    have hsetpoint : (s.lim.last.map (·.setpoint)).getD 0 = setpoint := by
      simp only [setpoint]
      cases s.lim.last <;> rfl
    refine ⟨fun hrun => ?_, fun hrun => ?_⟩
    · rw [exec_lateTimerExpiry ho hdue, hcoasted, consoleSubstitute_energized (s := noticed) hrun, ← hsetpoint]
      exact congrArg _ (generateDemand_drive (s := noticed) hd _)
    · rw [exec_lateTimerExpiry ho hdue, hcoasted, consoleSubstitute_quiet (s := noticed) hrun]
  case stop => exact ⟨_, exec_lateTimerExpiry ho hdue, lateExpiry_console_stop hc hd hs hn hrun hramp ha⟩
  case motion => exact ⟨_, exec_lateTimerExpiry ho hdue, lateExpiry_console_motion hc hd hs hn hm ha⟩

end Sys2Proof.Machine
end
